-- ==== Sys2Proof/Word.lean ====
section
/-! DEFINITION. The word types of the protocol engine and their plainest arithmetic (00_scope.md R10).

A byte is 8 bits, bit 0 the least significant; a register address on the bus is 6 bits (30_encoding.md
R100); the CRC result is 16 bits (10_state.md R43).
-/

namespace Sys2Proof

/-- One byte (R10). -/
abbrev Byte := BitVec 8

/-- The CRC coprocessor's 16-bit result (R43). -/
abbrev Word16 := BitVec 16

/-- A register address as the bus frame carries it: 6 bits, 0x00 to 0x3F (R31, R100). -/
abbrev RegAddr := BitVec 6

/-- "`n & m != 0`": some bit of the mask is set in the value (R148, flag tests). -/
def Byte.hasAny (v m : Byte) : Bool := (v &&& m) != 0

/-- `~m` is `0xFF ^ m` (R10). -/
def Byte.compl (m : Byte) : Byte := 0xFF ^^^ m

end Sys2Proof
end

