-- ==== Sys2Proof/Config.lean ====
section
/-! DEFINITION. What an implementation fixes and what the spec leaves free (00_scope.md R7, R8).

The parameters the document states (R7) are constants. Those it only names (R8) are the fields of
`Config`, with the spec's defaults (general knowledge, log entry 2). The free values (the spec's *draws*,
R11) are the opaque constants at the end: nothing in Lean can evaluate them (log entry 5).
-/

namespace Sys2Proof

/-! ## Parameters the document states (R7) -/

/-- PAGE_COUNT: pages on the tag (R7). -/
def pageCount : Nat := 135
/-- PAGE_SIZE: bytes per tag page (R7). -/
def pageSize : Nat := 4
/-- BLOCK_SIZE: bytes per read block (R7). -/
def blockSize : Nat := 16
/-- IMAGE_SIZE = PAGE_COUNT x PAGE_SIZE (R7). -/
def imageSize : Nat := pageCount * pageSize
/-- FULL_BLOCKS = floor(IMAGE_SIZE / BLOCK_SIZE) (R7, R251). -/
def fullBlocks : Nat := imageSize / blockSize
/-- REM_BYTES = IMAGE_SIZE mod BLOCK_SIZE (R7, R251). -/
def remBytes : Nat := imageSize % blockSize
/-- MAX_RX: most response bytes read out of the FIFO (R7). -/
def maxRx : Nat := 16
/-- USER_LEN: bytes of user memory (R7). -/
def userLen : Nat := 500
/-- REG_ADDR_MAX: the highest register address (R7). -/
def regAddrMax : Byte := 0x3F
/-- TLV_TYPE: the payload record's type sentinel (R7). -/
def tlvType : Byte := 0x03
/-- SHORT_FRAME_BITS: the bit-framing value for the request (R7). -/
def shortFrameBits : Byte := 0x07
/-- FULL_FRAME_BITS: the bit-framing value for full bytes (R7). -/
def fullFrameBits : Byte := 0x00
/-- NVB_ANTICOLL: second byte of the anti-collision frame (R7). -/
def nvbAnticoll : Byte := 0x20
/-- NVB_SELECT: second byte of the select frame (R7). -/
def nvbSelect : Byte := 0x70
/-- SAK_CASCADE: the SAK bit that says the cascade continues (R7). -/
def sakCascade : Byte := 0x04
/-- SAK_COMPLIANT: the SAK bit of a complete, higher-layer compliant UID (R7). No step tests it: the two
completion cases differ in nothing (R228). -/
def sakCompliant : Byte := 0x20
/-- IRQEN_AUTH, WAIT_AUTH (R7). -/
def irqenAuth : Byte := 0x12
def waitAuth : Byte := 0x10
/-- IRQEN_XCV, WAIT_XCV (R7). -/
def irqenXcv : Byte := 0x77
def waitXcv : Byte := 0x30
/-- ERR_MASK: the error-register bits that fail an exchange (R7; 90_conflicts.md C1). -/
def errMask : Byte := 0x1B
/-- MAX_CASCADE: the highest supported cascade level (R7). -/
def maxCascade : Nat := 2

/-! ## The names the parameters are about -/

/-- The 19 registers REGMAP names (R31), in the table's order. -/
inductive RegName where
  | command | comien | comirq | divirq | error | status2 | fifodata | fifolevel | control | bitframing
  | mode | txcontrol | txauto | crcresultH | crcresultL | tmode | tprescaler | treloadH | treloadL
  deriving DecidableEq, Repr

/-- Every register name, once. -/
def RegName.all : List RegName :=
  [.command, .comien, .comirq, .divirq, .error, .status2, .fifodata, .fifolevel, .control, .bitframing,
   .mode, .txcontrol, .txauto, .crcresultH, .crcresultL, .tmode, .tprescaler, .treloadH, .treloadL]

/-- The document's Command enumeration: "idle, reset phase, CRC calculate, transceive, authenticate"
(R32, R104). -/
inductive Command where
  | idle | calccrc | transceive | authent | resetphase
  deriving DecidableEq, Repr

/-- Every command, once. -/
def Command.all : List Command := [.idle, .calccrc, .transceive, .authent, .resetphase]

/-- The twelve named regions of the tag image, in address order (R262). -/
inductive Region where
  | uidMirror | internal | staticLock | cc | user | dynLock | reservedA | cfg0 | cfg1 | pwd | pack
  | reservedB
  deriving DecidableEq, Repr

/-- Every region, in the order of R262. -/
def Region.all : List Region :=
  [.uidMirror, .internal, .staticLock, .cc, .user, .dynLock, .reservedA, .cfg0, .cfg1, .pwd, .pack,
   .reservedB]

/-- The cascade levels the engine supports (R225: "level 3 is unsupported"). -/
inductive CascadeLevel where
  | one | two
  deriving DecidableEq, Repr

/-- The write semantics of DIVIRQ (R165). -/
inductive DivirqMode where
  | store | setClear
  deriving DecidableEq, Repr

/-- Which CRC function the coprocessor has: CRC_A, or some other total function of the byte sequence,
of which nothing is known (R166). -/
inductive CrcFn where
  | crcA
  | other (k : Nat)
  deriving DecidableEq, Repr

/-- What the card port answers to one transmission (R291). `lb` counts the valid bits of the last byte,
0 meaning all 8. -/
inductive CardOutcome where
  | response (r : List Byte) (lb : BitVec 3) (e : Byte)
  | timeout
  | silent
  deriving DecidableEq, Repr, Inhabited

/-- How many bus transactions pass before an armed event of the target happens; `none` is never
(R164, R203, R204, R292). -/
abbrev Delay := Option Nat

/-! ## The configuration record (R8) -/

/-- REGMAP: the address of each named register (R31). -/
structure RegMap where
  command : RegAddr
  comien : RegAddr
  comirq : RegAddr
  divirq : RegAddr
  error : RegAddr
  status2 : RegAddr
  fifodata : RegAddr
  fifolevel : RegAddr
  control : RegAddr
  bitframing : RegAddr
  mode : RegAddr
  txcontrol : RegAddr
  txauto : RegAddr
  crcresultH : RegAddr
  crcresultL : RegAddr
  tmode : RegAddr
  tprescaler : RegAddr
  treloadH : RegAddr
  treloadL : RegAddr
  deriving DecidableEq, Repr

/-- The address REGMAP gives a name. -/
def RegMap.addr (m : RegMap) : RegName → RegAddr
  | .command => m.command
  | .comien => m.comien
  | .comirq => m.comirq
  | .divirq => m.divirq
  | .error => m.error
  | .status2 => m.status2
  | .fifodata => m.fifodata
  | .fifolevel => m.fifolevel
  | .control => m.control
  | .bitframing => m.bitframing
  | .mode => m.mode
  | .txcontrol => m.txcontrol
  | .txauto => m.txauto
  | .crcresultH => m.crcresultH
  | .crcresultL => m.crcresultL
  | .tmode => m.tmode
  | .tprescaler => m.tprescaler
  | .treloadH => m.treloadH
  | .treloadL => m.treloadL

/-- The register REGMAP names at an address; none for the 45 addresses it does not name (R46). -/
def RegMap.nameAt (m : RegMap) (a : RegAddr) : Option RegName :=
  RegName.all.find? fun n => m.addr n == a

/-- The command-register codes (R104). -/
structure CmdCodes where
  idle : BitVec 4
  calccrc : BitVec 4
  transceive : BitVec 4
  authent : BitVec 4
  resetphase : BitVec 4
  deriving DecidableEq, Repr

/-- The code of a command. -/
def CmdCodes.code (k : CmdCodes) : Command → BitVec 4
  | .idle => k.idle
  | .calccrc => k.calccrc
  | .transceive => k.transceive
  | .authent => k.authent
  | .resetphase => k.resetphase

/-- The command a 4-bit code stands for, if any (R104, R200). -/
def CmdCodes.command? (k : CmdCodes) (v : BitVec 4) : Option Command :=
  Command.all.find? fun c => k.code c == v

/-- The bit masks the document uses by name only (R8, decision D6). -/
structure Masks where
  ienInv : Byte
  irqSet1 : Byte
  flush : Byte
  startSend : Byte
  crcIrq : Byte
  timerIrq : Byte
  rxlastReg : RegName
  rxlastMask : Byte
  deriving DecidableEq, Repr

/-- The card command bytes (R8, decision D8). -/
structure CardCodes where
  reqCode : Byte
  selCl1 : Byte
  selCl2 : Byte
  readCmd : Byte
  writeCmd : Byte
  deriving DecidableEq, Repr

/-- SEL_CL1 at level 1, SEL_CL2 at level 2 (R108). -/
def CardCodes.sel (k : CardCodes) : CascadeLevel → Byte
  | .one => k.selCl1
  | .two => k.selCl2

/-- A byte range of the tag image (R261). -/
structure Slice where
  off : Nat
  len : Nat
  deriving DecidableEq, Repr

/-- REGIONS: the named byte ranges of the tag image (R261 to R264). -/
structure RegionTable where
  uidMirror : Slice
  internal : Slice
  staticLock : Slice
  cc : Slice
  user : Slice
  dynLock : Slice
  reservedA : Slice
  cfg0 : Slice
  cfg1 : Slice
  pwd : Slice
  pack : Slice
  reservedB : Slice
  deriving DecidableEq, Repr

/-- The range of a named region. -/
def RegionTable.slice (t : RegionTable) : Region → Slice
  | .uidMirror => t.uidMirror
  | .internal => t.internal
  | .staticLock => t.staticLock
  | .cc => t.cc
  | .user => t.user
  | .dynLock => t.dynLock
  | .reservedA => t.reservedA
  | .cfg0 => t.cfg0
  | .cfg1 => t.cfg1
  | .pwd => t.pwd
  | .pack => t.pack
  | .reservedB => t.reservedB

/-- The configuration of one engine: every parameter of R8, and the two poll budgets of R7 that the
document makes injectable. -/
structure Config where
  /-- POLL_CRC: most reads of the CRC-done flag (R7, R161). -/
  pollCrc : Nat
  /-- POLL_CMD: most reads of the interrupt-status register in one exchange (R7, R184). -/
  pollCmd : Nat
  regmap : RegMap
  codes : CmdCodes
  masks : Masks
  card : CardCodes
  /-- CRC_FN (R166). -/
  crc : CrcFn
  /-- FIFO_DEPTH (R45). -/
  fifoDepth : Nat
  /-- DIVIRQ_WRITE_MODE (R165). -/
  divirqMode : DivirqMode
  regions : RegionTable
  /-- INIT_WRITES: the register writes of the boot sequence (R354). -/
  initWrites : List (RegAddr × Byte)
  deriving DecidableEq, Repr

/-- REGMAP's default (R31). -/
def RegMap.default : RegMap where
  command := 0x01
  comien := 0x02
  comirq := 0x04
  divirq := 0x05
  error := 0x06
  status2 := 0x08
  fifodata := 0x09
  fifolevel := 0x0A
  control := 0x0C
  bitframing := 0x0D
  mode := 0x11
  txcontrol := 0x14
  txauto := 0x15
  crcresultH := 0x21
  crcresultL := 0x22
  tmode := 0x2A
  tprescaler := 0x2B
  treloadH := 0x2C
  treloadL := 0x2D

/-- The default command codes (R104). -/
def CmdCodes.default : CmdCodes where
  idle := 0x0
  calccrc := 0x3
  transceive := 0xC
  authent := 0xE
  resetphase := 0xF

/-- The default masks (R8). -/
def Masks.default : Masks where
  ienInv := 0x80
  irqSet1 := 0x80
  flush := 0x80
  startSend := 0x80
  crcIrq := 0x04
  timerIrq := 0x01
  rxlastReg := .control
  rxlastMask := 0x07

/-- The default card command bytes (R106). -/
def CardCodes.default : CardCodes where
  reqCode := 0x26
  selCl1 := 0x93
  selCl2 := 0x95
  readCmd := 0x30
  writeCmd := 0xA2

/-- REGIONS_DOC, the default table (R263). -/
def RegionTable.doc : RegionTable where
  uidMirror := ⟨0, 9⟩
  internal := ⟨9, 1⟩
  staticLock := ⟨10, 2⟩
  cc := ⟨12, 4⟩
  user := ⟨16, 500⟩
  dynLock := ⟨516, 3⟩
  reservedA := ⟨519, 5⟩
  cfg0 := ⟨524, 4⟩
  cfg1 := ⟨528, 4⟩
  pwd := ⟨532, 4⟩
  pack := ⟨536, 2⟩
  reservedB := ⟨538, 2⟩

/-- REGIONS_NTAG215, the alternative table (R264): it differs in USER, DYN_LOCK and RESERVED_A. -/
def RegionTable.ntag215 : RegionTable :=
  { RegionTable.doc with user := ⟨16, 504⟩, dynLock := ⟨520, 3⟩, reservedA := ⟨523, 1⟩ }

/-- INIT_WRITES' default (R354): timer, modulation and mode registers. -/
def Config.defaultInitWrites : List (RegAddr × Byte) :=
  [(RegMap.default.tmode, 0x8D), (RegMap.default.tprescaler, 0x3E), (RegMap.default.treloadL, 0x1E),
   (RegMap.default.treloadH, 0x00), (RegMap.default.txauto, 0x40), (RegMap.default.mode, 0x3D)]

/-- The configuration with every default of R7 and R8. -/
def Config.default : Config where
  pollCrc := 255
  pollCmd := 2000
  regmap := .default
  codes := .default
  masks := .default
  card := .default
  crc := .crcA
  fifoDepth := 64
  divirqMode := .store
  regions := .doc
  initWrites := Config.defaultInitWrites

/-! ## Free values: the spec's draws (R11, log entry 5) -/

/-- A byte no rule fixes: an empty-FIFO read, a CRC result before completion, a target register after
RESETPHASE, a bus read over an unconstrained transport (T1, T2, T7; R3 (a)). -/
opaque Config.freeByte : Nat → Byte

/-- The delay of an event of the target, in bus transactions, or never (T8). -/
opaque Config.freeDelay : Nat → Delay

/-- The card environment's answer to a transmitted frame (T9, R290): it may depend on the frame and on the
number of bits of its last byte. -/
opaque Config.freeCard : Nat → List Byte → BitVec 3 → CardOutcome

/-- A CRC function of which nothing is known but that it depends on the sequence alone (R166). -/
opaque Config.otherCrc : Nat → List Byte → Word16

end Sys2Proof
end

