-- ==== Sys2Proof/Syntax.lean ====
section
/-! DEFINITION. The instructions: one constructor for each row of spec/opcode_table.json.

The table has five formats (30_encoding.md): HOP, the host operations (R117); BUS, the register-bus
transaction (R101, R102); CMD, the codes written to COMMAND (R104); CARD, the frames sent to the tag
(R106); TLV, the payload record (R113).
-/

namespace Sys2Proof

/-- The five encoded formats of 30_encoding.md. -/
inductive Format where
  | hop | bus | cmd | card | tlv
  deriving DecidableEq, Repr

/-- One constructor for each row of the opcode table. A register address of a host operation is a whole
byte, since an operand above 0x3F has a meaning (R72); that of a bus frame is the 6 bits it carries. -/
inductive Instr where
  /-- REG_WRITE addr, value (R140). -/
  | regWrite (addr value : Byte)
  /-- REG_READ addr (R141). -/
  | regRead (addr : Byte)
  /-- SET_BITS addr, mask (R142). -/
  | setBits (addr mask : Byte)
  /-- CLEAR_BITS addr, mask (R143). -/
  | clearBits (addr mask : Byte)
  /-- CRC_CALC data (R160). -/
  | crcCalc (data : List Byte)
  /-- TO_CARD cmd, tx (R180). -/
  | toCard (cmd : Command) (tx : List Byte)
  /-- REQUEST_TAG (R220). -/
  | requestTag
  /-- SELECT_TAG (R225). -/
  | selectTag
  /-- READ_BLOCK page (R250). -/
  | readBlock (page : Byte)
  /-- READ_IMAGE (R253). -/
  | readImage
  /-- READ_TAG (R256). -/
  | readTag
  /-- WRITE_BLOCK page, data (R257): data of any length, since a length other than 4 has a meaning (R258). -/
  | writeBlock (page : Byte) (data : List Byte)
  /-- REGION name (R260). -/
  | region (name : Region)
  /-- EXTRACT buffer (R281). -/
  | extract (buffer : List Byte)
  /-- WRAP payload (R283): of any length, since more than 255 bytes has a meaning (R284). -/
  | wrap (payload : List Byte)
  /-- INIT (R354). -/
  | init
  /-- The write frame of the bus (R101). -/
  | busWrite (a : RegAddr) (v : Byte)
  /-- The read frame of the bus (R102). -/
  | busRead (a : RegAddr)
  /-- The code of IDLE written to COMMAND (R195). -/
  | cmdIdle
  /-- The code of CALCCRC written to COMMAND (R163, R196). -/
  | cmdCalccrc
  /-- The code of TRANSCEIVE written to COMMAND (R197). -/
  | cmdTransceive
  /-- The code of AUTHENT written to COMMAND (R199). -/
  | cmdAuthent
  /-- The code of RESETPHASE written to COMMAND (R198). -/
  | cmdResetphase
  /-- The request frame (R107). -/
  | reqa
  /-- The anti-collision frame of a level (R108). -/
  | anticoll (lvl : CascadeLevel)
  /-- The select frame of a level: four identifier bytes, checksum byte, CRC low byte first (R109). -/
  | select (lvl : CascadeLevel) (u0 u1 u2 u3 bcc crcLo crcHi : Byte)
  /-- The read frame: page, CRC low byte first (R110). -/
  | read (page crcLo crcHi : Byte)
  /-- The write frame: page, four data bytes, CRC low byte first (R111). -/
  | write (page d0 d1 d2 d3 crcLo crcHi : Byte)
  /-- The payload record `[0x03, length] ++ payload` (R113). -/
  | tlvRecord (payload : List Byte)
  deriving DecidableEq, Repr

/-- The format of an instruction's row. -/
def Instr.format : Instr → Format
  | .regWrite _ _ | .regRead _ | .setBits _ _ | .clearBits _ _ | .crcCalc _ | .toCard _ _ | .requestTag
  | .selectTag | .readBlock _ | .readImage | .readTag | .writeBlock _ _ | .region _ | .extract _
  | .wrap _ | .init => .hop
  | .busWrite _ _ | .busRead _ => .bus
  | .cmdIdle | .cmdCalccrc | .cmdTransceive | .cmdAuthent | .cmdResetphase => .cmd
  | .reqa | .anticoll _ | .select _ _ _ _ _ _ _ _ | .read _ _ _ | .write _ _ _ _ _ _ _ => .card
  | .tlvRecord _ => .tlv

end Sys2Proof
end

