-- ==== Sys2Proof/WellFormed.lean ====
section
/-! DEFINITION. The checks on instructions and on configurations.

An instruction is ill-formed only where the format has no word for it. An operand that has a word and is
refused by the engine with PreconditionViolation (an address above 0x3F, a payload of more than 255 bytes,
60_exceptions.md R328) is well-formed.
-/

namespace Sys2Proof

/-- The length byte of a record holds 0 to 255 (R113); every other instruction has a word. -/
def Instr.wf : Instr → Bool
  | .tlvRecord payload => payload.length ≤ 255
  | .regWrite _ _ | .regRead _ | .setBits _ _ | .clearBits _ _ | .crcCalc _ | .toCard _ _ | .requestTag
  | .selectTag | .readBlock _ | .readImage | .readTag | .writeBlock _ _ | .region _ | .extract _
  | .wrap _ | .init | .busWrite _ _ | .busRead _ | .cmdIdle | .cmdCalccrc | .cmdTransceive | .cmdAuthent
  | .cmdResetphase | .reqa | .anticoll _ | .select _ _ _ _ _ _ _ _ | .read _ _ _
  | .write _ _ _ _ _ _ _ => true

/-- "The addresses must be pairwise distinct" (R31). -/
abbrev RegMap.distinct (m : RegMap) : Prop := (RegName.all.map m.addr).Nodup

/-- "The five codes must be pairwise distinct" (R104). -/
abbrev CmdCodes.distinct (k : CmdCodes) : Prop := (Command.all.map k.code).Nodup

/-- The two SELECT command bytes differ, so that a frame tells its level. The spec does not say so; the
frame decoder needs it (log entry 22). -/
abbrev CardCodes.distinct (k : CardCodes) : Prop := k.selCl1 ≠ k.selCl2

/-- What the spec asks of the masks: the flush and start-send bits exist; start-send is none of the
bits[2:0] of BITFRAMING (R41); the timeout bit lies inside 0x77, or no-tag could not be reached (decision D6);
the valid-bit count is at most three low bits (R40). Log entry 23. -/
abbrev Masks.ok (k : Masks) : Prop :=
  k.flush ≠ 0 ∧ k.startSend ≠ 0 ∧ k.startSend &&& 0x07 = 0 ∧ k.timerIrq ≠ 0 ∧ k.timerIrq &&& 0x77 = k.timerIrq ∧
    k.crcIrq ≠ 0 ∧ k.crcIrq &&& 0x7F = k.crcIrq ∧ k.rxlastMask &&& 0x07 = k.rxlastMask

/-- The regions are contiguous from 0 in the order of R262 and end at 540 (R261). -/
def RegionTable.contiguous (t : RegionTable) : Bool :=
  (Region.all.foldl (fun (acc : Nat × Bool) r =>
      (acc.1 + (t.slice r).len, acc.2 && (t.slice r).off == acc.1)) (0, true)) == (imageSize, true)

/-- The lengths the document states: user memory 500, two configuration words of 4, one internal byte (R261). -/
abbrev RegionTable.docLengths (t : RegionTable) : Prop :=
  t.user.len = userLen ∧ t.cfg0.len = 4 ∧ t.cfg1.len = 4 ∧ t.internal.len = 1

/-- The constraints on REGIONS (R261). REGIONS_NTAG215, which the spec offers beside the tables that meet them, breaks one
alone, "the document's USER_LEN = 500" (R264). -/
abbrev RegionTable.ok (t : RegionTable) : Prop := t.contiguous = true ∧ (t.docLengths ∨ t = .ntag215)

/-- What every configuration must meet: the addresses, codes and masks as above, both budgets at least 1
(R161, R184), regions as R261 or R264 has them.

DESIGN CHOICE (log entry 25): FIFO_DEPTH is 1 to 255. The spec gives the default 64 (R8, R45) and no bound; below 1 no byte
could be held, above 255 the level would not fit the byte FIFOLEVEL returns (R191). -/
abbrev Config.wf (c : Config) : Prop :=
  c.regmap.distinct ∧ c.codes.distinct ∧ c.card.distinct ∧ c.masks.ok ∧ 1 ≤ c.pollCrc ∧ 1 ≤ c.pollCmd ∧
    1 ≤ c.fifoDepth ∧ c.fifoDepth ≤ 255 ∧ c.regions.ok

end Sys2Proof
end

