-- ==== Sys2Proof/Decode.lean ====
section
/-! DEFINITION. The decoder, total on any bytes and rejecting by name, and the encoder (30_encoding.md).

An instruction reaches the engine as a message: a format and the bytes of one instruction, so that an
operand of variable length is the rest of its message (log entry 6). The bytes of HOP messages after the
operation byte are this model's own layout, since the spec's request port is abstract (R116).
-/

namespace Sys2Proof

/-- Why a message encodes no instruction (R118). -/
inductive Reject where
  /-- HOP: an operation byte outside 0x01 to 0x10. -/
  | reservedOp
  /-- HOP: no operation byte, or operand bytes that are no operand of the operation (log entry 6). -/
  | badOperands
  /-- BUS: not two bytes, or bit 0 of the first byte set. -/
  | badBusFrame
  /-- CMD: not one byte, bits[7:4] set, or not one of the five codes. -/
  | badCommand
  /-- CARD: no frame of R106. -/
  | badCardFrame
  /-- TLV: not `[0x03, n]` and exactly n bytes. -/
  | badRecord
  deriving DecidableEq, Repr

/-- What a decoder answers. -/
abbrev Decoded := Except Reject Instr

/-! ## HOP (R117) -/

/-- The region with a number in the order of R262 (log entry 6). -/
def Region.ofIndex (n : Byte) : Option Region := Region.all[n.toNat]?

/-- The number of a region in the order of R262. -/
def Region.index : Region → Byte
  | .uidMirror => 0
  | .internal => 1
  | .staticLock => 2
  | .cc => 3
  | .user => 4
  | .dynLock => 5
  | .reservedA => 6
  | .cfg0 => 7
  | .cfg1 => 8
  | .pwd => 9
  | .pack => 10
  | .reservedB => 11

/-- The command a byte of a COMMAND write stands for: bits[7:4] are 0 and bits[3:0] are one of the five
codes (R104). -/
def CmdCodes.ofByte (k : CmdCodes) (v : Byte) : Option Command :=
  if v.extractLsb' 4 4 = 0#4 then k.command? (v.extractLsb' 0 4) else none

/-- The byte written to COMMAND for a command (R104). -/
def CmdCodes.byte (k : CmdCodes) (c : Command) : Byte := (k.code c).setWidth 8

/-- The operations without operands. -/
def noOperands (i : Instr) : List Byte → Decoded
  | [] => .ok i
  | _ :: _ => .error .badOperands

/-- REG_WRITE, SET_BITS and CLEAR_BITS: two bytes. -/
def twoOperands (f : Byte → Byte → Instr) : List Byte → Decoded
  | [a, v] => .ok (f a v)
  | _ => .error .badOperands

/-- REG_READ and READ_BLOCK: one byte. -/
def oneOperand (f : Byte → Instr) : List Byte → Decoded
  | [a] => .ok (f a)
  | _ => .error .badOperands

/-- TO_CARD: the code of the command as COMMAND takes it, then the bytes to send. -/
def toCardOperands (c : Config) : List Byte → Decoded
  | k :: tx =>
    match c.codes.ofByte k with
    | some cmd => .ok (.toCard cmd tx)
    | none => .error .badOperands
  | [] => .error .badOperands

/-- WRITE_BLOCK: the page, then the data. -/
def writeBlockOperands : List Byte → Decoded
  | page :: data => .ok (.writeBlock page data)
  | [] => .error .badOperands

/-- REGION: the number of the region. -/
def regionOperands : List Byte → Decoded
  | [n] =>
    match Region.ofIndex n with
    | some r => .ok (.region r)
    | none => .error .badOperands
  | _ => .error .badOperands

/-- The host operation map (R117): operation byte 0x01 to 0x10, the others reserved (R118). -/
def decodeHop (c : Config) : List Byte → Decoded
  | [] => .error .badOperands
  | op :: args =>
    if op = 0x01 then twoOperands .regWrite args
    else if op = 0x02 then oneOperand .regRead args
    else if op = 0x03 then twoOperands .setBits args
    else if op = 0x04 then twoOperands .clearBits args
    else if op = 0x05 then .ok (.crcCalc args)
    else if op = 0x06 then toCardOperands c args
    else if op = 0x07 then noOperands .requestTag args
    else if op = 0x08 then noOperands .selectTag args
    else if op = 0x09 then oneOperand .readBlock args
    else if op = 0x0A then noOperands .readImage args
    else if op = 0x0B then noOperands .readTag args
    else if op = 0x0C then writeBlockOperands args
    else if op = 0x0D then regionOperands args
    else if op = 0x0E then .ok (.extract args)
    else if op = 0x0F then .ok (.wrap args)
    else if op = 0x10 then noOperands .init args
    else .error .reservedOp

/-! ## BUS (R100 to R103) -/

/-- First byte of a write frame: `(addr << 1) & 0x7E` (R101). -/
def busWriteByte0 (a : RegAddr) : Byte := (a.setWidth 8 <<< 1) &&& 0x7E

/-- First byte of a read frame: `((addr << 1) & 0x7E) | 0x80` (R102). -/
def busReadByte0 (a : RegAddr) : Byte := ((a.setWidth 8 <<< 1) &&& 0x7E) ||| 0x80

/-- "Decoding on the target side: `addr = b0[6:1]`, `rw = b0[7]`" (R103); bit 0 of `b0` is refused and the
second byte of a read frame is ignored (R118). -/
def decodeBus : List Byte → Decoded
  | [b0, b1] =>
    if b0.getLsbD 0 then .error .badBusFrame
    else if b0.getLsbD 7 then .ok (.busRead (b0.extractLsb' 1 6))
    else .ok (.busWrite (b0.extractLsb' 1 6) b1)
  | _ => .error .badBusFrame

/-! ## CMD (R104) -/

/-- The row of a command. -/
def Command.instr : Command → Instr
  | .idle => .cmdIdle
  | .calccrc => .cmdCalccrc
  | .transceive => .cmdTransceive
  | .authent => .cmdAuthent
  | .resetphase => .cmdResetphase

/-- One byte: bits[7:4] zero, bits[3:0] one of the five codes (R104, R118). -/
def decodeCmd (c : Config) : List Byte → Decoded
  | [v] =>
    match c.codes.ofByte v with
    | some cmd => .ok cmd.instr
    | none => .error .badCommand
  | _ => .error .badCommand

/-! ## CARD (R106 to R111) -/

/-- The level whose SELECT command byte this is (R108). -/
def CardCodes.level? (k : CardCodes) (b : Byte) : Option CascadeLevel :=
  if b = k.selCl1 then some .one else if b = k.selCl2 then some .two else none

/-- The five frames, told apart by their length (R119: "1, 2, 4, 8 or 9 bytes, fixed per frame kind") and
checked against their command bytes. -/
def decodeCard (c : Config) : List Byte → Decoded
  | [b] => if b = c.card.reqCode then .ok .reqa else .error .badCardFrame
  | [s, nvb] =>
    match c.card.level? s with
    | some lvl => if nvb = nvbAnticoll then .ok (.anticoll lvl) else .error .badCardFrame
    | none => .error .badCardFrame
  | [k, page, lo, hi] => if k = c.card.readCmd then .ok (.read page lo hi) else .error .badCardFrame
  | [k, page, d0, d1, d2, d3, lo, hi] =>
    if k = c.card.writeCmd then .ok (.write page d0 d1 d2 d3 lo hi) else .error .badCardFrame
  | [s, nvb, u0, u1, u2, u3, bcc, lo, hi] =>
    match c.card.level? s with
    | some lvl => if nvb = nvbSelect then .ok (.select lvl u0 u1 u2 u3 bcc lo hi) else .error .badCardFrame
    | none => .error .badCardFrame
  | _ => .error .badCardFrame

/-! ## TLV (R113) -/

/-- `[0x03, n]` and exactly n bytes. -/
def decodeTlv : List Byte → Decoded
  | t :: n :: payload =>
    if t = tlvType ∧ n.toNat = payload.length then .ok (.tlvRecord payload) else .error .badRecord
  | _ => .error .badRecord

/-! ## The decoder -/

/-- The instruction a message of a format encodes. -/
def decode (c : Config) : Format → List Byte → Decoded
  | .hop, bytes => decodeHop c bytes
  | .bus, bytes => decodeBus bytes
  | .cmd, bytes => decodeCmd c bytes
  | .card, bytes => decodeCard c bytes
  | .tlv, bytes => decodeTlv bytes

/-! ## The encoder -/

/-- The card frame of R106, less its CRC where it has one: SELECT's first 7 bytes (R109). -/
def selectBody (c : Config) (lvl : CascadeLevel) (u0 u1 u2 u3 bcc : Byte) : List Byte :=
  [c.card.sel lvl, nvbSelect, u0, u1, u2, u3, bcc]

/-- READ's first 2 bytes (R110). -/
def readBody (c : Config) (page : Byte) : List Byte := [c.card.readCmd, page]

/-- WRITE's first 6 bytes (R111), for data of 4 bytes. -/
def writeBody (c : Config) (page : Byte) (data : List Byte) : List Byte := [c.card.writeCmd, page] ++ data

/-- ANTICOLL's 2 bytes (R108). -/
def anticollFrame (c : Config) (lvl : CascadeLevel) : List Byte := [c.card.sel lvl, nvbAnticoll]

/-- REQA's one byte (R107). -/
def reqaFrame (c : Config) : List Byte := [c.card.reqCode]

/-- The bytes of an instruction's message, from the encoding tables of 30_encoding.md. -/
def encode (c : Config) : Instr → List Byte
  | .regWrite addr value => [0x01, addr, value]
  | .regRead addr => [0x02, addr]
  | .setBits addr mask => [0x03, addr, mask]
  | .clearBits addr mask => [0x04, addr, mask]
  | .crcCalc data => 0x05 :: data
  | .toCard cmd tx => 0x06 :: c.codes.byte cmd :: tx
  | .requestTag => [0x07]
  | .selectTag => [0x08]
  | .readBlock page => [0x09, page]
  | .readImage => [0x0A]
  | .readTag => [0x0B]
  | .writeBlock page data => 0x0C :: page :: data
  | .region name => [0x0D, name.index]
  | .extract buffer => 0x0E :: buffer
  | .wrap payload => 0x0F :: payload
  | .init => [0x10]
  | .busWrite a v => [busWriteByte0 a, v]
  | .busRead a => [busReadByte0 a, 0x00]
  | .cmdIdle => [c.codes.byte .idle]
  | .cmdCalccrc => [c.codes.byte .calccrc]
  | .cmdTransceive => [c.codes.byte .transceive]
  | .cmdAuthent => [c.codes.byte .authent]
  | .cmdResetphase => [c.codes.byte .resetphase]
  | .reqa => reqaFrame c
  | .anticoll lvl => anticollFrame c lvl
  | .select lvl u0 u1 u2 u3 bcc lo hi => selectBody c lvl u0 u1 u2 u3 bcc ++ [lo, hi]
  | .read page lo hi => readBody c page ++ [lo, hi]
  | .write page d0 d1 d2 d3 lo hi => writeBody c page [d0, d1, d2, d3] ++ [lo, hi]
  | .tlvRecord payload => tlvType :: BitVec.ofNat 8 payload.length :: payload

/-! ## The table's words

A row of the opcode table has 8 or 16 bits; 16 bits are two bytes, "first byte in bits[15:8]" (the note of
BUS_WRITE). Operand bytes the row does not number are zeros. The same byte may be a row of several formats
(0x03 is SET_BITS, CALCCRC and a record's type byte): then the first of HOP, BUS, CMD, CARD, TLV that takes
it is meant (log entry 7). -/

/-- The bytes of a table word, most significant byte first. -/
def wordBytes (nbits w : Nat) : List Byte :=
  (List.range (nbits / 8)).map fun i => BitVec.ofNat 8 (w >>> (8 * (nbits / 8 - 1 - i)))

/-- How many bytes a message of a format has at least, told by its first two bytes. -/
def messageLength (c : Config) : Format → List Byte → Nat
  | .hop, op :: _ =>
    if op = 0x01 ∨ op = 0x03 ∨ op = 0x04 then 3
    else if op = 0x02 ∨ op = 0x06 ∨ op = 0x09 ∨ op = 0x0D then 2
    else if op = 0x0C then 6
    else 1
  | .bus, _ => 2
  | .card, b :: rest =>
    if b = c.card.readCmd then 4
    else if b = c.card.writeCmd then 8
    else if c.card.level? b ≠ none ∧ rest.head? = some nvbSelect then 9
    else 1
  | .tlv, _ => 2
  | _, _ => 1

/-- A table word laid out as a message: its bytes, then zeros up to the message's length. -/
def layOut (c : Config) (f : Format) (bytes : List Byte) : List Byte :=
  bytes ++ List.replicate (messageLength c f bytes - bytes.length) 0

/-- A message takes a table word only if the word numbers whole bytes of it: 16 bits are BUS or CARD, never
HOP, CMD or TLV, whose rows have 8 (spec/opcode_table.json). -/
def formatsOfWidth (nbits : Nat) : List Format :=
  if nbits = 8 then [.hop, .cmd, .card, .tlv] else if nbits = 16 then [.bus, .card] else []

/-- The message of a table word: the first format that decodes it. -/
def tableMessage (c : Config) (nbits w : Nat) : Option (Format × List Byte) :=
  ((formatsOfWidth nbits).map fun f => (f, layOut c f (wordBytes nbits w))).find? fun m =>
    (decode c m.1 m.2).toOption.isSome

/-- The message a table word is presented as. A word that no row's format decodes goes to the format that says what
becomes of it (R118): 8 bits to HOP, a reserved operation; any other width to BUS, a frame the target refuses (log
entry 7). -/
def tableRequest (c : Config) (nbits w : Nat) : Format × List Byte :=
  (tableMessage c nbits w).getD (if nbits = 8 then .hop else .bus, wordBytes nbits w)

/-- The instruction the decoder reads from a table word, its bits numbered as the table numbers them. -/
def decodeTableWord (nbits w : Nat) : Option Instr :=
  match tableMessage Config.default nbits w with
  | some m => (decode Config.default m.1 m.2).toOption
  | none => none

end Sys2Proof
end

