-- ==== Sys2Proof/Machine/State.lean ====
section
/-! DEFINITION. The state, as plain data (10_state.md), and the machine right after reset (R50).

`Sequencer` holds the S registers (R20 to R30), `Target` the T registers, the FIFO and the hidden state
(R31 to R47), `Environment` what stands on the other side of the card port and the draws
(46_reference_environment.md). `State` adds the configuration, the request port and what the engine shows
the host. INVENTORY.md lists every field with its rule and its reset value.
-/

namespace Sys2Proof.Machine

/-! ## Sequencer registers (10_state.md section 1) -/

/-- Which operation is running (R21, R117). -/
inductive OpName where
  | regWrite | regRead | setBits | clearBits | crcCalc | toCard | requestTag | selectTag | readBlock
  | readImage | readTag | writeBlock | region | extract | wrap | init
  deriving DecidableEq, Repr

/-- S.STATUS (R22). -/
inductive Status where
  | ok | notag | err
  deriving DecidableEq, Repr

/-- S.ERRKIND (R22). -/
inductive ErrKind where
  | none | busTimeout | protocolError
  deriving DecidableEq, Repr

/-- The outcome of an operation (R12, R321). -/
inductive OpOutcome where
  | ok | noTag | busTimeout | protocolError | checksumError | unsupportedCascade | malformedPayload
  | preconditionViolation
  deriving DecidableEq, Repr

/-- A UidFragment: "4 UID bytes + 1 checksum byte" (R25). -/
structure Fragment where
  u0 : Byte
  u1 : Byte
  u2 : Byte
  u3 : Byte
  bcc : Byte
  deriving DecidableEq, Repr

/-- The sequencer's registers. S.RXLEN is the length of `rxbuf` and S.UIDLEN that of `uid`; each is stored
once (log entry 9). -/
structure Sequencer where
  /-- S.OP: the running operation, or none when idle (R21). -/
  op : Option OpName
  /-- S.PHASE: the index of the next bus transaction of the operation (R21, log entry 8). -/
  phase : Nat
  /-- S.STATUS (R22). -/
  status : Status
  /-- S.ERRKIND (R22). -/
  errkind : ErrKind
  /-- S.RXBUF, of S.RXLEN bytes (R22). -/
  rxbuf : List Byte
  /-- S.RXBITS, a mathematical integer (R22). -/
  rxbits : Int
  /-- S.IRQEN (R23). -/
  irqen : Byte
  /-- S.WAITIRQ (R23). -/
  waitirq : Byte
  /-- S.IRQVAL: the last value read from the interrupt-status register (R23). -/
  irqval : Byte
  /-- S.POLLCNT: reads done in the current poll loop (R23). -/
  pollcnt : Nat
  /-- S.CRCOUT, `[lo, hi]` (R24). -/
  crcLo : Byte
  crcHi : Byte
  /-- S.LEVEL (R25). -/
  level : CascadeLevel
  /-- S.FRAG[1], S.FRAG[2] (R25). -/
  frag1 : Fragment
  frag2 : Fragment
  /-- S.NFRAG (R25). -/
  nfrag : Nat
  /-- S.UID, of S.UIDLEN bytes; empty is "no identifier" (R26). -/
  uid : List Byte
  /-- S.ATQA, 2 bytes (R27). -/
  atqa0 : Byte
  atqa1 : Byte
  /-- S.BLK: the block index in progress (R28). -/
  blk : Nat
  /-- S.ACC: the bytes assembled so far (R28). -/
  acc : List Byte
  /-- S.IMG: the tag image (R29). -/
  img : List Byte
  /-- S.IMG_POPULATED (R29). -/
  imgPopulated : Bool
  /-- S.OUTCOME: the outcome of the last finished operation (R30). -/
  outcome : OpOutcome
  deriving DecidableEq, Repr

/-! ## Target (10_state.md sections 2 and 3) -/

/-- The target: register file, FIFO, CRC coprocessor, command register and hidden state. -/
structure Target where
  /-- T.REG[a], a in 0x00..0x3F (R31, R46). -/
  regs : Vector Byte 64
  /-- T.FIFO, head first (R45). -/
  fifo : List Byte
  /-- T.CMD: the command in execution (R47). -/
  cmd : BitVec 4
  /-- T.CRCPEND: the CRC computation in flight and its input (R47). -/
  crcPend : Option (List Byte)
  /-- Bus transactions left before the completion event; none is never (R164). -/
  crcWait : Delay
  /-- T.SENT: the current transceive has transmitted its frame (R47). -/
  sent : Bool
  /-- T.RXPEND: the answer of the environment not yet delivered (R47). -/
  rxPend : Option CardOutcome
  /-- Bus transactions left before the reception or timeout event; none is never (R203, R204). -/
  rxWait : Delay
  /-- T.COMFLAGS: the 7 flag bits of COMIRQ (R47). -/
  comFlags : BitVec 7
  /-- T.DIVFLAGS: the 7 flag bits of DIVIRQ (R47). -/
  divFlags : BitVec 7
  /-- T.ERR: the value of ERROR (R47). -/
  err : Byte
  /-- T.RXLAST: the value of CONTROL bits[2:0] (R47). -/
  rxLast : BitVec 3
  /-- T.CRCRES: the coprocessor's 16-bit result (R43). -/
  crcRes : Word16
  /-- A completion event has happened since the last reset (R169). -/
  crcKnown : Bool
  /-- CRC_CALC is loading its operand into the FIFO (R160 step 3); no step ends while it is (R163, R366, log entry 11). -/
  loadOpen : Bool
  deriving DecidableEq, Repr

/-! ## Environment (46_reference_environment.md) -/

/-- Memory: address and byte pairs in one canonical form (`Memory.wf` of Machine/Ops.lean). -/
abbrev Memory := List Host.Cell

/-- G.ST (R296). -/
inductive TagState where
  | idle | ready1 | ready2 | active
  deriving DecidableEq, Repr

/-- The reference tag (R296). -/
structure Tag where
  /-- G.MEM, 540 bytes. -/
  mem : Memory
  /-- G.ST. -/
  st : TagState
  deriving DecidableEq, Repr

/-- The modelling level (R3): every bus read answered by an arbitrary byte (a), or the reference target
(b, c). -/
inductive Level where
  | busOracle | referenceTarget
  deriving DecidableEq, Repr

/-- What answers a transmission when no answer is scripted: an oracle (R290), or the reference tag
(R296). -/
inductive CardSource where
  | oracle | referenceTag
  deriving DecidableEq, Repr

/-- Where the draws come from when none is scripted: free values, or the deterministic simulator's settings
(R304) with its `crc_delay` and `rx_delay`. -/
inductive DrawSource where
  | free
  | simulator (crcDelay rxDelay : Nat)
  deriving DecidableEq, Repr

/-- The environment: what the outside world decides, as plain data. Each list is consumed head first before
its source is asked (log entry 5). -/
structure Environment where
  level : Level
  cardSource : CardSource
  drawSource : DrawSource
  /-- Scripted draws of bytes. -/
  byteFeed : List Byte
  /-- Scripted event delays. -/
  delayFeed : List Delay
  /-- Scripted card outcomes. -/
  cardFeed : List CardOutcome
  /-- How many free values have been drawn. -/
  draws : Nat
  /-- The reference tag. -/
  tag : Tag
  /-- The card port's answer to the last transmission (R290). -/
  answer : Option CardOutcome
  /-- The reset line: true when driven high (R350). -/
  resetLine : Bool
  deriving DecidableEq, Repr

/-! ## The whole machine -/

/-- A request on the host port: a message in one of the five formats (R116, log entry 6). -/
structure Request where
  format : Format
  bytes : List Byte
  deriving DecidableEq, Repr

/-- One transaction of the register bus: the two bytes sent and, for a read, the byte returned (R100). -/
structure BusFrame where
  b0 : Byte
  b1 : Byte
  answer : Option Byte
  deriving DecidableEq, Repr

/-- What an operation returns to the host beside its outcome (R117). -/
inductive Result where
  | none
  | byte (b : Byte)
  | bytes (s : List Byte)
  | exchange (status : Status) (rx : List Byte) (rxbits : Int)
  deriving DecidableEq, Repr

/-- The machine. -/
structure State where
  /-- The configuration; no step writes it (R7, R8, log entry 3). -/
  cfg : Config
  seq : Sequencer
  tgt : Target
  env : Environment
  /-- The host's requests, first to run first (R372). -/
  port : List Request
  /-- The result of the last instruction (R372). -/
  result : Result
  /-- The bus frames of the last instruction, newest first (R372). -/
  trace : List BusFrame
  deriving DecidableEq, Repr

/-! ## How a step can stop -/

/-- Faults: the machine stops. -/
inductive Fault where
  /-- Raised by `step` alone, in a state where an operation is in progress: "The port is accepted only while
  `S.OP = NONE`" (R116, U4). No run reaches such a state, since an instruction runs to its end in one step.
  Safe: the model stops where the spec gives no meaning. -/
  | portBusy
  deriving DecidableEq, Repr

/-- Refusals: the spec gives the input no meaning. -/
inductive Refusal where
  /-- Raised by `exec` for an instruction that has no meaning in this model yet; no arm raises it. Safe. -/
  | notModelled (mnemonic : String)
  /-- Raised by a write to COMMAND of a value with bits[7:4] set or of no known code: "the reference target
  refuses" (R194, R200, T5). Safe: nothing is claimed of such a run. -/
  | commandRefused (v : Byte)
  /-- Raised by a write of AUTHENT's code to COMMAND: "The reference target gives it no meaning" (R199, T6).
  Safe. -/
  | authentRefused
  /-- Raised by a byte the host pushes into the FIFO while CALCCRC is the active command, after a flush of its own
  too: "the reference target refuses that situation (no meaning) rather than guess" (R163, R366, T4). CRC_CALC's own
  load is let through (log entry 11). Safe. -/
  | fifoPushDuringCrc
  /-- Raised by `step` for a message that encodes no instruction (R118), but for a reserved host operation
  and a malformed record, which have outcomes of their own. Safe. -/
  | noEncoding (r : Reject)
  deriving DecidableEq, Repr

/-! ## Reset (R50, R351) -/

/-- The target registers after power-on. The spec leaves them unspecified; these are the reader family's
data-sheet values (log entry 4), in address order, sixteen a line. -/
def resetRegs : Vector Byte 64 := #v[
  0x00, 0x20, 0x80, 0x00, 0x14, 0x00, 0x00, 0x21, 0x00, 0x00, 0x00, 0x08, 0x10, 0x00, 0xA0, 0x00,
  0x00, 0x3F, 0x00, 0x00, 0x80, 0x00, 0x10, 0x84, 0x84, 0x4D, 0x00, 0x00, 0x62, 0x00, 0x00, 0xEB,
  0x00, 0xFF, 0xFF, 0x88, 0x26, 0x87, 0x48, 0x88, 0x20, 0x20, 0x00, 0x00, 0x00, 0x00, 0x00, 0x00,
  0x00, 0x00, 0x00, 0x80, 0x00, 0x00, 0x40, 0x00, 0x00, 0x00, 0x00, 0x00, 0x00, 0x00, 0x00, 0x00]

/-- The sequencer after reset: "idle with no identifier and no image" (R351). -/
def Sequencer.reset : Sequencer where
  op := none
  phase := 0
  status := .ok
  errkind := .none
  rxbuf := []
  rxbits := 0
  irqen := 0
  waitirq := 0
  irqval := 0
  pollcnt := 0
  crcLo := 0x00
  crcHi := 0x00
  level := .one
  frag1 := ⟨0, 0, 0, 0, 0⟩
  frag2 := ⟨0, 0, 0, 0, 0⟩
  nfrag := 0
  uid := []
  atqa0 := 0
  atqa1 := 0
  blk := 0
  acc := []
  img := []
  imgPopulated := false
  outcome := .ok

/-- The target after reset: "the target's FIFO is empty and nothing is in flight" (R351); the rest as log
entry 4 names it. -/
def Target.reset : Target where
  regs := resetRegs
  fifo := []
  cmd := CmdCodes.default.idle
  crcPend := none
  crcWait := none
  sent := false
  rxPend := none
  rxWait := none
  comFlags := 0x14
  divFlags := 0x00
  err := 0x00
  rxLast := 0
  crcRes := 0xFFFF
  crcKnown := false
  loadOpen := false

/-- The environment at reset: the reference target with an oracle at the card port and free draws, nothing
scripted, a blank reference tag, which meets the equations a configured one must (R298), the reset line not yet driven
high (log entries 10, 21). -/
def Environment.reset : Environment where
  level := .referenceTarget
  cardSource := .oracle
  drawSource := .free
  byteFeed := []
  delayFeed := []
  cardFeed := []
  draws := 0
  tag := { mem := [], st := .idle }
  answer := none
  resetLine := false

/-- The machine right after reset (R50). -/
def State.reset : State where
  cfg := .default
  seq := .reset
  tgt := .reset
  env := .reset
  port := []
  result := .none
  trace := []

end Sys2Proof.Machine
end

