-- ==== Sys2Proof/Machine/Operands.lean ====
section
/-! DEFINITION. Every operand form and computed operand of the spec (30_encoding.md R115, 40_transport.md
R148): register address operands, byte sequences, the CRC function, checksums, the response length, page
and region arithmetic. -/

namespace Sys2Proof.Machine

/-! ## Register address operands (R72, R103) -/

/-- A register address operand of a host operation: 0x00 to 0x3F, or refused before any transaction (R72). -/
def regAddr? (addr : Byte) : Option RegAddr :=
  if addr ≤ regAddrMax then some (addr.setWidth 6) else none

/-! ## The CRC function (R166) -/

/-- One bit of CRC_A: shift right, and XOR the reflected constant if the bit shifted out was 1 (R166). -/
def crcBit (c : Word16) : Word16 :=
  if c.getLsbD 0 then (c >>> 1) ^^^ 0x8408 else c >>> 1

/-- One byte of CRC_A: XOR it in, then eight bits (R166). -/
def crcByte (c : Word16) (b : Byte) : Word16 :=
  crcBit (crcBit (crcBit (crcBit (crcBit (crcBit (crcBit (crcBit (c ^^^ b.setWidth 16))))))))

/-- CRC_A of a byte sequence: preset 0x6363, no final inversion (R166). -/
def crcA (s : List Byte) : Word16 := s.foldl crcByte 0x6363

/-- CRC_FN (R166). -/
def crcFn (f : CrcFn) (s : List Byte) : Word16 :=
  match f with
  | .crcA => crcA s
  | .other k => Config.otherCrc k s

/-- The low byte of a CRC, first in every sequence (R76). -/
def crcLow (c : Word16) : Byte := c.extractLsb' 0 8

/-- The high byte of a CRC. -/
def crcHigh (c : Word16) : Byte := c.extractLsb' 8 8

/-- "the sequence appended to a frame is `[c[7:0], c[15:8]]`" (R76). -/
def crcBytes (c : Word16) : List Byte := [crcLow c, crcHigh c]

/-! ## Identifier fragments (R222, R223) -/

/-- `bcc(f) = f[0] ^ f[1] ^ f[2] ^ f[3]` (R222). -/
def bcc (u0 u1 u2 u3 : Byte) : Byte := u0 ^^^ u1 ^^^ u2 ^^^ u3

/-- The 4 UID bytes of a fragment. -/
def Fragment.uidBytes (f : Fragment) : List Byte := [f.u0, f.u1, f.u2, f.u3]

/-- The 5 bytes of a fragment as received (R109). -/
def Fragment.bytes (f : Fragment) : List Byte := [f.u0, f.u1, f.u2, f.u3, f.bcc]

/-- A fragment is valid iff its checksum byte is the XOR of its UID bytes (R222). -/
def Fragment.valid (f : Fragment) : Bool := Machine.bcc f.u0 f.u1 f.u2 f.u3 == f.bcc

/-- "the cascade (first) byte of every non-final fragment is dropped, the final fragment keeps all 4 bytes"
(R223), on the fragments' UID bytes in cascade order. -/
def combine : List (List Byte) → List Byte
  | [] => []
  | [g] => g
  | g :: gs => g.drop 1 ++ combine gs

/-! ## The response of an exchange (R188, R189) -/

/-- "if valid-bit-count is nonzero, total bits = (byteCount−1)×8 + validBits, else byteCount×8", on
mathematical integers and the unclamped count (R188). -/
def rxBits (cnt vb : Byte) : Int :=
  if vb ≠ 0 then ((cnt.toNat : Int) - 1) * 8 + vb.toNat else (cnt.toNat : Int) * 8

/-- `m = min(max(cnt, 1), MAX_RX)`: "clamp byte count to [1, 16]" (R189). -/
def readCount (cnt : Byte) : Nat := min (max cnt.toNat 1) maxRx

/-! ## Tag memory (R252, R260) -/

/-- The page address of block `b` is `4 x b`, one byte (R115, R252). -/
def blockPage (b : Nat) : Byte := BitVec.ofNat 8 (pageSize * b)

/-- `s[off : off+n]`: a slice, cut at the end of the sequence (R10). -/
def sliceOf (s : List Byte) (r : Slice) : List Byte := (s.drop r.off).take r.len

/-- FIRST_USER_PAGE = `offset(USER) / 4` (R259).

DESIGN CHOICE (log entry 26): the quotient is rounded down. The spec gives it for offset 16 alone, where it is exact (R259,
R286); R261 allows a table whose USER begins inside a page, and there the record begins in that page, before USER. -/
def firstUserPage (c : Config) : Nat := c.regions.user.off / pageSize

/-- "while len(w) mod 4 != 0: w <- w ++ [0x00]" (R259). -/
def padToPage (w : List Byte) : List Byte := w ++ List.replicate ((pageSize - w.length % pageSize) % pageSize) 0

/-! ## Payload records (R281, R283) -/

/-- EXTRACT of a buffer (R281): the payload, cut at the end of the buffer, or none if the type byte or the
length byte is missing or the type is not 0x03. -/
def extractPayload : List Byte → Option (List Byte)
  | t :: n :: rest => if t = tlvType then some (rest.take n.toNat) else none
  | _ => none

/-- WRAP of a payload of at most 255 bytes (R283). -/
def wrapPayload (payload : List Byte) : List Byte := tlvType :: BitVec.ofNat 8 payload.length :: payload

end Sys2Proof.Machine
end

