-- ==== Sys2Proof/Machine/Flags.lean ====
section
/-! DEFINITION. Every flag computation of the spec (10_state.md R34 to R36, R48; 60_exceptions.md R331):
the two interrupt-flag registers, the error register, the tests the executor makes on them. -/

namespace Sys2Proof.Machine

/-! ## COMIRQ and DIVIRQ (R201, R165) -/

/-- What a flag register reads as: the 7 flags, bit 0x80 zero (R165, R201). -/
def flagByte (f : BitVec 7) : Byte := f.setWidth 8

/-- Bit 0x80 of the value written chooses between setting and clearing the flags written as 1 (R201; R165,
mode `set_clear`). -/
def setClearFlags (f : BitVec 7) (v : Byte) : BitVec 7 :=
  if v.hasAny 0x80 then f ||| v.setWidth 7 else f &&& ~~~(v.setWidth 7)

/-- A write of DIVIRQ under a write mode (R165). -/
def writeDivFlags (mode : DivirqMode) (f : BitVec 7) (v : Byte) : BitVec 7 :=
  match mode with
  | .store => v.setWidth 7
  | .setClear => setClearFlags f v

/-- A mask's flag bits raised in a flag register. -/
def raiseFlags (f : BitVec 7) (m : Byte) : BitVec 7 := f ||| m.setWidth 7

/-- COMIRQ 0x40: transmit complete (R202). -/
def comTransmitted : Byte := 0x40
/-- COMIRQ 0x20: receive complete (R203). -/
def comReceived : Byte := 0x20
/-- COMIRQ 0x02: error (R203). -/
def comError : Byte := 0x02

/-! ## ERROR (R36, R192, R193, R203) -/

/-- ERROR 0x10: FIFO buffer overflow (R192). -/
def errOverflow : Byte := 0x10

/-- ERROR after a flush: the overflow bit cleared (R193). -/
def errAfterFlush (err : Byte) : Byte := err &&& errOverflow.compl

/-- ERROR after a reception: the overflow bit kept, the received error bits, overflow if the response does
not fit the FIFO (R203). -/
def errAfterReception (err e : Byte) (tooLong : Bool) : Byte :=
  (err &&& errOverflow) ||| e ||| (if tooLong then errOverflow else 0)

/-- The executor fails an exchange when a bit of ERR_MASK is set (R186). -/
def errorFails (e : Byte) : Bool := e.hasAny errMask

/-! ## The executor's tests (R105, R181, R184, R187) -/

/-- "select interrupt-enable/wait bits by command kind": the enable value (R181). -/
def irqEnable : Command → Byte
  | .authent => irqenAuth
  | .transceive => irqenXcv
  | .idle | .calccrc | .resetphase => 0x00

/-- "select interrupt-enable/wait bits by command kind": the wait value (R181). -/
def irqWait : Command → Byte
  | .authent => waitAuth
  | .transceive => waitXcv
  | .idle | .calccrc | .resetphase => 0x00

/-- The poll ends on the timeout bit or a wait bit of the value just read (R184). -/
def pollSeen (m : Masks) (waitirq v : Byte) : Bool := v.hasAny m.timerIrq || v.hasAny waitirq

/-- `S.IRQVAL & S.IRQEN & TIMER_IRQ`: the result is "no tag" (R187). -/
def noTagSeen (m : Masks) (irqval irqen : Byte) : Bool := (irqval &&& irqen).hasAny m.timerIrq

/-! ## SAK (R228) -/

/-- Bit 0x04 is tested first and alone decides: the cascade continues (R228). -/
def cascadeContinues (sak : Byte) : Bool := sak.hasAny sakCascade

end Sys2Proof.Machine
end

