-- ==== Sys2Proof/Machine/Ops.lean ====
section
/-! DEFINITION. The operations shared by every instruction: memory, the running operation and its outcome
(60_exceptions.md), the draws of the environment (00_scope.md R11).

An operation's body is a sequence of steps over the state that ends with a value, with a raise (R320) or with
a refusal. -/

namespace Sys2Proof.Machine

/-! ## Memory

The tag's memory is a list of cells with rising addresses, no cell equal to what an unlisted address reads
as, and no address outside 0..539 (R70, R296). -/

/-- What an unlisted address of the tag's memory reads as: 0x00, but 0x88 at address 3, the BCC0 of an all-zero
identifier, so that a memory with nothing listed is one that may be configured (R298, log entry 10). -/
def Memory.unlisted (a : Nat) : Byte := if a = 3 then 0x88 else 0x00

/-- Read one byte. -/
def Memory.read : Memory → Nat → Byte
  | [], a => Memory.unlisted a
  | (b, w) :: m, a => if a = b then w else Memory.read m a

/-- The cells of one byte: none if the byte is what the address reads as unlisted. -/
def Memory.cell (a : Nat) (v : Byte) : Memory := if v = Memory.unlisted a then [] else [(a, v)]

/-- Write one byte, keeping the canonical form. -/
def Memory.write : Memory → Nat → Byte → Memory
  | [], a, v => Memory.cell a v
  | (b, w) :: m, a, v =>
    if a < b then Memory.cell a v ++ (b, w) :: m
    else if a = b then Memory.cell a v ++ m
    else (b, w) :: Memory.write m a v

/-- Write a byte sequence at rising addresses. -/
def Memory.writeBytes : Memory → Nat → List Byte → Memory
  | m, _, [] => m
  | m, a, v :: vs => Memory.writeBytes (Memory.write m a v) (a + 1) vs

/-- A memory that holds a byte sequence from address 0. -/
def Memory.ofBytes (s : List Byte) : Memory := Memory.writeBytes [] 0 s

/-- The canonical form: addresses strictly rising and below IMAGE_SIZE, no cell equal to what its address
reads as unlisted. -/
abbrev Memory.wf (m : Memory) : Prop :=
  m.Pairwise (fun x y => x.1 < y.1) ∧ ∀ x ∈ m, x.1 < imageSize ∧ x.2 ≠ Memory.unlisted x.1

/-! ## A body of steps -/

/-- How a body can end without a value. -/
inductive Stop where
  /-- `raise K` (R320). -/
  | raise (k : OpOutcome)
  /-- The reference target gives the input no meaning (93_implementation_defined.md, `refuse`). -/
  | refuse (r : Refusal)
  deriving DecidableEq, Repr

/-- A body of steps. -/
abbrev Op (α : Type) := EStateM Stop State α

/-- `raise K`: "no further step of the operation runs" (R320). -/
def Op.raise {α : Type} (k : OpOutcome) : Op α := fun s => .error (.raise k) s

/-- A situation the spec refuses to give a meaning. -/
def Op.refuse {α : Type} (r : Refusal) : Op α := fun s => .error (.refuse r) s

/-- Read the whole state. -/
def Op.state : Op State := fun s => .ok s s

/-- The configuration. -/
def Op.cfg : Op Config := fun s => .ok s.cfg s

/-- Update the sequencer's registers. -/
def Op.setSeq (f : Sequencer → Sequencer) : Op Unit := fun s => .ok () { s with seq := f s.seq }

/-- Update the target. -/
def Op.setTgt (f : Target → Target) : Op Unit := fun s => .ok () { s with tgt := f s.tgt }

/-- Update the environment. -/
def Op.setEnv (f : Environment → Environment) : Op Unit := fun s => .ok () { s with env := f s.env }

/-! ## Beginning and ending an operation (R116, R320, R372) -/

/-- The code of an outcome (R321). -/
def OpOutcome.code : OpOutcome → Nat
  | .ok => 0
  | .noTag => 1
  | .busTimeout => 2
  | .protocolError => 3
  | .checksumError => 4
  | .unsupportedCascade => 5
  | .malformedPayload => 6
  | .preconditionViolation => 7

/-- A host operation is taken: S.OP names it, S.PHASE is its first index, nothing is returned yet. -/
def State.start (s : State) (name : OpName) : State :=
  { s with seq := { s.seq with op := some name, phase := 0 }, result := .none, trace := [] }

/-- The operation returns: `S.OUTCOME`, the result, and `S.OP <- NONE` with S.PHASE cleared (R21, R372). -/
def State.finish (s : State) (r : Result) : State :=
  { s with seq := { s.seq with op := none, phase := 0, outcome := .ok }, result := r }

/-- Taking an exception: "(2) `S.OUTCOME <- code(K)`; (3) `S.OP <- NONE`; (4) the host sees outcome K and no
result ... one indivisible update" (R320). There is no handler, no saved address and no return from a fault
(R335). -/
def State.raise (s : State) (k : OpOutcome) : State :=
  { s with seq := { s.seq with op := none, phase := 0, outcome := k }, result := .none }

/-- What a step answers. -/
abbrev Answer := Host.Outcome State Fault Refusal

/-- A host operation: taken, run to its end, its outcome presented (R116). -/
def hostOp (name : OpName) (body : Op Result) (s : State) : Answer :=
  match body (s.start name) with
  | .ok r t => .next (t.finish r)
  | .error (.raise k) t => .next (t.raise k)
  | .error (.refuse r) _ => .refused r

/-- A single access by a row of another format: no host operation is taken, so S.OP stays NONE and S.OUTCOME
is not written (log entry 12). -/
def rawOp (body : Op Result) (s : State) : Answer :=
  match body { s with result := .none, trace := [] } with
  | .ok r t => .next { t with seq := { t.seq with phase := 0 }, result := r }
  | .error (.raise k) t => .next (t.raise k)
  | .error (.refuse r) _ => .refused r

/-- A request refused before any operation is taken: "refused: outcome PreconditionViolation, no transaction"
(R118). -/
def State.refuseRequest (s : State) : State :=
  { s with seq := { s.seq with outcome := .preconditionViolation }, result := .none, trace := [] }

/-! ## Draws (R11): the script first, then the source (log entry 5) -/

/-- The byte a draw gives: the next scripted byte, else a free value, else the simulator's value `sim`. -/
def Environment.byteValue (e : Environment) (sim : Byte) : Byte :=
  match e.byteFeed, e.drawSource with
  | b :: _, _ => b
  | [], .free => Config.freeByte e.draws
  | [], .simulator _ _ => sim

/-- The environment after a draw of `n` bytes. -/
def Environment.afterBytes (e : Environment) (n : Nat) : Environment :=
  { e with byteFeed := e.byteFeed.drop n, draws := e.draws + n }

/-- A draw of one byte; `sim` is the simulator's value (R304: 0x00, but for the CRC result). -/
def Op.draw (sim : Byte) : Op Byte := fun s =>
  .ok (s.env.byteValue sim) { s with env := s.env.afterBytes 1 }

/-- The delay of an event, given the simulator's delay. -/
def Environment.delayValue (e : Environment) (sim : Nat → Nat → Nat) : Delay :=
  match e.delayFeed, e.drawSource with
  | d :: _, _ => d
  | [], .free => Config.freeDelay e.draws
  | [], .simulator crcDelay rxDelay => some (sim crcDelay rxDelay)

/-- The environment after a draw of a delay. -/
def Environment.afterDelay (e : Environment) : Environment :=
  { e with delayFeed := e.delayFeed.drop 1, draws := e.draws + 1 }

end Sys2Proof.Machine
end

