-- ==== Sys2Proof/Machine/Card.lean ====
section
/-! DEFINITION. The card side: the reference tag (46_reference_environment.md R296 to R302), the card port
(R290), and the meanings of the CARD rows.

A CARD row is a frame of R106 sent through the card port with the number of last-byte bits R106 gives it; the
card's answer is what the port holds afterwards (log entry 13). -/

namespace Sys2Proof.Machine

/-! ## The reference tag (R296 to R302) -/

/-- One byte of G.MEM. -/
def Tag.byte (g : Tag) (a : Nat) : Byte := Memory.read g.mem a

/-- F1 = `[0x88, SN0, SN1, SN2, BCC0]` (R298). -/
def Tag.frag1 (g : Tag) : List Byte := [0x88, g.byte 0, g.byte 1, g.byte 2, g.byte 3]

/-- F2 = `[SN3, SN4, SN5, SN6, BCC1]` (R298). -/
def Tag.frag2 (g : Tag) : List Byte := [g.byte 4, g.byte 5, g.byte 6, g.byte 7, g.byte 8]

/-- The identifier SN0..SN6 (R298). -/
def Tag.serial (g : Tag) : List Byte :=
  [g.byte 0, g.byte 1, g.byte 2, g.byte 4, g.byte 5, g.byte 6, g.byte 7]

/-- The equation of BCC0 (R298). It is kept for good: its bytes lie in page 0, which no WRITE stores to (R302). -/
abbrev Tag.bcc0Ok (g : Tag) : Prop := g.byte 3 = 0x88 ^^^ g.byte 0 ^^^ g.byte 1 ^^^ g.byte 2

/-- The equation of BCC1 (R298). Byte 8 is the first of page 2, so a WRITE of page 2 may end it: "The reference tag stores
what it is given" (R302). -/
abbrev Tag.bcc1Ok (g : Tag) : Prop := g.byte 8 = g.byte 4 ^^^ g.byte 5 ^^^ g.byte 6 ^^^ g.byte 7

/-- "A configured `G.MEM` must satisfy the two BCC equations" (R298). -/
abbrev Tag.bccOk (g : Tag) : Prop := g.bcc0Ok ∧ g.bcc1Ok

/-- What a tag always keeps: its memory in canonical form, and the equation of BCC0 (R298). -/
abbrev Tag.ok (g : Tag) : Prop := g.mem.wf ∧ g.bcc0Ok

/-- A tag as it may be configured: its memory in canonical form and with the two equations, its state IDLE (R296, R298). -/
abbrev Tag.configured (g : Tag) : Prop := g.mem.wf ∧ g.bccOk ∧ g.st = .idle

/-- The 16 bytes from page `p`: "reading past the last page wraps to page 0" (R301). -/
def Tag.block (g : Tag) (p : Nat) : List Byte :=
  (List.range blockSize).map fun i => g.byte ((pageSize * p + i) % imageSize)

/-- The body of a well-formed frame: `txlast = 0` and its last two bytes are CRC_A of the bytes before them,
low byte first (R296). -/
def wellFormedBody (frame : List Byte) (txlast : BitVec 3) : Option (List Byte) :=
  if txlast = 0 ∧ 2 ≤ frame.length ∧
      frame.drop (frame.length - 2) = crcBytes (crcA (frame.take (frame.length - 2)))
  then some (frame.take (frame.length - 2)) else none

/-- A frame that no rule matches: "sets `G.ST <- IDLE` and gives `Timeout`" (R296). -/
def Tag.ignore (g : Tag) : CardOutcome × Tag := (.timeout, { g with st := .idle })

/-- A 4-bit refusal (R301, R302). -/
def Tag.refuse (g : Tag) : CardOutcome × Tag := (.response [0x00] 4 0, { g with st := .idle })

/-- Read of page `p` (R301). -/
def Tag.readPage (g : Tag) (p : Byte) : CardOutcome × Tag :=
  if p.toNat < pageCount then
    (.response (g.block p.toNat ++ crcBytes (crcA (g.block p.toNat))) 0 0, g)
  else g.refuse

/-- Write of page `p` (R302): pages 2 to 134 store and acknowledge, the others refuse. -/
def Tag.writePage (g : Tag) (p : Byte) (data : List Byte) : CardOutcome × Tag :=
  if 2 ≤ p.toNat ∧ p.toNat < pageCount then
    (.response [0x0A] 4 0, { g with mem := Memory.writeBytes g.mem (pageSize * p.toNat) data })
  else g.refuse

/-- A well-formed frame's body in the tag's state: select (R300), read (R301), write (R302). -/
def Tag.onBody (g : Tag) (body : List Byte) : CardOutcome × Tag :=
  match g.st, body with
  | .ready1, [0x93, 0x70, u0, u1, u2, u3, b] =>
    if [u0, u1, u2, u3, b] = g.frag1 then (.response [0x04, 0xDA, 0x17] 0 0, { g with st := .ready2 })
    else g.ignore
  | .ready2, [0x95, 0x70, u0, u1, u2, u3, b] =>
    if [u0, u1, u2, u3, b] = g.frag2 then (.response [0x00, 0xFE, 0x51] 0 0, { g with st := .active })
    else g.ignore
  | .active, [0x30, p] => g.readPage p
  | .active, [0xA2, p, d0, d1, d2, d3] => g.writePage p [d0, d1, d2, d3]
  | _, _ => g.ignore

/-- The reference tag's answer to a frame and its next state (R296 to R302). -/
def Tag.exchange (g : Tag) (frame : List Byte) (txlast : BitVec 3) : CardOutcome × Tag :=
  match frame with
  | [b] =>
    if txlast = 7 ∧ b &&& 0x7F = 0x26 then (.response [0x44, 0x00] 0 0, { g with st := .ready1 })
    else g.ignore
  | [s, n] =>
    if txlast = 0 ∧ g.st = .ready1 ∧ s = 0x93 ∧ n = 0x20 then (.response g.frag1 0 0, g)
    else if txlast = 0 ∧ g.st = .ready2 ∧ s = 0x95 ∧ n = 0x20 then (.response g.frag2 0 0, g)
    else g.ignore
  | _ =>
    match wellFormedBody frame txlast with
    | some body => g.onBody body
    | none => g.ignore

/-! ## The card port (R290) -/

/-- `CardExchange(frame, txlast)` (R290): the scripted outcome, else the oracle's or the reference tag's. -/
def Environment.exchange (e : Environment) (frame : List Byte) (txlast : BitVec 3) :
    CardOutcome × Environment :=
  match e.cardFeed, e.cardSource with
  | o :: rest, _ => (o, { e with cardFeed := rest, answer := some o })
  | [], .oracle =>
    (Config.freeCard e.draws frame txlast,
      { e with draws := e.draws + 1, answer := some (Config.freeCard e.draws frame txlast) })
  | [], .referenceTag =>
    ((e.tag.exchange frame txlast).1,
      { e with tag := (e.tag.exchange frame txlast).2, answer := some (e.tag.exchange frame txlast).1 })

/-- A frame sent through the card port on its own (log entry 13). -/
def sendFrame (frame : List Byte) (txlast : BitVec 3) : Op Result := fun s =>
  .ok .none { s with env := (s.env.exchange frame txlast).2 }

/-! ## The CARD rows -/

/-- REQA (R107): one byte, of which the 7 low bits are sent. -/
def execReqa (s : State) : Answer := rawOp (sendFrame (reqaFrame s.cfg) 7) s

/-- ANTICOLL at a level (R108): two whole bytes. -/
def execAnticoll (lvl : CascadeLevel) (s : State) : Answer := rawOp (sendFrame (anticollFrame s.cfg lvl) 0) s

/-- SELECT at a level (R109): nine whole bytes. -/
def execSelect (lvl : CascadeLevel) (u0 u1 u2 u3 bcc crcLo crcHi : Byte) (s : State) : Answer :=
  rawOp (sendFrame (selectBody s.cfg lvl u0 u1 u2 u3 bcc ++ [crcLo, crcHi]) 0) s

/-- READ of a page (R110): four whole bytes. -/
def execRead (page crcLo crcHi : Byte) (s : State) : Answer :=
  rawOp (sendFrame (readBody s.cfg page ++ [crcLo, crcHi]) 0) s

/-- WRITE of a page (R111): eight whole bytes. -/
def execWrite (page d0 d1 d2 d3 crcLo crcHi : Byte) (s : State) : Answer :=
  rawOp (sendFrame (writeBody s.cfg page [d0, d1, d2, d3] ++ [crcLo, crcHi]) 0) s

end Sys2Proof.Machine
end

