-- ==== Sys2Proof/Machine/Target.lean ====
section
/-! DEFINITION. The reference target: its registers, FIFO, command register, transmission and events (R31 to
R47, R146, R163 to R165, R169, R191 to R205), and the bus transaction that reaches it (R100, R144). -/

namespace Sys2Proof.Machine

/-! ## Registers (R146) -/

/-- The storage of a register, T.REG[a]. -/
def Target.reg (t : Target) (a : RegAddr) : Byte := t.regs[a.toNat]

/-- `T.REG[a] <- v`. -/
def Target.setReg (t : Target) (a : RegAddr) (v : Byte) : Target := { t with regs := t.regs.set a.toNat v }

/-! ## FIFO (R191 to R193) -/

/-- A push: at the tail, or dropped with the overflow bit set when the FIFO is full (R191, R192). -/
def Target.push (t : Target) (depth : Nat) (v : Byte) : Target :=
  if t.fifo.length < depth then { t with fifo := t.fifo ++ [v] } else { t with err := t.err ||| errOverflow }

/-- A flush: the FIFO emptied and the overflow bit cleared (R193). -/
def Target.flush (t : Target) : Target :=
  { t with fifo := [], err := errAfterFlush t.err }

/-- FIFOLEVEL: the number of bytes in the FIFO (R191). -/
def Target.level (t : Target) : Byte := BitVec.ofNat 8 t.fifo.length

/-! ## Events (R164, R203 to R205)

An event happens between two bus transactions, once its delay has passed (R292, log entry 14). -/

/-- CRC completion (R164). -/
def Target.completeCrc (t : Target) (c : Config) (input : List Byte) : Target :=
  { t with crcRes := crcFn c.crc input, crcKnown := true, divFlags := raiseFlags t.divFlags c.masks.crcIrq,
           crcPend := none }

/-- Reception (R203). -/
def Target.receive (t : Target) (c : Config) (r : List Byte) (lb : BitVec 3) (e : Byte) : Target :=
  { t with fifo := r.take c.fifoDepth, rxLast := lb,
           err := errAfterReception t.err e (c.fifoDepth < r.length),
           comFlags := raiseFlags t.comFlags (comReceived ||| if e ≠ 0 then comError else 0),
           rxPend := none }

/-- Timeout (R204). -/
def Target.expire (t : Target) (c : Config) : Target :=
  { t with comFlags := raiseFlags t.comFlags c.masks.timerIrq, rxPend := none }

/-- The CRC engine between two transactions: complete if the delay has passed, else count it down. -/
def Target.tickCrc (t : Target) (c : Config) : Target :=
  match t.crcPend, t.crcWait with
  | some input, some 0 => t.completeCrc c input
  | some _, some (n + 1) => { t with crcWait := some n }
  | _, _ => t

/-- The receiver between two transactions: deliver or expire if the delay has passed, else count it down.
Silence never ends (R205). -/
def Target.tickRx (t : Target) (c : Config) : Target :=
  match t.rxPend, t.rxWait with
  | some (.response r lb e), some 0 => t.receive c r lb e
  | some .timeout, some 0 => t.expire c
  | some (.response _ _ _), some (n + 1) => { t with rxWait := some n }
  | some .timeout, some (n + 1) => { t with rxWait := some n }
  | _, _ => t

/-- The target between two transactions. -/
def Target.tick (t : Target) (c : Config) : Target := (t.tickCrc c).tickRx c

/-! ## The command register (R194 to R200) -/

/-- "any pending activity of the previous command is cancelled" (R194), and the new command's code is stored. -/
def Target.accept (t : Target) (c : Config) (cmd : Command) : Target :=
  { t.setReg c.regmap.command (c.codes.byte cmd) with
    crcPend := none, rxPend := none, sent := false, cmd := c.codes.code cmd }

/-- CALCCRC takes the whole FIFO as the engine's input and empties it (R163); its delay is a draw (R164). -/
def startCrc : Op Unit := fun s =>
  .ok () { s with
    tgt := { s.tgt with crcPend := some s.tgt.fifo, fifo := [],
                        crcWait := s.env.delayValue fun crcDelay _ => crcDelay },
    env := s.env.afterDelay }

/-- The byte of a block draw of registers at an index; the simulator's value is 0x00 (R304). -/
def Environment.blockByte (e : Environment) (i : Nat) : Byte :=
  { e with byteFeed := e.byteFeed.drop i, draws := e.draws + i }.byteValue 0x00

/-- The simulator's CRC result before any computation is 0xFFFF (R304); otherwise it is drawn. -/
def Environment.crcDraw (e : Environment) : Word16 :=
  match e.byteFeed.drop 68, e.drawSource with
  | [], .simulator _ _ => 0xFFFF
  | _, _ => (e.blockByte 68).setWidth 16 ||| (e.blockByte 69).setWidth 16 <<< 8

/-- The target in its reset state: "FIFO empty, nothing pending, `T.CMD <- CMD_IDLE`, every other target
register and flag a fresh draw" (R198, R50). The draws are taken in this order: the 64 registers, COMFLAGS,
DIVFLAGS, ERR, RXLAST and the two bytes of the CRC result. -/
def Environment.freshTarget (e : Environment) (c : Config) : Target where
  regs := Vector.ofFn fun i : Fin 64 => e.blockByte i.val
  fifo := []
  cmd := c.codes.idle
  crcPend := none
  crcWait := none
  sent := false
  rxPend := none
  rxWait := none
  comFlags := (e.blockByte 64).setWidth 7
  divFlags := (e.blockByte 65).setWidth 7
  err := e.blockByte 66
  rxLast := (e.blockByte 67).setWidth 3
  crcRes := e.crcDraw
  crcKnown := false
  loadOpen := false

/-- RESETPHASE (R198): the target goes to its reset state; the draws are used up. -/
def resetTarget : Op Unit := fun s =>
  .ok () { s with tgt := s.env.freshTarget s.cfg, env := s.env.afterBytes 70 }

/-- What a command does once it is accepted: IDLE nothing further (R195), CALCCRC starts the engine (R163),
TRANSCEIVE arms the transmitter and sends nothing (R197), RESETPHASE resets the target (R198). AUTHENT is
refused before (R199). -/
def runCommand : Command → Op Unit
  | .idle => pure ()
  | .calccrc => startCrc
  | .transceive => pure ()
  | .resetphase => resetTarget
  | .authent => Op.refuse .authentRefused

/-- A write to COMMAND (R194): refused unless bits[7:4] are 0 and bits[3:0] are one of the codes the target
gives a meaning (R199, R200). -/
def writeCommand (v : Byte) : Op Unit := do
  let c ← Op.cfg
  match c.codes.ofByte v with
  | none => Op.refuse (.commandRefused v)
  | some .authent => Op.refuse .authentRefused
  | some cmd => do
    Op.setTgt fun t => t.accept c cmd
    runCommand cmd

/-! ## FIFODATA, BITFRAMING, CRCRESULT (R163, R169, R192, R202) -/

/-- A write to FIFODATA (R191, R192), refused while CALCCRC is active: "outside what the reference target defines"
(R163, R366). CRC_CALC's load of its own operand is no such write (log entry 11). -/
def writeFifo (v : Byte) : Op Unit := do
  let s ← Op.state
  if s.tgt.cmd = s.cfg.codes.calccrc ∧ s.tgt.loadOpen = false then Op.refuse .fifoPushDuringCrc
  else Op.setTgt fun t => t.push s.cfg.fifoDepth v

/-- A read of FIFODATA: the head, or a draw that changes nothing in the FIFO when it is empty (R191, R192). -/
def readFifo : Op Byte := do
  let s ← Op.state
  match s.tgt.fifo with
  | h :: rest => do
    Op.setTgt fun t => { t with fifo := rest }
    pure h
  | [] => Op.draw 0x00

/-- The target transmits: the FIFO's bytes go to the card port with the number of last-byte bits the value
written to BITFRAMING gives, and the answer is pending with a drawn delay (R202). -/
def transmit (txlast : BitVec 3) : Op Unit := fun s =>
  .ok () { s with
    tgt := { s.tgt with fifo := [], sent := true, comFlags := raiseFlags s.tgt.comFlags comTransmitted,
                        rxPend := some (s.env.exchange s.tgt.fifo txlast).1,
                        rxWait := (s.env.exchange s.tgt.fifo txlast).2.delayValue fun _ rxDelay => rxDelay },
    env := (s.env.exchange s.tgt.fifo txlast).2.afterDelay }

/-- A write to BITFRAMING stores the value, and transmits if START_SEND is set, a transceive is active and it
has not sent its frame (R202). -/
def writeBitframing (v : Byte) : Op Unit := do
  let s ← Op.state
  Op.setTgt fun t => t.setReg s.cfg.regmap.bitframing v
  if v.hasAny s.cfg.masks.startSend ∧ s.tgt.cmd = s.cfg.codes.transceive ∧ s.tgt.sent = false then
    transmit (v.extractLsb' 0 3)
  else pure ()

/-- A read of a CRC result byte: "both only after a completion event since the last reset; before that, and
while a computation is pending, a draw" (R169). The simulator's draw is the stale byte (R304, K34). -/
def readCrcResult (part : Word16 → Byte) : Op Byte := do
  let s ← Op.state
  if s.tgt.crcKnown = true ∧ s.tgt.crcPend = none then pure (part s.tgt.crcRes)
  else Op.draw (part s.tgt.crcRes)

/-! ## A transaction seen by the target (R146) -/

/-- A write transaction at the target: the rule of the register at that address, or plain storage. -/
def targetWrite (a : RegAddr) (v : Byte) : Op Unit := do
  let c ← Op.cfg
  match c.regmap.nameAt a with
  | some .fifodata => writeFifo v
  | some .fifolevel => Op.setTgt fun t => if v.hasAny c.masks.flush then t.flush else t
  | some .command => writeCommand v
  | some .comirq => Op.setTgt fun t => { t with comFlags := setClearFlags t.comFlags v }
  | some .divirq => Op.setTgt fun t => { t with divFlags := writeDivFlags c.divirqMode t.divFlags v }
  | some .bitframing => writeBitframing v
  | some .error => pure ()
  | some .crcresultH => pure ()
  | some .crcresultL => pure ()
  | some .comien | some .status2 | some .control | some .mode | some .txcontrol | some .txauto
  | some .tmode | some .tprescaler | some .treloadH | some .treloadL | none =>
    Op.setTgt fun t => t.setReg a v

/-- A read transaction at the target. CONTROL reads its stored bits[7:3] and the valid-bit count (R40). -/
def targetRead (a : RegAddr) : Op Byte := do
  let s ← Op.state
  match s.cfg.regmap.nameAt a with
  | some .fifodata => readFifo
  | some .fifolevel => pure s.tgt.level
  | some .comirq => pure (flagByte s.tgt.comFlags)
  | some .divirq => pure (flagByte s.tgt.divFlags)
  | some .error => pure s.tgt.err
  | some .control => pure ((s.tgt.reg a &&& 0xF8) ||| s.tgt.rxLast.setWidth 8)
  | some .crcresultH => readCrcResult crcHigh
  | some .crcresultL => readCrcResult crcLow
  | some .command | some .comien | some .status2 | some .bitframing | some .mode | some .txcontrol
  | some .txauto | some .tmode | some .tprescaler | some .treloadH | some .treloadL | none =>
    pure (s.tgt.reg a)

/-! ## The bus (R100, R144, R145) -/

/-- Before a transaction the target's events that are due happen (R292). -/
def tickTarget : Op Unit := fun s => .ok () { s with tgt := s.tgt.tick s.cfg }

/-- A transaction done: the frame is shown and S.PHASE advances by one (R21, R372). -/
def record (f : BusFrame) : Op Unit := fun s =>
  .ok () { s with seq := { s.seq with phase := s.seq.phase + 1 }, trace := f :: s.trace }

/-- `BusWrite(a, v)` (R140): over an unconstrained transport nothing is known of the other side; over the
reference target its events, then the write. -/
def busWrite (a : RegAddr) (v : Byte) : Op Unit := do
  let s ← Op.state
  match s.env.level with
  | .busOracle => pure ()
  | .referenceTarget => do
    tickTarget
    targetWrite a v
  record { b0 := busWriteByte0 a, b1 := v, answer := none }

/-- `BusRead(a)` (R141): over an unconstrained transport the byte returned is a draw. -/
def busRead (a : RegAddr) : Op Byte := do
  let s ← Op.state
  let v ← match s.env.level with
    | .busOracle => Op.draw 0x00
    | .referenceTarget => do
      tickTarget
      targetRead a
  record { b0 := busReadByte0 a, b1 := 0x00, answer := some v }
  pure v

/-- `SetBits(a, m)`: "read register, OR mask, write back", two transactions (R142). -/
def busSetBits (a : RegAddr) (m : Byte) : Op Unit := do
  let v ← busRead a
  busWrite a (v ||| m)

/-- `ClearBits(a, m)`: "read register, AND with bitwise-NOT mask, write back", two transactions (R143). -/
def busClearBits (a : RegAddr) (m : Byte) : Op Unit := do
  let v ← busRead a
  busWrite a (v &&& m.compl)

/-- Load a byte sequence into the FIFO, first byte first (R160 step 3, R180 step 5). -/
def loadFifo (a : RegAddr) : List Byte → Op Unit
  | [] => pure ()
  | b :: rest => do
    busWrite a b
    loadFifo a rest

/-- Read `n` bytes out of the FIFO, in order (R189). -/
def unloadFifo (a : RegAddr) : Nat → Op (List Byte)
  | 0 => pure []
  | n + 1 => do
    let b ← busRead a
    let rest ← unloadFifo a n
    pure (b :: rest)

end Sys2Proof.Machine
end

