-- ==== Sys2Proof/Machine/Transport.lean ====
section
/-! DEFINITION. Unit U0: REG_WRITE, REG_READ, SET_BITS, CLEAR_BITS (40_transport.md R140 to R143), and the
rows of the BUS and CMD formats (30_encoding.md R101, R102, R104). -/

namespace Sys2Proof.Machine

/-- "require addr <= 0x3F else raise PreconditionViolation", before any transaction (R72, R140). -/
def regAddr (addr : Byte) : Op RegAddr :=
  match regAddr? addr with
  | some a => pure a
  | none => Op.raise .preconditionViolation

/-- REG_WRITE `addr, value` (R140). -/
def execRegWrite (addr value : Byte) (s : State) : Answer :=
  hostOp .regWrite (do
    let a ← regAddr addr
    busWrite a value
    pure .none) s

/-- REG_READ `addr -> byte` (R141): the second response byte. -/
def execRegRead (addr : Byte) (s : State) : Answer :=
  hostOp .regRead (do
    let a ← regAddr addr
    let v ← busRead a
    pure (.byte v)) s

/-- SET_BITS `addr, mask` (R142). -/
def execSetBits (addr mask : Byte) (s : State) : Answer :=
  hostOp .setBits (do
    let a ← regAddr addr
    busSetBits a mask
    pure .none) s

/-- CLEAR_BITS `addr, mask` (R143). -/
def execClearBits (addr mask : Byte) (s : State) : Answer :=
  hostOp .clearBits (do
    let a ← regAddr addr
    busClearBits a mask
    pure .none) s

/-! ## BUS: one frame on the register bus -/

/-- The write frame (R101). -/
def execBusWrite (a : RegAddr) (v : Byte) (s : State) : Answer :=
  rawOp (do
    busWrite a v
    pure .none) s

/-- The read frame (R102); the second response byte is the result. -/
def execBusRead (a : RegAddr) (s : State) : Answer :=
  rawOp (do
    let v ← busRead a
    pure (.byte v)) s

/-! ## CMD: a code written to COMMAND (R104) -/

/-- The write of a command's code to COMMAND. -/
def issueCommand (cmd : Command) : Op Result := do
  let c ← Op.cfg
  busWrite c.regmap.command (c.codes.byte cmd)
  pure .none

/-- IDLE (R195). -/
def execCmdIdle (s : State) : Answer := rawOp (issueCommand .idle) s

/-- CALCCRC (R163, R196). -/
def execCmdCalccrc (s : State) : Answer := rawOp (issueCommand .calccrc) s

/-- TRANSCEIVE (R197). -/
def execCmdTransceive (s : State) : Answer := rawOp (issueCommand .transceive) s

/-- AUTHENT (R199): refused by the reference target; over an unconstrained transport one write. -/
def execCmdAuthent (s : State) : Answer := rawOp (issueCommand .authent) s

/-- RESETPHASE (R198). -/
def execCmdResetphase (s : State) : Answer := rawOp (issueCommand .resetphase) s

end Sys2Proof.Machine
end

