-- ==== Sys2Proof/Machine/Crc.lean ====
section
/-! DEFINITION. Unit U1, the polling controller: CRC_CALC (41_crc_engine.md R160 to R162). -/

namespace Sys2Proof.Machine

/-- The poll of the CRC-done flag: read DIVIRQ, count, test the value just read; at most `n` reads (R160 step
5, R161). -/
def pollDivirq : Nat → Op Unit
  | 0 => pure ()
  | n + 1 => do
    let c ← Op.cfg
    let v ← busRead c.regmap.divirq
    Op.setSeq fun q => { q with pollcnt := q.pollcnt + 1 }
    if v.hasAny c.masks.crcIrq then pure () else pollDivirq n

/-- Whether CRC_CALC is loading its operand. -/
def setLoading (b : Bool) : Op Unit := Op.setTgt fun t => { t with loadOpen := b }

/-- Step 3 of CRC_CALC: "for b in data: BusWrite(FIFODATA, b)" (R160). It follows CRC_CALC's own flush, with CALCCRC
still active where another CRC_CALC came before it (R366), and the spec runs that sequence (95_test_vectors.md section
2.2), so its bytes are pushed (log entry 11). -/
def loadOperand (a : RegAddr) (data : List Byte) : Op Unit := do
  setLoading true
  loadFifo a data
  setLoading false

/-- `CrcCalc(data) -> [lo, hi]` (R160). An exhausted budget is "a soft timeout, not an error" (R162). -/
def crcCalc (data : List Byte) : Op (Byte × Byte) := do
  let c ← Op.cfg
  busClearBits c.regmap.divirq c.masks.crcIrq
  busSetBits c.regmap.fifolevel c.masks.flush
  loadOperand c.regmap.fifodata data
  busWrite c.regmap.command (c.codes.byte .calccrc)
  Op.setSeq fun q => { q with pollcnt := 0 }
  pollDivirq c.pollCrc
  let lo ← busRead c.regmap.crcresultL
  let hi ← busRead c.regmap.crcresultH
  Op.setSeq fun q => { q with crcLo := lo, crcHi := hi }
  pure (lo, hi)

/-- CRC_CALC `data -> [lo, hi]` (R160). -/
def execCrcCalc (data : List Byte) (s : State) : Answer :=
  hostOp .crcCalc (do
    let (lo, hi) ← crcCalc data
    pure (.bytes [lo, hi])) s

end Sys2Proof.Machine
end

