-- ==== Sys2Proof/Machine/Exchange.lean ====
section
/-! DEFINITION. Unit U2, the command executor: TO_CARD (42_command_fifo_framing.md R180 to R190), and the
common check after an exchange (43_anticollision_select.md R221). -/

namespace Sys2Proof.Machine

/-- Step 8: read COMIRQ, count, test the value just read; at most `n` reads. Answers whether a flag was seen
(R184). -/
def pollComirq : Nat → Op Bool
  | 0 => pure false
  | n + 1 => do
    let s ← Op.state
    let v ← busRead s.cfg.regmap.comirq
    Op.setSeq fun q => { q with irqval := v, pollcnt := q.pollcnt + 1 }
    if pollSeen s.cfg.masks s.seq.waitirq v then pure true else pollComirq n

/-- Step 0: enable and wait bits by command kind, the exchange result cleared (R180, R181). -/
def armExchange (cmd : Command) : Op Unit :=
  Op.setSeq fun q =>
    { q with irqen := irqEnable cmd, waitirq := irqWait cmd, rxbuf := [], rxbits := 0, errkind := .none }

/-- Steps 1 to 6: enable interrupts, clear the pending-interrupt flag, flush the FIFO, cancel any operation in
flight, load the send buffer, issue the command (R182, R183). -/
def loadExchange (cmd : Command) (tx : List Byte) : Op Unit := do
  let c ← Op.cfg
  busWrite c.regmap.comien (irqEnable cmd ||| c.masks.ienInv)
  busClearBits c.regmap.comirq c.masks.irqSet1
  busSetBits c.regmap.fifolevel c.masks.flush
  busWrite c.regmap.command (c.codes.byte .idle)
  loadFifo c.regmap.fifodata tx
  busWrite c.regmap.command (c.codes.byte cmd)

/-- Step 7: for a transceive, the start-send bit (R183). -/
def startSend (cmd : Command) : Op Unit := do
  let c ← Op.cfg
  if cmd = .transceive then busSetBits c.regmap.bitframing c.masks.startSend else pure ()

/-- An exchange fails with a generic error of a kind (R185, R186). -/
def failExchange (k : ErrKind) : Op (Status × List Byte × Int) := do
  Op.setSeq fun q => { q with status := .err, errkind := k }
  pure (.err, [], 0)

/-- Step 13: the response length and the clamped read-out (R188, R189). -/
def readResponse : Op Unit := do
  let c ← Op.cfg
  let cnt ← busRead c.regmap.fifolevel
  let ctl ← busRead (c.regmap.addr c.masks.rxlastReg)
  Op.setSeq fun q => { q with rxbits := rxBits cnt (ctl &&& c.masks.rxlastMask) }
  let rx ← unloadFifo c.regmap.fifodata (readCount cnt)
  Op.setSeq fun q => { q with rxbuf := rx }

/-- Steps 12 to 14: status OK or NOTAG, the read-out of a transceive, the return (R187, R190). -/
def completeExchange (cmd : Command) : Op (Status × List Byte × Int) := do
  let c ← Op.cfg
  Op.setSeq fun q => { q with status := if noTagSeen c.masks q.irqval q.irqen then .notag else .ok }
  if cmd = .transceive then readResponse else pure ()
  let s ← Op.state
  pure (s.seq.status, s.seq.rxbuf, s.seq.rxbits)

/-- `ToCard(cmd, tx) -> (status, rx, rxbits)` (R180). It always returns; its callers raise (R221). -/
def toCard (cmd : Command) (tx : List Byte) : Op (Status × List Byte × Int) := do
  let c ← Op.cfg
  armExchange cmd
  loadExchange cmd tx
  startSend cmd
  Op.setSeq fun q => { q with pollcnt := 0, irqval := 0 }
  let seen ← pollComirq c.pollCmd
  busClearBits c.regmap.bitframing c.masks.startSend
  if seen = false then failExchange .busTimeout
  else do
    let e ← busRead c.regmap.error
    if errorFails e then failExchange .protocolError else completeExchange cmd

/-- TO_CARD `cmd, tx -> (status, rx, rxbits)` (R180): "the outcome of the host operation TO_CARD is OK with the
triple as its result". -/
def execToCard (cmd : Command) (tx : List Byte) (s : State) : Answer :=
  hostOp .toCard (do
    let (st, rx, bits) ← toCard cmd tx
    pure (.exchange st rx bits)) s

/-- The outcome a failed exchange is raised as: `raise S.ERRKIND` (R221). -/
def ErrKind.outcome : ErrKind → OpOutcome
  | .none => .protocolError
  | .busTimeout => .busTimeout
  | .protocolError => .protocolError

/-- `check(status)`, right after `ToCard` (R221): a failed exchange raises its kind, no-tag raises NoTag. -/
def checkExchange (st : Status) : Op Unit := do
  let s ← Op.state
  match st with
  | .err => Op.raise s.seq.errkind.outcome
  | .notag => Op.raise .noTag
  | .ok => pure ()

/-- A transceive of a frame, checked: the response bytes and bit length. -/
def transceive (frame : List Byte) : Op (List Byte × Int) := do
  let (st, rx, bits) ← toCard .transceive frame
  checkExchange st
  pure (rx, bits)

/-- A transceive of a body followed by its CRC, computed before the frame is loaded (R363). -/
def transceiveCrc (body : List Byte) : Op (List Byte × Int) := do
  let (lo, hi) ← crcCalc body
  transceive (body ++ [lo, hi])

end Sys2Proof.Machine
end

