-- ==== Sys2Proof/Machine/Select.lean ====
section
/-! DEFINITION. Unit U3: REQUEST_TAG and SELECT_TAG (43_anticollision_select.md R220 to R231). -/

namespace Sys2Proof.Machine

/-- `REQUEST_TAG()` (R220): the short frame, a strict test of 16 bits, the ATQA kept and returned. -/
def requestTag : Op (Byte × Byte) := do
  let c ← Op.cfg
  busWrite c.regmap.bitframing shortFrameBits
  let (rx, bits) ← transceive (reqaFrame c)
  if bits ≠ 16 then Op.raise .protocolError
  else do
    Op.setSeq fun q => { q with atqa0 := rx.getD 0 0, atqa1 := rx.getD 1 0 }
    pure (rx.getD 0 0, rx.getD 1 0)

/-- REQUEST_TAG `-> atqa` (R220). -/
def execRequestTag (s : State) : Answer :=
  hostOp .requestTag (do
    let (a0, a1) ← requestTag
    pure (.bytes [a0, a1])) s

/-- A fragment received at a level is counted and kept (R225 step 2). -/
def Sequencer.keepFragment (q : Sequencer) (lvl : CascadeLevel) (f : Fragment) : Sequencer :=
  match lvl with
  | .one => { q with nfrag := q.nfrag + 1, frag1 := f }
  | .two => { q with nfrag := q.nfrag + 1, frag2 := f }

/-- The fragment an anti-collision response holds: "exactly 5 response bytes" (R226). -/
def fragmentOf : List Byte → Option Fragment
  | [u0, u1, u2, u3, b] => some ⟨u0, u1, u2, u3, b⟩
  | _ => none

/-- Steps 1 and 2 at a level: bit framing reset at level 1 only, the anti-collision exchange, the length test
before the checksum test (R226). -/
def anticollision (lvl : CascadeLevel) : Op Fragment := do
  let c ← Op.cfg
  Op.setSeq fun q => { q with level := lvl }
  if lvl = .one then busWrite c.regmap.bitframing fullFrameBits else pure ()
  let (rx, _) ← transceive (anticollFrame c lvl)
  match fragmentOf rx with
  | none => Op.raise .protocolError
  | some f =>
    if f.valid then do
      Op.setSeq fun q => q.keepFragment lvl f
      pure f
    else Op.raise .checksumError

/-- Step 3 at a level: the select exchange with the fragment as received and its CRC, "exactly 3 response
bytes"; answers the SAK (R227). -/
def selectFragment (lvl : CascadeLevel) (f : Fragment) : Op Byte := do
  let c ← Op.cfg
  let (rx, _) ← transceiveCrc (selectBody c lvl f.u0 f.u1 f.u2 f.u3 f.bcc)
  match rx with
  | [sak, _, _] => pure sak
  | _ => Op.raise .protocolError

/-- One cascade level; answers whether the cascade continues (R228). -/
def selectLevel (lvl : CascadeLevel) : Op Bool := do
  let f ← anticollision lvl
  let sak ← selectFragment lvl f
  pure (cascadeContinues sak)

/-- The fragments collected so far, as `combine` takes them (R225 step 4). -/
def Sequencer.fragments (q : Sequencer) : List (List Byte) := [q.frag1.uidBytes, q.frag2.uidBytes].take q.nfrag

/-- "return the reconstructed UID built from all fragments collected so far" (R228). -/
def completeSelect : Op (List Byte) := do
  Op.setSeq fun q => { q with uid := combine q.fragments }
  let s ← Op.state
  pure s.seq.uid

/-- `SELECT_TAG()` (R225): two levels, and UnsupportedCascade when the second asks for a third (R229). -/
def selectTag : Op (List Byte) := do
  Op.setSeq fun q => { q with uid := [], nfrag := 0 }
  let more ← selectLevel .one
  if more = false then completeSelect
  else do
    let more ← selectLevel .two
    if more = false then completeSelect else Op.raise .unsupportedCascade

/-- SELECT_TAG `-> uid` (R225). -/
def execSelectTag (s : State) : Answer :=
  hostOp .selectTag (do
    let uid ← selectTag
    pure (.bytes uid)) s

end Sys2Proof.Machine
end

