-- ==== Sys2Proof/Machine/TagMemory.lean ====
section
/-! DEFINITION. Unit U4: READ_BLOCK, READ_IMAGE, READ_TAG, WRITE_BLOCK, REGION (44_tag_memory.md R250 to
R265). -/

namespace Sys2Proof.Machine

/-- `READ_BLOCK(page)` (R250): the page is not range-checked; "exactly 16 response bytes". -/
def readBlock (page : Byte) : Op (List Byte) := do
  let c ← Op.cfg
  let (rx, _) ← transceiveCrc (readBody c page)
  if rx.length ≠ blockSize then Op.raise .protocolError else pure rx

/-- READ_BLOCK `page -> 16 bytes` (R250). -/
def execReadBlock (page : Byte) (s : State) : Answer :=
  hostOp .readBlock (do
    let rx ← readBlock page
    pure (.bytes rx)) s

/-- Read block `b` and append its first `keep` bytes to S.ACC (R253 steps 2 and 3, R254). -/
def assembleBlock (b keep : Nat) : Op Unit := do
  Op.setSeq fun q => { q with blk := b }
  let rx ← readBlock (blockPage b)
  Op.setSeq fun q => { q with acc := q.acc ++ rx.take keep }

/-- Read `n` full blocks from block `b` on, "strictly block-by-block in ascending address order" (R253). -/
def assembleBlocks : Nat → Nat → Op Unit
  | 0, _ => pure ()
  | n + 1, b => do
    assembleBlock b blockSize
    assembleBlocks n (b + 1)

/-- `READ_IMAGE()` (R253): the image is cleared first and set only when every block has been read (R255). -/
def readImage : Op Unit := do
  Op.setSeq fun q => { q with imgPopulated := false, acc := [] }
  assembleBlocks fullBlocks 0
  if remBytes ≠ 0 then assembleBlock fullBlocks remBytes else pure ()
  Op.setSeq fun q => { q with img := q.acc, imgPopulated := true }

/-- READ_IMAGE (R253). -/
def execReadImage (s : State) : Answer :=
  hostOp .readImage (do
    readImage
    pure .none) s

/-- READ_TAG `-> uid` (R256): REQUEST_TAG, SELECT_TAG, READ_IMAGE. -/
def execReadTag (s : State) : Answer :=
  hostOp .readTag (do
    let _ ← requestTag
    let uid ← selectTag
    readImage
    pure (.bytes uid)) s

/-- `WRITE_BLOCK(page, data)` (R257): exactly 4 bytes or refused before any transaction (R258); the response is
discarded, "a non-ok exchange is a fatal error for that block". -/
def writeBlock (page : Byte) (data : List Byte) : Op Unit := do
  let c ← Op.cfg
  if data.length ≠ pageSize then Op.raise .preconditionViolation
  else do
    let _ ← transceiveCrc (writeBody c page data)
    pure ()

/-- WRITE_BLOCK `page, data` (R257). -/
def execWriteBlock (page : Byte) (data : List Byte) (s : State) : Answer :=
  hostOp .writeBlock (do
    writeBlock page data
    pure .none) s

/-- `REGION(name)` (R260): a slice of the completed image; no transaction, no state written. -/
def regionBytes (name : Region) : Op (List Byte) := do
  let s ← Op.state
  if s.seq.imgPopulated then pure (sliceOf s.seq.img (s.cfg.regions.slice name))
  else Op.raise .preconditionViolation

/-- REGION `name -> bytes` (R260). -/
def execRegion (name : Region) (s : State) : Answer :=
  hostOp .region (do
    let b ← regionBytes name
    pure (.bytes b)) s

end Sys2Proof.Machine
end

