-- ==== Sys2Proof/Machine/Codec.lean ====
section
/-! DEFINITION. Unit U5: EXTRACT and WRAP (45_payload_codec.md R280 to R286), and the TLV row. Both are pure:
"no state of the sequencer or the target read or written other than S.OP and S.OUTCOME". -/

namespace Sys2Proof.Machine

/-- `EXTRACT(buffer)` (R281). -/
def extractRecord (buffer : List Byte) : Op (List Byte) :=
  match extractPayload buffer with
  | some p => pure p
  | none => Op.raise .malformedPayload

/-- EXTRACT `buffer -> payload` (R281). -/
def execExtract (buffer : List Byte) (s : State) : Answer :=
  hostOp .extract (do
    let p ← extractRecord buffer
    pure (.bytes p)) s

/-- `WRAP(payload)` (R283): more than 255 bytes are refused (R284). -/
def wrapRecord (payload : List Byte) : Op (List Byte) :=
  if payload.length ≤ 255 then pure (wrapPayload payload) else Op.raise .preconditionViolation

/-- WRAP `payload -> record` (R283). -/
def execWrap (payload : List Byte) (s : State) : Answer :=
  hostOp .wrap (do
    let w ← wrapRecord payload
    pure (.bytes w)) s

/-- A payload record (R113) given to the unit that consumes it: EXTRACT of its bytes (log entry 13). -/
def execTlvRecord (payload : List Byte) (s : State) : Answer :=
  hostOp .extract (do
    let p ← extractRecord (wrapPayload payload)
    pure (.bytes p)) s

end Sys2Proof.Machine
end

