-- ==== Sys2Proof/Machine/Boot.lean ====
section
/-! DEFINITION. The boot sequence: INIT (70_reset_and_hazards.md R353 to R355), and the reset event that comes
before it (R350, R351). -/

namespace Sys2Proof.Machine

/-- "for (a, v) in INIT_WRITES: BusWrite(a, v)" (R354 step 3). -/
def writeAll : List (RegAddr × Byte) → Op Unit
  | [] => pure ()
  | (a, v) :: rest => do
    busWrite a v
    writeAll rest

/-- The antenna driver bits of TXCONTROL (R354 step 4). -/
def antennaOn : Byte := 0x03

/-- `INIT()` (R354): the reset line high, RESETPHASE written directly (R353), INIT_WRITES, antenna drivers on. -/
def initSequence : Op Unit := do
  let c ← Op.cfg
  Op.setEnv fun e => { e with resetLine := true }
  busWrite c.regmap.command (c.codes.byte .resetphase)
  writeAll c.initWrites
  busSetBits c.regmap.txcontrol antennaOn

/-- INIT (R354). -/
def execInit (s : State) : Answer :=
  hostOp .init (do
    initSequence
    pure .none) s

/-- The reset event of the engine, "outside any operation" (R350), at any moment of a run: the values of R50, every
unspecified one a draw. They are drawn in this order: the target's 70, the two fragments, S.ATQA, the image's
bytes (log entry 20). `State.reset` is the start of a run and names values instead (log entry 4). -/
def resetEvent (s : State) : State :=
  let b := fun i => s.env.blockByte (70 + i)
  { s with
    seq := { Sequencer.reset with
      frag1 := ⟨b 0, b 1, b 2, b 3, b 4⟩, frag2 := ⟨b 5, b 6, b 7, b 8, b 9⟩, atqa0 := b 10, atqa1 := b 11,
      img := (List.range imageSize).map fun i => b (12 + i) }
    tgt := s.env.freshTarget s.cfg
    env := s.env.afterBytes (82 + imageSize)
    result := .none
    trace := [] }

end Sys2Proof.Machine
end

