-- ==== Sys2Proof/Machine/Reject.lean ====
section
/-! DEFINITION. What happens to a message that encodes no instruction (30_encoding.md R118). -/

namespace Sys2Proof.Machine

/-- A reserved host operation is refused with PreconditionViolation; a malformed record is given to EXTRACT,
which raises MalformedPayload or cuts it (R281, R282); the others have no meaning. -/
def rejectRequest (r : Reject) (bytes : List Byte) (s : State) : Answer :=
  match r with
  | .reservedOp => .next s.refuseRequest
  | .badRecord => execExtract bytes s
  | .badOperands => .refused (.noEncoding .badOperands)
  | .badBusFrame => .refused (.noEncoding .badBusFrame)
  | .badCommand => .refused (.noEncoding .badCommand)
  | .badCardFrame => .refused (.noEncoding .badCardFrame)

end Sys2Proof.Machine
end

