-- ==== Sys2Proof/Machine/Dispatch.lean ====
section
/-! DEFINITION. The dispatch: one arm per row of spec/opcode_table.json, each a direct call of its meaning. -/

namespace Sys2Proof.Machine

def exec (i : Instr) (s : State) : Host.Outcome State Fault Refusal :=
  match i with
  -- HOP: host operations (R117)
  | .regWrite addr value => Sys2Proof.Machine.execRegWrite addr value s
  | .regRead addr => Sys2Proof.Machine.execRegRead addr s
  | .setBits addr mask => Sys2Proof.Machine.execSetBits addr mask s
  | .clearBits addr mask => Sys2Proof.Machine.execClearBits addr mask s
  | .crcCalc data => Sys2Proof.Machine.execCrcCalc data s
  | .toCard cmd tx => Sys2Proof.Machine.execToCard cmd tx s
  | .requestTag => Sys2Proof.Machine.execRequestTag s
  | .selectTag => Sys2Proof.Machine.execSelectTag s
  | .readBlock page => Sys2Proof.Machine.execReadBlock page s
  | .readImage => Sys2Proof.Machine.execReadImage s
  | .readTag => Sys2Proof.Machine.execReadTag s
  | .writeBlock page data => Sys2Proof.Machine.execWriteBlock page data s
  | .region name => Sys2Proof.Machine.execRegion name s
  | .extract buffer => Sys2Proof.Machine.execExtract buffer s
  | .wrap payload => Sys2Proof.Machine.execWrap payload s
  | .init => Sys2Proof.Machine.execInit s
  -- BUS: register-bus frames (R101, R102)
  | .busWrite a v => Sys2Proof.Machine.execBusWrite a v s
  | .busRead a => Sys2Proof.Machine.execBusRead a s
  -- CMD: codes written to COMMAND (R104)
  | .cmdIdle => Sys2Proof.Machine.execCmdIdle s
  | .cmdCalccrc => Sys2Proof.Machine.execCmdCalccrc s
  | .cmdTransceive => Sys2Proof.Machine.execCmdTransceive s
  | .cmdAuthent => Sys2Proof.Machine.execCmdAuthent s
  | .cmdResetphase => Sys2Proof.Machine.execCmdResetphase s
  -- CARD: frames sent to the tag (R106)
  | .reqa => Sys2Proof.Machine.execReqa s
  | .anticoll lvl => Sys2Proof.Machine.execAnticoll lvl s
  | .select lvl u0 u1 u2 u3 bcc crcLo crcHi => Sys2Proof.Machine.execSelect lvl u0 u1 u2 u3 bcc crcLo crcHi s
  | .read page crcLo crcHi => Sys2Proof.Machine.execRead page crcLo crcHi s
  | .write page d0 d1 d2 d3 crcLo crcHi => Sys2Proof.Machine.execWrite page d0 d1 d2 d3 crcLo crcHi s
  -- TLV: the payload record (R113)
  | .tlvRecord payload => Sys2Proof.Machine.execTlvRecord payload s

end Sys2Proof.Machine
end

