-- ==== Sys2Proof/Machine/Step.lean ====
section
/-! DEFINITION. One step of the machine: take the next request of the host port and run it to its end (R116,
R372). A machine without a request waits (R352). -/

namespace Sys2Proof.Machine

/-- The state after its first request has been taken. -/
def State.takeRequest (s : State) : State := { s with port := s.port.tail }

/-- One step. -/
def step (s : State) : Host.Outcome State Fault Refusal :=
  match s.seq.op, s.port with
  | some _, _ => .fault .portBusy
  | none, [] => .next s
  | none, r :: _ =>
    match decode s.cfg r.format r.bytes with
    | .ok i => exec i s.takeRequest
    | .error e => rejectRequest e r.bytes s.takeRequest

/-- The state with the instruction of a table word as its next request (log entry 7). -/
def State.withFetchWord (s : State) (nbits w : Nat) : State :=
  let m := tableRequest s.cfg nbits w
  { s with port := { format := m.1, bytes := m.2 } :: s.port }

end Sys2Proof.Machine
end

