-- ==== Sys2Proof/Machine/Pseudo.lean ====
section
/-! DEFINITION. The pseudo-operations, "sequences with a name, not operations of their own" (30_encoding.md
R121, 44_tag_memory.md R259), and the host's retry loop (60_exceptions.md R336). They stand above the engine:
no row of the opcode table is one of them. -/

namespace Sys2Proof.Machine

/-- "A pseudo-operation stops at the first operation whose outcome is not OK and has that outcome" (R121). -/
def andThen (a : Answer) (f : State → Answer) : Answer :=
  match a with
  | .next t => if t.seq.outcome = .ok then f t else .next t
  | .fault r => .fault r
  | .refused r => .refused r

/-- Operations one after the other, to the first whose outcome is not OK (R121). -/
def runAll : List Instr → State → Answer
  | [], s => .next s
  | i :: rest, s => andThen (exec i s) (runAll rest)

/-- `FLUSH_FIFO` = `SET_BITS FIFOLEVEL, FLUSH` (R121). -/
def flushFifo (s : State) : Answer :=
  exec (.setBits (s.cfg.regmap.fifolevel.setWidth 8) s.cfg.masks.flush) s

/-- `READ_SESSION` = `REQUEST_TAG ; SELECT_TAG ; READ_IMAGE` (R121). -/
def readSession (s : State) : Answer := runAll [.requestTag, .selectTag, .readImage] s

/-- "for i in 0 .. len(w)/4 - 1: WRITE_BLOCK(FIRST_USER_PAGE + i, w[4i : 4i+4])" (R259). -/
def pageWrites : Nat → List Byte → List Instr
  | page, a :: b :: c :: d :: rest =>
    .writeBlock (BitVec.ofNat 8 page) [a, b, c, d] :: pageWrites (page + 1) rest
  | _, _ => []

/-- `WRITE_RECORD payload`: wrap, pad to whole pages, write the pages from the first user-memory page (R259). -/
def writeRecord (payload : List Byte) (s : State) : Answer :=
  andThen (exec (.wrap payload) s) fun t =>
    match t.result with
    | .bytes w => runAll (pageWrites (firstUserPage t.cfg) (padToPage w)) t
    | .none | .byte _ | .exchange _ _ _ => .next t

/-- `WRITE_SESSION payload` = `REQUEST_TAG ; SELECT_TAG ; WRITE_RECORD payload` (R121). -/
def writeSession (payload : List Byte) (s : State) : Answer :=
  andThen (runAll [.requestTag, .selectTag] s) (writeRecord payload)

/-- `READ_RECORD` = `READ_TAG ; b = REGION USER ; EXTRACT b` (R121). -/
def readRecord (s : State) : Answer :=
  andThen (runAll [.readTag, .region .user] s) fun t =>
    match t.result with
    | .bytes b => exec (.extract b) t
    | .none | .byte _ | .exchange _ _ _ => .next t

/-! ## The host's retry loop (R336) -/

/-- Where the host's loop is: after `attempt` attempts none of which was OK, about to make another, or stopped. -/
inductive Retry where
  | trying (attempt : Nat) (s : State)
  | stopped (a : Answer)
  deriving Repr

/-- "if RETRY_MAX is finite and attempt >= RETRY_MAX" (R336); no bound is "the source's value ... unbounded" (R9). -/
def boundReached (retryMax : Option Nat) (attempt : Nat) : Bool :=
  match retryMax with
  | some m => m ≤ attempt
  | none => false

/-- One pass of the loop: an attempt, then the test of the bound, so that the first attempt is made whatever the bound
is. "Every non-OK outcome, NoTag included, takes the same path" (R336); an answer that is no next state stops the run.
RETRY_DELAY is not modelled (R370).

DESIGN CHOICE (log entry 24): it ends on outcome OK of the whole attempt, for writes as for reads, so a write attempt ends
it only when every WRITE_BLOCK has returned OK. The source ends its write loop earlier, at S.UIDLEN != 0, and R336 asks a
host model to say which it uses. -/
def Retry.pass (retryMax : Option Nat) (attempt : State → Answer) : Retry → Retry
  | .stopped a => .stopped a
  | .trying n s =>
    match attempt s with
    | .next t =>
      if t.seq.outcome = .ok ∨ boundReached retryMax (n + 1) = true then .stopped (.next t) else .trying (n + 1) t
    | .fault r => .stopped (.fault r)
    | .refused r => .stopped (.refused r)

/-- The loop, followed for `passes` passes. A bounded one has stopped by then if `passes` is at least RETRY_MAX and at
least 1 (`retryLoop_stops`); an unbounded one may never stop, and this says where it is after any number of passes. -/
def retryLoop (retryMax : Option Nat) (attempt : State → Answer) : Nat → Retry → Retry
  | 0, r => r
  | passes + 1, r => retryLoop retryMax attempt passes (r.pass retryMax attempt)

end Sys2Proof.Machine
end

