-- ==== Sys2Proof/Safety.lean ====
section
/-! DEFINITION. What counts as a safe state and a safe run, in the terms the statements use: the invariant every
step keeps, and the conditions on a state under which an exchange runs to its end. -/

namespace Sys2Proof.Machine

/-! ## The invariant -/

/-- The sequencer is idle between two steps (R21, R372). -/
abbrev Sequencer.idle (q : Sequencer) : Prop := q.op = none ∧ q.phase = 0

/-- The exchange registers stay in the ranges of R22: at most MAX_RX bytes, S.RXBITS in -7..2040, and a kind
exactly when the status is ERR. -/
abbrev Sequencer.exchangeOk (q : Sequencer) : Prop :=
  q.rxbuf.length ≤ maxRx ∧ (-7 ≤ q.rxbits ∧ q.rxbits ≤ 2040) ∧ (q.status = .err ↔ q.errkind ≠ .none)

/-- "Invariant: built only from fragments that passed checksum validation, in cascade order" (R26): the kept
fragments are valid, and the identifier is empty or their combination. -/
abbrev Sequencer.selectOk (q : Sequencer) : Prop :=
  q.nfrag ≤ maxCascade ∧ (1 ≤ q.nfrag → q.frag1.valid = true) ∧ (2 ≤ q.nfrag → q.frag2.valid = true) ∧
    (q.uid = [] ∨ 1 ≤ q.nfrag ∧ q.uid = combine q.fragments)

/-- "the image is either empty (not yet read) or complete (fully assembled)" (R29); S.BLK in 0..FULL_BLOCKS
(R28). -/
abbrev Sequencer.imageOk (q : Sequencer) : Prop :=
  (q.imgPopulated = true → q.img.length = imageSize) ∧ q.blk ≤ fullBlocks

/-- S.POLLCNT stays within the budgets (R23). -/
abbrev Sequencer.pollOk (q : Sequencer) (c : Config) : Prop := q.pollcnt ≤ max c.pollCrc c.pollCmd

/-- The target: the FIFO within its depth (R45), T.CMD one of the five codes (R104, R200), a CRC computation in
flight only while CALCCRC is active (R163, R194), an answer pending only while a transceive that has sent its
frame is active (R194, R202). -/
abbrev Target.ok (t : Target) (c : Config) : Prop :=
  t.fifo.length ≤ c.fifoDepth ∧ (c.codes.command? t.cmd).isSome = true ∧
    (t.crcPend.isSome = true → t.cmd = c.codes.calccrc) ∧ (t.sent = true → t.cmd = c.codes.transceive) ∧
    (t.rxPend.isSome = true → t.sent = true)

/-- The invariant of the machine. -/
structure State.Inv (s : State) : Prop where
  config : s.cfg.wf
  idle : s.seq.idle
  exchange : s.seq.exchangeOk
  select : s.seq.selectOk
  image : s.seq.imageOk
  poll : s.seq.pollOk s.cfg
  target : s.tgt.ok s.cfg
  /-- CRC_CALC's load lies inside one step, so a host's push is refused whenever CALCCRC is active (R163, R366). -/
  loading : s.tgt.loadOpen = false
  /-- Memory in canonical form (R70); the equation of BCC0, which no step can end (R298, R302). -/
  tag : s.env.tag.ok

/-! ## What the bus shows -/

/-- The write frame of R101: "`{(addr<<1) & 0x7E, value}`". -/
def BusFrame.write (a : RegAddr) (v : Byte) : BusFrame :=
  { b0 := (a.setWidth 8 <<< 1) &&& 0x7E, b1 := v, answer := none }

/-- The read frame of R102, "`{((addr<<1) & 0x7E) | 0x80, 0}`", with the byte it returned. -/
def BusFrame.read (a : RegAddr) (v : Byte) : BusFrame :=
  { b0 := ((a.setWidth 8 <<< 1) &&& 0x7E) ||| 0x80, b1 := 0x00, answer := some v }

/-- The sequencer when an operation that wrote no other register of it has returned: idle, with an outcome. -/
def Sequencer.done (q : Sequencer) (k : OpOutcome) : Sequencer := { q with op := none, phase := 0, outcome := k }

/-! ## The bus frames of an exchange, in order (R180) -/

/-- Steps 1 to 6: interrupts enabled, the pending flag cleared (`n` is the value of COMIRQ read), the FIFO flushed (`l`
is the level read), IDLE, the bytes to send, the command (R182, R183). -/
def armFrames (c : Config) (cmd : Command) (tx : List Byte) (n l : Byte) : List BusFrame :=
  [BusFrame.write c.regmap.comien (irqEnable cmd ||| c.masks.ienInv), BusFrame.read c.regmap.comirq n,
    BusFrame.write c.regmap.comirq (n &&& c.masks.irqSet1.compl), BusFrame.read c.regmap.fifolevel l,
    BusFrame.write c.regmap.fifolevel (l ||| c.masks.flush), BusFrame.write c.regmap.command (c.codes.byte .idle)] ++
    tx.map (BusFrame.write c.regmap.fifodata) ++ [BusFrame.write c.regmap.command (c.codes.byte cmd)]

/-- Step 7, for a transceive only: START_SEND set, `b` being the values of BITFRAMING read (R183). -/
def startFrames (c : Config) (b : List Byte) : List BusFrame :=
  b.flatMap fun v =>
    [BusFrame.read c.regmap.bitframing v, BusFrame.write c.regmap.bitframing (v ||| c.masks.startSend)]

/-- Steps 8 and 9: the poll, then START_SEND cleared (R184, R185). -/
def pollFrames (c : Config) (polls : List Byte) (b : Byte) : List BusFrame :=
  polls.map (BusFrame.read c.regmap.comirq) ++
    [BusFrame.read c.regmap.bitframing b, BusFrame.write c.regmap.bitframing (b &&& c.masks.startSend.compl)]

/-- Step 13, for a transceive only: the count, the valid bits of the last byte, the bytes (R188, R189). -/
def readFrames (c : Config) (cnt ctl : Byte) (rx : List Byte) : List BusFrame :=
  [BusFrame.read c.regmap.fifolevel cnt, BusFrame.read (c.regmap.addr c.masks.rxlastReg) ctl] ++
    rx.map (BusFrame.read c.regmap.fifodata)

/-! ## Registers without a special rule (R146) -/

/-- The registers that are plain storage for a write: no rule but R146 (CONTROL's bits[2:0] are a view when
read, R40). -/
def RegName.storesWrite : Option RegName → Bool
  | some .comien | some .status2 | some .control | some .mode | some .txcontrol | some .txauto
  | some .tmode | some .tprescaler | some .treloadH | some .treloadL | none => true
  | some .command | some .comirq | some .divirq | some .error | some .fifodata | some .fifolevel
  | some .bitframing | some .crcresultH | some .crcresultL => false

/-- The registers whose read is plain storage (R146). -/
def RegName.storesRead : Option RegName → Bool
  | some .command | some .comien | some .status2 | some .bitframing | some .mode | some .txcontrol
  | some .txauto | some .tmode | some .tprescaler | some .treloadH | some .treloadL | none => true
  | some .comirq | some .divirq | some .error | some .fifodata | some .fifolevel | some .control
  | some .crcresultH | some .crcresultL => false

/-! ## Conditions for an exchange to run to its end -/

/-- Nothing is pending in the target (R372). -/
abbrev Target.calm (g : Target) : Prop := g.crcPend = none ∧ g.rxPend = none

/-- Nothing is pending in the target: a quiescent state (R372). -/
abbrev State.quiescent (s : State) : Prop := s.tgt.calm

/-- No error bit of ERR_MASK is left in ERROR but the overflow bit, which every flush clears (R193). -/
abbrev State.clean (s : State) : Prop := errorFails (errAfterFlush s.tgt.err) = false

/-- The reference target under the simulator's draws (R304) with delays within both budgets, no delay scripted: an
event always happens before its poll gives up. -/
abbrev State.prompt (s : State) (crcDelay rxDelay : Nat) : Prop :=
  s.env.level = .referenceTarget ∧ s.env.drawSource = .simulator crcDelay rxDelay ∧ s.env.delayFeed = [] ∧
    crcDelay < s.cfg.pollCrc ∧ rxDelay < s.cfg.pollCmd

/-- A well-formed configuration with the default masks, which the reference target's own bits match (R8). -/
abbrev State.standard (s : State) : Prop := s.cfg.wf ∧ s.cfg.masks = Masks.default

/-- A state from which an exchange runs to its end: standard, prompt, quiescent. -/
abbrev State.ready (s : State) (crcDelay rxDelay : Nat) : Prop :=
  s.standard ∧ s.prompt crcDelay rxDelay ∧ s.quiescent

/-- A ready state in which CRC computations are right too: DIVIRQ stores (R165, R365). -/
abbrev State.sumsReady (s : State) (crcDelay rxDelay : Nat) : Prop :=
  s.ready crcDelay rxDelay ∧ s.cfg.divirqMode = .store

/-- A state that is ready for the reference tag (R296): the default card command bytes, CRC_A, a FIFO that holds a
read answer, and no scripted answer. -/
abbrev State.tagReady (s : State) (crcDelay rxDelay : Nat) : Prop :=
  s.sumsReady crcDelay rxDelay ∧ s.cfg.card = CardCodes.default ∧ s.cfg.crc = .crcA ∧ 18 ≤ s.cfg.fifoDepth ∧
    s.env.cardFeed = [] ∧ s.env.cardSource = .referenceTag

/-- No command byte of a frame that reads a tag is the byte by which the reference tag knows a WRITE (R111, R302); it
holds of the default bytes (R8). -/
abbrev ReadsOnly (k : CardCodes) : Prop := ∀ b ∈ [k.reqCode, k.selCl1, k.selCl2, k.readCmd], b ≠ (0xA2 : Byte)

/-- BITFRAMING bits[2:0]: how many bits of the last byte are sent (R41). -/
def State.txlast (s : State) : BitVec 3 := (s.tgt.reg s.cfg.regmap.bitframing).extractLsb' 0 3

/-- The target refuses no write of this value at this address (R163, R194, R199, R200). -/
abbrev State.accepts (s : State) (a : RegAddr) (v : Byte) : Prop :=
  s.env.level = .busOracle ∨
    ((s.cfg.regmap.nameAt a = some .command →
        (s.cfg.codes.ofByte v).isSome = true ∧ s.cfg.codes.ofByte v ≠ some .authent) ∧
      (s.cfg.regmap.nameAt a = some .fifodata → s.tgt.cmd = s.cfg.codes.calccrc → s.tgt.loadOpen = true))

/-! ## What a failed exchange is raised as -/

/-- An outcome agrees with the last exchange (R221): NoTag exactly when it reported NOTAG, BusTimeout exactly when its
poll ran out, ProtocolError where it failed with that kind. -/
abbrev Sequencer.agrees (q : Sequencer) (k : OpOutcome) : Prop :=
  (k = .noTag ↔ q.status = .notag) ∧ (k = .busTimeout ↔ q.status = .err ∧ q.errkind = .busTimeout) ∧
    (q.status = .err → q.errkind = .protocolError → k = .protocolError)

/-! ## Safe runs -/

/-- A step is safe if the machine goes on: it neither faults nor refuses. -/
def Answer.goesOn : Answer → Bool
  | .next _ => true
  | .fault _ => false
  | .refused _ => false

/-- A run of `n` steps is safe if every one of its steps goes on. -/
def SafeRun (n : Nat) (s : State) : Bool := Answer.goesOn (Sys2Proof.core.run n s)

/-- The outcome of an operation is a fault: every outcome but OK and NoTag (R321). -/
def OpOutcome.isFault : OpOutcome → Bool
  | .ok | .noTag => false
  | .busTimeout | .protocolError | .checksumError | .unsupportedCascade | .malformedPayload
  | .preconditionViolation => true

end Sys2Proof.Machine
end

