-- ==== Sys2Proof/Certificates/Slice0/Obligations.lean ====
section
/-! DEFINITION. The statements for the provers. Each docstring names the rule of spec/ it formalises; OBLIGATIONS.json
says which are the spec's and which rest on a choice of this model. -/

section

open Sys2Proof Sys2Proof.Machine

/-! ## Encodings and the step -/

/-- Decoding the bytes of a well-formed instruction gives it back, in every format and for every operand (30_encoding.md;
the HOP operand layout is log entry 6). -/
def Obligations.DecodeOfEncode : Prop :=
  ∀ (c : Config) (i : Instr), c.wf → i.wf = true → decode c i.format (encode c i) = .ok i

/-- A message decodes in one way only: its bytes are the encoding of the instruction it decodes to, but for the ignored
second byte of a read frame (R118, T13). -/
def Obligations.EncodeOfDecode : Prop :=
  ∀ (c : Config) (f : Format) (bytes : List Byte) (i : Instr), decode c f bytes = .ok i →
    i.format = f ∧ i.wf = true ∧
      (encode c i = bytes ∨ ∃ (a : RegAddr) (v : Byte), i = .busRead a ∧ bytes = [busReadByte0 a, v])

/-- Words written out from the spec's encodings decode to the instruction they stand for (R103, R104, R107 to R111,
R113, R117). The WRITE_BLOCK word rests on the operand layout of log entry 6, the model's choice; the CMD and CARD words on
the codes and bytes of the default configuration, which are PRESUMED (R8, log entry 2). -/
def Obligations.SpecWordsDecode : Prop :=
  decode .default .bus [0x1A, 0x07] = .ok (.busWrite 0x0D 0x07) ∧
  decode .default .bus [0xFE, 0x00] = .ok (.busRead 0x3F) ∧
  decode .default .hop [0x07] = .ok .requestTag ∧
  decode .default .hop [0x0C, 0x04, 0xD0, 0xD1, 0xD2, 0xD3] = .ok (.writeBlock 0x04 [0xD0, 0xD1, 0xD2, 0xD3]) ∧
  decode .default .cmd [0x0C] = .ok .cmdTransceive ∧
  decode .default .card [0x95, 0x20] = .ok (.anticoll .two) ∧
  decode .default .card [0x30, 0x04, 0x26, 0xEE] = .ok (.read 0x04 0x26 0xEE) ∧
  decode .default .tlv [0x03, 0x02, 0xAA, 0xBB] = .ok (.tlvRecord [0xAA, 0xBB])

/-- A step runs the instruction that the first request encodes, on the state without that request (R116). -/
def Obligations.StepRunsDecoded : Prop :=
  ∀ (s : State) (r : Request) (rest : List Request) (i : Instr), s.seq.op = none → s.port = r :: rest →
    decode s.cfg r.format r.bytes = .ok i → step s = exec i { s with port := rest }

/-- What a step does without an instruction: it waits when there is no request (R352; that the state stays as it is, is the
model's choice, log entry 18); it refuses a reserved operation with PreconditionViolation and no transaction (R118); it
stops where the port is not accepted (R116, U4). -/
def Obligations.StepWithoutInstruction : Prop :=
  (∀ s : State, s.seq.op = none → s.port = [] → step s = .next s) ∧
  (∀ (s : State) (op : Byte) (args : List Byte) (rest : List Request), s.seq.op = none →
    s.port = { format := .hop, bytes := op :: args } :: rest → op = 0x00 ∨ 0x10 < op →
    step s = .next { s with port := rest, seq := { s.seq with outcome := .preconditionViolation }, result := .none,
                            trace := [] }) ∧
  ∀ (s : State) (n : OpName), s.seq.op = some n → step s = .fault .portBusy

/-! ## Reset and the invariant -/

/-- The reset values R50 gives: idle, status OK, no identifier, no image, outcome OK; FIFO empty, IDLE, nothing in
flight. The registers it leaves unspecified are log entry 4 and are not in this statement. -/
def Obligations.ResetValues : Prop :=
  State.reset.seq.op = none ∧ State.reset.seq.phase = 0 ∧ State.reset.seq.status = .ok ∧
  State.reset.seq.errkind = .none ∧ State.reset.seq.rxbuf = [] ∧ State.reset.seq.rxbits = 0 ∧
  State.reset.seq.irqen = 0 ∧ State.reset.seq.waitirq = 0 ∧ State.reset.seq.irqval = 0 ∧
  State.reset.seq.pollcnt = 0 ∧ State.reset.seq.crcLo = 0x00 ∧ State.reset.seq.crcHi = 0x00 ∧
  State.reset.seq.level = .one ∧ State.reset.seq.nfrag = 0 ∧ State.reset.seq.uid = [] ∧ State.reset.seq.blk = 0 ∧
  State.reset.seq.acc = [] ∧ State.reset.seq.imgPopulated = false ∧ State.reset.seq.outcome = .ok ∧
  State.reset.tgt.fifo = [] ∧ State.reset.tgt.cmd = State.reset.cfg.codes.idle ∧ State.reset.tgt.crcPend = none ∧
  State.reset.tgt.sent = false ∧ State.reset.tgt.rxPend = none

/-- The invariant holds right after reset, and the tag in the field is one that may be configured: its state is IDLE and
its memory meets both BCC equations (R296, R298; that it is blank is log entry 10). -/
def Obligations.ResetMeetsInvariant : Prop := State.reset.Inv ∧ State.reset.env.tag.configured

/-- Every step from a state that meets the invariant ends in one that meets it: the ranges of R21 to R29, R45, R47, the
identifier built from valid fragments (R26), the image empty or complete (R29), memory in its canonical form, and the
equation of BCC0, which no WRITE reaches (R298, R302); no load of CRC_CALC is left open (log entry 11). -/
def Obligations.StepKeepsInvariant : Prop :=
  ∀ s t : State, s.Inv → step s = .next t → t.Inv

/-! ## The transport (U0) -/

/-- Over an unconstrained transport a bus row sends exactly the frame of R101 or R102 and touches nothing else; a read
returns whatever the transport answers (its draw is log entry 5). AUTHENT completes there (R104, R199). That a row run on its
own leaves S.OUTCOME is the model's choice (log entry 12). -/
def Obligations.BusFramesOverOracle : Prop :=
  ∀ (s : State) (a : RegAddr) (v : Byte), s.env.level = .busOracle →
    exec (.busWrite a v) s = .next { s with seq := { s.seq with phase := 0 }, result := .none,
                                            trace := [BusFrame.write a v] } ∧
    exec (.busRead a) s = .next { s with seq := { s.seq with phase := 0 }, env := s.env.afterBytes 1,
                                         result := .byte (s.env.byteValue 0x00),
                                         trace := [BusFrame.read a (s.env.byteValue 0x00)] } ∧
    exec .cmdAuthent s = .next { s with seq := { s.seq with phase := 0 }, result := .none,
                                        trace := [BusFrame.write s.cfg.regmap.command (s.cfg.codes.byte .authent)] }

/-- REG_WRITE and REG_READ are one bus transaction of their operand address, at every level and for every register, and
leave the sequencer idle with outcome OK (R140, R141); a write completes exactly where the target refuses no such value
(R163, R194, R199, R200; the FIFO case is log entry 11). -/
def Obligations.HostRegisterAccess : Prop :=
  ∀ (s : State) (addr v : Byte), addr ≤ 0x3F →
    (s.accepts (addr.setWidth 6) v → ∃ t, exec (.busWrite (addr.setWidth 6) v) s = .next t ∧
      t.seq = { s.seq with phase := 0 } ∧ t.result = .none ∧ t.trace = [BusFrame.write (addr.setWidth 6) v] ∧
      exec (.regWrite addr v) s = .next { t with seq := s.seq.done .ok }) ∧
    (¬ s.accepts (addr.setWidth 6) v → ∃ r, exec (.busWrite (addr.setWidth 6) v) s = .refused r ∧
      exec (.regWrite addr v) s = .refused r) ∧
    ∃ t w, exec (.busRead (addr.setWidth 6)) s = .next t ∧ t.result = .byte w ∧
      t.trace = [BusFrame.read (addr.setWidth 6) w] ∧
      exec (.regRead addr) s = .next { t with seq := s.seq.done .ok }

/-- "An operand above 0x3F is refused with PreconditionViolation before any transaction" (R72): nothing but the outcome
is written. -/
def Obligations.AddressOperandRefused : Prop :=
  ∀ (s : State) (addr v : Byte), 0x3F < addr →
    ∀ i ∈ [Instr.regWrite addr v, .regRead addr, .setBits addr v, .clearBits addr v],
      exec i s = .next { s with seq := s.seq.done .preconditionViolation, result := .none, trace := [] }

/-- "Exactly two transactions, read first" (R142, R143): SET_BITS reads `v` and writes `v | mask`, CLEAR_BITS reads `v`
and writes `v & (0xFF ^ mask)`, each as the bus rows do it, one after the other; the operand check comes before. -/
def Obligations.MaskHelpersReadThenWrite : Prop :=
  ∀ (s : State) (addr mask : Byte),
    (0x3F < addr → ∀ i ∈ [Instr.setBits addr mask, .clearBits addr mask],
      exec i s = .next { s with seq := s.seq.done .preconditionViolation, result := .none, trace := [] }) ∧
    (addr ≤ 0x3F →
    ∃ u v, exec (.busRead (addr.setWidth 6)) s = .next u ∧ u.result = .byte v ∧
      (∀ t, exec (.busWrite (addr.setWidth 6) (v ||| mask)) u = .next t →
        exec (.setBits addr mask) s = .next { t with seq := s.seq.done .ok, trace := t.trace ++ u.trace }) ∧
      (∀ r, exec (.busWrite (addr.setWidth 6) (v ||| mask)) u = .refused r →
        exec (.setBits addr mask) s = .refused r) ∧
      (∀ t, exec (.busWrite (addr.setWidth 6) (v &&& (0xFF ^^^ mask))) u = .next t →
        exec (.clearBits addr mask) s = .next { t with seq := s.seq.done .ok, trace := t.trace ++ u.trace }) ∧
      ∀ r, exec (.busWrite (addr.setWidth 6) (v &&& (0xFF ^^^ mask))) u = .refused r →
        exec (.clearBits addr mask) s = .refused r)

/-- SET_BITS and CLEAR_BITS complete at every register that is plain storage (R142, R143, R146): the masked bits are set
or cleared, every other register, the FIFO, the flags and the card keep their values but for the target's own events. -/
def Obligations.MaskHelpersOnStorage : Prop :=
  ∀ (s : State) (addr mask : Byte), s.env.level = .referenceTarget → addr ≤ 0x3F →
    RegName.storesRead (s.cfg.regmap.nameAt (addr.setWidth 6)) = true →
    RegName.storesWrite (s.cfg.regmap.nameAt (addr.setWidth 6)) = true →
    (∃ t, exec (.setBits addr mask) s = .next t ∧
      t.tgt = (((s.tgt.tick s.cfg).tick s.cfg).setReg (addr.setWidth 6) (s.tgt.reg (addr.setWidth 6) ||| mask)) ∧
      t.seq = s.seq.done .ok ∧ t.env = s.env ∧ t.result = .none) ∧
    ∃ t, exec (.clearBits addr mask) s = .next t ∧
      t.tgt = (((s.tgt.tick s.cfg).tick s.cfg).setReg (addr.setWidth 6)
        (s.tgt.reg (addr.setWidth 6) &&& (0xFF ^^^ mask))) ∧
      t.seq = s.seq.done .ok ∧ t.env = s.env ∧ t.result = .none

/-! ## The reference target's registers -/

/-- "a register with no special rule is storage" (R146): a write stores the byte at that address and nowhere else, a
read returns the byte stored. -/
def Obligations.StorageRegisters : Prop :=
  ∀ (s : State) (a : RegAddr) (v : Byte), s.env.level = .referenceTarget →
    (RegName.storesWrite (s.cfg.regmap.nameAt a) = true → ∃ t, exec (.busWrite a v) s = .next t ∧
      (∀ b, t.tgt.reg b = if b = a then v else s.tgt.reg b) ∧
      t = { s with seq := { s.seq with phase := 0 }, tgt := { (s.tgt.tick s.cfg) with regs := t.tgt.regs },
                   result := .none, trace := [BusFrame.write a v] }) ∧
    (RegName.storesRead (s.cfg.regmap.nameAt a) = true →
      exec (.busRead a) s = .next { s with seq := { s.seq with phase := 0 }, tgt := s.tgt.tick s.cfg,
                                           result := .byte (s.tgt.reg a), trace := [BusFrame.read a (s.tgt.reg a)] })

/-- The read-only views (R146, R169, R40): ERROR reads T.ERR, CONTROL reads its stored bits[7:3] and T.RXLAST, the CRC
result registers read T.CRCRES only after a completion event and while no computation is pending, else a draw; a write to
ERROR or to a CRC result register is ignored. -/
def Obligations.ReadOnlyRegisters : Prop :=
  ∀ (s : State) (v : Byte), s.env.level = .referenceTarget → s.cfg.regmap.distinct →
    (∀ n ∈ [RegName.error, .crcresultH, .crcresultL],
      exec (.busWrite (s.cfg.regmap.addr n) v) s = .next { s with
        seq := { s.seq with phase := 0 }, tgt := s.tgt.tick s.cfg, result := .none,
        trace := [BusFrame.write (s.cfg.regmap.addr n) v] }) ∧
    (∃ t, exec (.busRead s.cfg.regmap.error) s = .next t ∧ t.result = .byte (s.tgt.tick s.cfg).err ∧
      t.tgt = s.tgt.tick s.cfg ∧ t.env = s.env) ∧
    (∃ t b, exec (.busRead s.cfg.regmap.control) s = .next t ∧ t.result = .byte b ∧
      b.extractLsb' 0 3 = (s.tgt.tick s.cfg).rxLast ∧
      b.extractLsb' 3 5 = (s.tgt.reg s.cfg.regmap.control).extractLsb' 3 5 ∧
      t.tgt = s.tgt.tick s.cfg ∧ t.env = s.env) ∧
    ((s.tgt.tick s.cfg).crcKnown = true → (s.tgt.tick s.cfg).crcPend = none →
      (∃ t, exec (.busRead s.cfg.regmap.crcresultL) s = .next t ∧
        t.result = .byte ((s.tgt.tick s.cfg).crcRes.extractLsb' 0 8) ∧ t.tgt = s.tgt.tick s.cfg ∧ t.env = s.env) ∧
      ∃ t, exec (.busRead s.cfg.regmap.crcresultH) s = .next t ∧
        t.result = .byte ((s.tgt.tick s.cfg).crcRes.extractLsb' 8 8) ∧ t.tgt = s.tgt.tick s.cfg ∧ t.env = s.env) ∧
    ((s.tgt.tick s.cfg).crcKnown = false ∨ (s.tgt.tick s.cfg).crcPend ≠ none →
      ∀ n ∈ [RegName.crcresultH, .crcresultL], ∃ t b, exec (.busRead (s.cfg.regmap.addr n)) s = .next t ∧
        t.result = .byte b ∧ t.tgt = s.tgt.tick s.cfg ∧ t.env = s.env.afterBytes 1 ∧
        ∀ x rest, s.env.byteFeed = x :: rest → b = x)

/-- The FIFO (R191): a write pushes at the tail while there is room, a read pops the head, FIFOLEVEL reads the number of
bytes. A host's push while CALCCRC is active is TargetRefusals: `loadOpen` is false between two steps (log entry 11). -/
def Obligations.FifoQueue : Prop :=
  ∀ (s : State) (v : Byte), s.env.level = .referenceTarget → s.cfg.regmap.distinct →
    ((s.tgt.tick s.cfg).fifo.length < s.cfg.fifoDepth →
      (s.tgt.cmd = s.cfg.codes.calccrc → s.tgt.loadOpen = true) →
      exec (.busWrite s.cfg.regmap.fifodata v) s = .next { s with
        seq := { s.seq with phase := 0 },
        tgt := { (s.tgt.tick s.cfg) with fifo := (s.tgt.tick s.cfg).fifo ++ [v] }, result := .none,
        trace := [BusFrame.write s.cfg.regmap.fifodata v] }) ∧
    (∀ h rest, (s.tgt.tick s.cfg).fifo = h :: rest →
      exec (.busRead s.cfg.regmap.fifodata) s = .next { s with
        seq := { s.seq with phase := 0 }, tgt := { (s.tgt.tick s.cfg) with fifo := rest }, result := .byte h,
        trace := [BusFrame.read s.cfg.regmap.fifodata h] }) ∧
    ∃ t b, exec (.busRead s.cfg.regmap.fifolevel) s = .next t ∧ t.result = .byte b ∧
      ((s.tgt.tick s.cfg).fifo.length ≤ 255 → b.toNat = (s.tgt.tick s.cfg).fifo.length) ∧
      t.tgt = s.tgt.tick s.cfg ∧ t.env = s.env

/-- "FIFO limits" (R192): a byte written to a full FIFO is dropped and sets the overflow bit; a read of an empty FIFO
returns a draw and changes nothing; a reception longer than the FIFO is cut and sets the same bit. -/
def Obligations.FifoLimits : Prop :=
  ∀ (s : State) (v : Byte), s.env.level = .referenceTarget → s.cfg.regmap.distinct →
    ((s.tgt.tick s.cfg).fifo.length = s.cfg.fifoDepth →
      (s.tgt.cmd = s.cfg.codes.calccrc → s.tgt.loadOpen = true) →
      exec (.busWrite s.cfg.regmap.fifodata v) s = .next { s with
        seq := { s.seq with phase := 0 }, tgt := { (s.tgt.tick s.cfg) with err := (s.tgt.tick s.cfg).err ||| 0x10 },
        result := .none, trace := [BusFrame.write s.cfg.regmap.fifodata v] }) ∧
    ((s.tgt.tick s.cfg).fifo = [] → ∃ t b, exec (.busRead s.cfg.regmap.fifodata) s = .next t ∧ t.result = .byte b ∧
      t.tgt = s.tgt.tick s.cfg ∧ t.env = s.env.afterBytes 1 ∧ ∀ x rest, s.env.byteFeed = x :: rest → b = x) ∧
    ∀ r lb e, s.tgt.rxPend = some (.response r lb e) → s.tgt.rxWait = some 0 → s.cfg.fifoDepth < r.length →
      ∃ t, exec (.busRead s.cfg.regmap.error) s = .next t ∧ t.tgt.fifo = r.take s.cfg.fifoDepth ∧
        t.tgt.err.getLsbD 4 = true ∧ t.result = .byte t.tgt.err

/-- "Flush" (R193): a write to FIFOLEVEL with a FLUSH bit empties the FIFO and clears the overflow bit, without one it
does nothing; the register stores nothing; SET_BITS of FLUSH reads the level, writes it with FLUSH set, and flushes. -/
def Obligations.FifoFlush : Prop :=
  ∀ (s : State) (v : Byte), s.env.level = .referenceTarget → s.cfg.wf →
    (v &&& s.cfg.masks.flush ≠ 0 → ∃ t, exec (.busWrite s.cfg.regmap.fifolevel v) s = .next t ∧
      t.tgt = { (s.tgt.tick s.cfg) with fifo := [], err := (s.tgt.tick s.cfg).err &&& (0xFF ^^^ 0x10) } ∧
      t.env = s.env) ∧
    (v &&& s.cfg.masks.flush = 0 → ∃ t, exec (.busWrite s.cfg.regmap.fifolevel v) s = .next t ∧
      t.tgt = s.tgt.tick s.cfg ∧ t.env = s.env) ∧
    ∃ t l, exec (.setBits (s.cfg.regmap.fifolevel.setWidth 8) s.cfg.masks.flush) s = .next t ∧
      l = BitVec.ofNat 8 (s.tgt.tick s.cfg).fifo.length ∧
      t.trace = [BusFrame.write s.cfg.regmap.fifolevel (l ||| s.cfg.masks.flush),
        BusFrame.read s.cfg.regmap.fifolevel l] ∧
      t.tgt.fifo = [] ∧ t.tgt.err.getLsbD 4 = false ∧ t.tgt.regs = s.tgt.regs ∧ t.seq = s.seq.done .ok

/-! ## The command register -/

/-- A code written to COMMAND is stored and cancels the previous command's activity (R194); IDLE does nothing more
(R195), TRANSCEIVE arms the transmitter and the FIFO keeps its content (R197). -/
def Obligations.CommandsAccepted : Prop :=
  ∀ s : State, s.env.level = .referenceTarget → s.cfg.wf →
    exec .cmdIdle s = .next { s with
      seq := { s.seq with phase := 0 },
      tgt := { ((s.tgt.tick s.cfg).setReg s.cfg.regmap.command (s.cfg.codes.idle.setWidth 8)) with
        cmd := s.cfg.codes.idle, crcPend := none, rxPend := none, sent := false },
      result := .none, trace := [BusFrame.write s.cfg.regmap.command (s.cfg.codes.idle.setWidth 8)] } ∧
    exec .cmdTransceive s = .next { s with
      seq := { s.seq with phase := 0 },
      tgt := { ((s.tgt.tick s.cfg).setReg s.cfg.regmap.command (s.cfg.codes.transceive.setWidth 8)) with
        cmd := s.cfg.codes.transceive, crcPend := none, rxPend := none, sent := false },
      result := .none, trace := [BusFrame.write s.cfg.regmap.command (s.cfg.codes.transceive.setWidth 8)] }

/-- "takes the whole content of the FIFO as the engine's input and empties the FIFO" (R163); no flag and no register but
COMMAND changes, and COMIRQ's flags do not (R196). -/
def Obligations.CalccrcTakesFifo : Prop :=
  ∀ s : State, s.env.level = .referenceTarget → s.cfg.wf →
    ∃ t, exec .cmdCalccrc s = .next t ∧ t.tgt.cmd = s.cfg.codes.calccrc ∧
      t.tgt.crcPend = some (s.tgt.tick s.cfg).fifo ∧ t.tgt.fifo = [] ∧ t.tgt.rxPend = none ∧ t.tgt.sent = false ∧
      (∀ a, t.tgt.reg a = if a = s.cfg.regmap.command then s.cfg.codes.calccrc.setWidth 8 else s.tgt.reg a) ∧
      t.tgt.comFlags = (s.tgt.tick s.cfg).comFlags ∧ t.tgt.divFlags = (s.tgt.tick s.cfg).divFlags ∧
      t.tgt.err = (s.tgt.tick s.cfg).err ∧ t.tgt.rxLast = (s.tgt.tick s.cfg).rxLast ∧
      t.tgt.crcRes = (s.tgt.tick s.cfg).crcRes ∧ t.env = s.env.afterDelay ∧
      t.seq = { s.seq with phase := 0 } ∧
      t.trace = [BusFrame.write s.cfg.regmap.command (s.cfg.codes.calccrc.setWidth 8)]

/-- RESETPHASE (R198): "FIFO empty, nothing pending, `T.CMD <- CMD_IDLE`, every other target register and flag a fresh
draw. The sequencer's own registers are untouched." A scripted draw of register `a` is what register `a` holds then. -/
def Obligations.ResetphaseResetsTarget : Prop :=
  ∀ s : State, s.env.level = .referenceTarget → s.cfg.wf →
    ∃ t, exec .cmdResetphase s = .next t ∧ t.tgt.fifo = [] ∧ t.tgt.crcPend = none ∧ t.tgt.rxPend = none ∧
      t.tgt.sent = false ∧ t.tgt.cmd = s.cfg.codes.idle ∧ t.tgt.crcKnown = false ∧
      (∀ (a : RegAddr) (b : Byte), s.env.byteFeed[a.toNat]? = some b → t.tgt.reg a = b) ∧
      t.env = s.env.afterBytes 70 ∧ t.seq = { s.seq with phase := 0 }

/-- The writes the reference target gives no meaning: AUTHENT, alone or through TO_CARD (R199); a value with bits[7:4]
set or of no code (R194, R200); a byte the host pushes while CALCCRC is active, in any form, and after a flush of its own
too (R163, R366; `loadOpen` is false between two steps, log entry 11). -/
def Obligations.TargetRefusals : Prop :=
  ∀ (s : State) (v : Byte) (tx : List Byte), s.env.level = .referenceTarget → s.cfg.wf →
    exec .cmdAuthent s = .refused .authentRefused ∧
    exec (.toCard .authent tx) s = .refused .authentRefused ∧
    (v.extractLsb' 4 4 ≠ (0 : BitVec 4) ∨ (∀ k : Command, s.cfg.codes.code k ≠ v.extractLsb' 0 4) →
      exec (.busWrite s.cfg.regmap.command v) s = .refused (.commandRefused v)) ∧
    (s.tgt.cmd = s.cfg.codes.calccrc → s.tgt.loadOpen = false →
      exec (.busWrite s.cfg.regmap.fifodata v) s = .refused .fifoPushDuringCrc ∧
      exec (.regWrite (s.cfg.regmap.fifodata.setWidth 8) v) s = .refused .fifoPushDuringCrc ∧
      exec (.setBits (s.cfg.regmap.fifodata.setWidth 8) v) s = .refused .fifoPushDuringCrc ∧
      exec (.clearBits (s.cfg.regmap.fifodata.setWidth 8) v) s = .refused .fifoPushDuringCrc ∧
      ∃ t, exec (.setBits (s.cfg.regmap.fifolevel.setWidth 8) s.cfg.masks.flush) s = .next t ∧ t.tgt.fifo = [] ∧
        exec (.busWrite s.cfg.regmap.fifodata v) t = .refused .fifoPushDuringCrc)

/-! ## Flags and events -/

/-- "COMIRQ reads and writes" (R201), bit by bit; and `ClearBits(COMIRQ, 0x80)` clears every flag it read, while "every
flag that rises between the read and the write survives". -/
def Obligations.ComirqAccess : Prop :=
  ∀ (s : State) (v : Byte), s.env.level = .referenceTarget → s.cfg.regmap.distinct →
    (∃ t b, exec (.busRead s.cfg.regmap.comirq) s = .next t ∧ t.result = .byte b ∧ b.getLsbD 7 = false ∧
      (∀ i, i < 7 → b.getLsbD i = (s.tgt.tick s.cfg).comFlags.getLsbD i) ∧ t.tgt = s.tgt.tick s.cfg) ∧
    (∃ t, exec (.busWrite s.cfg.regmap.comirq v) s = .next t ∧
      (∀ i, i < 7 → t.tgt.comFlags.getLsbD i =
        if v.getLsbD 7 then (s.tgt.tick s.cfg).comFlags.getLsbD i || v.getLsbD i
        else (s.tgt.tick s.cfg).comFlags.getLsbD i && !v.getLsbD i) ∧
      t.tgt = { (s.tgt.tick s.cfg) with comFlags := t.tgt.comFlags } ∧ t.env = s.env) ∧
    ∃ t, exec (.clearBits (s.cfg.regmap.comirq.setWidth 8) 0x80) s = .next t ∧
      (∀ i, i < 7 → t.tgt.comFlags.getLsbD i =
        (((s.tgt.tick s.cfg).tick s.cfg).comFlags.getLsbD i && !(s.tgt.tick s.cfg).comFlags.getLsbD i)) ∧
      t.tgt = { ((s.tgt.tick s.cfg).tick s.cfg) with comFlags := t.tgt.comFlags } ∧ t.seq = s.seq.done .ok

/-- "DIVIRQ reads and writes" (R165), bit by bit in both write modes; step 1 of CRC_CALC clears the CRC flag under
`store`, and under `set_clear` "a flag that was set stays set". -/
def Obligations.DivirqAccess : Prop :=
  ∀ (s : State) (v : Byte), s.env.level = .referenceTarget → s.cfg.wf →
    (∃ t b, exec (.busRead s.cfg.regmap.divirq) s = .next t ∧ t.result = .byte b ∧ b.getLsbD 7 = false ∧
      (∀ i, i < 7 → b.getLsbD i = (s.tgt.tick s.cfg).divFlags.getLsbD i) ∧ t.tgt = s.tgt.tick s.cfg) ∧
    (∃ t, exec (.busWrite s.cfg.regmap.divirq v) s = .next t ∧
      (∀ i, i < 7 → t.tgt.divFlags.getLsbD i = match s.cfg.divirqMode with
        | .store => v.getLsbD i
        | .setClear =>
          if v.getLsbD 7 then (s.tgt.tick s.cfg).divFlags.getLsbD i || v.getLsbD i
          else (s.tgt.tick s.cfg).divFlags.getLsbD i && !v.getLsbD i) ∧
      t.tgt = { (s.tgt.tick s.cfg) with divFlags := t.tgt.divFlags } ∧ t.env = s.env) ∧
    ∃ t, exec (.clearBits (s.cfg.regmap.divirq.setWidth 8) s.cfg.masks.crcIrq) s = .next t ∧
      ∀ i, i < 7 → s.cfg.masks.crcIrq.getLsbD i = true →
        (s.cfg.divirqMode = .store → t.tgt.divFlags.getLsbD i = false) ∧
        (s.cfg.divirqMode = .setClear → s.tgt.divFlags.getLsbD i = true → t.tgt.divFlags.getLsbD i = true)

/-- "Transmission" (R202): BITFRAMING stores the value; if START_SEND is set, a transceive is active and it has not sent,
the FIFO's bytes go to the card port with bits[2:0] of the value, and the answer is pending. -/
def Obligations.Transmission : Prop :=
  ∀ (s : State) (v : Byte), s.env.level = .referenceTarget → s.cfg.regmap.distinct →
    (v &&& s.cfg.masks.startSend ≠ 0 → s.tgt.cmd = s.cfg.codes.transceive → s.tgt.sent = false →
      ∃ t, exec (.busWrite s.cfg.regmap.bitframing v) s = .next t ∧
        (∀ a, t.tgt.reg a = if a = s.cfg.regmap.bitframing then v else s.tgt.reg a) ∧ t.tgt.fifo = [] ∧
        t.tgt.sent = true ∧ t.tgt.cmd = s.tgt.cmd ∧
        t.tgt.rxPend = some (s.env.exchange (s.tgt.tick s.cfg).fifo (v.extractLsb' 0 3)).1 ∧
        t.env = (s.env.exchange (s.tgt.tick s.cfg).fifo (v.extractLsb' 0 3)).2.afterDelay ∧
        (∀ i, i < 7 → t.tgt.comFlags.getLsbD i = ((s.tgt.tick s.cfg).comFlags.getLsbD i || decide (i = 6)))) ∧
    (v &&& s.cfg.masks.startSend = 0 ∨ s.tgt.cmd ≠ s.cfg.codes.transceive ∨ s.tgt.sent = true →
      ∃ t, exec (.busWrite s.cfg.regmap.bitframing v) s = .next t ∧
        t.tgt = (s.tgt.tick s.cfg).setReg s.cfg.regmap.bitframing v ∧ t.env = s.env)

/-- "Completion event" (R164), due before a transaction (when it is due is log entry 14): the result is visible, the
done flag rises, nothing is pending; before it is due nothing happens. -/
def Obligations.CrcCompletionEvent : Prop :=
  ∀ (s : State) (a : RegAddr) (input : List Byte), s.env.level = .referenceTarget → s.tgt.crcPend = some input →
    s.tgt.rxPend = none → RegName.storesRead (s.cfg.regmap.nameAt a) = true →
    (s.tgt.crcWait = some 0 → ∃ t, exec (.busRead a) s = .next t ∧ t.tgt.crcRes = crcFn s.cfg.crc input ∧
      t.tgt.crcPend = none ∧ t.tgt.comFlags = s.tgt.comFlags ∧ t.tgt.fifo = s.tgt.fifo ∧ t.tgt.err = s.tgt.err ∧
      ∀ i, i < 7 → t.tgt.divFlags.getLsbD i = (s.tgt.divFlags.getLsbD i || s.cfg.masks.crcIrq.getLsbD i)) ∧
    (s.tgt.crcWait ≠ some 0 → ∃ t, exec (.busRead a) s = .next t ∧ t.tgt.crcPend = some input ∧
      t.tgt.crcRes = s.tgt.crcRes ∧ t.tgt.divFlags = s.tgt.divFlags)

/-- "Reception event" and "Timeout event" (R203, R204), due before a transaction (log entry 14): the FIFO, RXLAST, ERROR
and COMIRQ's flags as the rules say, nothing pending. "Silence" (R205) never ends. -/
def Obligations.AnswerEvents : Prop :=
  ∀ (s : State) (a : RegAddr), s.env.level = .referenceTarget → s.tgt.crcPend = none →
    RegName.storesRead (s.cfg.regmap.nameAt a) = true →
    (∀ r lb e, s.tgt.rxPend = some (.response r lb e) → s.tgt.rxWait = some 0 →
      ∃ t, exec (.busRead a) s = .next t ∧ t.tgt.fifo = r.take s.cfg.fifoDepth ∧ t.tgt.rxLast = lb ∧
        t.tgt.err = ((s.tgt.err &&& 0x10) ||| e ||| (if s.cfg.fifoDepth < r.length then 0x10 else 0x00)) ∧
        t.tgt.rxPend = none ∧ ∀ i, i < 7 → t.tgt.comFlags.getLsbD i =
          (s.tgt.comFlags.getLsbD i || decide (i = 5) || (decide (i = 1) && decide (e ≠ 0)))) ∧
    (s.tgt.rxPend = some .timeout → s.tgt.rxWait = some 0 →
      ∃ t, exec (.busRead a) s = .next t ∧ t.tgt.fifo = s.tgt.fifo ∧ t.tgt.err = s.tgt.err ∧ t.tgt.rxPend = none ∧
        ∀ i, i < 7 → t.tgt.comFlags.getLsbD i = (s.tgt.comFlags.getLsbD i || s.cfg.masks.timerIrq.getLsbD i)) ∧
    (s.tgt.rxPend = some .silent → ∃ t, exec (.busRead a) s = .next t ∧ t.tgt = s.tgt)

/-! ## CRC_CALC (U1) -/

/-- "CRC_CALC always returns OK: an exhausted budget is "a soft timeout, not an error"" (R160, R162): whatever the
target does, the last two transactions read the two result registers, low byte first, and the bytes they return are the
result and S.CRCOUT. -/
def Obligations.CrcCalcAlwaysOk : Prop :=
  ∀ (s : State) (data : List Byte), s.cfg.wf →
    ∃ t before, exec (.crcCalc data) s = .next t ∧ t.seq.outcome = .ok ∧
      t.result = .bytes [t.seq.crcLo, t.seq.crcHi] ∧
      t.trace = BusFrame.read s.cfg.regmap.crcresultH t.seq.crcHi ::
        BusFrame.read s.cfg.regmap.crcresultL t.seq.crcLo :: before

/-- Over the reference target, with a FIFO that holds the operand and a completion event within the budget, CRC_CALC
returns CRC_FN of its operand, low byte first (R160, R163, R164, R166, R76), and CALCCRC stays active (R366). -/
def Obligations.CrcCalcValue : Prop :=
  ∀ (s : State) (data : List Byte) (cd rd : Nat), s.sumsReady cd rd → data.length ≤ s.cfg.fifoDepth →
    ∃ t, exec (.crcCalc data) s = .next t ∧ t.seq.outcome = .ok ∧
      t.result = .bytes [(crcFn s.cfg.crc data).extractLsb' 0 8, (crcFn s.cfg.crc data).extractLsb' 8 8] ∧
      t.seq.crcLo = (crcFn s.cfg.crc data).extractLsb' 0 8 ∧ t.seq.crcHi = (crcFn s.cfg.crc data).extractLsb' 8 8 ∧
      t.tgt.cmd = s.cfg.codes.calccrc ∧ t.tgt.fifo = [] ∧ t.quiescent

/-- "Residue: for every `s`, `CRC_A(s ++ [lo, hi]) = 0x0000` when `[lo, hi]` are the two bytes of `CRC_A(s)`, low
first" (R167 (a)). -/
def Obligations.CrcResidue : Prop := ∀ s : List Byte, crcA (s ++ crcBytes (crcA s)) = 0x0000

/-! ## TO_CARD (U2) -/

/-- "TO_CARD itself always *returns*; the outcome of the host operation TO_CARD is OK with the triple as its result"
(R180), and ERR comes with no bytes and length 0 (R190); AUTHENT over an unconstrained transport too (R199). It writes
the enable and wait bits of the command (R105). -/
def Obligations.ToCardAlwaysReturns : Prop :=
  ∀ (s : State) (cmd : Command) (tx : List Byte), s.cfg.wf → cmd ≠ .authent ∨ s.env.level = .busOracle →
    ∃ t st rx bits, exec (.toCard cmd tx) s = .next t ∧ t.seq.outcome = .ok ∧ t.result = .exchange st rx bits ∧
      t.seq.status = st ∧ (st = .err → rx = [] ∧ bits = 0) ∧
      (st ≠ .err → t.seq.rxbuf = rx ∧ t.seq.rxbits = bits ∧ t.seq.errkind = .none) ∧
      (t.seq.irqen, t.seq.waitirq) = (match cmd with
        | .authent => (0x12, 0x10)
        | .transceive => (0x77, 0x30)
        | .idle | .calccrc | .resetphase => (0x00, 0x00))

/-- The whole procedure of R180 over an unconstrained transport, when the poll sees a flag and ERROR shows no bit of
ERR_MASK: the frames in their order, the polls up to the first value with the timer bit or a wait bit (R184), the no-tag
test (R187), the bit length from the unclamped count (R188), the clamped read-out (R189). -/
def Obligations.ToCardCompletes : Prop :=
  ∀ (s : State) (cmd : Command) (tx b polls rx rest : List Byte) (n l v b' e cnt ctl : Byte),
    s.env.level = .busOracle → (b.length = if cmd = .transceive then 1 else 0) →
    (∀ p ∈ polls, p &&& s.cfg.masks.timerIrq = 0 ∧ p &&& irqWait cmd = 0) →
    v &&& s.cfg.masks.timerIrq ≠ 0 ∨ v &&& irqWait cmd ≠ 0 → polls.length < s.cfg.pollCmd → e &&& 0x1B = 0 →
    rx.length = min (max cnt.toNat 1) 16 →
    s.env.byteFeed = [n, l] ++ b ++ polls ++ [v, b', e] ++
      (if cmd = .transceive then [cnt, ctl] ++ rx else []) ++ rest →
    ∃ t, exec (.toCard cmd tx) s = .next t ∧ t.seq.outcome = .ok ∧ t.env.byteFeed = rest ∧ t.tgt = s.tgt ∧
      t.trace.reverse = armFrames s.cfg cmd tx n l ++ startFrames s.cfg b ++ pollFrames s.cfg (polls ++ [v]) b' ++
        [BusFrame.read s.cfg.regmap.error e] ++ (if cmd = .transceive then readFrames s.cfg cnt ctl rx else []) ∧
      t.result = .exchange (if v &&& irqEnable cmd &&& s.cfg.masks.timerIrq ≠ 0 then .notag else .ok)
        (if cmd = .transceive then rx else [])
        (if cmd = .transceive then
          (if ctl &&& s.cfg.masks.rxlastMask ≠ 0 then
            ((cnt.toNat : Int) - 1) * 8 + (ctl &&& s.cfg.masks.rxlastMask).toNat else (cnt.toNat : Int) * 8)
         else 0)

/-- How TO_CARD fails over an unconstrained transport: a bit of ERR_MASK in ERROR is ProtocolError and nothing is read
from the FIFO (R186); an exhausted poll is BusTimeout and ERROR is not read (R185); START_SEND is cleared on both
paths. -/
def Obligations.ToCardFails : Prop :=
  ∀ (s : State) (cmd : Command) (tx b polls rest : List Byte) (n l v b' e : Byte),
    s.env.level = .busOracle → (b.length = if cmd = .transceive then 1 else 0) →
    (∀ p ∈ polls, p &&& s.cfg.masks.timerIrq = 0 ∧ p &&& irqWait cmd = 0) →
    (v &&& s.cfg.masks.timerIrq ≠ 0 ∨ v &&& irqWait cmd ≠ 0 → polls.length < s.cfg.pollCmd → e &&& 0x1B ≠ 0 →
      s.env.byteFeed = [n, l] ++ b ++ polls ++ [v, b', e] ++ rest →
      ∃ t, exec (.toCard cmd tx) s = .next t ∧ t.seq.outcome = .ok ∧ t.env.byteFeed = rest ∧
        t.result = .exchange .err [] 0 ∧ t.seq.status = .err ∧ t.seq.errkind = .protocolError ∧
        t.trace.reverse = armFrames s.cfg cmd tx n l ++ startFrames s.cfg b ++ pollFrames s.cfg (polls ++ [v]) b' ++
          [BusFrame.read s.cfg.regmap.error e]) ∧
    (polls.length = s.cfg.pollCmd → s.env.byteFeed = [n, l] ++ b ++ polls ++ [b'] ++ rest →
      ∃ t, exec (.toCard cmd tx) s = .next t ∧ t.seq.outcome = .ok ∧ t.env.byteFeed = rest ∧
        t.result = .exchange .err [] 0 ∧ t.seq.status = .err ∧ t.seq.errkind = .busTimeout ∧
        t.trace.reverse = armFrames s.cfg cmd tx n l ++ startFrames s.cfg b ++ pollFrames s.cfg polls b')

/-- "The three outcomes" (R291), over the reference target: what a transceive reports for each answer of the card to the
frame it sends, in a state where the answer's event comes within the budget. An empty response is read out as one drawn byte
and its length is that of a count of 0 (R188, R189; the draw is log entry 5); a response longer than the FIFO sets the
overflow bit, so it is ProtocolError (R203, R186). -/
def Obligations.ToCardReports : Prop :=
  ∀ (s : State) (tx : List Byte) (cd rd : Nat), s.ready cd rd → tx.length ≤ s.cfg.fifoDepth →
    (∀ r lb e, (s.env.exchange tx s.txlast).1 = .response r lb e → r.length ≤ s.cfg.fifoDepth → e &&& 0x1B = 0 →
      ∃ t, exec (.toCard .transceive tx) s = .next t ∧
        t.result = .exchange .ok (if r = [] then [s.env.byteValue 0x00] else r.take 16)
          (if lb = 0 then (r.length : Int) * 8 else ((r.length : Int) - 1) * 8 + lb.toNat) ∧
        t.txlast = s.txlast ∧ t.env.tag = (s.env.exchange tx s.txlast).2.tag) ∧
    (∀ r lb e, (s.env.exchange tx s.txlast).1 = .response r lb e → e &&& 0x1B ≠ 0 ∨ s.cfg.fifoDepth < r.length →
      ∃ t, exec (.toCard .transceive tx) s = .next t ∧ t.result = .exchange .err [] 0 ∧
        t.seq.errkind = .protocolError ∧ t.env.tag = (s.env.exchange tx s.txlast).2.tag) ∧
    ((s.env.exchange tx s.txlast).1 = .timeout → s.clean →
      ∃ t rx bits, exec (.toCard .transceive tx) s = .next t ∧ t.result = .exchange .notag rx bits ∧ rx.length = 1 ∧
        t.txlast = s.txlast ∧ t.env.tag = (s.env.exchange tx s.txlast).2.tag) ∧
    ((s.env.exchange tx s.txlast).1 = .timeout → ¬ s.clean →
      ∃ t, exec (.toCard .transceive tx) s = .next t ∧ t.result = .exchange .err [] 0 ∧
        t.seq.errkind = .protocolError ∧ t.env.tag = (s.env.exchange tx s.txlast).2.tag) ∧
    ((s.env.exchange tx s.txlast).1 = .silent →
      ∃ t, exec (.toCard .transceive tx) s = .next t ∧ t.result = .exchange .err [] 0 ∧
        t.seq.errkind = .busTimeout ∧ t.env.tag = (s.env.exchange tx s.txlast).2.tag)

/-! ## REQUEST_TAG and SELECT_TAG (U3) -/

/-- REQUEST_TAG completes when the card answers the 7-bit request with 16 bits (R220, R107): the ATQA is returned and
kept, BITFRAMING is left at 0x07. -/
def Obligations.RequestTagSucceeds : Prop :=
  ∀ (s : State) (cd rd : Nat) (a0 a1 e : Byte), s.ready cd rd → 2 ≤ s.cfg.fifoDepth →
    (s.env.exchange [s.cfg.card.reqCode] 7).1 = .response [a0, a1] 0 e → e &&& 0x1B = 0 →
    ∃ t, exec .requestTag s = .next t ∧ t.seq.outcome = .ok ∧ t.result = .bytes [a0, a1] ∧ t.seq.atqa0 = a0 ∧
      t.seq.atqa1 = a1 ∧ t.tgt.reg s.cfg.regmap.bitframing = 0x07 ∧
      t.env.tag = (s.env.exchange [s.cfg.card.reqCode] 7).2.tag

/-- "succeeds only when the response is exactly 16 bits" (R220), at every level and whatever the card does: on success
S.RXBITS is 16 and the ATQA is the whole response; otherwise the ATQA is unchanged. A failed exchange is raised as its
verdict says (R221). -/
def Obligations.RequestTagStrict : Prop :=
  ∀ s t : State, s.cfg.wf → exec .requestTag s = .next t →
    (t.seq.outcome = .ok → t.seq.rxbits = 16 ∧ t.seq.rxbuf = [t.seq.atqa0, t.seq.atqa1] ∧
      t.result = .bytes [t.seq.atqa0, t.seq.atqa1]) ∧
    (t.seq.outcome ≠ .ok → t.seq.atqa0 = s.seq.atqa0 ∧ t.seq.atqa1 = s.seq.atqa1 ∧
      t.seq.outcome ∈ [OpOutcome.noTag, .busTimeout, .protocolError]) ∧
    t.seq.agrees t.seq.outcome

/-- SELECT_TAG over a card that answers each exchange (R225 to R228, R231): a 4-byte identifier after one level whose SAK
has not bit 0x04, a 7-byte identifier after two. -/
def Obligations.SelectTagSucceeds : Prop :=
  ∀ (s : State) (cd rd : Nat) (f g : Fragment) (sak sak' x y z w : Byte) (rest : List CardOutcome),
    s.sumsReady cd rd → 9 ≤ s.cfg.fifoDepth → f.u0 ^^^ f.u1 ^^^ f.u2 ^^^ f.u3 = f.bcc →
    g.u0 ^^^ g.u1 ^^^ g.u2 ^^^ g.u3 = g.bcc →
    (s.env.cardFeed = [.response [f.u0, f.u1, f.u2, f.u3, f.bcc] 0 0, .response [sak, x, y] 0 0] ++ rest →
      sak &&& 0x04 = 0 →
      ∃ t, exec .selectTag s = .next t ∧ t.seq.outcome = .ok ∧ t.result = .bytes [f.u0, f.u1, f.u2, f.u3] ∧
        t.seq.uid = [f.u0, f.u1, f.u2, f.u3] ∧ t.txlast = 0 ∧ t.env.cardFeed = rest ∧ t.env.tag = s.env.tag) ∧
    (s.env.cardFeed = [.response [f.u0, f.u1, f.u2, f.u3, f.bcc] 0 0, .response [sak, x, y] 0 0,
        .response [g.u0, g.u1, g.u2, g.u3, g.bcc] 0 0, .response [sak', z, w] 0 0] ++ rest →
      sak &&& 0x04 ≠ 0 → sak' &&& 0x04 = 0 →
      ∃ t, exec .selectTag s = .next t ∧ t.seq.outcome = .ok ∧
        t.result = .bytes [f.u1, f.u2, f.u3, g.u0, g.u1, g.u2, g.u3] ∧
        t.seq.uid = [f.u1, f.u2, f.u3, g.u0, g.u1, g.u2, g.u3] ∧ t.txlast = 0 ∧ t.env.cardFeed = rest ∧
        t.env.tag = s.env.tag)

/-- How SELECT_TAG fails, in the order of its exchanges (R225, R231), after card answers `A`, `S` and `B` that let it go
on. At either level an anti-collision answer of another length than 5, an empty one and one longer than the FIFO included, is
ProtocolError, tested before the checksum (R226, R332); five bytes whose XOR is wrong are ChecksumError (R222, R325); a
select answer of another length than 3 is ProtocolError (R227); a second SAK with bit 0x04 is UnsupportedCascade (R229). At
each of the four exchanges a masked error bit is ProtocolError, silence BusTimeout, a timeout NoTag (R221). No identifier is
left and nothing is returned (R26, R320). A failed exchange is raised as its verdict says, at every level and whatever the
card does (R221). -/
def Obligations.SelectTagFails : Prop :=
  (∀ s t : State, exec .selectTag s = .next t → t.seq.agrees t.seq.outcome) ∧
  ∀ (s : State) (cd rd : Nat) (f g : Fragment) (sak x y : Byte) (rest : List CardOutcome), s.sumsReady cd rd →
    9 ≤ s.cfg.fifoDepth → f.u0 ^^^ f.u1 ^^^ f.u2 ^^^ f.u3 = f.bcc → g.u0 ^^^ g.u1 ^^^ g.u2 ^^^ g.u3 = g.bcc →
    sak &&& 0x04 ≠ 0 →
    let A := CardOutcome.response [f.u0, f.u1, f.u2, f.u3, f.bcc] 0 0
    let S := CardOutcome.response [sak, x, y] 0 0
    let B := CardOutcome.response [g.u0, g.u1, g.u2, g.u3, g.bcc] 0 0
    let fails := fun (k : OpOutcome) =>
      ∃ t, exec .selectTag s = .next t ∧ t.seq.outcome = k ∧ t.result = .none ∧ t.seq.uid = []
    (∀ p ∈ [[], [A, S]],
      (∀ r lb e, s.env.cardFeed = p ++ .response r lb e :: rest → r.length ≠ 5 → fails .protocolError) ∧
      (∀ (h : Fragment) (lb : BitVec 3) (e : Byte),
        s.env.cardFeed = p ++ .response [h.u0, h.u1, h.u2, h.u3, h.bcc] lb e :: rest → e &&& 0x1B = 0 →
        h.u0 ^^^ h.u1 ^^^ h.u2 ^^^ h.u3 ≠ h.bcc → fails .checksumError)) ∧
    (∀ p ∈ [[A], [A, S, B]], ∀ r lb e, s.env.cardFeed = p ++ .response r lb e :: rest → r.length ≠ 3 →
      fails .protocolError) ∧
    (∀ (sak' z w : Byte) (lb : BitVec 3) (e : Byte),
      s.env.cardFeed = [A, S, B] ++ .response [sak', z, w] lb e :: rest → e &&& 0x1B = 0 → sak' &&& 0x04 ≠ 0 →
      fails .unsupportedCascade) ∧
    ∀ p ∈ [[], [A], [A, S], [A, S, B]],
      (∀ r lb e, s.env.cardFeed = p ++ .response r lb e :: rest → e &&& 0x1B ≠ 0 → fails .protocolError) ∧
      (s.env.cardFeed = p ++ .silent :: rest → fails .busTimeout) ∧
      (s.env.cardFeed = p ++ .timeout :: rest → s.clean → fails .noTag)

/-- The identifier after any run of SELECT_TAG, at every level and whatever the card does (R26, R223, R229): on success it
has 4 or 7 bytes and is the combination of fragments that passed their checksum; after a fault there is none. -/
def Obligations.SelectTagIdentifier : Prop :=
  ∀ s t : State, s.cfg.wf → exec .selectTag s = .next t →
    (t.seq.outcome = .ok → t.result = .bytes t.seq.uid ∧ t.seq.frag1.valid = true ∧
      (t.seq.nfrag = 1 ∧ t.seq.uid = t.seq.frag1.uidBytes ∨
       t.seq.nfrag = 2 ∧ t.seq.frag2.valid = true ∧
         t.seq.uid = t.seq.frag1.uidBytes.drop 1 ++ t.seq.frag2.uidBytes)) ∧
    (t.seq.outcome ≠ .ok → t.seq.uid = [])

/-- "Length law: `len(combine(k fragments)) = 3(k-1) + 4 = 3k + 1`" (R224), for `k >= 1` fragments of 4 bytes; and the
last fragment keeps all its bytes (R223). -/
def Obligations.CombineLength : Prop :=
  ∀ (gs : List (List Byte)) (g : List Byte), (∀ x ∈ gs, x.length = 4) → g.length = 4 →
    (combine (gs ++ [g])).length = 3 * (gs ++ [g]).length + 1 ∧ g <:+ combine (gs ++ [g])

/-! ## Tag memory (U4) -/

/-- READ_BLOCK sends READ, the page as it is, and their CRC, and returns the first sixteen bytes of an answer of at least
sixteen (R250, R110); a shorter answer, an empty one included, one longer than the FIFO or one with a masked error bit is
ProtocolError (R203, R221). A failed exchange is raised as its verdict says, at every level and whatever the card does
(R221). -/
def Obligations.ReadBlockReturns : Prop :=
  ∀ (s : State) (page : Byte), (∀ t, exec (.readBlock page) s = .next t → t.seq.agrees t.seq.outcome) ∧
    ∀ (cd rd : Nat) (r : List Byte) (lb : BitVec 3) (e : Byte), s.sumsReady cd rd → 4 ≤ s.cfg.fifoDepth →
    (s.env.afterDelay.exchange ([s.cfg.card.readCmd, page] ++ crcBytes (crcFn s.cfg.crc [s.cfg.card.readCmd, page]))
      s.txlast).1 = .response r lb e →
    (16 ≤ r.length → r.length ≤ s.cfg.fifoDepth → e &&& 0x1B = 0 →
      ∃ t, exec (.readBlock page) s = .next t ∧ t.seq.outcome = .ok ∧ t.result = .bytes (r.take 16) ∧
        t.txlast = s.txlast) ∧
    (r.length < 16 ∨ s.cfg.fifoDepth < r.length ∨ e &&& 0x1B ≠ 0 →
      ∃ t, exec (.readBlock page) s = .next t ∧ t.seq.outcome = .protocolError ∧ t.result = .none)

/-- WRITE_BLOCK sends WRITE, the page, the four bytes and their CRC, and discards the response (R257, R111), whatever it
is, but for a masked error bit and for one longer than the FIFO, which are ProtocolError (R203, R221); data of another length
is refused before any transaction (R258). It is OK exactly where its exchange passed, and a failed exchange is raised as its
verdict says, at every level and whatever the card does (R221, R257). -/
def Obligations.WriteBlockSends : Prop :=
  ∀ (s : State) (page d0 d1 d2 d3 : Byte) (data : List Byte) (cd rd : Nat) (r : List Byte) (lb : BitVec 3) (e : Byte),
    (∀ t, exec (.writeBlock page [d0, d1, d2, d3]) s = .next t →
      (t.seq.outcome = .ok ↔ t.seq.status = .ok) ∧ t.seq.agrees t.seq.outcome) ∧
    (s.sumsReady cd rd → 8 ≤ s.cfg.fifoDepth →
      (s.env.afterDelay.exchange ([s.cfg.card.writeCmd, page, d0, d1, d2, d3] ++
        crcBytes (crcFn s.cfg.crc [s.cfg.card.writeCmd, page, d0, d1, d2, d3])) s.txlast).1 = .response r lb e →
      ∃ t, exec (.writeBlock page [d0, d1, d2, d3]) s = .next t ∧ t.result = .none ∧
        t.seq.outcome = (if r.length ≤ s.cfg.fifoDepth ∧ e &&& 0x1B = 0 then .ok else .protocolError) ∧
        t.env.tag = (s.env.afterDelay.exchange ([s.cfg.card.writeCmd, page, d0, d1, d2, d3] ++
          crcBytes (crcFn s.cfg.crc [s.cfg.card.writeCmd, page, d0, d1, d2, d3])) s.txlast).2.tag) ∧
    (data.length ≠ 4 → exec (.writeBlock page data) s = .next { s with
      seq := s.seq.done .preconditionViolation, result := .none, trace := [] })

/-- WRITE_BLOCK with the active reference tag (R302): the page's four bytes are the data and every other byte of the tag
is as before; a page the tag refuses leaves all of it, and the outcome is OK all the same (R257). -/
def Obligations.WriteBlockStores : Prop :=
  ∀ (s : State) (page d0 d1 d2 d3 : Byte) (cd rd : Nat), s.tagReady cd rd → s.txlast = 0 → s.env.tag.st = .active →
    s.env.tag.mem.wf →
    ∃ t, exec (.writeBlock page [d0, d1, d2, d3]) s = .next t ∧ t.seq.outcome = .ok ∧
      (2 ≤ page.toNat → page.toNat ≤ 134 →
        t.env.tag.byte (4 * page.toNat) = d0 ∧ t.env.tag.byte (4 * page.toNat + 1) = d1 ∧
        t.env.tag.byte (4 * page.toNat + 2) = d2 ∧ t.env.tag.byte (4 * page.toNat + 3) = d3 ∧
        t.env.tag.st = .active ∧
        ∀ a, a < 4 * page.toNat ∨ 4 * page.toNat + 4 ≤ a → t.env.tag.byte a = s.env.tag.byte a) ∧
      (page.toNat < 2 ∨ 134 < page.toNat → t.env.tag.mem = s.env.tag.mem ∧ t.env.tag.st = .idle)

/-- READ_IMAGE over a card that answers all 34 reads (R253, R254): the image is their first sixteen bytes in order, cut
to 540, twelve of them from the last. -/
def Obligations.ReadImageAssembles : Prop :=
  ∀ (s : State) (cd rd : Nat) (blocks : List (List Byte)) (rest : List CardOutcome), s.sumsReady cd rd →
    blocks.length = 34 → (∀ b ∈ blocks, 16 ≤ b.length ∧ b.length ≤ s.cfg.fifoDepth) →
    s.env.cardFeed = blocks.map (fun b => CardOutcome.response b 0 0) ++ rest →
    ∃ t, exec .readImage s = .next t ∧ t.seq.outcome = .ok ∧ t.seq.imgPopulated = true ∧
      t.seq.img = (blocks.flatMap fun b => b.take 16).take 540 ∧ t.env.cardFeed = rest ∧ t.txlast = s.txlast

/-- "partial images are not externally observable" (R29, R255): after READ_IMAGE the image is complete, of 540 bytes, if
the outcome is OK, and absent otherwise, at every level and whatever the card does; a failed exchange is raised as its verdict
says (R221). -/
def Obligations.ReadImageAllOrNothing : Prop :=
  ∀ s t : State, s.cfg.wf → exec .readImage s = .next t →
    (t.seq.outcome = .ok → t.seq.imgPopulated = true ∧ t.seq.img.length = 540) ∧
    (t.seq.outcome ≠ .ok → t.seq.imgPopulated = false) ∧ t.seq.uid = s.seq.uid ∧ t.seq.agrees t.seq.outcome

/-- READ_TAG with the reference tag, whatever state it is in (R303): the identifier returned is the tag's serial number
and the image is its 540 bytes; the tag's memory is unchanged. -/
def Obligations.ReadTagReturnsTag : Prop :=
  ∀ (s : State) (cd rd : Nat), s.tagReady cd rd → s.env.tag.bccOk →
    ∃ t, exec .readTag s = .next t ∧ t.seq.outcome = .ok ∧ t.result = .bytes s.env.tag.serial ∧
      t.seq.uid = s.env.tag.serial ∧ t.seq.imgPopulated = true ∧
      t.seq.img = (List.range 540).map s.env.tag.byte ∧ t.env.tag.mem = s.env.tag.mem ∧ t.env.tag.st = .active

/-- REGION (R260): the slice of the image at the table's range, no transaction and no state written; before a successful
read PreconditionViolation. -/
def Obligations.RegionSlices : Prop :=
  ∀ (s : State) (r : Region),
    (s.seq.imgPopulated = true → exec (.region r) s = .next { s with
      seq := s.seq.done .ok,
      result := .bytes ((s.seq.img.drop (s.cfg.regions.slice r).off).take (s.cfg.regions.slice r).len),
      trace := [] }) ∧
    (s.seq.imgPopulated = false → exec (.region r) s = .next { s with
      seq := s.seq.done .preconditionViolation, result := .none, trace := [] })

/-- The regions "never overlap, and together span exactly 540 bytes" (R261), for every table that meets its constraints:
the slices of an image, in the order of R262, are the image, and each has its region's length; the lengths the document
gives are those (R261), but that the NTAG215 table, offered beside them, has another user memory (R264). -/
def Obligations.RegionsPartition : Prop :=
  ∀ (t : RegionTable) (img : List Byte), t.ok → img.length = 540 →
    (Region.all.flatMap fun r => sliceOf img (t.slice r)) = img ∧
      (∀ r, (sliceOf img (t.slice r)).length = (t.slice r).len) ∧
      (t.slice .cfg0).len = 4 ∧ (t.slice .cfg1).len = 4 ∧ (t.slice .internal).len = 1 ∧
      (t ≠ .ntag215 → (t.slice .user).len = 500)

/-! ## The payload codec (U5) and INIT -/

/-- EXTRACT (R281, R282): MalformedPayload without the type byte 0x03 or without a length byte, else the payload cut at
the end of the buffer; nothing else is written. -/
def Obligations.ExtractRule : Prop :=
  ∀ (s : State) (buffer : List Byte),
    (buffer.head? ≠ some 0x03 ∨ buffer.length < 2 →
      exec (.extract buffer) s = .next { s with seq := s.seq.done .malformedPayload, result := .none, trace := [] }) ∧
    ∀ (n : Byte) (tail : List Byte), buffer = 0x03 :: n :: tail →
      exec (.extract buffer) s = .next { s with
        seq := s.seq.done .ok, result := .bytes ((buffer.take (min (2 + n.toNat) buffer.length)).drop 2), trace := [] }

/-- WRAP (R283, R284) and the round-trip law (R285): what WRAP returns, EXTRACT gives back, whatever bytes follow it; more
than 255 bytes are refused; "the converse does not hold". That the payload record of R113, run on its own, gives its payload
is the model's choice (log entry 13). -/
def Obligations.WrapExtractRoundTrip : Prop :=
  ∀ (s : State) (p tail : List Byte),
    (p.length ≤ 255 → ∃ t w, exec (.wrap p) s = .next t ∧ t.result = .bytes w ∧
      w = [0x03, BitVec.ofNat 8 p.length] ++ p ∧ w.length = p.length + 2 ∧
      t = { s with seq := s.seq.done .ok, result := t.result, trace := [] } ∧
      (∃ u, exec (.extract (w ++ tail)) t = .next u ∧ u.seq.outcome = .ok ∧ u.result = .bytes p) ∧
      exec (.tlvRecord p) s = .next { s with seq := s.seq.done .ok, result := .bytes p, trace := [] }) ∧
    (255 < p.length → exec (.wrap p) s = .next { s with
      seq := s.seq.done .preconditionViolation, result := .none, trace := [] }) ∧
    ∀ n : Byte, ∃ u v q w, exec (.extract (0x03 :: n :: tail)) s = .next u ∧ u.result = .bytes q ∧
      exec (.wrap q) u = .next v ∧ v.result = .bytes w ∧
      (n.toNat ≤ tail.length → w = (0x03 :: n :: tail).take (2 + n.toNat)) ∧
      (tail.length < n.toNat → w ≠ 0x03 :: n :: tail)

/-- INIT (R354, R355): with boot writes that go to plain storage it completes, the reset line is high, the FIFO is empty,
nothing is pending, IDLE is active, and the sequencer's registers are as they were; with the defaults the nine frames are
those of R354: the eighth reads TXCONTROL, the ninth writes the byte it answered with bits 0x03 set, which stays there. -/
def Obligations.InitSequence : Prop :=
  ∀ s : State, s.cfg.wf → s.env.level = .referenceTarget →
    (∀ w ∈ s.cfg.initWrites, RegName.storesWrite (s.cfg.regmap.nameAt w.1) = true) →
    ∃ t, exec .init s = .next t ∧ t.seq = s.seq.done .ok ∧ t.env.resetLine = true ∧ t.tgt.fifo = [] ∧ t.quiescent ∧
      t.tgt.cmd = s.cfg.codes.idle ∧ t.trace.length = 3 + s.cfg.initWrites.length ∧ t.env.tag = s.env.tag ∧
      (s.cfg = .default → ∃ v : Byte, t.trace.reverse =
        [⟨0x02, 0x0F, none⟩, ⟨0x54, 0x8D, none⟩, ⟨0x56, 0x3E, none⟩, ⟨0x5A, 0x1E, none⟩, ⟨0x58, 0x00, none⟩,
         ⟨0x2A, 0x40, none⟩, ⟨0x22, 0x3D, none⟩, ⟨0xA8, 0x00, some v⟩, ⟨0x28, v ||| 0x03, none⟩] ∧
        t.tgt.reg s.cfg.regmap.txcontrol = v ||| 0x03)

/-! ## The card side -/

/-- A CARD row hands its frame to the card port with the last-byte bits R106 gives it, and touches nothing else (the port
on its own is log entry 13). -/
def Obligations.CardRowsExchange : Prop :=
  ∀ (s : State) (lvl : CascadeLevel) (u0 u1 u2 u3 b p d0 d1 d2 d3 lo hi : Byte),
    ∀ x ∈ [(Instr.reqa, [s.cfg.card.reqCode], (7 : BitVec 3)),
      (.anticoll lvl, [s.cfg.card.sel lvl, 0x20], 0),
      (.select lvl u0 u1 u2 u3 b lo hi, [s.cfg.card.sel lvl, 0x70, u0, u1, u2, u3, b, lo, hi], 0),
      (.read p lo hi, [s.cfg.card.readCmd, p, lo, hi], 0),
      (.write p d0 d1 d2 d3 lo hi, [s.cfg.card.writeCmd, p, d0, d1, d2, d3, lo, hi], 0)],
    exec x.1 s = .next { s with seq := { s.seq with phase := 0 }, env := (s.env.exchange x.2.1 x.2.2).2,
                                result := .none, trace := [] }

/-- The reference tag (R297, R299 to R302): its answers, and the state each leaves it in. -/
def Obligations.TagAnswers : Prop :=
  ∀ (g : Tag) (p d0 d1 d2 d3 : Byte) (f : List Byte),
    (∀ b : Byte, b &&& 0x7F = 0x26 → g.exchange [b] 7 = (.response [0x44, 0x00] 0 0, { g with st := .ready1 })) ∧
    (g.st = .ready1 → g.exchange [0x93, 0x20] 0 = (.response g.frag1 0 0, g) ∧
      g.exchange ([0x93, 0x70] ++ g.frag1 ++ crcBytes (crcA ([0x93, 0x70] ++ g.frag1))) 0 =
        (.response [0x04, 0xDA, 0x17] 0 0, { g with st := .ready2 }) ∧
      (f.length = 5 → f ≠ g.frag1 → g.exchange ([0x93, 0x70] ++ f ++ crcBytes (crcA ([0x93, 0x70] ++ f))) 0 =
        (.timeout, { g with st := .idle }))) ∧
    (g.st = .ready2 → g.exchange [0x95, 0x20] 0 = (.response g.frag2 0 0, g) ∧
      g.exchange ([0x95, 0x70] ++ g.frag2 ++ crcBytes (crcA ([0x95, 0x70] ++ g.frag2))) 0 =
        (.response [0x00, 0xFE, 0x51] 0 0, { g with st := .active }) ∧
      (f.length = 5 → f ≠ g.frag2 → g.exchange ([0x95, 0x70] ++ f ++ crcBytes (crcA ([0x95, 0x70] ++ f))) 0 =
        (.timeout, { g with st := .idle }))) ∧
    (g.st = .active → g.exchange ([0x30, p] ++ crcBytes (crcA [0x30, p])) 0 =
      if p.toNat ≤ 134 then
        (.response ((List.range 16).map (fun i => g.byte ((4 * p.toNat + i) % 540)) ++
          crcBytes (crcA ((List.range 16).map fun i => g.byte ((4 * p.toNat + i) % 540)))) 0 0, g)
      else (.response [0x00] 4 0, { g with st := .idle })) ∧
    (g.st = .active → g.exchange ([0xA2, p, d0, d1, d2, d3] ++ crcBytes (crcA [0xA2, p, d0, d1, d2, d3])) 0 =
      if 2 ≤ p.toNat ∧ p.toNat ≤ 134 then
        (.response [0x0A] 4 0, { g with mem := Memory.writeBytes g.mem (4 * p.toNat) [d0, d1, d2, d3] })
      else (.response [0x00] 4 0, { g with st := .idle }))

/-- The tag's memory (R296, R302): a frame changes a byte only if it is a well-formed WRITE of that byte's page, the tag
is active and the page is one it stores; every other frame leaves all of it. -/
def Obligations.TagMemoryFrame : Prop :=
  ∀ (g : Tag) (frame : List Byte) (n : BitVec 3) (a : Nat), (g.exchange frame n).2.byte a ≠ g.byte a →
    g.st = .active ∧ n = 0 ∧ ∃ p d0 d1 d2 d3, 2 ≤ p.toNat ∧ p.toNat ≤ 134 ∧
      frame = [0xA2, p, d0, d1, d2, d3] ++ crcBytes (crcA [0xA2, p, d0, d1, d2, d3]) ∧
      4 * p.toNat ≤ a ∧ a < 4 * p.toNat + 4

/-! ## Rules of the whole machine -/

/-- How every host operation ends (R320, R335, R372): the engine is idle, and an outcome other than OK comes with no
result. The configuration (R7, R8), the port and the modelling level are never changed. -/
def Obligations.OperationsEndIdle : Prop :=
  ∀ (i : Instr) (s t : State), s.seq.idle → exec i s = .next t →
    t.seq.idle ∧ (i.format = .hop → t.seq.outcome ≠ .ok → t.result = .none) ∧
      (i.format ≠ .hop → i.format ≠ .tlv → t.seq.outcome = s.seq.outcome) ∧
      t.cfg = s.cfg ∧ t.port = s.port ∧ t.env.level = s.env.level ∧ t.env.cardSource = s.env.cardSource

/-- "Every cause of every outcome" (R322 to R328): which instruction can end with which outcome. PreconditionViolation ends
exactly a register address above 0x3F, WRITE_BLOCK with another length than 4, WRAP above 255 bytes and REGION without an
image, with the target untouched (R328; a reserved operation is no instruction, it is StepWithoutInstruction's). READ_TAG
ends as its last exchange says (R221). -/
def Obligations.OutcomeCauses : Prop :=
  ∀ (i : Instr) (s t : State), s.cfg.wf → i.format = .hop → exec i s = .next t →
    (t.seq.outcome = .noTag ∨ t.seq.outcome = .busTimeout ∨ t.seq.outcome = .protocolError →
      i ∈ [.requestTag, .selectTag, .readImage, .readTag] ∨ (∃ p, i = .readBlock p) ∨ ∃ p d, i = .writeBlock p d) ∧
    (t.seq.outcome = .checksumError ∨ t.seq.outcome = .unsupportedCascade → i ∈ [.selectTag, .readTag]) ∧
    (t.seq.outcome = .malformedPayload → ∃ b, i = .extract b) ∧
    (t.seq.outcome = .preconditionViolation ↔
      (∃ addr v : Byte, 0x3F < addr ∧ i ∈ [.regWrite addr v, .regRead addr, .setBits addr v, .clearBits addr v]) ∨
      (∃ p d, i = .writeBlock p d ∧ d.length ≠ 4) ∨ (∃ d, i = .wrap d ∧ 255 < d.length) ∨
      ∃ r, i = .region r ∧ s.seq.imgPopulated = false) ∧
    (t.seq.outcome = .preconditionViolation → t.trace = [] ∧ t.tgt = s.tgt ∧ t.env = s.env) ∧
    (i = .readTag → t.seq.agrees t.seq.outcome)

/-- "each written only by the operations listed for it" (R20): the sequencer's registers and who writes them (R22 to R24,
R25, R26, R27, R28, R29). -/
def Obligations.SequencerWriters : Prop :=
  ∀ (i : Instr) (s t : State), exec i s = .next t →
    ((∀ cmd tx, i ≠ .toCard cmd tx) → (∀ p, i ≠ .readBlock p) → (∀ p d, i ≠ .writeBlock p d) →
      i ∉ [.requestTag, .selectTag, .readImage, .readTag] →
      t.seq.status = s.seq.status ∧ t.seq.errkind = s.seq.errkind ∧ t.seq.rxbuf = s.seq.rxbuf ∧
        t.seq.rxbits = s.seq.rxbits ∧ t.seq.irqen = s.seq.irqen ∧ t.seq.waitirq = s.seq.waitirq ∧
        t.seq.irqval = s.seq.irqval ∧ ((∀ d, i ≠ .crcCalc d) → t.seq.pollcnt = s.seq.pollcnt)) ∧
    ((∀ d, i ≠ .crcCalc d) → (∀ p, i ≠ .readBlock p) → (∀ p d, i ≠ .writeBlock p d) →
      i ∉ [.selectTag, .readImage, .readTag] → t.seq.crcLo = s.seq.crcLo ∧ t.seq.crcHi = s.seq.crcHi) ∧
    (i ∉ [.selectTag, .readTag] → t.seq.level = s.seq.level ∧ t.seq.frag1 = s.seq.frag1 ∧
      t.seq.frag2 = s.seq.frag2 ∧ t.seq.nfrag = s.seq.nfrag ∧ t.seq.uid = s.seq.uid) ∧
    (i ∉ [.requestTag, .readTag] → t.seq.atqa0 = s.seq.atqa0 ∧ t.seq.atqa1 = s.seq.atqa1) ∧
    (i ∉ [.readImage, .readTag] → t.seq.blk = s.seq.blk ∧ t.seq.acc = s.seq.acc ∧ t.seq.img = s.seq.img ∧
      t.seq.imgPopulated = s.seq.imgPopulated)

/-- The target registers the operations above the transport may write (R160, R180, R220, R225; R362): CRC_CALC only
COMMAND, the exchanges only COMIEN, COMMAND and BITFRAMING, whatever the target and the card do. CRC_CALC does not touch
the card. -/
def Obligations.TargetFootprint : Prop :=
  ∀ (i : Instr) (s t : State) (a : RegAddr), s.cfg.wf → exec i s = .next t → a ≠ s.cfg.regmap.command →
    ((∃ d, i = .crcCalc d) → t.tgt.reg a = s.tgt.reg a ∧ t.env.tag = s.env.tag ∧ t.env.cardFeed = s.env.cardFeed) ∧
    (a ≠ s.cfg.regmap.comien → a ≠ s.cfg.regmap.bitframing →
      i ∈ [.requestTag, .selectTag, .readImage, .readTag] ∨ (∃ p, i = .readBlock p) ∨ (∃ p d, i = .writeBlock p d) ∨
        (∃ cmd tx, i = .toCard cmd tx ∧ cmd ≠ .resetphase) →
      t.tgt.reg a = s.tgt.reg a)

/-- The operations that read a tag never change its memory (R301, R303): at every level, whoever answers at the card port,
for any draws and delays and whatever they end in, where no command byte they send is WRITE's (the defaults, R8). READ_BLOCK,
READ_IMAGE, REQUEST_TAG and READ_TAG from any state; SELECT_TAG from any where no response is still to be delivered: one that
arrives after its flush would stand in the FIFO before its frame (R191, R203), and the bytes sent would be the card's. -/
def Obligations.ReadersKeepTagMemory : Prop :=
  ∀ (i : Instr) (s t : State), s.cfg.wf → ReadsOnly s.cfg.card →
    i ∈ [.requestTag, .selectTag, .readImage, .readTag] ∨ (∃ p, i = .readBlock p) →
    (i = .selectTag → ∀ r lb e, s.tgt.rxPend ≠ some (.response r lb e)) → exec i s = .next t →
    t.env.tag.mem = s.env.tag.mem

/-- "Every operation ends after a bounded number of transactions, whatever the target and the environment do" (R371): the
bounds of its table, with the budgets as parameters. The rows of the other formats are not in that table: one transaction for
a BUS or CMD row run on its own is log entry 12, none for a CARD or TLV row log entry 13. -/
def Obligations.TransactionBounds : Prop :=
  ∀ (i : Instr) (s t : State), s.cfg.wf → exec i s = .next t → t.trace.length ≤ match i with
    | .regWrite _ _ | .regRead _ => 1
    | .setBits _ _ | .clearBits _ _ => 2
    | .crcCalc d => 4 + d.length + 1 + s.cfg.pollCrc + 2
    | .toCard _ tx => 6 + tx.length + 1 + 2 + s.cfg.pollCmd + 2 + 1 + 2 + 16
    | .requestTag => 1 + (31 + s.cfg.pollCmd)
    | .selectTag => 1 + 2 * ((32 + s.cfg.pollCmd) + (14 + s.cfg.pollCrc) + (39 + s.cfg.pollCmd))
    | .readBlock _ => (9 + s.cfg.pollCrc) + (34 + s.cfg.pollCmd)
    | .readImage => 34 * ((9 + s.cfg.pollCrc) + (34 + s.cfg.pollCmd))
    | .readTag => (1 + (31 + s.cfg.pollCmd)) +
        (1 + 2 * ((32 + s.cfg.pollCmd) + (14 + s.cfg.pollCrc) + (39 + s.cfg.pollCmd))) +
        34 * ((9 + s.cfg.pollCrc) + (34 + s.cfg.pollCmd))
    | .writeBlock _ _ => (13 + s.cfg.pollCrc) + (38 + s.cfg.pollCmd)
    | .init => 3 + s.cfg.initWrites.length
    | .region _ | .extract _ | .wrap _ | .tlvRecord _ => 0
    | .busWrite _ _ | .busRead _ | .cmdIdle | .cmdCalccrc | .cmdTransceive | .cmdAuthent | .cmdResetphase => 1
    | .reqa | .anticoll _ | .select _ _ _ _ _ _ _ _ | .read _ _ _ | .write _ _ _ _ _ _ _ => 0

end
end

