-- ==== Sys2Proof/Laws/State.lean ====
section
/-! SUPPORT. One lemma per field per named update of the state, so that no later proof unfolds a record update. -/

namespace Sys2Proof.Machine

/-! ## Taking an operation -/

@[simp] theorem start_cfg (s : State) (n : OpName) : (s.start n).cfg = s.cfg := rfl
@[simp] theorem start_seq (s : State) (n : OpName) :
    (s.start n).seq = { s.seq with op := some n, phase := 0 } := rfl
@[simp] theorem start_tgt (s : State) (n : OpName) : (s.start n).tgt = s.tgt := rfl
@[simp] theorem start_env (s : State) (n : OpName) : (s.start n).env = s.env := rfl
@[simp] theorem start_port (s : State) (n : OpName) : (s.start n).port = s.port := rfl
@[simp] theorem start_result (s : State) (n : OpName) : (s.start n).result = .none := rfl
@[simp] theorem start_trace (s : State) (n : OpName) : (s.start n).trace = [] := rfl

/-! ## Returning -/

@[simp] theorem finish_cfg (s : State) (r : Result) : (s.finish r).cfg = s.cfg := rfl
@[simp] theorem finish_seq (s : State) (r : Result) :
    (s.finish r).seq = { s.seq with op := none, phase := 0, outcome := .ok } := rfl
@[simp] theorem finish_tgt (s : State) (r : Result) : (s.finish r).tgt = s.tgt := rfl
@[simp] theorem finish_env (s : State) (r : Result) : (s.finish r).env = s.env := rfl
@[simp] theorem finish_port (s : State) (r : Result) : (s.finish r).port = s.port := rfl
@[simp] theorem finish_result (s : State) (r : Result) : (s.finish r).result = r := rfl
@[simp] theorem finish_trace (s : State) (r : Result) : (s.finish r).trace = s.trace := rfl

/-! ## Raising -/

@[simp] theorem raise_cfg (s : State) (k : OpOutcome) : (s.raise k).cfg = s.cfg := rfl
@[simp] theorem raise_seq (s : State) (k : OpOutcome) :
    (s.raise k).seq = { s.seq with op := none, phase := 0, outcome := k } := rfl
@[simp] theorem raise_tgt (s : State) (k : OpOutcome) : (s.raise k).tgt = s.tgt := rfl
@[simp] theorem raise_env (s : State) (k : OpOutcome) : (s.raise k).env = s.env := rfl
@[simp] theorem raise_port (s : State) (k : OpOutcome) : (s.raise k).port = s.port := rfl
@[simp] theorem raise_result (s : State) (k : OpOutcome) : (s.raise k).result = .none := rfl
@[simp] theorem raise_trace (s : State) (k : OpOutcome) : (s.raise k).trace = s.trace := rfl

/-! ## The request port -/

@[simp] theorem takeRequest_cfg (s : State) : s.takeRequest.cfg = s.cfg := rfl
@[simp] theorem takeRequest_seq (s : State) : s.takeRequest.seq = s.seq := rfl
@[simp] theorem takeRequest_tgt (s : State) : s.takeRequest.tgt = s.tgt := rfl
@[simp] theorem takeRequest_env (s : State) : s.takeRequest.env = s.env := rfl
@[simp] theorem takeRequest_port (s : State) : s.takeRequest.port = s.port.tail := rfl
@[simp] theorem takeRequest_result (s : State) : s.takeRequest.result = s.result := rfl
@[simp] theorem takeRequest_trace (s : State) : s.takeRequest.trace = s.trace := rfl
@[simp] theorem refuseRequest_cfg (s : State) : s.refuseRequest.cfg = s.cfg := rfl
@[simp] theorem refuseRequest_seq (s : State) :
    s.refuseRequest.seq = { s.seq with outcome := .preconditionViolation } := rfl
@[simp] theorem refuseRequest_tgt (s : State) : s.refuseRequest.tgt = s.tgt := rfl
@[simp] theorem refuseRequest_env (s : State) : s.refuseRequest.env = s.env := rfl
@[simp] theorem refuseRequest_port (s : State) : s.refuseRequest.port = s.port := rfl
@[simp] theorem refuseRequest_result (s : State) : s.refuseRequest.result = .none := rfl
@[simp] theorem refuseRequest_trace (s : State) : s.refuseRequest.trace = [] := rfl

/-! ## The environment after a draw -/

@[simp] theorem afterBytes_level (e : Environment) (n : Nat) : (e.afterBytes n).level = e.level := rfl
@[simp] theorem afterBytes_cardSource (e : Environment) (n : Nat) :
    (e.afterBytes n).cardSource = e.cardSource := rfl
@[simp] theorem afterBytes_drawSource (e : Environment) (n : Nat) :
    (e.afterBytes n).drawSource = e.drawSource := rfl
@[simp] theorem afterBytes_delayFeed (e : Environment) (n : Nat) :
    (e.afterBytes n).delayFeed = e.delayFeed := rfl
@[simp] theorem afterBytes_cardFeed (e : Environment) (n : Nat) : (e.afterBytes n).cardFeed = e.cardFeed := rfl
@[simp] theorem afterBytes_tag (e : Environment) (n : Nat) : (e.afterBytes n).tag = e.tag := rfl
@[simp] theorem afterBytes_answer (e : Environment) (n : Nat) : (e.afterBytes n).answer = e.answer := rfl
@[simp] theorem afterBytes_resetLine (e : Environment) (n : Nat) :
    (e.afterBytes n).resetLine = e.resetLine := rfl
@[simp] theorem afterDelay_level (e : Environment) : e.afterDelay.level = e.level := rfl
@[simp] theorem afterDelay_cardSource (e : Environment) : e.afterDelay.cardSource = e.cardSource := rfl
@[simp] theorem afterDelay_drawSource (e : Environment) : e.afterDelay.drawSource = e.drawSource := rfl
@[simp] theorem afterDelay_delayFeed (e : Environment) : e.afterDelay.delayFeed = e.delayFeed.drop 1 := rfl
@[simp] theorem afterDelay_cardFeed (e : Environment) : e.afterDelay.cardFeed = e.cardFeed := rfl
@[simp] theorem afterDelay_tag (e : Environment) : e.afterDelay.tag = e.tag := rfl
@[simp] theorem afterDelay_answer (e : Environment) : e.afterDelay.answer = e.answer := rfl
@[simp] theorem afterDelay_resetLine (e : Environment) : e.afterDelay.resetLine = e.resetLine := rfl

/-! ## The target's updates -/

/-- Reading a register after a write: the value written there, every other register as before. -/
theorem reg_setReg (t : Target) (a b : RegAddr) (v : Byte) :
    (t.setReg a v).reg b = if a = b then v else t.reg b := by
  have hb : b.toNat < 64 := b.isLt
  have ha : a.toNat < 64 := a.isLt
  simp only [Target.reg, Target.setReg, Vector.getElem_set, BitVec.toNat_inj]

@[simp] theorem setReg_fifo (t : Target) (a : RegAddr) (v : Byte) : (t.setReg a v).fifo = t.fifo := rfl
@[simp] theorem setReg_cmd (t : Target) (a : RegAddr) (v : Byte) : (t.setReg a v).cmd = t.cmd := rfl
@[simp] theorem setReg_crcPend (t : Target) (a : RegAddr) (v : Byte) :
    (t.setReg a v).crcPend = t.crcPend := rfl
@[simp] theorem setReg_crcWait (t : Target) (a : RegAddr) (v : Byte) :
    (t.setReg a v).crcWait = t.crcWait := rfl
@[simp] theorem setReg_sent (t : Target) (a : RegAddr) (v : Byte) : (t.setReg a v).sent = t.sent := rfl
@[simp] theorem setReg_rxPend (t : Target) (a : RegAddr) (v : Byte) : (t.setReg a v).rxPend = t.rxPend := rfl
@[simp] theorem setReg_rxWait (t : Target) (a : RegAddr) (v : Byte) : (t.setReg a v).rxWait = t.rxWait := rfl
@[simp] theorem setReg_comFlags (t : Target) (a : RegAddr) (v : Byte) :
    (t.setReg a v).comFlags = t.comFlags := rfl
@[simp] theorem setReg_divFlags (t : Target) (a : RegAddr) (v : Byte) :
    (t.setReg a v).divFlags = t.divFlags := rfl
@[simp] theorem setReg_err (t : Target) (a : RegAddr) (v : Byte) : (t.setReg a v).err = t.err := rfl
@[simp] theorem setReg_rxLast (t : Target) (a : RegAddr) (v : Byte) : (t.setReg a v).rxLast = t.rxLast := rfl
@[simp] theorem setReg_crcRes (t : Target) (a : RegAddr) (v : Byte) : (t.setReg a v).crcRes = t.crcRes := rfl
@[simp] theorem setReg_crcKnown (t : Target) (a : RegAddr) (v : Byte) :
    (t.setReg a v).crcKnown = t.crcKnown := rfl
@[simp] theorem setReg_loadOpen (t : Target) (a : RegAddr) (v : Byte) :
    (t.setReg a v).loadOpen = t.loadOpen := rfl
@[simp] theorem flush_fifo (t : Target) : t.flush.fifo = [] := rfl
@[simp] theorem flush_loadOpen (t : Target) : t.flush.loadOpen = t.loadOpen := rfl
@[simp] theorem flush_cmd (t : Target) : t.flush.cmd = t.cmd := rfl
@[simp] theorem flush_crcPend (t : Target) : t.flush.crcPend = t.crcPend := rfl
@[simp] theorem flush_rxPend (t : Target) : t.flush.rxPend = t.rxPend := rfl
@[simp] theorem flush_sent (t : Target) : t.flush.sent = t.sent := rfl
@[simp] theorem flush_regs (t : Target) : t.flush.regs = t.regs := rfl
@[simp] theorem accept_fifo (t : Target) (c : Config) (k : Command) : (t.accept c k).fifo = t.fifo := rfl
@[simp] theorem accept_cmd (t : Target) (c : Config) (k : Command) :
    (t.accept c k).cmd = c.codes.code k := rfl
@[simp] theorem accept_crcPend (t : Target) (c : Config) (k : Command) : (t.accept c k).crcPend = none := rfl
@[simp] theorem accept_rxPend (t : Target) (c : Config) (k : Command) : (t.accept c k).rxPend = none := rfl
@[simp] theorem accept_sent (t : Target) (c : Config) (k : Command) : (t.accept c k).sent = false := rfl
@[simp] theorem accept_loadOpen (t : Target) (c : Config) (k : Command) :
    (t.accept c k).loadOpen = t.loadOpen := rfl

/-- A push keeps everything but the FIFO and the overflow bit. -/
theorem push_cases (t : Target) (depth : Nat) (v : Byte) :
    (t.fifo.length < depth ∧ t.push depth v = { t with fifo := t.fifo ++ [v] }) ∨
      (depth ≤ t.fifo.length ∧ t.push depth v = { t with err := t.err ||| errOverflow }) := by
  unfold Target.push
  split
  · exact .inl ⟨‹_›, rfl⟩
  · exact .inr ⟨by omega, rfl⟩

end Sys2Proof.Machine
end

