-- ==== Sys2Proof/Laws/Config.lean ====
section
/-! SUPPORT. What a well-formed configuration gives: names, codes and frames are read back as they were
written. -/

namespace Sys2Proof

theorem RegName.mem_all (n : RegName) : n ∈ RegName.all := by cases n <;> decide

theorem Command.mem_all (c : Command) : c ∈ Command.all := by cases c <;> decide

/-- Distinct addresses name one register each. -/
theorem RegMap.addr_inj {m : RegMap} (h : m.distinct) {n k : RegName} : m.addr n = m.addr k ↔ n = k :=
  ⟨fun e => List.inj_on_of_nodup_map h n.mem_all k.mem_all e, congrArg m.addr⟩

/-- The register at a name's address is that name. -/
theorem RegMap.nameAt_addr {m : RegMap} (h : m.distinct) (n : RegName) : m.nameAt (m.addr n) = some n := by
  rw [RegMap.nameAt]
  cases hf : RegName.all.find? (fun k => m.addr k == m.addr n) with
  | none => exact absurd (List.find?_eq_none.1 hf n n.mem_all) (by simp)
  | some k => exact congrArg some ((RegMap.addr_inj h).1 (by simpa using List.find?_some hf))

/-- A name read back at an address is the name REGMAP gives it. -/
theorem RegMap.addr_of_nameAt {m : RegMap} {a : RegAddr} {n : RegName} (h : m.nameAt a = some n) :
    m.addr n = a := by
  simpa using List.find?_some h

theorem CmdCodes.code_inj {k : CmdCodes} (h : k.distinct) {c d : Command} : k.code c = k.code d ↔ c = d :=
  ⟨fun e => List.inj_on_of_nodup_map h c.mem_all d.mem_all e, congrArg k.code⟩

theorem CmdCodes.command?_code {k : CmdCodes} (h : k.distinct) (c : Command) : k.command? (k.code c) = some c := by
  rw [CmdCodes.command?]
  cases hf : Command.all.find? (fun d => k.code d == k.code c) with
  | none => exact absurd (List.find?_eq_none.1 hf c c.mem_all) (by simp)
  | some d => exact congrArg some ((CmdCodes.code_inj h).1 (by simpa using List.find?_some hf))

/-- The byte of a command is read back as the command. -/
theorem CmdCodes.ofByte_byte {k : CmdCodes} (h : k.distinct) (c : Command) : k.ofByte (k.byte c) = some c := by
  have hi : (k.byte c).extractLsb' 4 4 = 0#4 := by
    rw [CmdCodes.byte]; generalize k.code c = v; revert v; decide
  have lo : (k.byte c).extractLsb' 0 4 = k.code c := by
    rw [CmdCodes.byte]; generalize k.code c = v; revert v; decide
  rw [CmdCodes.ofByte, if_pos hi, lo, command?_code h]

/-- A byte read as a command carries its code in bits[3:0]. -/
theorem CmdCodes.code_of_ofByte {k : CmdCodes} {v : Byte} {c : Command} (h : k.ofByte v = some c) :
    k.code c = v.extractLsb' 0 4 := by
  rw [CmdCodes.ofByte] at h
  split at h
  · simpa using List.find?_some h
  · cases h

theorem CardCodes.level?_sel {k : CardCodes} (h : k.distinct) (l : CascadeLevel) :
    k.level? (k.sel l) = some l := by
  cases l
  · simp [CardCodes.level?, CardCodes.sel]
  · simp [CardCodes.level?, CardCodes.sel, Ne.symm h]

theorem Region.ofIndex_index (r : Region) : Region.ofIndex r.index = some r := by cases r <;> decide

end Sys2Proof
end

