-- ==== Sys2Proof/Laws/Op.lean ====
section
/-! SUPPORT. How a body of steps runs: the primitive steps applied to a state, and two ways to compose what is
known of the parts: `Op.Within` for what every run keeps, `Op.Ensures` for runs that end with a value. -/

namespace Sys2Proof.Machine

open EStateM (Result)

/-! ## The primitives -/

@[simp] theorem Op.pure_apply {α : Type} (a : α) (s : State) : (pure a : Op α) s = .ok a s := rfl

theorem Op.bind_apply {α β : Type} (x : Op α) (f : α → Op β) (s : State) :
    (x >>= f) s = match x s with
      | .ok a t => f a t
      | .error e t => .error e t := by
  change EStateM.bind x f s = _
  unfold EStateM.bind
  cases x s <;> rfl

theorem Op.bind_ok {α β : Type} {x : Op α} {f : α → Op β} {s t : State} {a : α} (h : x s = .ok a t) :
    (x >>= f) s = f a t := by rw [Op.bind_apply, h]

theorem Op.bind_error {α β : Type} {x : Op α} {f : α → Op β} {s t : State} {e : Stop}
    (h : x s = .error e t) : (x >>= f) s = .error e t := by rw [Op.bind_apply, h]

@[simp] theorem Op.raise_apply {α : Type} (k : OpOutcome) (s : State) :
    (Op.raise k : Op α) s = .error (.raise k) s := rfl
@[simp] theorem Op.refuse_apply {α : Type} (r : Refusal) (s : State) :
    (Op.refuse r : Op α) s = .error (.refuse r) s := rfl
@[simp] theorem Op.state_apply (s : State) : Op.state s = .ok s s := rfl
@[simp] theorem Op.cfg_apply (s : State) : Op.cfg s = .ok s.cfg s := rfl
@[simp] theorem Op.setSeq_apply (f : Sequencer → Sequencer) (s : State) :
    Op.setSeq f s = .ok () { s with seq := f s.seq } := rfl
@[simp] theorem Op.setTgt_apply (f : Target → Target) (s : State) :
    Op.setTgt f s = .ok () { s with tgt := f s.tgt } := rfl
@[simp] theorem Op.setEnv_apply (f : Environment → Environment) (s : State) :
    Op.setEnv f s = .ok () { s with env := f s.env } := rfl
@[simp] theorem Op.draw_apply (sim : Byte) (s : State) :
    Op.draw sim s = .ok (s.env.byteValue sim) { s with env := s.env.afterBytes 1 } := rfl

/-! ## What every run keeps -/

/-- Every run of the body that ends with a value or a raise relates its first state to its last. A refusal
leaves no state. -/
def Op.Within {α : Type} (R : State → State → Prop) (m : Op α) : Prop :=
  ∀ s, match m s with
    | .ok _ t => R s t
    | .error (.raise _) t => R s t
    | .error (.refuse _) _ => True

/-- A relation that composes. -/
structure Chains (R : State → State → Prop) : Prop where
  refl : ∀ s, R s s
  trans : ∀ {s t u}, R s t → R t u → R s u

namespace Op.Within

variable {R : State → State → Prop} {α β : Type}

theorem ok {m : Op α} (h : Op.Within R m) {s t : State} {a : α} (e : m s = .ok a t) : R s t := by
  have := h s; rw [e] at this; exact this

theorem raised {m : Op α} (h : Op.Within R m) {s t : State} {k : OpOutcome} (e : m s = .error (.raise k) t) :
    R s t := by
  have := h s; rw [e] at this; exact this

theorem ofPure (hR : Chains R) (a : α) : Op.Within R (pure a : Op α) := fun s => hR.refl s
theorem ofRaise (hR : Chains R) (k : OpOutcome) : Op.Within R (Op.raise k : Op α) := fun s => hR.refl s
theorem ofRefuse (r : Refusal) : Op.Within R (Op.refuse r : Op α) := fun _ => trivial
theorem ofState (hR : Chains R) : Op.Within R Op.state := fun s => hR.refl s
theorem ofCfg (hR : Chains R) : Op.Within R Op.cfg := fun s => hR.refl s

theorem bind (hR : Chains R) {x : Op α} {f : α → Op β} (hx : Op.Within R x) (hf : ∀ a, Op.Within R (f a)) :
    Op.Within R (x >>= f) := by
  intro s
  have h := hx s
  cases hm : x s with
  | ok a t =>
    rw [Op.bind_ok hm]
    rw [hm] at h
    have g := hf a t
    cases hk : f a t with
    | ok b u => rw [hk] at g; exact hR.trans h g
    | error e u =>
      rw [hk] at g
      cases e with
      | raise k => exact hR.trans h g
      | refuse r => trivial
  | error e t =>
    rw [Op.bind_error hm]
    rw [hm] at h
    cases e <;> exact h

/-- After reading the state, the rest may be judged knowing where it starts. -/
theorem bindState {f : State → Op β} (h : ∀ s, match f s s with
    | .ok _ t => R s t
    | .error (.raise _) t => R s t
    | .error (.refuse _) _ => True) : Op.Within R (Op.state >>= f) := by
  intro s; rw [Op.bind_ok (Op.state_apply s)]; exact h s

/-- After reading the configuration, the rest may be judged knowing where it starts. -/
theorem bindCfg {f : Config → Op β} (h : ∀ s, match f s.cfg s with
    | .ok _ t => R s t
    | .error (.raise _) t => R s t
    | .error (.refuse _) _ => True) : Op.Within R (Op.cfg >>= f) := by
  intro s; rw [Op.bind_ok (Op.cfg_apply s)]; exact h s

theorem mono {R' : State → State → Prop} (h : ∀ s t, R s t → R' s t) {m : Op α} (hm : Op.Within R m) :
    Op.Within R' m := by
  intro s
  have g := hm s
  cases hk : m s with
  | ok a t => rw [hk] at g; exact h s t g
  | error e t =>
    rw [hk] at g
    cases e with
    | raise k => exact h s t g
    | refuse r => trivial

end Op.Within

/-! ## What the runs from some states end in -/

/-- From every state that meets `P`: a value and a state that meet `Q`, a raise in a state that meets `E`, or a
refusal. -/
def Op.Triple {α : Type} (P : State → Prop) (m : Op α) (Q : α → State → Prop) (E : State → Prop) : Prop :=
  ∀ s, P s → match m s with
    | .ok a t => Q a t
    | .error (.raise _) t => E t
    | .error (.refuse _) _ => True

namespace Op.Triple

variable {α β : Type} {P : State → Prop} {E : State → Prop}

theorem bind {M : α → State → Prop} {Q : β → State → Prop} {x : Op α} {f : α → Op β}
    (hx : Op.Triple P x M E) (hf : ∀ a, Op.Triple (M a) (f a) Q E) : Op.Triple P (x >>= f) Q E := by
  intro s hs
  have h := hx s hs
  cases hm : x s with
  | ok a t => rw [Op.bind_ok hm]; rw [hm] at h; exact hf a t h
  | error e t => rw [Op.bind_error hm]; rw [hm] at h; cases e <;> exact h

theorem imp {P' : State → Prop} {Q Q' : α → State → Prop} {E' : State → Prop} {m : Op α}
    (hm : Op.Triple P m Q E) (hp : ∀ s, P' s → P s) (hq : ∀ a t, Q a t → Q' a t) (he : ∀ t, E t → E' t) :
    Op.Triple P' m Q' E' := by
  intro s hs
  have g := hm s (hp s hs)
  cases hk : m s with
  | ok a t => rw [hk] at g; exact hq a t g
  | error e t =>
    rw [hk] at g
    cases e with
    | raise k => exact he t g
    | refuse r => trivial

theorem ofPure {Q : α → State → Prop} {a : α} (h : ∀ s, P s → Q a s) : Op.Triple P (pure a) Q E := h
theorem ofRaise {Q : α → State → Prop} {k : OpOutcome} (h : ∀ s, P s → E s) :
    Op.Triple P (Op.raise k : Op α) Q E := h
theorem ofCfg {Q : Config → State → Prop} (h : ∀ s, P s → Q s.cfg s) : Op.Triple P Op.cfg Q E := h
theorem ofState {Q : State → State → Prop} (h : ∀ s, P s → Q s s) : Op.Triple P Op.state Q E := h
theorem ofSetSeq {Q : Unit → State → Prop} {f : Sequencer → Sequencer}
    (h : ∀ s, P s → Q () { s with seq := f s.seq }) : Op.Triple P (Op.setSeq f) Q E := h

/-- A body that keeps a relation keeps a predicate the relation carries. -/
theorem ofWithin {R : State → State → Prop} {m : Op α} (hm : Op.Within R m) (h : ∀ s t, P s → R s t → P t) :
    Op.Triple P m (fun _ => P) P := by
  intro s hs
  have g := hm s
  cases hk : m s with
  | ok a t => rw [hk] at g; exact h s t hs g
  | error e t =>
    rw [hk] at g
    cases e with
    | raise k => exact h s t hs g
    | refuse r => trivial

end Op.Triple

/-! ## Runs that end with a value -/

/-- From every state that meets `P` the body ends with a value that meets `Q`. -/
def Op.Ensures {α : Type} (P : State → Prop) (m : Op α) (Q : α → State → Prop) : Prop :=
  ∀ s, P s → ∃ a t, m s = .ok a t ∧ Q a t

namespace Op.Ensures

variable {α β : Type} {P : State → Prop}

theorem ofPure {Q : α → State → Prop} {a : α} (h : ∀ s, P s → Q a s) : Op.Ensures P (pure a) Q :=
  fun s hs => ⟨a, s, rfl, h s hs⟩

theorem bind {M : α → State → Prop} {Q : β → State → Prop} {x : Op α} {f : α → Op β}
    (hx : Op.Ensures P x M) (hf : ∀ a, Op.Ensures (M a) (f a) Q) : Op.Ensures P (x >>= f) Q := by
  intro s hs
  obtain ⟨a, t, e, ha⟩ := hx s hs
  rw [Op.bind_ok e]
  exact hf a t ha

theorem imp {Q Q' : α → State → Prop} {m : Op α} (hm : Op.Ensures P m Q) (h : ∀ a t, Q a t → Q' a t) :
    Op.Ensures P m Q' := by
  intro s hs
  obtain ⟨a, t, e, ha⟩ := hm s hs
  exact ⟨a, t, e, h a t ha⟩

theorem pre {P' : State → Prop} {Q : α → State → Prop} {m : Op α} (hm : Op.Ensures P m Q)
    (h : ∀ s, P' s → P s) : Op.Ensures P' m Q := fun s hs => hm s (h s hs)

/-- Runs that end with a value are runs that raise nothing. -/
theorem triple {Q : α → State → Prop} {E : State → Prop} {m : Op α} (hm : Op.Ensures P m Q) : Op.Triple P m Q E := by
  intro s hs
  obtain ⟨a, t, e, ha⟩ := hm s hs
  rw [e]; exact ha

end Op.Ensures

/-! ## Host operations and raw accesses -/

theorem hostOp_ok {n : OpName} {body : Op Result} {s t : State} {r : Result} (h : body (s.start n) = .ok r t) :
    hostOp n body s = .next (t.finish r) := by rw [hostOp, h]

theorem hostOp_raise {n : OpName} {body : Op Result} {s t : State} {k : OpOutcome}
    (h : body (s.start n) = .error (.raise k) t) : hostOp n body s = .next (t.raise k) := by rw [hostOp, h]

/-- What a host operation that goes on did: it returned a result, or raised an outcome. -/
theorem hostOp_next {n : OpName} {body : Op Result} {s u : State} (h : hostOp n body s = .next u) :
    (∃ r t, body (s.start n) = .ok r t ∧ u = t.finish r) ∨
      ∃ k t, body (s.start n) = .error (.raise k) t ∧ u = t.raise k := by
  rw [hostOp] at h
  split at h
  · exact .inl ⟨_, _, ‹_›, (Host.Outcome.next.inj h).symm⟩
  · exact .inr ⟨_, _, ‹_›, (Host.Outcome.next.inj h).symm⟩
  · cases h

/-- A raw access starts with no result and no frames. -/
def State.startRaw (s : State) : State := { s with result := .none, trace := [] }

theorem rawOp_ok {body : Op Result} {s t : State} {r : Result} (h : body s.startRaw = .ok r t) :
    rawOp body s = .next { t with seq := { t.seq with phase := 0 }, result := r } := by
  rw [rawOp, ← State.startRaw, h]

/-- What a raw access that goes on did. -/
theorem rawOp_next {body : Op Result} {s u : State} (h : rawOp body s = .next u) :
    (∃ r t, body s.startRaw = .ok r t ∧ u = { t with seq := { t.seq with phase := 0 }, result := r }) ∨
      ∃ k t, body s.startRaw = .error (.raise k) t ∧ u = t.raise k := by
  rw [rawOp, ← State.startRaw] at h
  split at h
  · exact .inl ⟨_, _, ‹_›, (Host.Outcome.next.inj h).symm⟩
  · exact .inr ⟨_, _, ‹_›, (Host.Outcome.next.inj h).symm⟩
  · cases h

end Sys2Proof.Machine
end

