-- ==== Sys2Proof/Laws/Memory.lean ====
section
/-! SUPPORT. The tag's memory: a read after a write, and that every memory operation keeps the canonical
form. -/

namespace Sys2Proof.Machine

/-- An address below every listed one reads as unlisted. -/
theorem Memory.read_below {m : Memory} {a : Nat} (h : ∀ x ∈ m, a < x.1) : Memory.read m a = Memory.unlisted a := by
  induction m with
  | nil => rfl
  | cons x m ih =>
    have hx := h x (by simp)
    rw [Memory.read, if_neg (by omega)]
    exact ih fun y hy => h y (by simp [hy])

/-- Reading past the cells of one byte. -/
theorem Memory.read_cell_append (m : Memory) (a b : Nat) (v : Byte) (h : ∀ x ∈ m, a < x.1) :
    Memory.read (Memory.cell a v ++ m) b = if b = a then v else Memory.read m b := by
  unfold Memory.cell
  split
  · by_cases hb : b = a
    · subst hb; simp [Memory.read_below h, *]
    · simp [hb]
  · simp only [List.cons_append, List.nil_append, Memory.read]

/-- A byte reads as written; every other byte reads as before. -/
theorem Memory.read_write {m : Memory} (h : m.Pairwise fun x y => x.1 < y.1) (a b : Nat) (v : Byte) :
    Memory.read (Memory.write m a v) b = if b = a then v else Memory.read m b := by
  induction m with
  | nil => simpa [Memory.write] using Memory.read_cell_append [] a b v (by simp)
  | cons x m ih =>
    obtain ⟨c, w⟩ := x
    obtain ⟨hx, hm⟩ := List.pairwise_cons.1 h
    rw [Memory.write]
    split
    · rw [Memory.read_cell_append _ _ _ _ (by
        intro y hy
        rcases List.mem_cons.1 hy with rfl | hy
        · assumption
        · have := hx y hy; simp only at this; omega)]
    · split
      · rename_i _ hac
        subst hac
        rw [Memory.read_cell_append _ _ _ _ fun y hy => hx y hy]
        by_cases hb : b = a <;> simp [hb, Memory.read]
      · rw [Memory.read, ih hm, Memory.read]
        by_cases hb : b = c
        · subst hb; rw [if_pos rfl, if_neg (by omega), if_pos rfl]
        · simp [hb]

/-- The cells of a written memory are those it had, and the one written. -/
theorem Memory.mem_write {m : Memory} {a : Nat} {v : Byte} {x : Host.Cell} (h : x ∈ Memory.write m a v) :
    x ∈ m ∨ x = (a, v) ∧ v ≠ Memory.unlisted a := by
  have cell : ∀ {y}, y ∈ Memory.cell a v → y = (a, v) ∧ v ≠ Memory.unlisted a := by
    intro y hy; unfold Memory.cell at hy; split at hy
    · cases hy
    · exact ⟨by simpa using hy, ‹_›⟩
  induction m with
  | nil => exact .inr (cell h)
  | cons y m ih =>
    obtain ⟨c, w⟩ := y
    rw [Memory.write] at h
    split at h
    · rcases List.mem_append.1 h with h | h
      · exact .inr (cell h)
      · exact .inl h
    · split at h
      · rcases List.mem_append.1 h with h | h
        · exact .inr (cell h)
        · exact .inl (by simp [h])
      · rcases List.mem_cons.1 h with rfl | h
        · exact .inl (by simp)
        · rcases ih h with h | h
          · exact .inl (by simp [h])
          · exact .inr h

theorem Memory.pairwise_write {m : Memory} (h : m.Pairwise fun x y => x.1 < y.1) (a : Nat) (v : Byte) :
    (Memory.write m a v).Pairwise fun x y => x.1 < y.1 := by
  have app : ∀ {l : Memory}, l.Pairwise (fun x y => x.1 < y.1) → (∀ x ∈ l, a < x.1) →
      (Memory.cell a v ++ l).Pairwise fun x y => x.1 < y.1 := by
    intro l hl hall
    unfold Memory.cell; split
    · simpa using hl
    · exact List.pairwise_cons.2 ⟨fun y hy => hall y hy, hl⟩
  induction m with
  | nil => simpa [Memory.write] using app (l := []) (by simp) (by simp)
  | cons y m ih =>
    obtain ⟨c, w⟩ := y
    obtain ⟨hx, hm⟩ := List.pairwise_cons.1 h
    rw [Memory.write]
    split
    · refine app h fun x hx' => ?_
      rcases List.mem_cons.1 hx' with rfl | hx'
      · assumption
      · have := hx x hx'; simp only at this; omega
    · split
      · rename_i _ hac; subst hac; exact app hm fun x hx' => hx x hx'
      · refine List.pairwise_cons.2 ⟨fun x hx' => ?_, ih hm⟩
        rcases Memory.mem_write hx' with hx' | ⟨rfl, -⟩
        · exact hx x hx'
        · simp only; omega

/-- A write keeps the canonical form. -/
theorem Memory.wf_write {m : Memory} (h : m.wf) {a : Nat} (ha : a < imageSize) (v : Byte) :
    (Memory.write m a v).wf := by
  refine ⟨Memory.pairwise_write h.1 a v, fun x hx => ?_⟩
  rcases Memory.mem_write hx with hx | ⟨rfl, hv⟩
  · exact h.2 x hx
  · exact ⟨ha, hv⟩

theorem Memory.wf_nil : Memory.wf [] := ⟨List.Pairwise.nil, fun _ h => by cases h⟩

theorem Memory.wf_writeBytes {m : Memory} (h : m.wf) {a : Nat} {s : List Byte} (ha : a + s.length ≤ imageSize) :
    (Memory.writeBytes m a s).wf := by
  induction s generalizing m a with
  | nil => exact h
  | cons v s ih =>
    simp only [List.length_cons] at ha
    exact ih (Memory.wf_write h (by omega) v) (by omega)

theorem Memory.pairwise_writeBytes {m : Memory} (h : m.Pairwise fun x y => x.1 < y.1) (a : Nat) (s : List Byte) :
    (Memory.writeBytes m a s).Pairwise fun x y => x.1 < y.1 := by
  induction s generalizing m a with
  | nil => exact h
  | cons v s ih => exact ih (Memory.pairwise_write h a v) (a + 1)

/-- A byte sequence reads as written; every other byte reads as before. -/
theorem Memory.read_writeBytes {m : Memory} (h : m.Pairwise fun x y => x.1 < y.1) (a b : Nat) (s : List Byte) :
    Memory.read (Memory.writeBytes m a s) b =
      if a ≤ b then (s[b - a]?).getD (Memory.read m b) else Memory.read m b := by
  induction s generalizing m a with
  | nil => simp [Memory.writeBytes]
  | cons v s ih =>
    rw [Memory.writeBytes, ih (Memory.pairwise_write h a v), Memory.read_write h]
    rcases Nat.lt_trichotomy b a with hb | rfl | hb
    · rw [if_neg (by omega), if_neg (by omega), if_neg (by omega)]
    · rw [if_neg (by omega), if_pos rfl, if_pos (Nat.le_refl _)]; simp
    · rw [if_pos (by omega), if_neg (by omega), if_pos (by omega)]
      have e : b - a = (b - (a + 1)) + 1 := by omega
      rw [e, List.getElem?_cons_succ]

/-- The reset tag's memory has the canonical form. -/
theorem reset_memory_wf : State.reset.env.tag.mem.wf := Memory.wf_nil

theorem Memory.wf_ofBytes {s : List Byte} (h : s.length ≤ imageSize) : (Memory.ofBytes s).wf :=
  Memory.wf_writeBytes Memory.wf_nil (by omega)

/-- The memory that holds a sequence reads as the sequence. -/
theorem Memory.read_ofBytes (s : List Byte) (b : Nat) :
    Memory.read (Memory.ofBytes s) b = (s[b]?).getD (Memory.unlisted b) := by
  simp [Memory.ofBytes, Memory.read_writeBytes, Memory.read]

end Sys2Proof.Machine
end

