-- ==== Sys2Proof/Laws/Target.lean ====
section
/-! SUPPORT. The target: what its events keep, and what one write or read transaction does to it, by the
register at the address. -/

namespace Sys2Proof.Machine

/-! ## Events -/

@[simp] theorem tickCrc_regs (t : Target) (c : Config) : (t.tickCrc c).regs = t.regs := by
  unfold Target.tickCrc; split <;> rfl
@[simp] theorem tickCrc_cmd (t : Target) (c : Config) : (t.tickCrc c).cmd = t.cmd := by
  unfold Target.tickCrc; split <;> rfl
@[simp] theorem tickCrc_sent (t : Target) (c : Config) : (t.tickCrc c).sent = t.sent := by
  unfold Target.tickCrc; split <;> rfl
@[simp] theorem tickCrc_loadOpen (t : Target) (c : Config) : (t.tickCrc c).loadOpen = t.loadOpen := by
  unfold Target.tickCrc; split <;> rfl
@[simp] theorem tickCrc_fifo (t : Target) (c : Config) : (t.tickCrc c).fifo = t.fifo := by
  unfold Target.tickCrc; split <;> rfl
@[simp] theorem tickCrc_rxPend (t : Target) (c : Config) : (t.tickCrc c).rxPend = t.rxPend := by
  unfold Target.tickCrc; split <;> rfl
@[simp] theorem tickRx_regs (t : Target) (c : Config) : (t.tickRx c).regs = t.regs := by
  unfold Target.tickRx; split <;> rfl
@[simp] theorem tickRx_cmd (t : Target) (c : Config) : (t.tickRx c).cmd = t.cmd := by
  unfold Target.tickRx; split <;> rfl
@[simp] theorem tickRx_sent (t : Target) (c : Config) : (t.tickRx c).sent = t.sent := by
  unfold Target.tickRx; split <;> rfl
@[simp] theorem tickRx_loadOpen (t : Target) (c : Config) : (t.tickRx c).loadOpen = t.loadOpen := by
  unfold Target.tickRx; split <;> rfl
@[simp] theorem tickRx_crcPend (t : Target) (c : Config) : (t.tickRx c).crcPend = t.crcPend := by
  unfold Target.tickRx; split <;> rfl
@[simp] theorem tick_regs (t : Target) (c : Config) : (t.tick c).regs = t.regs := by simp [Target.tick]
@[simp] theorem tick_cmd (t : Target) (c : Config) : (t.tick c).cmd = t.cmd := by simp [Target.tick]
@[simp] theorem tick_sent (t : Target) (c : Config) : (t.tick c).sent = t.sent := by simp [Target.tick]
@[simp] theorem tick_loadOpen (t : Target) (c : Config) : (t.tick c).loadOpen = t.loadOpen := by
  simp [Target.tick]
@[simp] theorem tick_reg (t : Target) (c : Config) (a : RegAddr) : (t.tick c).reg a = t.reg a := by
  simp [Target.reg]

/-- Nothing pending, nothing happens. -/
theorem tickCrc_calm {t : Target} (h : t.crcPend = none) (c : Config) : t.tickCrc c = t := by
  unfold Target.tickCrc; rw [h]
theorem tickRx_calm {t : Target} (h : t.rxPend = none) (c : Config) : t.tickRx c = t := by
  unfold Target.tickRx; rw [h]
theorem tick_calm {t : Target} (h : t.crcPend = none ∧ t.rxPend = none) (c : Config) : t.tick c = t := by
  rw [Target.tick, tickCrc_calm h.1, tickRx_calm h.2]

/-- Events keep what the invariant says of the target. -/
theorem tick_ok {t : Target} {c : Config} (h : t.ok c) : (t.tick c).ok c := by
  obtain ⟨h1, h2, h3, h4, h5⟩ := h
  have hc : (t.tickCrc c).ok c := by
    refine ⟨by simpa using h1, by simpa using h2, ?_, by simpa using h4, by simpa using h5⟩
    rw [tickCrc_cmd]
    unfold Target.tickCrc
    split
    · intro h; simp [Target.completeCrc] at h
    · exact h3
    · exact h3
  rw [Target.tick]
  generalize t.tickCrc c = u at hc
  obtain ⟨h1, h2, h3, h4, h5⟩ := hc
  refine ⟨?_, by simpa using h2, by simpa using h3, by simpa using h4, ?_⟩
  · unfold Target.tickRx
    split
    · simp [Target.receive]
    all_goals exact h1
  · rw [tickRx_sent]
    unfold Target.tickRx
    split
    · intro h; simp [Target.receive] at h
    · intro h; simp [Target.expire] at h
    all_goals exact h5

/-! ## The state around a transaction -/

/-- The state once the events due before a transaction have happened. -/
def State.ticked (s : State) : State := { s with tgt := s.tgt.tick s.cfg }

/-- The state after a transaction has been recorded. -/
def State.recorded (s : State) (f : BusFrame) : State :=
  { s with seq := { s.seq with phase := s.seq.phase + 1 }, trace := f :: s.trace }

@[simp] theorem ticked_cfg (s : State) : s.ticked.cfg = s.cfg := rfl
@[simp] theorem ticked_seq (s : State) : s.ticked.seq = s.seq := rfl
@[simp] theorem ticked_tgt (s : State) : s.ticked.tgt = s.tgt.tick s.cfg := rfl
@[simp] theorem ticked_env (s : State) : s.ticked.env = s.env := rfl
@[simp] theorem ticked_port (s : State) : s.ticked.port = s.port := rfl
@[simp] theorem ticked_result (s : State) : s.ticked.result = s.result := rfl
@[simp] theorem ticked_trace (s : State) : s.ticked.trace = s.trace := rfl
@[simp] theorem recorded_cfg (s : State) (f : BusFrame) : (s.recorded f).cfg = s.cfg := rfl
@[simp] theorem recorded_seq (s : State) (f : BusFrame) :
    (s.recorded f).seq = { s.seq with phase := s.seq.phase + 1 } := rfl
@[simp] theorem recorded_tgt (s : State) (f : BusFrame) : (s.recorded f).tgt = s.tgt := rfl
@[simp] theorem recorded_env (s : State) (f : BusFrame) : (s.recorded f).env = s.env := rfl
@[simp] theorem recorded_port (s : State) (f : BusFrame) : (s.recorded f).port = s.port := rfl
@[simp] theorem recorded_result (s : State) (f : BusFrame) : (s.recorded f).result = s.result := rfl
@[simp] theorem recorded_trace (s : State) (f : BusFrame) : (s.recorded f).trace = f :: s.trace := rfl

/-- The frame of a write (R101). -/
def writeFrame (a : RegAddr) (v : Byte) : BusFrame := { b0 := busWriteByte0 a, b1 := v, answer := none }

/-- The frame of a read (R102). -/
def readFrame (a : RegAddr) (v : Byte) : BusFrame := { b0 := busReadByte0 a, b1 := 0x00, answer := some v }

theorem busWrite_oracle {s : State} (h : s.env.level = .busOracle) (a : RegAddr) (v : Byte) :
    busWrite a v s = .ok () (s.recorded (writeFrame a v)) := by
  rw [busWrite, Op.bind_ok (Op.state_apply s)]; simp only [h]; rfl

theorem busRead_oracle {s : State} (h : s.env.level = .busOracle) (a : RegAddr) :
    busRead a s = .ok (s.env.byteValue 0x00)
      ({ s with env := s.env.afterBytes 1 }.recorded (readFrame a (s.env.byteValue 0x00))) := by
  rw [busRead, Op.bind_ok (Op.state_apply s)]; simp only [h]; rfl

theorem busWrite_target {s t : State} (h : s.env.level = .referenceTarget) {a : RegAddr} {v : Byte}
    (e : targetWrite a v s.ticked = .ok () t) : busWrite a v s = .ok () (t.recorded (writeFrame a v)) := by
  rw [busWrite, Op.bind_ok (Op.state_apply s)]
  simp only [h]
  rw [Op.bind_ok (show tickTarget s = .ok () s.ticked from rfl), Op.bind_ok e]; rfl

theorem busWrite_stop {s t : State} (h : s.env.level = .referenceTarget) {a : RegAddr} {v : Byte} {x : Stop}
    (e : targetWrite a v s.ticked = .error x t) : busWrite a v s = .error x t := by
  rw [busWrite, Op.bind_ok (Op.state_apply s)]
  simp only [h]
  rw [Op.bind_ok (show tickTarget s = .ok () s.ticked from rfl), Op.bind_error e]

theorem busRead_target {s t : State} (h : s.env.level = .referenceTarget) {a : RegAddr} {v : Byte}
    (e : targetRead a s.ticked = .ok v t) : busRead a s = .ok v (t.recorded (readFrame a v)) := by
  rw [busRead, Op.bind_ok (Op.state_apply s)]
  simp only [h]
  rw [Op.bind_ok (show tickTarget s = .ok () s.ticked from rfl), Op.bind_ok e]; rfl

/-! ## A write at the target, by register -/

section
variable {s : State} {a : RegAddr}

theorem targetWrite_storage (h : RegName.storesWrite (s.cfg.regmap.nameAt a) = true) (v : Byte) :
    targetWrite a v s = .ok () { s with tgt := s.tgt.setReg a v } := by
  rw [targetWrite, Op.bind_ok (Op.cfg_apply s)]
  revert h
  cases s.cfg.regmap.nameAt a with
  | none => intro _; rfl
  | some n => cases n <;> simp [RegName.storesWrite]

theorem targetWrite_readOnly
    (h : s.cfg.regmap.nameAt a = some .error ∨ s.cfg.regmap.nameAt a = some .crcresultH ∨
      s.cfg.regmap.nameAt a = some .crcresultL) (v : Byte) : targetWrite a v s = .ok () s := by
  rw [targetWrite, Op.bind_ok (Op.cfg_apply s)]
  rcases h with h | h | h <;> rw [h] <;> rfl

theorem targetWrite_fifolevel (h : s.cfg.regmap.nameAt a = some .fifolevel) (v : Byte) :
    targetWrite a v s = .ok () { s with tgt := if v.hasAny s.cfg.masks.flush then s.tgt.flush else s.tgt } := by
  rw [targetWrite, Op.bind_ok (Op.cfg_apply s)]; simp only [h]; rfl

theorem targetWrite_comirq (h : s.cfg.regmap.nameAt a = some .comirq) (v : Byte) :
    targetWrite a v s = .ok () { s with tgt := { s.tgt with comFlags := setClearFlags s.tgt.comFlags v } } := by
  rw [targetWrite, Op.bind_ok (Op.cfg_apply s)]; simp only [h]; rfl

theorem targetWrite_divirq (h : s.cfg.regmap.nameAt a = some .divirq) (v : Byte) :
    targetWrite a v s =
      .ok () { s with tgt := { s.tgt with divFlags := writeDivFlags s.cfg.divirqMode s.tgt.divFlags v } } := by
  rw [targetWrite, Op.bind_ok (Op.cfg_apply s)]; simp only [h]; rfl

theorem targetWrite_fifodata (h : s.cfg.regmap.nameAt a = some .fifodata)
    (ho : s.tgt.cmd = s.cfg.codes.calccrc → s.tgt.loadOpen = true) (v : Byte) :
    targetWrite a v s = .ok () { s with tgt := s.tgt.push s.cfg.fifoDepth v } := by
  rw [targetWrite, Op.bind_ok (Op.cfg_apply s)]; simp only [h]
  rw [writeFifo, Op.bind_ok (Op.state_apply s)]
  rw [if_neg (by rintro ⟨h1, h2⟩; rw [ho h1] at h2; cases h2)]; rfl

theorem targetWrite_fifodata_refused (h : s.cfg.regmap.nameAt a = some .fifodata)
    (h1 : s.tgt.cmd = s.cfg.codes.calccrc) (h2 : s.tgt.loadOpen = false) (v : Byte) :
    targetWrite a v s = .error (.refuse .fifoPushDuringCrc) s := by
  rw [targetWrite, Op.bind_ok (Op.cfg_apply s)]; simp only [h]
  rw [writeFifo, Op.bind_ok (Op.state_apply s), if_pos ⟨h1, h2⟩]; rfl

/-- START_SEND is not written, or the target is not waiting for it: BITFRAMING is storage (R202). -/
theorem targetWrite_bitframing_idle (h : s.cfg.regmap.nameAt a = some .bitframing) {v : Byte}
    (hn : ¬ (v.hasAny s.cfg.masks.startSend = true ∧ s.tgt.cmd = s.cfg.codes.transceive ∧ s.tgt.sent = false)) :
    targetWrite a v s = .ok () { s with tgt := s.tgt.setReg s.cfg.regmap.bitframing v } := by
  rw [targetWrite, Op.bind_ok (Op.cfg_apply s)]; simp only [h]
  rw [writeBitframing, Op.bind_ok (Op.state_apply s), Op.bind_ok (Op.setTgt_apply _ s), if_neg hn]; rfl

/-- The state after a transmission (R202). -/
def State.transmitted (s : State) (txlast : BitVec 3) : State :=
  { s with
    tgt := { s.tgt with fifo := [], sent := true, comFlags := raiseFlags s.tgt.comFlags comTransmitted,
                        rxPend := some (s.env.exchange s.tgt.fifo txlast).1,
                        rxWait := (s.env.exchange s.tgt.fifo txlast).2.delayValue fun _ rxDelay => rxDelay },
    env := (s.env.exchange s.tgt.fifo txlast).2.afterDelay }

@[simp] theorem transmitted_cfg (s : State) (n : BitVec 3) : (s.transmitted n).cfg = s.cfg := by
  simp only [State.transmitted]
@[simp] theorem transmitted_seq (s : State) (n : BitVec 3) : (s.transmitted n).seq = s.seq := by
  simp only [State.transmitted]
@[simp] theorem transmitted_port (s : State) (n : BitVec 3) : (s.transmitted n).port = s.port := by
  simp only [State.transmitted]
@[simp] theorem transmitted_result (s : State) (n : BitVec 3) : (s.transmitted n).result = s.result := by
  simp only [State.transmitted]
@[simp] theorem transmitted_trace (s : State) (n : BitVec 3) : (s.transmitted n).trace = s.trace := by
  simp only [State.transmitted]

theorem targetWrite_bitframing_send (h : s.cfg.regmap.nameAt a = some .bitframing) {v : Byte}
    (hy : v.hasAny s.cfg.masks.startSend = true ∧ s.tgt.cmd = s.cfg.codes.transceive ∧ s.tgt.sent = false) :
    targetWrite a v s =
      .ok () ({ s with tgt := s.tgt.setReg s.cfg.regmap.bitframing v }.transmitted (v.extractLsb' 0 3)) := by
  rw [targetWrite, Op.bind_ok (Op.cfg_apply s)]; simp only [h]
  rw [writeBitframing, Op.bind_ok (Op.state_apply s), Op.bind_ok (Op.setTgt_apply _ s), if_pos hy]; rfl

/-- The state after CALCCRC has been started (R163). -/
def State.crcStarted (s : State) : State :=
  { s with
    tgt := { s.tgt with crcPend := some s.tgt.fifo, fifo := [],
                        crcWait := s.env.delayValue fun crcDelay _ => crcDelay },
    env := s.env.afterDelay }

@[simp] theorem crcStarted_cfg (s : State) : (s.crcStarted).cfg = s.cfg := by
  simp only [State.crcStarted]
@[simp] theorem crcStarted_seq (s : State) : (s.crcStarted).seq = s.seq := by
  simp only [State.crcStarted]
@[simp] theorem crcStarted_port (s : State) : (s.crcStarted).port = s.port := by
  simp only [State.crcStarted]
@[simp] theorem crcStarted_result (s : State) : (s.crcStarted).result = s.result := by
  simp only [State.crcStarted]
@[simp] theorem crcStarted_trace (s : State) : (s.crcStarted).trace = s.trace := by
  simp only [State.crcStarted]

/-- The state after RESETPHASE (R198). -/
def State.targetReset (s : State) : State :=
  { s with tgt := s.env.freshTarget s.cfg, env := s.env.afterBytes 70 }

@[simp] theorem targetReset_cfg (s : State) : (s.targetReset).cfg = s.cfg := by
  simp only [State.targetReset]
@[simp] theorem targetReset_seq (s : State) : (s.targetReset).seq = s.seq := by
  simp only [State.targetReset]
@[simp] theorem targetReset_port (s : State) : (s.targetReset).port = s.port := by
  simp only [State.targetReset]
@[simp] theorem targetReset_result (s : State) : (s.targetReset).result = s.result := by
  simp only [State.targetReset]
@[simp] theorem targetReset_trace (s : State) : (s.targetReset).trace = s.trace := by
  simp only [State.targetReset]
@[simp] theorem targetReset_tgt (s : State) : s.targetReset.tgt = s.env.freshTarget s.cfg := by
  simp only [State.targetReset]
@[simp] theorem targetReset_env (s : State) : s.targetReset.env = s.env.afterBytes 70 := by
  simp only [State.targetReset]

theorem resetTarget_apply (s : State) : resetTarget s = .ok () s.targetReset := rfl

/-- What a command leaves (R195 to R198). -/
def State.commanded (s : State) : Command → State
  | .idle | .transceive | .authent => s
  | .calccrc => s.crcStarted
  | .resetphase => s.targetReset

@[simp] theorem commanded_cfg (s : State) (k : Command) : (s.commanded k).cfg = s.cfg := by
  cases k <;> simp only [State.commanded, crcStarted_cfg, targetReset_cfg]
@[simp] theorem commanded_seq (s : State) (k : Command) : (s.commanded k).seq = s.seq := by
  cases k <;> simp only [State.commanded, crcStarted_seq, targetReset_seq]
@[simp] theorem commanded_port (s : State) (k : Command) : (s.commanded k).port = s.port := by
  cases k <;> simp only [State.commanded, crcStarted_port, targetReset_port]
@[simp] theorem commanded_result (s : State) (k : Command) : (s.commanded k).result = s.result := by
  cases k <;> simp only [State.commanded, crcStarted_result, targetReset_result]
@[simp] theorem commanded_trace (s : State) (k : Command) : (s.commanded k).trace = s.trace := by
  cases k <;> simp only [State.commanded, crcStarted_trace, targetReset_trace]

theorem targetWrite_command (h : s.cfg.regmap.nameAt a = some .command) {v : Byte} {k : Command}
    (hk : s.cfg.codes.ofByte v = some k) (hn : k ≠ .authent) :
    targetWrite a v s = .ok () ({ s with tgt := s.tgt.accept s.cfg k }.commanded k) := by
  rw [targetWrite, Op.bind_ok (Op.cfg_apply s)]; simp only [h]
  rw [writeCommand, Op.bind_ok (Op.cfg_apply s)]
  simp only [hk]
  cases k with
  | authent => exact absurd rfl hn
  | idle => rfl
  | calccrc => rfl
  | transceive => rfl
  | resetphase => rfl

theorem targetWrite_command_unknown (h : s.cfg.regmap.nameAt a = some .command) {v : Byte}
    (hk : s.cfg.codes.ofByte v = none) : targetWrite a v s = .error (.refuse (.commandRefused v)) s := by
  rw [targetWrite, Op.bind_ok (Op.cfg_apply s)]; simp only [h]
  rw [writeCommand, Op.bind_ok (Op.cfg_apply s)]
  simp only [hk]; rfl

theorem targetWrite_command_authent (h : s.cfg.regmap.nameAt a = some .command) {v : Byte}
    (hk : s.cfg.codes.ofByte v = some .authent) : targetWrite a v s = .error (.refuse .authentRefused) s := by
  rw [targetWrite, Op.bind_ok (Op.cfg_apply s)]; simp only [h]
  rw [writeCommand, Op.bind_ok (Op.cfg_apply s)]
  simp only [hk]; rfl

/-! ## A read at the target, by register -/

theorem targetRead_storage (h : RegName.storesRead (s.cfg.regmap.nameAt a) = true) :
    targetRead a s = .ok (s.tgt.reg a) s := by
  rw [targetRead, Op.bind_ok (Op.state_apply s)]
  revert h
  cases s.cfg.regmap.nameAt a with
  | none => intro _; rfl
  | some n => cases n <;> simp [RegName.storesRead]

theorem targetRead_fifolevel (h : s.cfg.regmap.nameAt a = some .fifolevel) :
    targetRead a s = .ok s.tgt.level s := by
  rw [targetRead, Op.bind_ok (Op.state_apply s)]; simp only [h]; rfl

theorem targetRead_comirq (h : s.cfg.regmap.nameAt a = some .comirq) :
    targetRead a s = .ok (flagByte s.tgt.comFlags) s := by
  rw [targetRead, Op.bind_ok (Op.state_apply s)]; simp only [h]; rfl

theorem targetRead_divirq (h : s.cfg.regmap.nameAt a = some .divirq) :
    targetRead a s = .ok (flagByte s.tgt.divFlags) s := by
  rw [targetRead, Op.bind_ok (Op.state_apply s)]; simp only [h]; rfl

theorem targetRead_error (h : s.cfg.regmap.nameAt a = some .error) : targetRead a s = .ok s.tgt.err s := by
  rw [targetRead, Op.bind_ok (Op.state_apply s)]; simp only [h]; rfl

/-- What CONTROL reads as (R40). -/
def Target.controlByte (t : Target) (a : RegAddr) : Byte := (t.reg a &&& 0xF8) ||| t.rxLast.setWidth 8

theorem targetRead_control (h : s.cfg.regmap.nameAt a = some .control) :
    targetRead a s = .ok (s.tgt.controlByte a) s := by
  rw [targetRead, Op.bind_ok (Op.state_apply s)]; simp only [h]; rfl

theorem targetRead_fifodata (h : s.cfg.regmap.nameAt a = some .fifodata) {b : Byte} {rest : List Byte}
    (hf : s.tgt.fifo = b :: rest) : targetRead a s = .ok b { s with tgt := { s.tgt with fifo := rest } } := by
  rw [targetRead, Op.bind_ok (Op.state_apply s)]; simp only [h]
  rw [readFifo, Op.bind_ok (Op.state_apply s)]; simp only [hf]; rfl

theorem targetRead_fifodata_empty (h : s.cfg.regmap.nameAt a = some .fifodata) (hf : s.tgt.fifo = []) :
    targetRead a s = .ok (s.env.byteValue 0x00) { s with env := s.env.afterBytes 1 } := by
  rw [targetRead, Op.bind_ok (Op.state_apply s)]; simp only [h]
  rw [readFifo, Op.bind_ok (Op.state_apply s)]; simp only [hf]; rfl

/-- The byte of CRCRESULT_H or CRCRESULT_L (R169). -/
def crcPart : RegName → Word16 → Byte
  | .crcresultH => crcHigh
  | _ => crcLow

theorem targetRead_crcresult {n : RegName} (hn : n = .crcresultH ∨ n = .crcresultL)
    (h : s.cfg.regmap.nameAt a = some n) (hk : s.tgt.crcKnown = true ∧ s.tgt.crcPend = none) :
    targetRead a s = .ok (crcPart n s.tgt.crcRes) s := by
  rw [targetRead, Op.bind_ok (Op.state_apply s)]; simp only [h]
  rcases hn with rfl | rfl <;>
    simp only [readCrcResult, crcPart] <;> rw [Op.bind_ok (Op.state_apply s), if_pos hk] <;> rfl

theorem targetRead_crcresult_draw {n : RegName} (hn : n = .crcresultH ∨ n = .crcresultL)
    (h : s.cfg.regmap.nameAt a = some n) (hk : ¬ (s.tgt.crcKnown = true ∧ s.tgt.crcPend = none)) :
    targetRead a s =
      .ok (s.env.byteValue (crcPart n s.tgt.crcRes)) { s with env := s.env.afterBytes 1 } := by
  rw [targetRead, Op.bind_ok (Op.state_apply s)]; simp only [h]
  rcases hn with rfl | rfl <;>
    simp only [readCrcResult, crcPart] <;> rw [Op.bind_ok (Op.state_apply s), if_neg hk] <;> rfl

/-! ## Everything a transaction can do at the target -/

/-- Every way a write at the target goes on. -/
inductive Written (a : RegAddr) (v : Byte) (s : State) : State → Prop
  | storage (h : RegName.storesWrite (s.cfg.regmap.nameAt a) = true) :
      Written a v s { s with tgt := s.tgt.setReg a v }
  | readOnly (h : s.cfg.regmap.nameAt a = some .error ∨ s.cfg.regmap.nameAt a = some .crcresultH ∨
      s.cfg.regmap.nameAt a = some .crcresultL) : Written a v s s
  | level (h : s.cfg.regmap.nameAt a = some .fifolevel) :
      Written a v s { s with tgt := if v.hasAny s.cfg.masks.flush then s.tgt.flush else s.tgt }
  | comirq (h : s.cfg.regmap.nameAt a = some .comirq) :
      Written a v s { s with tgt := { s.tgt with comFlags := setClearFlags s.tgt.comFlags v } }
  | divirq (h : s.cfg.regmap.nameAt a = some .divirq) :
      Written a v s
        { s with tgt := { s.tgt with divFlags := writeDivFlags s.cfg.divirqMode s.tgt.divFlags v } }
  | push (h : s.cfg.regmap.nameAt a = some .fifodata)
      (ho : s.tgt.cmd = s.cfg.codes.calccrc → s.tgt.loadOpen = true) :
      Written a v s { s with tgt := s.tgt.push s.cfg.fifoDepth v }
  | framing (h : s.cfg.regmap.nameAt a = some .bitframing)
      (hn : ¬ (v.hasAny s.cfg.masks.startSend = true ∧ s.tgt.cmd = s.cfg.codes.transceive ∧
        s.tgt.sent = false)) : Written a v s { s with tgt := s.tgt.setReg s.cfg.regmap.bitframing v }
  | send (h : s.cfg.regmap.nameAt a = some .bitframing)
      (hy : v.hasAny s.cfg.masks.startSend = true ∧ s.tgt.cmd = s.cfg.codes.transceive ∧
        s.tgt.sent = false) :
      Written a v s
        ({ s with tgt := s.tgt.setReg s.cfg.regmap.bitframing v }.transmitted (v.extractLsb' 0 3))
  | command (h : s.cfg.regmap.nameAt a = some .command) (k : Command) (hk : s.cfg.codes.ofByte v = some k)
      (hn : k ≠ .authent) : Written a v s ({ s with tgt := s.tgt.accept s.cfg k }.commanded k)

/-- A write at the target goes on in one of these ways, or is refused. -/
theorem targetWrite_cases (s : State) (a : RegAddr) (v : Byte) :
    (∃ t, targetWrite a v s = .ok () t ∧ Written a v s t) ∨
      ∃ r, targetWrite a v s = .error (.refuse r) s := by
  by_cases hs : RegName.storesWrite (s.cfg.regmap.nameAt a) = true
  · exact .inl ⟨_, targetWrite_storage hs v, .storage hs⟩
  cases hn : s.cfg.regmap.nameAt a with
  | none => rw [hn] at hs; exact absurd rfl hs
  | some n =>
    cases n with
    | fifodata =>
      by_cases h : s.tgt.cmd = s.cfg.codes.calccrc ∧ s.tgt.loadOpen = false
      · exact .inr ⟨_, targetWrite_fifodata_refused hn h.1 h.2 v⟩
      · have ho : s.tgt.cmd = s.cfg.codes.calccrc → s.tgt.loadOpen = true := fun e => by
          cases hl : s.tgt.loadOpen
          · exact absurd ⟨e, hl⟩ h
          · rfl
        exact .inl ⟨_, targetWrite_fifodata hn ho v, .push hn ho⟩
    | fifolevel => exact .inl ⟨_, targetWrite_fifolevel hn v, .level hn⟩
    | comirq => exact .inl ⟨_, targetWrite_comirq hn v, .comirq hn⟩
    | divirq => exact .inl ⟨_, targetWrite_divirq hn v, .divirq hn⟩
    | error => exact .inl ⟨_, targetWrite_readOnly (.inl hn) v, .readOnly (.inl hn)⟩
    | crcresultH => exact .inl ⟨_, targetWrite_readOnly (.inr (.inl hn)) v, .readOnly (.inr (.inl hn))⟩
    | crcresultL => exact .inl ⟨_, targetWrite_readOnly (.inr (.inr hn)) v, .readOnly (.inr (.inr hn))⟩
    | bitframing =>
      by_cases h : v.hasAny s.cfg.masks.startSend = true ∧ s.tgt.cmd = s.cfg.codes.transceive ∧
          s.tgt.sent = false
      · exact .inl ⟨_, targetWrite_bitframing_send hn h, .send hn h⟩
      · exact .inl ⟨_, targetWrite_bitframing_idle hn h, .framing hn h⟩
    | command =>
      cases hk : s.cfg.codes.ofByte v with
      | none => exact .inr ⟨_, targetWrite_command_unknown hn hk⟩
      | some k =>
        by_cases ha : k = .authent
        · subst ha; exact .inr ⟨_, targetWrite_command_authent hn hk⟩
        · exact .inl ⟨_, targetWrite_command hn hk ha, .command hn k hk ha⟩
    | _ => rw [hn] at hs; exact absurd rfl hs

/-- A read at the target always goes on, and changes at most the FIFO (a pop) or the draws. -/
theorem targetRead_cases (s : State) (a : RegAddr) : ∃ v t, targetRead a s = .ok v t ∧
    (t = s ∨
      (∃ rest, s.cfg.regmap.nameAt a = some .fifodata ∧ s.tgt.fifo = v :: rest ∧
        t = { s with tgt := { s.tgt with fifo := rest } }) ∨
      t = { s with env := s.env.afterBytes 1 }) := by
  by_cases hs : RegName.storesRead (s.cfg.regmap.nameAt a) = true
  · exact ⟨_, _, targetRead_storage hs, .inl rfl⟩
  have crc : ∀ n, n = .crcresultH ∨ n = .crcresultL → s.cfg.regmap.nameAt a = some n → ∃ v t,
      targetRead a s = .ok v t ∧ (t = s ∨
        (∃ rest, s.cfg.regmap.nameAt a = some .fifodata ∧ s.tgt.fifo = v :: rest ∧
          t = { s with tgt := { s.tgt with fifo := rest } }) ∨
        t = { s with env := s.env.afterBytes 1 }) := by
    intro n hn h
    by_cases hk : s.tgt.crcKnown = true ∧ s.tgt.crcPend = none
    · exact ⟨_, _, targetRead_crcresult hn h hk, .inl rfl⟩
    · exact ⟨_, _, targetRead_crcresult_draw hn h hk, .inr (.inr rfl)⟩
  cases hn : s.cfg.regmap.nameAt a with
  | none => rw [hn] at hs; exact absurd rfl hs
  | some n =>
    rw [hn] at crc
    cases n with
    | fifodata =>
      cases hf : s.tgt.fifo with
      | nil => exact ⟨_, _, targetRead_fifodata_empty hn hf, .inr (.inr rfl)⟩
      | cons b rest => exact ⟨_, _, targetRead_fifodata hn hf, .inr (.inl ⟨rest, rfl, rfl, rfl⟩)⟩
    | fifolevel => exact ⟨_, _, targetRead_fifolevel hn, .inl rfl⟩
    | comirq => exact ⟨_, _, targetRead_comirq hn, .inl rfl⟩
    | divirq => exact ⟨_, _, targetRead_divirq hn, .inl rfl⟩
    | error => exact ⟨_, _, targetRead_error hn, .inl rfl⟩
    | control => exact ⟨_, _, targetRead_control hn, .inl rfl⟩
    | crcresultH => exact crc _ (.inl rfl) rfl
    | crcresultL => exact crc _ (.inr rfl) rfl
    | _ => rw [hn] at hs; exact absurd rfl hs

end

/-- A write transaction goes on, and then it is recorded, or it is refused. -/
theorem busWrite_cases (s : State) (a : RegAddr) (v : Byte) :
    (∃ t, busWrite a v s = .ok () (t.recorded (writeFrame a v)) ∧
      (s.env.level = .busOracle ∧ t = s ∨ s.env.level = .referenceTarget ∧ Written a v s.ticked t)) ∨
    ∃ r t, busWrite a v s = .error (.refuse r) t := by
  cases h : s.env.level with
  | busOracle => exact .inl ⟨s, busWrite_oracle h a v, .inl ⟨rfl, rfl⟩⟩
  | referenceTarget =>
    rcases targetWrite_cases s.ticked a v with ⟨t, e, w⟩ | ⟨r, e⟩
    · exact .inl ⟨t, busWrite_target h e, .inr ⟨rfl, w⟩⟩
    · exact .inr ⟨r, _, busWrite_stop h e⟩

/-- A read transaction always goes on. -/
theorem busRead_cases (s : State) (a : RegAddr) : ∃ v t, busRead a s = .ok v (t.recorded (readFrame a v)) ∧
    (s.env.level = .busOracle ∧ t = { s with env := s.env.afterBytes 1 } ∨
      s.env.level = .referenceTarget ∧
        (t = s.ticked ∨
          (∃ rest, s.cfg.regmap.nameAt a = some .fifodata ∧ s.ticked.tgt.fifo = v :: rest ∧
            t = { s.ticked with tgt := { s.ticked.tgt with fifo := rest } }) ∨
          t = { s.ticked with env := s.env.afterBytes 1 })) := by
  cases h : s.env.level with
  | busOracle => exact ⟨_, _, busRead_oracle h a, .inl ⟨rfl, rfl⟩⟩
  | referenceTarget =>
    obtain ⟨v, t, e, w⟩ := targetRead_cases s.ticked a
    exact ⟨v, t, busRead_target h e, .inr ⟨rfl, w⟩⟩

end Sys2Proof.Machine
end

