-- ==== Sys2Proof/Laws/Keeps.lean ====
section
/-! SUPPORT. What a body keeps follows from what its bus transactions and its register updates keep: one lemma
for each shared operation. -/

namespace Sys2Proof.Machine

/-- The register updates of the executor and of the CRC driver (R22 to R24). -/
inductive ExchangeUpdate : (Sequencer → Sequencer) → Prop
  | pollZero : ExchangeUpdate fun q => { q with pollcnt := 0 }
  | polled : ExchangeUpdate fun q => { q with pollcnt := q.pollcnt + 1 }
  | crc (lo hi : Byte) : ExchangeUpdate fun q => { q with crcLo := lo, crcHi := hi }
  | arm (cmd : Command) : ExchangeUpdate fun q =>
      { q with irqen := irqEnable cmd, waitirq := irqWait cmd, rxbuf := [], rxbits := 0, errkind := .none }
  | begin : ExchangeUpdate fun q => { q with pollcnt := 0, irqval := 0 }
  | seen (v : Byte) : ExchangeUpdate fun q => { q with irqval := v, pollcnt := q.pollcnt + 1 }
  | fail (k : ErrKind) : ExchangeUpdate fun q => { q with status := .err, errkind := k }
  | status (m : Masks) : ExchangeUpdate fun q =>
      { q with status := if noTagSeen m q.irqval q.irqen then .notag else .ok }
  | rxbits (n : Int) : ExchangeUpdate fun q => { q with rxbits := n }
  | rxbuf (s : List Byte) : ExchangeUpdate fun q => { q with rxbuf := s }

/-- The register updates of units U3 and U4 (R25 to R29). -/
inductive UpperUpdate : (Sequencer → Sequencer) → Prop
  | atqa (a b : Byte) : UpperUpdate fun q => { q with atqa0 := a, atqa1 := b }
  | begin : UpperUpdate fun q => { q with uid := [], nfrag := 0 }
  | level (l : CascadeLevel) : UpperUpdate fun q => { q with level := l }
  | keep (l : CascadeLevel) (f : Fragment) : UpperUpdate fun q => q.keepFragment l f
  | uid : UpperUpdate fun q => { q with uid := combine q.fragments }
  | blk (b : Nat) : UpperUpdate fun q => { q with blk := b }
  | acc (s : List Byte) : UpperUpdate fun q => { q with acc := q.acc ++ s }
  | imageBegin : UpperUpdate fun q => { q with imgPopulated := false, acc := [] }
  | image : UpperUpdate fun q => { q with img := q.acc, imgPopulated := true }

variable {R : State → State → Prop}

theorem loadFifo_within (C : Chains R) (W : ∀ a v, Op.Within R (busWrite a v)) (a : RegAddr) (s : List Byte) :
    Op.Within R (loadFifo a s) := by
  induction s with
  | nil => exact .ofPure C ()
  | cons b s ih => exact .bind C (W a b) fun _ => ih

/-- A relation that every bus transaction keeps, and CRC_CALC's load of its operand. -/
structure BusKept (R : State → State → Prop) : Prop where
  chains : Chains R
  write : ∀ a v, Op.Within R (busWrite a v)
  read : ∀ a, Op.Within R (busRead a)
  load : ∀ a s, Op.Within R (loadOperand a s)

/-- A relation that does not look at whether CRC_CALC is loading. -/
theorem BusKept.of (C : Chains R) (W : ∀ a v, Op.Within R (busWrite a v)) (K : ∀ a, Op.Within R (busRead a))
    (L : ∀ b, Op.Within R (setLoading b)) : BusKept R where
  chains := C
  write := W
  read := K
  load a s := .bind C (L true) fun _ => .bind C (loadFifo_within C W a s) fun _ => L false

theorem setBits_within (B : BusKept R) (a : RegAddr) (m : Byte) : Op.Within R (busSetBits a m) :=
  .bind B.chains (B.read a) fun _ => B.write a _

theorem clearBits_within (B : BusKept R) (a : RegAddr) (m : Byte) : Op.Within R (busClearBits a m) :=
  .bind B.chains (B.read a) fun _ => B.write a _

theorem unloadFifo_within (B : BusKept R) (a : RegAddr) (n : Nat) : Op.Within R (unloadFifo a n) := by
  induction n with
  | zero => exact .ofPure B.chains _
  | succ n ih => exact .bind B.chains (B.read a) fun _ => .bind B.chains ih fun _ => .ofPure B.chains _

theorem writeAll_within (B : BusKept R) (l : List (RegAddr × Byte)) : Op.Within R (writeAll l) := by
  induction l with
  | nil => exact .ofPure B.chains ()
  | cons x l ih => obtain ⟨a, v⟩ := x; exact .bind B.chains (B.write a v) fun _ => ih

/-! ## The CRC driver and the executor -/

theorem pollDivirq_within (B : BusKept R) (hf : ∀ f, ExchangeUpdate f → Op.Within R (Op.setSeq f)) (n : Nat) :
    Op.Within R (pollDivirq n) := by
  induction n with
  | zero => exact .ofPure B.chains ()
  | succ n ih =>
    refine .bind B.chains (.ofCfg B.chains) fun _ => .bind B.chains (B.read _) fun _ =>
      .bind B.chains (hf _ .polled) fun _ => ?_
    split
    · exact .ofPure B.chains ()
    · exact ih

theorem crcCalc_within (B : BusKept R) (hf : ∀ f, ExchangeUpdate f → Op.Within R (Op.setSeq f))
    (data : List Byte) : Op.Within R (crcCalc data) :=
  .bind B.chains (.ofCfg B.chains) fun _ => .bind B.chains (clearBits_within B _ _) fun _ =>
    .bind B.chains (setBits_within B _ _) fun _ => .bind B.chains (B.load _ _) fun _ =>
    .bind B.chains (B.write _ _) fun _ => .bind B.chains (hf _ .pollZero) fun _ =>
    .bind B.chains (pollDivirq_within B hf _) fun _ => .bind B.chains (B.read _) fun lo =>
    .bind B.chains (B.read _) fun hi => .bind B.chains (hf _ (.crc lo hi)) fun _ => .ofPure B.chains _

theorem pollComirq_within (B : BusKept R) (hf : ∀ f, ExchangeUpdate f → Op.Within R (Op.setSeq f)) (n : Nat) :
    Op.Within R (pollComirq n) := by
  induction n with
  | zero => exact .ofPure B.chains false
  | succ n ih =>
    refine .bind B.chains (.ofState B.chains) fun _ => .bind B.chains (B.read _) fun v =>
      .bind B.chains (hf _ (.seen v)) fun _ => ?_
    split
    · exact .ofPure B.chains true
    · exact ih

theorem loadExchange_within (B : BusKept R) (cmd : Command) (tx : List Byte) :
    Op.Within R (loadExchange cmd tx) :=
  .bind B.chains (.ofCfg B.chains) fun _ => .bind B.chains (B.write _ _) fun _ =>
    .bind B.chains (clearBits_within B _ _) fun _ => .bind B.chains (setBits_within B _ _) fun _ =>
    .bind B.chains (B.write _ _) fun _ => .bind B.chains (loadFifo_within B.chains B.write _ _) fun _ => B.write _ _

theorem startSend_within (B : BusKept R) (cmd : Command) : Op.Within R (startSend cmd) := by
  refine .bind B.chains (.ofCfg B.chains) fun _ => ?_
  split
  · exact setBits_within B _ _
  · exact .ofPure B.chains ()

theorem failExchange_within (B : BusKept R) (hf : ∀ f, ExchangeUpdate f → Op.Within R (Op.setSeq f))
    (k : ErrKind) : Op.Within R (failExchange k) :=
  .bind B.chains (hf _ (.fail k)) fun _ => .ofPure B.chains _

theorem readResponse_within (B : BusKept R) (hf : ∀ f, ExchangeUpdate f → Op.Within R (Op.setSeq f)) :
    Op.Within R readResponse :=
  .bind B.chains (.ofCfg B.chains) fun _ => .bind B.chains (B.read _) fun _ => .bind B.chains (B.read _) fun _ =>
    .bind B.chains (hf _ (.rxbits _)) fun _ => .bind B.chains (unloadFifo_within B _ _) fun rx =>
    hf _ (.rxbuf rx)

theorem completeExchange_within (B : BusKept R) (hf : ∀ f, ExchangeUpdate f → Op.Within R (Op.setSeq f))
    (cmd : Command) : Op.Within R (completeExchange cmd) := by
  refine .bind B.chains (.ofCfg B.chains) fun c => .bind B.chains (hf _ (.status c.masks)) fun _ => ?_
  have rest : Op.Within R (do
      let s ← Op.state
      pure (s.seq.status, s.seq.rxbuf, s.seq.rxbits) : Op (Status × List Byte × Int)) :=
    .bind B.chains (.ofState B.chains) fun _ => .ofPure B.chains _
  split
  · exact .bind B.chains (readResponse_within B hf) fun _ => rest
  · exact .bind B.chains (.ofPure B.chains ()) fun _ => rest

theorem toCard_within (B : BusKept R) (hf : ∀ f, ExchangeUpdate f → Op.Within R (Op.setSeq f)) (cmd : Command)
    (tx : List Byte) : Op.Within R (toCard cmd tx) := by
  refine .bind B.chains (.ofCfg B.chains) fun c => .bind B.chains (hf _ (.arm cmd)) fun _ =>
    .bind B.chains (loadExchange_within B cmd tx) fun _ => .bind B.chains (startSend_within B cmd) fun _ =>
    .bind B.chains (hf _ .begin) fun _ => .bind B.chains (pollComirq_within B hf _) fun seen =>
    .bind B.chains (clearBits_within B _ _) fun _ => ?_
  split
  · exact failExchange_within B hf _
  · refine .bind B.chains (B.read _) fun e => ?_
    split
    · exact failExchange_within B hf _
    · exact completeExchange_within B hf cmd

/-! ## The units above -/

/-- A relation that transactions, CRC computations and exchanges keep. -/
structure ExchangeKept (R : State → State → Prop) : Prop extends BusKept R where
  crc : ∀ data, Op.Within R (crcCalc data)
  card : ∀ cmd tx, Op.Within R (toCard cmd tx)

theorem checkExchange_within (C : Chains R) (st : Status) : Op.Within R (checkExchange st) := by
  refine .bind C (.ofState C) fun s => ?_
  cases st
  · exact .ofPure C ()
  · exact .ofRaise C _
  · exact .ofRaise C _

theorem transceive_within (K : ExchangeKept R) (frame : List Byte) : Op.Within R (transceive frame) :=
  .bind K.chains (K.card _ _) fun _ => .bind K.chains (checkExchange_within K.chains _) fun _ =>
    .ofPure K.chains _

theorem transceiveCrc_within (K : ExchangeKept R) (body : List Byte) : Op.Within R (transceiveCrc body) :=
  .bind K.chains (K.crc _) fun _ => transceive_within K _

/-- A relation that the updates of units U3 and U4 keep as well. -/
structure UpperKept (R : State → State → Prop) : Prop extends ExchangeKept R where
  upper : ∀ f, UpperUpdate f → Op.Within R (Op.setSeq f)

theorem requestTag_within (K : ExchangeKept R)
    (hu : ∀ a b, Op.Within R (Op.setSeq fun q => { q with atqa0 := a, atqa1 := b })) :
    Op.Within R requestTag := by
  refine .bind K.chains (.ofCfg K.chains) fun _ => .bind K.chains (K.write _ _) fun _ =>
    .bind K.chains (transceive_within K _) fun x => ?_
  obtain ⟨rx, bits⟩ := x
  simp only
  split
  · exact .ofRaise K.chains _
  · exact .bind K.chains (hu _ _) fun _ => .ofPure K.chains _

theorem selectFragment_within (K : ExchangeKept R) (lvl : CascadeLevel) (f : Fragment) :
    Op.Within R (selectFragment lvl f) := by
  refine .bind K.chains (.ofCfg K.chains) fun _ => .bind K.chains (transceiveCrc_within K _) fun x => ?_
  obtain ⟨rx, bits⟩ := x
  simp only
  split
  · exact .ofPure K.chains _
  · exact .ofRaise K.chains _

theorem anticollision_within (K : UpperKept R) (lvl : CascadeLevel) : Op.Within R (anticollision lvl) := by
  refine .bind K.chains (.ofCfg K.chains) fun c => .bind K.chains (K.upper _ (.level lvl)) fun _ => ?_
  have rest : Op.Within R (do
      let (rx, _) ← transceive (anticollFrame c lvl)
      match fragmentOf rx with
      | none => Op.raise .protocolError
      | some f =>
        if f.valid then do
          Op.setSeq fun q => q.keepFragment lvl f
          pure f
        else Op.raise .checksumError : Op Fragment) := by
    refine .bind K.chains (transceive_within K.toExchangeKept _) fun x => ?_
    obtain ⟨rx, bits⟩ := x
    simp only
    split
    · exact .ofRaise K.chains _
    · split
      · exact .bind K.chains (K.upper _ (.keep lvl _)) fun _ => .ofPure K.chains _
      · exact .ofRaise K.chains _
  split
  · exact .bind K.chains (K.write _ _) fun _ => rest
  · exact rest

theorem selectLevel_within (K : UpperKept R) (lvl : CascadeLevel) : Op.Within R (selectLevel lvl) :=
  .bind K.chains (anticollision_within K lvl) fun f =>
    .bind K.chains (selectFragment_within K.toExchangeKept lvl f) fun _ => .ofPure K.chains _

theorem completeSelect_within (K : UpperKept R) : Op.Within R completeSelect :=
  .bind K.chains (K.upper _ .uid) fun _ => .bind K.chains (.ofState K.chains) fun _ => .ofPure K.chains _

theorem selectTag_within (K : UpperKept R) : Op.Within R selectTag := by
  refine .bind K.chains (K.upper _ .begin) fun _ => .bind K.chains (selectLevel_within K .one) fun more => ?_
  split
  · exact completeSelect_within K
  · refine .bind K.chains (selectLevel_within K .two) fun more => ?_
    split
    · exact completeSelect_within K
    · exact .ofRaise K.chains _

theorem readBlock_within (K : ExchangeKept R) (page : Byte) : Op.Within R (readBlock page) := by
  refine .bind K.chains (.ofCfg K.chains) fun _ => .bind K.chains (transceiveCrc_within K _) fun x => ?_
  obtain ⟨rx, bits⟩ := x
  simp only
  split
  · exact .ofRaise K.chains _
  · exact .ofPure K.chains _

theorem assembleBlock_within (K : UpperKept R) (b keep : Nat) : Op.Within R (assembleBlock b keep) :=
  .bind K.chains (K.upper _ (.blk b)) fun _ => .bind K.chains (readBlock_within K.toExchangeKept _) fun _ =>
    K.upper _ (.acc _)

theorem assembleBlocks_within (K : UpperKept R) (n b : Nat) : Op.Within R (assembleBlocks n b) := by
  induction n generalizing b with
  | zero => exact .ofPure K.chains ()
  | succ n ih => exact .bind K.chains (assembleBlock_within K b blockSize) fun _ => ih (b + 1)

theorem readImage_within (K : UpperKept R) : Op.Within R readImage := by
  refine .bind K.chains (K.upper _ .imageBegin) fun _ => .bind K.chains (assembleBlocks_within K _ _) fun _ => ?_
  split
  · exact .bind K.chains (assembleBlock_within K _ _) fun _ => K.upper _ .image
  · exact .bind K.chains (.ofPure K.chains ()) fun _ => K.upper _ .image

theorem writeBlock_within (K : ExchangeKept R) (page : Byte) (data : List Byte) :
    Op.Within R (writeBlock page data) := by
  refine .bind K.chains (.ofCfg K.chains) fun _ => ?_
  split
  · exact .ofRaise K.chains _
  · exact .bind K.chains (transceiveCrc_within K _) fun _ => .ofPure K.chains _

theorem initSequence_within (B : BusKept R) (hl : Op.Within R (Op.setEnv fun e => { e with resetLine := true })) :
    Op.Within R initSequence :=
  .bind B.chains (.ofCfg B.chains) fun _ => .bind B.chains hl fun _ => .bind B.chains (B.write _ _) fun _ =>
    .bind B.chains (writeAll_within B _) fun _ => setBits_within B _ _

theorem issueCommand_within (B : BusKept R) (cmd : Command) : Op.Within R (issueCommand cmd) :=
  .bind B.chains (.ofCfg B.chains) fun _ => .bind B.chains (B.write _ _) fun _ => .ofPure B.chains _

theorem regAddr_within (C : Chains R) (addr : Byte) : Op.Within R (regAddr addr) := by
  unfold regAddr; split
  · exact .ofPure C _
  · exact .ofRaise C _

theorem regionBytes_within (C : Chains R) (n : Region) : Op.Within R (regionBytes n) := by
  refine .bind C (.ofState C) fun s => ?_
  split
  · exact .ofPure C _
  · exact .ofRaise C _

theorem extractRecord_within (C : Chains R) (b : List Byte) : Op.Within R (extractRecord b) := by
  unfold extractRecord; split
  · exact .ofPure C _
  · exact .ofRaise C _

theorem wrapRecord_within (C : Chains R) (p : List Byte) : Op.Within R (wrapRecord p) := by
  unfold wrapRecord; split
  · exact .ofPure C _
  · exact .ofRaise C _

end Sys2Proof.Machine
end

