-- ==== Sys2Proof/Laws/Invariant.lean ====
section
/-! SUPPORT. The parts of the invariant, each kept by every body: the target and the tag's memory, the exchange
registers, the poll count; the registers each transaction leaves alone. -/

namespace Sys2Proof.Machine

/-! ## What no body writes -/

/-- No body writes the configuration, the port, the result, the modelling level or the sources. -/
def Outside (s t : State) : Prop :=
  t.cfg = s.cfg ∧ t.port = s.port ∧ t.result = s.result ∧ t.env.level = s.env.level ∧
    t.env.cardSource = s.env.cardSource ∧ t.env.drawSource = s.env.drawSource

theorem outside_chains : Chains Outside where
  refl _ := ⟨rfl, rfl, rfl, rfl, rfl, rfl⟩
  trans := by
    rintro s t u ⟨a, b, c, d, e, f⟩ ⟨a', b', c', d', e', f'⟩
    exact ⟨a'.trans a, b'.trans b, c'.trans c, d'.trans d, e'.trans e, f'.trans f⟩

theorem exchange_sources (e : Environment) (frame : List Byte) (n : BitVec 3) :
    (e.exchange frame n).2.level = e.level ∧ (e.exchange frame n).2.cardSource = e.cardSource ∧
      (e.exchange frame n).2.drawSource = e.drawSource := by
  unfold Environment.exchange; split <;> simp_all

theorem transmitted_outside (s : State) (n : BitVec 3) : Outside s (s.transmitted n) := by
  obtain ⟨h1, h2, h3⟩ := exchange_sources s.env s.tgt.fifo n
  exact ⟨rfl, rfl, rfl, h1, h2, h3⟩

theorem commanded_outside (s : State) (k : Command) : Outside s (s.commanded k) := by
  refine ⟨by simp, by simp, by simp, ?_⟩
  cases k <;> simp [State.commanded, State.crcStarted]

theorem written_outside {a : RegAddr} {v : Byte} {s t : State} (w : Written a v s t) : Outside s t := by
  cases w with
  | send h hy => exact transmitted_outside { s with tgt := _ } _
  | command h k hk hn => exact commanded_outside { s with tgt := _ } k
  | _ => exact ⟨rfl, rfl, rfl, rfl, rfl, rfl⟩

theorem written_seq {a : RegAddr} {v : Byte} {s t : State} (w : Written a v s t) :
    t.seq = s.seq ∧ t.trace = s.trace := by
  cases w with
  | command h k hk hn => exact ⟨by simp, by simp⟩
  | _ => exact ⟨rfl, rfl⟩

/-- A write transaction in terms of what a write at the target does. -/
theorem busWrite_within {R : State → State → Prop} (hc : Chains R) (ht : ∀ s, R s s.ticked)
    (hr : ∀ s f, R s (s.recorded f)) (hw : ∀ {a v s t}, Written a v s t → R s t) (a : RegAddr) (v : Byte) :
    Op.Within R (busWrite a v) := by
  intro s
  rcases busWrite_cases s a v with ⟨t, e, w⟩ | ⟨r, t, e⟩
  · rw [e]
    rcases w with ⟨-, rfl⟩ | ⟨-, w⟩
    · exact hr _ _
    · exact hc.trans (ht s) (hc.trans (hw w) (hr _ _))
  · rw [e]; trivial

theorem busRead_within {R : State → State → Prop} (hc : Chains R) (ht : ∀ s, R s s.ticked)
    (hr : ∀ s f, R s (s.recorded f)) (hd : ∀ s, R s { s with env := s.env.afterBytes 1 })
    (hp : ∀ s b rest, s.tgt.fifo = b :: rest → R s { s with tgt := { s.tgt with fifo := rest } })
    (a : RegAddr) : Op.Within R (busRead a) := by
  intro s
  obtain ⟨v, t, e, w⟩ := busRead_cases s a
  rw [e]
  rcases w with ⟨-, rfl⟩ | ⟨-, rfl | ⟨rest, -, hf, rfl⟩ | rfl⟩
  · exact hc.trans (hd s) (hr _ _)
  · exact hc.trans (ht s) (hr _ _)
  · exact hc.trans (ht s) (hc.trans (hp s.ticked v rest hf) (hr _ _))
  · exact hc.trans (ht s) (hc.trans (hd s.ticked) (hr _ _))

theorem outside_bus : BusKept Outside := .of outside_chains
  (busWrite_within outside_chains (fun _ => ⟨rfl, rfl, rfl, rfl, rfl, rfl⟩)
    (fun _ _ => ⟨rfl, rfl, rfl, rfl, rfl, rfl⟩) written_outside)
  (busRead_within outside_chains (fun _ => ⟨rfl, rfl, rfl, rfl, rfl, rfl⟩)
    (fun _ _ => ⟨rfl, rfl, rfl, rfl, rfl, rfl⟩) (fun _ => ⟨rfl, rfl, rfl, rfl, rfl, rfl⟩)
    fun _ _ _ _ => ⟨rfl, rfl, rfl, rfl, rfl, rfl⟩)
  fun _ _ => ⟨rfl, rfl, rfl, rfl, rfl, rfl⟩

theorem outside_setSeq (f : Sequencer → Sequencer) : Op.Within Outside (Op.setSeq f) :=
  fun _ => ⟨rfl, rfl, rfl, rfl, rfl, rfl⟩

theorem outside_upper : UpperKept Outside where
  toBusKept := outside_bus
  crc := crcCalc_within outside_bus fun f _ => outside_setSeq f
  card := toCard_within outside_bus fun f _ => outside_setSeq f
  upper f _ := outside_setSeq f

/-! ## Registers of the sequencer -/

/-- The part of the sequencer that `e` shows is kept. -/
def SeqKept {α : Type} (e : Sequencer → α) (s t : State) : Prop := e t.seq = e s.seq

theorem seqKept_chains {α : Type} (e : Sequencer → α) : Chains (SeqKept e) where
  refl _ := rfl
  trans h g := Eq.trans g h

theorem seqKept_bus {α : Type} (e : Sequencer → α) (hp : ∀ q n, e { q with phase := n } = e q) :
    BusKept (SeqKept e) := .of (seqKept_chains e)
  (busWrite_within (seqKept_chains e) (fun _ => rfl) (fun s _ => hp s.seq _) fun w => by
    rw [SeqKept, (written_seq w).1])
  (busRead_within (seqKept_chains e) (fun _ => rfl) (fun s _ => hp s.seq _) (fun _ => rfl) fun _ _ _ _ => rfl)
  fun _ _ => rfl

theorem seqKept_setSeq {α : Type} {e : Sequencer → α} {f : Sequencer → Sequencer} (h : ∀ q, e (f q) = e q) :
    Op.Within (SeqKept e) (Op.setSeq f) := fun s => h s.seq

/-! ## The target and the tag's memory -/

/-- The target and the tag as the invariant has them. -/
def State.Healthy (s : State) : Prop := s.tgt.ok s.cfg ∧ s.env.tag.ok

/-- Under a well-formed configuration a healthy state stays healthy. -/
def HealthKept (s t : State) : Prop := t.cfg = s.cfg ∧ (s.cfg.wf → s.Healthy → t.Healthy)

theorem healthKept_chains : Chains HealthKept where
  refl _ := ⟨rfl, fun _ h => h⟩
  trans := by
    rintro s t u ⟨a, b⟩ ⟨a', b'⟩
    exact ⟨a'.trans a, fun w h => b' (a ▸ w) (b w h)⟩

theorem tagIgnore_mem (g : Tag) : (g.ignore).2.mem = g.mem := rfl
theorem tagRefuse_mem (g : Tag) : (g.refuse).2.mem = g.mem := rfl

/-- A WRITE keeps the canonical form, and page 0 (R302). -/
theorem writePage_ok {g : Tag} (h : g.ok) (p : Byte) (d0 d1 d2 d3 : Byte) : (g.writePage p [d0, d1, d2, d3]).2.ok := by
  unfold Tag.writePage
  split
  · rename_i hp
    refine ⟨Memory.wf_writeBytes h.1 ?_, ?_⟩
    · simp only [pageSize, imageSize, pageCount, List.length_cons, List.length_nil] at hp ⊢
      omega
    · have page0 : ∀ a, a < 4 → Tag.byte { g with mem := Memory.writeBytes g.mem (pageSize * p.toNat) [d0, d1, d2, d3] } a =
          g.byte a := fun a ha => by
        simp only [Tag.byte, Memory.read_writeBytes h.1.1, pageSize]
        exact if_neg (by omega)
      simpa only [Tag.bcc0Ok, page0 0 (by omega), page0 1 (by omega), page0 2 (by omega), page0 3 (by omega)] using h.2
  · exact h

theorem onBody_ok {g : Tag} (h : g.ok) (body : List Byte) : (g.onBody body).2.ok := by
  unfold Tag.onBody
  split
  · split <;> exact h
  · split <;> exact h
  · unfold Tag.readPage; split <;> exact h
  · exact writePage_ok h _ _ _ _ _
  · exact h

/-- The tag keeps its memory in canonical form and the equation of BCC0, whatever frame it is sent. -/
theorem tagExchange_ok {g : Tag} (h : g.ok) (frame : List Byte) (n : BitVec 3) : (g.exchange frame n).2.ok := by
  unfold Tag.exchange
  split
  · split <;> exact h
  · split
    · exact h
    · split <;> exact h
  · split
    · exact onBody_ok h _
    · exact h

theorem exchange_tag_ok {e : Environment} (h : e.tag.ok) (frame : List Byte) (n : BitVec 3) :
    (e.exchange frame n).2.tag.ok := by
  unfold Environment.exchange
  split
  · exact h
  · exact h
  · exact tagExchange_ok h frame n

theorem command?_code' {k : CmdCodes} (h : k.distinct) (c : Command) : (k.command? (k.code c)).isSome = true := by
  rw [CmdCodes.command?_code h]; rfl

theorem written_healthy {a : RegAddr} {v : Byte} {s t : State} (w : Written a v s t) : HealthKept s t := by
  refine ⟨(written_outside w).1, fun hc h => ?_⟩
  obtain ⟨⟨h1, h2, h3, h4, h5⟩, hm⟩ := h
  cases w with
  | storage _ => exact ⟨⟨h1, h2, h3, h4, h5⟩, hm⟩
  | readOnly _ => exact ⟨⟨h1, h2, h3, h4, h5⟩, hm⟩
  | level _ =>
    refine ⟨?_, hm⟩
    simp only
    split
    · exact ⟨Nat.zero_le _, h2, h3, h4, h5⟩
    · exact ⟨h1, h2, h3, h4, h5⟩
  | comirq _ => exact ⟨⟨h1, h2, h3, h4, h5⟩, hm⟩
  | divirq _ => exact ⟨⟨h1, h2, h3, h4, h5⟩, hm⟩
  | push _ ho =>
    refine ⟨?_, hm⟩
    rcases push_cases s.tgt s.cfg.fifoDepth v with ⟨hl, e⟩ | ⟨-, e⟩
    · simp only [e]
      refine ⟨?_, h2, h3, h4, h5⟩
      simp only [List.length_append, List.length_cons, List.length_nil]; omega
    · simp only [e]; exact ⟨h1, h2, h3, h4, h5⟩
  | framing _ _ => exact ⟨⟨h1, h2, h3, h4, h5⟩, hm⟩
  | send _ hy =>
    exact ⟨⟨Nat.zero_le _, h2, h3, fun _ => hy.2.1, fun _ => rfl⟩, exchange_tag_ok hm _ _⟩
  | command _ k hk hn =>
    have hd := hc.2.1
    have code := fun k => command?_code' hd k
    cases k with
    | authent => exact absurd rfl hn
    | idle => exact ⟨⟨h1, code .idle, nofun, nofun, nofun⟩, hm⟩
    | transceive => exact ⟨⟨h1, code .transceive, nofun, nofun, nofun⟩, hm⟩
    | calccrc => exact ⟨⟨Nat.zero_le _, code .calccrc, fun _ => rfl, nofun, nofun⟩, hm⟩
    | resetphase =>
      refine ⟨?_, by simpa [State.commanded] using hm⟩
      simp only [State.commanded, targetReset_tgt, targetReset_cfg]
      exact ⟨Nat.zero_le _, code .idle, nofun, nofun, nofun⟩

theorem healthKept_bus : BusKept HealthKept := .of healthKept_chains
  (busWrite_within healthKept_chains (fun _ => ⟨rfl, fun _ h => ⟨tick_ok h.1, h.2⟩⟩)
    (fun _ _ => ⟨rfl, fun _ h => h⟩) written_healthy)
  (busRead_within healthKept_chains (fun _ => ⟨rfl, fun _ h => ⟨tick_ok h.1, h.2⟩⟩)
    (fun _ _ => ⟨rfl, fun _ h => h⟩) (fun _ => ⟨rfl, fun _ h => h⟩) fun s b rest hf =>
      ⟨rfl, fun _ h => ⟨⟨by have := h.1.1; rw [hf] at this; simp only [List.length_cons] at this ⊢; omega,
        h.1.2⟩, h.2⟩⟩)
  fun _ _ => ⟨rfl, fun _ h => h⟩

theorem healthKept_setSeq (f : Sequencer → Sequencer) : Op.Within HealthKept (Op.setSeq f) :=
  fun _ => ⟨rfl, fun _ h => h⟩

theorem healthKept_upper : UpperKept HealthKept where
  toBusKept := healthKept_bus
  crc := crcCalc_within healthKept_bus fun f _ => healthKept_setSeq f
  card := toCard_within healthKept_bus fun f _ => healthKept_setSeq f
  upper f _ := healthKept_setSeq f

/-! ## Between two operations CRC_CALC is loading nothing (R163, R366) -/

/-- CRC_CALC is not loading afterwards if it was not before. -/
def ShutKept (s t : State) : Prop := s.tgt.loadOpen = false → t.tgt.loadOpen = false

theorem shutKept_chains : Chains ShutKept where
  refl _ h := h
  trans h g k := g (h k)

theorem written_shut {a : RegAddr} {v : Byte} {s t : State} (w : Written a v s t) : ShutKept s t := by
  intro h
  cases w with
  | level _ => simp only; split <;> exact h
  | push _ _ => rcases push_cases s.tgt s.cfg.fifoDepth v with ⟨-, e⟩ | ⟨-, e⟩ <;> simp only [e] <;> exact h
  | command _ k _ hn =>
    cases k with
    | resetphase => simp only [State.commanded, targetReset_tgt]; rfl
    | authent => exact absurd rfl hn
    | _ => exact h
  | _ => exact h

/-- Loading the FIFO raises nothing. -/
theorem loadFifo_raises_not (a : RegAddr) (data : List Byte) (s : State) (k : OpOutcome) (t : State) :
    loadFifo a data s ≠ .error (.raise k) t := by
  induction data generalizing s with
  | nil => nofun
  | cons b data ih =>
    intro h
    rw [loadFifo] at h
    rcases busWrite_cases s a b with ⟨u, e, -⟩ | ⟨r, u, e⟩
    · rw [Op.bind_ok e] at h; exact ih _ h
    · rw [Op.bind_error e] at h; cases h

theorem shutKept_bus : BusKept ShutKept where
  chains := shutKept_chains
  write := busWrite_within shutKept_chains (fun s h => by simpa using h) (fun _ _ h => h) written_shut
  read := busRead_within shutKept_chains (fun s h => by simpa using h) (fun _ _ h => h) (fun _ h => h)
    fun _ _ _ _ h => h
  load a data := by
    intro s
    rw [loadOperand, Op.bind_ok (show setLoading true s = .ok () _ from rfl)]
    cases e : loadFifo a data { s with tgt := { s.tgt with loadOpen := true } } with
    | ok x t => rw [Op.bind_ok e]; exact fun _ => rfl
    | error x t =>
      rw [Op.bind_error e]
      cases x with
      | raise k => exact absurd e (loadFifo_raises_not a data _ k t)
      | refuse r => trivial

theorem shutKept_setSeq (f : Sequencer → Sequencer) : Op.Within ShutKept (Op.setSeq f) := fun _ h => h

theorem shutKept_upper : UpperKept ShutKept where
  toBusKept := shutKept_bus
  crc := crcCalc_within shutKept_bus fun f _ => shutKept_setSeq f
  card := toCard_within shutKept_bus fun f _ => shutKept_setSeq f
  upper f _ := shutKept_setSeq f

/-- The reset event leads to a state with the invariant, from any state of a well-formed configuration and tag. -/
theorem resetEvent_inv {s : State} (hc : s.cfg.wf) (hm : s.env.tag.ok) : (resetEvent s).Inv where
  config := hc
  idle := ⟨rfl, rfl⟩
  exchange := ⟨Nat.zero_le _, by simp [resetEvent, Sequencer.reset], nofun, fun h => absurd rfl h⟩
  select := ⟨Nat.zero_le _, nofun, nofun, .inl rfl⟩
  image := ⟨nofun, Nat.zero_le _⟩
  poll := Nat.zero_le _
  target := ⟨Nat.zero_le _, command?_code' hc.2.1 .idle, nofun, nofun, nofun⟩
  loading := rfl
  tag := hm

end Sys2Proof.Machine
end

