-- ==== Sys2Proof/Laws/Ranges.lean ====
section
/-! SUPPORT. The ranges of the sequencer's registers: what an exchange, a poll, a selection and an image read
leave in them. -/

namespace Sys2Proof.Machine

/-! ## What one transaction leaves of the sequencer and the configuration -/

/-- A transaction changes the sequencer's position only. -/
def PhaseOnly (s t : State) : Prop := t.cfg = s.cfg ∧ ∃ n, t.seq = { s.seq with phase := n }

theorem phaseOnly_chains : Chains PhaseOnly where
  refl s := ⟨rfl, s.seq.phase, rfl⟩
  trans := by
    rintro s t u ⟨a, n, b⟩ ⟨a', n', b'⟩
    exact ⟨a'.trans a, n', by rw [b', b]⟩

theorem phaseOnly_bus : BusKept PhaseOnly := .of phaseOnly_chains
  (busWrite_within phaseOnly_chains (fun s => ⟨rfl, s.seq.phase, rfl⟩) (fun _ _ => ⟨rfl, _, rfl⟩)
    fun {_ _ s _} w => ⟨(written_outside w).1, s.seq.phase, (written_seq w).1⟩)
  (busRead_within phaseOnly_chains (fun s => ⟨rfl, s.seq.phase, rfl⟩) (fun _ _ => ⟨rfl, _, rfl⟩)
    (fun s => ⟨rfl, s.seq.phase, rfl⟩) fun s _ _ _ => ⟨rfl, s.seq.phase, rfl⟩)
  fun _ s => ⟨rfl, s.seq.phase, rfl⟩

/-- What is known of the configuration and of the sequencer but for its position. -/
abbrev At (c : Config) (P : Sequencer → Prop) (s : State) : Prop := s.cfg = c ∧ P s.seq

section
variable {c : Config} {P : Sequencer → Prop} {E : State → Prop}

/-- A write transaction raises nothing and keeps what is known of the sequencer. -/
theorem At.write (hP : ∀ q n, P q → P { q with phase := n }) (a : RegAddr) (v : Byte) :
    Op.Triple (At c P) (busWrite a v) (fun _ => At c P) E := by
  rintro s ⟨hc, hp⟩
  have k := phaseOnly_bus.write a v s
  rcases busWrite_cases s a v with ⟨t, e, -⟩ | ⟨r, t, e⟩
  · rw [e] at k ⊢
    obtain ⟨k1, n, k2⟩ := k
    exact ⟨k1.trans hc, by rw [k2]; exact hP _ n hp⟩
  · rw [e]; trivial

/-- A read transaction goes on and keeps what is known of the sequencer. -/
theorem At.read (hP : ∀ q n, P q → P { q with phase := n }) (a : RegAddr) :
    Op.Triple (At c P) (busRead a) (fun _ => At c P) E := by
  rintro s ⟨hc, hp⟩
  have k := phaseOnly_bus.read a s
  obtain ⟨v, t, e, -⟩ := busRead_cases s a
  rw [e] at k ⊢
  obtain ⟨k1, n, k2⟩ := k
  exact ⟨k1.trans hc, by rw [k2]; exact hP _ n hp⟩

theorem At.setBits (hP : ∀ q n, P q → P { q with phase := n }) (a : RegAddr) (m : Byte) :
    Op.Triple (At c P) (busSetBits a m) (fun _ => At c P) E := .bind (At.read hP a) fun _ => At.write hP a _

theorem At.clearBits (hP : ∀ q n, P q → P { q with phase := n }) (a : RegAddr) (m : Byte) :
    Op.Triple (At c P) (busClearBits a m) (fun _ => At c P) E := .bind (At.read hP a) fun _ => At.write hP a _

theorem At.loadFifo (hP : ∀ q n, P q → P { q with phase := n }) (a : RegAddr) (s : List Byte) :
    Op.Triple (At c P) (loadFifo a s) (fun _ => At c P) E := by
  induction s with
  | nil => exact fun _ h => h
  | cons b s ih => exact .bind (At.write hP a b) fun _ => ih

theorem At.setLoading (b : Bool) : Op.Triple (At c P) (setLoading b) (fun _ => At c P) E := fun _ h => h

/-- Reading `n` bytes out of the FIFO gives `n` bytes. -/
theorem At.unloadFifo (hP : ∀ q n, P q → P { q with phase := n }) (a : RegAddr) (n : Nat) :
    Op.Triple (At c P) (unloadFifo a n) (fun rx t => rx.length = n ∧ At c P t) E := by
  induction n with
  | zero => exact fun s h => ⟨rfl, h⟩
  | succ n ih =>
    refine .bind (At.read hP a) fun b => .bind ih fun rest => ?_
    rintro s ⟨hl, h⟩
    exact ⟨by simpa using hl, h⟩

end

theorem Op.Triple.setSeq {c : Config} {P Q : Sequencer → Prop} {E : State → Prop} {f : Sequencer → Sequencer}
    (h : ∀ q, P q → Q (f q)) : Op.Triple (At c P) (Op.setSeq f) (fun _ => At c Q) E :=
  fun _ ⟨hc, hp⟩ => ⟨hc, h _ hp⟩

theorem Op.Triple.weaken {α : Type} {c : Config} {P P' : Sequencer → Prop} {Q : α → State → Prop}
    {E : State → Prop} {m : Op α} (h : Op.Triple (At c P) m Q E) (hp : ∀ q, P' q → P q) :
    Op.Triple (At c P') m Q E := fun s ⟨hc, hs⟩ => h s ⟨hc, hp _ hs⟩

/-- A body that begins by reading the configuration. -/
theorem Op.Triple.withCfg {α : Type} {c : Config} {P : Sequencer → Prop} {Q : α → State → Prop}
    {E : State → Prop} {f : Config → Op α} (h : Op.Triple (At c P) (f c) Q E) :
    Op.Triple (At c P) (Op.cfg >>= f) Q E := by
  rintro s ⟨hc, hp⟩
  rw [Op.bind_ok (Op.cfg_apply s), hc]
  exact h s ⟨hc, hp⟩

/-! ## The exchange registers (R22) -/

theorem readCount_le (cnt : Byte) : readCount cnt ≤ maxRx := Nat.min_le_right _ _

theorem readCount_pos (cnt : Byte) : 1 ≤ readCount cnt := by simp [readCount, maxRx]

/-- The bit length stays in -7..2040 (R188). -/
theorem rxBits_range (cnt : Byte) {vb : Byte} (h : vb &&& 0x07 = vb) :
    -7 ≤ rxBits cnt vb ∧ rxBits cnt vb ≤ 2040 := by
  have hv : vb.toNat ≤ 7 := by
    have : (vb &&& 0x07).toNat ≤ 7 := by rw [BitVec.toNat_and]; exact Nat.and_le_right
    rwa [h] at this
  have hc : cnt.toNat < 256 := cnt.isLt
  unfold rxBits
  split
  · rename_i h0
    have : vb.toNat ≠ 0 := fun e => h0 (BitVec.eq_of_toNat_eq e)
    omega
  · omega

theorem and_mask_low (v m : Byte) (h : m &&& 0x07 = m) : (v &&& m) &&& 0x07 = v &&& m := by
  rw [BitVec.and_assoc, h]

/-- The verdict of an exchange that has not failed. -/
abbrev Sequencer.passed (q : Sequencer) : Prop := q.status ≠ .err ∧ q.errkind = .none

/-- A transceive's read-out leaves at most MAX_RX bytes and a bit length in range. -/
theorem readResponse_ranges {c : Config} (hc : c.wf) {E : State → Prop} :
    Op.Triple (At c Sequencer.passed) readResponse (fun _ => At c Sequencer.exchangeOk) E := by
  have hm : c.masks.rxlastMask &&& 0x07 = c.masks.rxlastMask := hc.2.2.2.1.2.2.2.2.2.2.2
  refine .withCfg (.bind (At.read (fun _ _ h => h) _) fun cnt => .bind (At.read (fun _ _ h => h) _) fun ctl => ?_)
  refine .bind (M := fun _ => At c fun q => q.passed ∧ -7 ≤ q.rxbits ∧ q.rxbits ≤ 2040)
    (.setSeq fun q h => ⟨h, rxBits_range cnt (and_mask_low ctl _ hm)⟩) fun _ => ?_
  refine .bind (At.unloadFifo (fun _ _ h => h) _ _) fun rx => ?_
  rintro s ⟨hl, hs, hp, hr⟩
  have := readCount_le cnt
  exact ⟨hs, by simp only; omega, hr, ⟨fun h => absurd h hp.1, fun h => absurd hp.2 h⟩⟩

/-- What the executor's poll leaves: a count within its budget, the exchange result still cleared. -/
theorem pollComirq_ranges {c : Config} {E : State → Prop} (n k : Nat) :
    Op.Triple (At c fun q => (q.rxbuf = [] ∧ q.rxbits = 0 ∧ q.errkind = .none) ∧ q.pollcnt ≤ k) (pollComirq n)
      (fun _ => At c fun q => (q.rxbuf = [] ∧ q.rxbits = 0 ∧ q.errkind = .none) ∧ q.pollcnt ≤ k + n) E := by
  induction n generalizing k with
  | zero => exact fun s h => h
  | succ n ih =>
    intro s h
    rw [pollComirq, Op.bind_ok (Op.state_apply s)]
    refine (Op.Triple.bind (At.read (fun _ _ h => h) _) fun v => ?_) s h
    refine .bind (M := fun _ => At c fun q => (q.rxbuf = [] ∧ q.rxbits = 0 ∧ q.errkind = .none) ∧ q.pollcnt ≤ k + 1)
      (.setSeq fun q h => ⟨h.1, Nat.succ_le_succ h.2⟩) fun _ => ?_
    split
    · exact fun s h => ⟨h.1, h.2.1, by have := h.2.2; omega⟩
    · refine (ih (k + 1)).imp (fun _ h => h) (fun _ _ h => ⟨h.1, h.2.1, by have := h.2.2; omega⟩) fun _ h => h

/-- TO_CARD raises nothing and leaves the exchange registers in their ranges and the poll count within
POLL_CMD, whatever they held before (R22, R23, R180). -/
theorem toCard_ranges {c : Config} (hc : c.wf) {E : State → Prop} (cmd : Command) (tx : List Byte) :
    Op.Triple (At c fun _ => True) (toCard cmd tx)
      (fun _ => At c fun q => q.exchangeOk ∧ q.pollcnt ≤ c.pollCmd) E := by
  refine .withCfg (.bind (M := fun _ => At c fun q => q.rxbuf = [] ∧ q.rxbits = 0 ∧ q.errkind = .none)
    (.setSeq fun q _ => ⟨rfl, rfl, rfl⟩) fun _ => ?_)
  refine .bind (.withCfg (.bind (At.write (fun _ _ h => h) _ _) fun _ =>
    .bind (At.clearBits (fun _ _ h => h) _ _) fun _ => .bind (At.setBits (fun _ _ h => h) _ _) fun _ =>
    .bind (At.write (fun _ _ h => h) _ _) fun _ => .bind (At.loadFifo (fun _ _ h => h) _ _) fun _ =>
    At.write (fun _ _ h => h) _ _)) fun _ => ?_
  refine .bind (M := fun _ => At c fun q => q.rxbuf = [] ∧ q.rxbits = 0 ∧ q.errkind = .none) ?_ fun _ => ?_
  · refine .withCfg ?_
    split
    · exact At.setBits (fun _ _ h => h) _ _
    · exact fun s h => h
  refine .bind (M := fun _ => At c fun q => (q.rxbuf = [] ∧ q.rxbits = 0 ∧ q.errkind = .none) ∧ q.pollcnt ≤ 0)
    (.setSeq fun q h => ⟨h, Nat.le_refl 0⟩) fun _ => ?_
  refine .bind (pollComirq_ranges c.pollCmd 0) fun seen => ?_
  rw [Nat.zero_add]
  refine .bind (At.clearBits (fun _ _ h => h) _ _) fun _ => ?_
  have fail : ∀ k, k ≠ .none → Op.Triple
      (At c fun q => (q.rxbuf = [] ∧ q.rxbits = 0 ∧ q.errkind = .none) ∧ q.pollcnt ≤ c.pollCmd) (failExchange k)
      (fun _ => At c fun q => q.exchangeOk ∧ q.pollcnt ≤ c.pollCmd) E := by
    intro k hk s h
    obtain ⟨hs, ⟨h1, h2, -⟩, h4⟩ := h
    refine ⟨hs, ⟨?_, ?_, fun _ => hk, fun _ => rfl⟩, h4⟩
    · simp only [h1]; decide
    · simp only [h2]; decide
  split
  · exact fail .busTimeout nofun
  · refine .bind (At.read (fun _ _ h => h) _) fun e => ?_
    split
    · exact fail .protocolError nofun
    · refine .withCfg (.bind (M := fun _ => At c fun q =>
        (q.passed ∧ q.rxbuf = [] ∧ q.rxbits = 0) ∧ q.pollcnt ≤ c.pollCmd) (.setSeq fun q h => ?_) fun _ => ?_)
      · refine ⟨⟨⟨?_, h.1.2.2⟩, h.1.1, h.1.2.1⟩, h.2⟩
        simp only; split <;> nofun
      · have rest : Op.Triple (At c fun q => q.exchangeOk ∧ q.pollcnt ≤ c.pollCmd) (do
            let s ← Op.state
            pure (s.seq.status, s.seq.rxbuf, s.seq.rxbits) : Op (Status × List Byte × Int))
            (fun _ => At c fun q => q.exchangeOk ∧ q.pollcnt ≤ c.pollCmd) E := fun s h => h
        have kept : Op.Within (SeqKept fun q => q.pollcnt) readResponse := by
          have B := seqKept_bus (fun q => q.pollcnt) fun _ _ => rfl
          exact .bind B.chains (.ofCfg B.chains) fun _ => .bind B.chains (B.read _) fun _ =>
            .bind B.chains (B.read _) fun _ => .bind B.chains (seqKept_setSeq fun _ => rfl) fun _ =>
            .bind B.chains (unloadFifo_within B _ _) fun _ => seqKept_setSeq fun _ => rfl
        split
        · refine .bind (M := fun _ => At c fun q => q.exchangeOk ∧ q.pollcnt ≤ c.pollCmd) ?_ fun _ => rest
          intro s h
          have g := readResponse_ranges hc (E := E) s ⟨h.1, h.2.1.1⟩
          have k := kept s
          cases hr : readResponse s with
          | ok a t => rw [hr] at g k; exact ⟨g.1, g.2, (show t.seq.pollcnt = s.seq.pollcnt from k) ▸ h.2.2⟩
          | error x t => rw [hr] at g; cases x <;> exact g
        · refine rest.weaken fun q h => ⟨⟨?_, ?_, fun e => absurd e h.1.1.1, fun e => absurd h.1.1.2 e⟩, h.2⟩
          · simp only [h.1.2.1]; decide
          · simp only [h.1.2.2]; decide

/-- CRC_CALC raises nothing and leaves the poll count within POLL_CRC (R23, R160, R161). -/
theorem crcCalc_ranges {c : Config} {E : State → Prop} (data : List Byte) :
    Op.Triple (At c fun _ => True) (crcCalc data) (fun _ => At c fun q => q.pollcnt ≤ c.pollCrc) E := by
  have poll : ∀ n k, Op.Triple (At c fun q => q.pollcnt ≤ k) (pollDivirq n)
      (fun _ => At c fun q => q.pollcnt ≤ k + n) E := by
    intro n
    induction n with
    | zero => exact fun k s h => h
    | succ n ih =>
      intro k
      refine .withCfg (.bind (At.read (fun _ _ h => h) _) fun v => .bind (M := fun _ => At c fun q =>
        q.pollcnt ≤ k + 1) (.setSeq fun q h => Nat.succ_le_succ h) fun _ => ?_)
      split
      · exact fun s h => ⟨h.1, by have := h.2; omega⟩
      · exact (ih (k + 1)).imp (fun _ h => h) (fun _ _ h => ⟨h.1, by have := h.2; omega⟩) fun _ h => h
  refine .withCfg (.bind (At.clearBits (fun _ _ h => h) _ _) fun _ => .bind (At.setBits (fun _ _ h => h) _ _)
    fun _ => .bind (.bind (At.setLoading _) fun _ => .bind (At.loadFifo (fun _ _ h => h) _ _) fun _ => At.setLoading _)
    fun _ => .bind (At.write (fun _ _ h => h) _ _) fun _ =>
    .bind (M := fun _ => At c fun q => q.pollcnt ≤ 0) (.setSeq fun q _ => Nat.le_refl 0) fun _ =>
    .bind (poll c.pollCrc 0) fun _ => ?_)
  rw [Nat.zero_add]
  exact .bind (At.read (fun _ _ h => h) _) fun lo => .bind (At.read (fun _ _ h => h) _) fun hi =>
    .bind (M := fun _ => At c fun q => q.pollcnt ≤ c.pollCrc) (.setSeq fun q h => h) fun _ => fun s h => h

/-! ## The select registers (R25, R26) -/

/-- What SELECT_TAG writes of the sequencer, but for S.LEVEL. -/
abbrev Sequencer.selection (q : Sequencer) : List Byte × Nat × Fragment × Fragment :=
  (q.uid, q.nfrag, q.frag1, q.frag2)

theorem selection_exchange : ExchangeKept (SeqKept Sequencer.selection) where
  toBusKept := seqKept_bus _ fun _ _ => rfl
  crc := crcCalc_within (seqKept_bus _ fun _ _ => rfl) fun f hf => seqKept_setSeq fun q => by cases hf <;> rfl
  card := toCard_within (seqKept_bus _ fun _ _ => rfl) fun f hf => seqKept_setSeq fun q => by cases hf <;> rfl

theorem Op.Within.and {α : Type} {R R' : State → State → Prop} {m : Op α} (h : Op.Within R m)
    (h' : Op.Within R' m) : Op.Within (fun s t => R s t ∧ R' s t) m := by
  intro s
  have g := h s
  have g' := h' s
  cases e : m s with
  | ok a t => rw [e] at g g'; exact ⟨g, g'⟩
  | error x t =>
    rw [e] at g g'
    cases x with
    | raise _ => exact ⟨g, g'⟩
    | refuse _ => trivial

/-- A body that keeps a part of the sequencer keeps what is known of that part. -/
theorem At.part {α β : Type} {c : Config} {e : Sequencer → β} {m : Op α} (ho : Op.Within Outside m)
    (hm : Op.Within (SeqKept e) m) {P : Sequencer → Prop} (hP : ∀ q q', e q' = e q → P q → P q') :
    Op.Triple (At c P) m (fun _ => At c P) (At c P) :=
  .ofWithin (ho.and hm) fun s t ⟨hc, hp⟩ ⟨o, k⟩ => ⟨o.1.trans hc, hP s.seq t.seq k hp⟩

/-- The selection holds `n` valid fragments and no identifier. -/
abbrev Sequencer.collecting (n : Nat) (q : Sequencer) : Prop :=
  q.uid = [] ∧ q.nfrag = n ∧ (1 ≤ n → q.frag1.valid = true) ∧ (2 ≤ n → q.frag2.valid = true)

theorem collecting_part (n : Nat) (q q' : Sequencer) (h : q'.selection = q.selection) (hc : q.collecting n) :
    q'.collecting n := by
  simp only [Sequencer.selection, Prod.mk.injEq] at h
  obtain ⟨h1, h2, h3, h4⟩ := h
  exact ⟨h1.trans hc.1, h2.trans hc.2.1, h3 ▸ hc.2.2.1, h4 ▸ hc.2.2.2⟩

theorem collecting_selectOk {n : Nat} (hn : n ≤ maxCascade) {q : Sequencer} (h : q.collecting n) : q.selectOk :=
  ⟨h.2.1 ▸ hn, h.2.1 ▸ h.2.2.1, h.2.1 ▸ h.2.2.2, .inl h.1⟩

theorem transceive_collecting (c : Config) (n : Nat) (frame : List Byte) :
    Op.Triple (At c (Sequencer.collecting n)) (transceive frame) (fun _ => At c (Sequencer.collecting n))
      (At c (Sequencer.collecting n)) :=
  At.part (transceive_within outside_upper.toExchangeKept frame) (transceive_within selection_exchange frame)
    (collecting_part n)

/-- The number of fragments before a level. -/
def levelsBefore : CascadeLevel → Nat
  | .one => 0
  | .two => 1

/-- The anti-collision of a level adds a valid fragment or leaves the selection as it was (R226). -/
theorem anticollision_collecting (c : Config) (lvl : CascadeLevel) :
    Op.Triple (At c (Sequencer.collecting (levelsBefore lvl))) (anticollision lvl)
      (fun _ => At c (Sequencer.collecting ((levelsBefore lvl) + 1))) (At c (Sequencer.collecting (levelsBefore lvl))) := by
  refine .withCfg (.bind (M := fun _ => At c (Sequencer.collecting (levelsBefore lvl))) (.setSeq fun q h => h) fun _ => ?_)
  have rest : Op.Triple (At c (Sequencer.collecting (levelsBefore lvl))) (do
      let (rx, _) ← transceive (anticollFrame c lvl)
      match fragmentOf rx with
      | none => Op.raise .protocolError
      | some f =>
        if f.valid then do
          Op.setSeq fun q => q.keepFragment lvl f
          pure f
        else Op.raise .checksumError : Op Fragment)
      (fun _ => At c (Sequencer.collecting ((levelsBefore lvl) + 1))) (At c (Sequencer.collecting (levelsBefore lvl))) := by
    refine .bind (transceive_collecting c _ _) fun x => ?_
    obtain ⟨rx, bits⟩ := x
    simp only
    split
    · exact fun s h => h
    · split
      · rename_i f _ hv
        rintro s ⟨hc, h1, h2, h3, h4⟩
        cases lvl with
        | one => exact ⟨hc, h1, by simp [Sequencer.keepFragment, h2, levelsBefore], fun _ => hv,
            fun h => absurd h (by simp [levelsBefore])⟩
        | two => exact ⟨hc, h1, by simp [Sequencer.keepFragment, h2, levelsBefore],
            fun _ => h3 (Nat.le_refl 1), fun _ => hv⟩
      · exact fun s h => h
  split
  · exact .bind (At.write (fun _ _ h => h) _ _) fun _ => rest
  · exact rest

/-- SELECT_TAG leaves a legal selection, whether it succeeds or raises (R26, R231). -/
theorem selectTag_ranges (c : Config) :
    Op.Triple (At c fun _ => True) selectTag (fun _ => At c Sequencer.selectOk) (At c Sequencer.selectOk) := by
  have level : ∀ lvl, Op.Triple (At c (Sequencer.collecting (levelsBefore lvl))) (selectLevel lvl)
      (fun _ => At c (Sequencer.collecting ((levelsBefore lvl) + 1))) (At c Sequencer.selectOk) := by
    intro lvl
    have hb : (levelsBefore lvl) + 1 ≤ maxCascade := by cases lvl <;> decide
    refine .bind ((anticollision_collecting c lvl).imp (fun _ h => h) (fun _ _ h => h)
      fun s h => ⟨h.1, collecting_selectOk (by omega) h.2⟩) fun f => .bind (M := fun _ =>
      At c (Sequencer.collecting ((levelsBefore lvl) + 1))) ?_ fun _ => fun s h => h
    exact (At.part (selectFragment_within outside_upper.toExchangeKept lvl f)
      (selectFragment_within selection_exchange lvl f) (collecting_part _)).imp (fun _ h => h) (fun _ _ h => h)
      fun s h => ⟨h.1, collecting_selectOk hb h.2⟩
  have complete : ∀ n, 1 ≤ n → n ≤ maxCascade → Op.Triple (At c (Sequencer.collecting n)) completeSelect
      (fun _ => At c Sequencer.selectOk) (At c Sequencer.selectOk) := by
    rintro n h1 h2 s ⟨hc, -, hn, hf1, hf2⟩
    exact ⟨hc, hn ▸ h2, hn ▸ hf1, hn ▸ hf2, .inr ⟨hn ▸ h1, rfl⟩⟩
  refine .bind (M := fun _ => At c (Sequencer.collecting 0)) (.setSeq fun q _ => ⟨rfl, rfl, nofun, nofun⟩)
    fun _ => .bind (level .one) fun more => ?_
  split
  · exact complete 1 (Nat.le_refl 1) (by decide)
  · refine .bind (level .two) fun more => ?_
    split
    · exact complete 2 (by decide) (by decide)
    · exact fun s h => ⟨h.1, collecting_selectOk (by decide) h.2⟩

/-! ## The image (R28, R29) -/

/-- What READ_IMAGE writes of the sequencer. -/
abbrev Sequencer.imaging (q : Sequencer) : Nat × List Byte × List Byte × Bool := (q.blk, q.acc, q.img, q.imgPopulated)

theorem imaging_exchange : ExchangeKept (SeqKept Sequencer.imaging) where
  toBusKept := seqKept_bus _ fun _ _ => rfl
  crc := crcCalc_within (seqKept_bus _ fun _ _ => rfl) fun f hf => seqKept_setSeq fun q => by cases hf <;> rfl
  card := toCard_within (seqKept_bus _ fun _ _ => rfl) fun f hf => seqKept_setSeq fun q => by cases hf <;> rfl

/-- READ_BLOCK answers 16 bytes or raises (R250). -/
theorem readBlock_length (page : Byte) (P : State → Prop) (hP : Op.Triple P (readBlock page) (fun _ => P) P) :
    Op.Triple P (readBlock page) (fun rx s => rx.length = blockSize ∧ P s) P := by
  intro s h
  have g := hP s h
  have len : ∀ {rx t}, readBlock page s = .ok rx t → rx.length = blockSize := by
    intro rx t e
    rw [readBlock, Op.bind_ok (Op.cfg_apply s), Op.bind_apply] at e
    split at e
    · rename_i x t' _
      obtain ⟨rx', bits⟩ := x
      simp only at e
      split at e
      · cases e
      · rename_i hl; cases e; exact Decidable.not_not.1 hl
    · cases e
  cases e : readBlock page s with
  | ok rx t => rw [e] at g; exact ⟨len e, g⟩
  | error x t => rw [e] at g; cases x <;> exact g

/-- An image read in progress: nothing populated, `n` bytes assembled. -/
abbrev Sequencer.assembling (n : Nat) (q : Sequencer) : Prop :=
  q.imgPopulated = false ∧ q.acc.length = n ∧ q.blk ≤ fullBlocks

theorem assembleBlock_length (c : Config) (n b keep : Nat) (hb : b ≤ fullBlocks) (hk : keep ≤ blockSize) :
    Op.Triple (At c fun q => q.imgPopulated = false ∧ q.acc.length = n) (assembleBlock b keep)
      (fun _ => At c (Sequencer.assembling (n + keep))) (At c Sequencer.imageOk) := by
  refine .bind (M := fun _ => At c (Sequencer.assembling n)) (.setSeq fun q h => ⟨h.1, h.2, hb⟩) fun _ => ?_
  refine .bind ((readBlock_length _ _ (At.part (readBlock_within outside_upper.toExchangeKept _)
    (readBlock_within imaging_exchange _) fun q q' h hs => ?_)).imp (fun _ h => h) (fun _ _ h => h) fun s h => ?_)
    fun rx => ?_
  · simp only [Sequencer.imaging, Prod.mk.injEq] at h
    exact ⟨h.2.2.2.trans hs.1, h.2.1 ▸ hs.2.1, h.1 ▸ hs.2.2⟩
  · exact ⟨h.1, fun hp => absurd (h.2.1.symm.trans hp) nofun, h.2.2.2⟩
  · rintro s ⟨hl, hs, h1, h2, h3⟩
    refine ⟨hs, h1, ?_, h3⟩
    simp only [List.length_append, List.length_take, hl, h2, Nat.min_eq_left hk]

/-- READ_IMAGE leaves the image whole or not populated, and S.BLK in range (R29, R255). -/
theorem readImage_ranges (c : Config) :
    Op.Triple (At c fun q => q.blk ≤ fullBlocks) readImage (fun _ => At c Sequencer.imageOk)
      (At c Sequencer.imageOk) := by
  have blocks : ∀ k b n, b + k ≤ fullBlocks → Op.Triple (At c (Sequencer.assembling n)) (assembleBlocks k b)
      (fun _ => At c (Sequencer.assembling (n + blockSize * k))) (At c Sequencer.imageOk) := by
    intro k
    induction k with
    | zero => exact fun b n _ s h => h
    | succ k ih =>
      intro b n hb
      refine .bind ((assembleBlock_length c n b blockSize (by omega) (Nat.le_refl _)).weaken
        fun q h => ⟨h.1, h.2.1⟩) fun _ => (ih (b + 1) (n + blockSize) (by omega)).imp (fun _ h => h) ?_ fun _ h => h
      intro _ t h
      rwa [show n + blockSize * (k + 1) = n + blockSize + blockSize * k by rw [Nat.mul_succ]; omega]
  refine .bind (M := fun _ => At c (Sequencer.assembling 0)) (.setSeq fun q h => ⟨rfl, rfl, h⟩) fun _ =>
    .bind (blocks fullBlocks 0 0 (by decide)) fun _ => ?_
  rw [if_pos (by decide)]
  refine .bind ((assembleBlock_length c _ fullBlocks remBytes (Nat.le_refl _) (by decide)).weaken
    fun q h => ⟨h.1, h.2.1⟩) fun _ => ?_
  rintro s ⟨hs, h1, h2, h3⟩
  exact ⟨hs, fun _ => h2, h3⟩

end Sys2Proof.Machine
end

