-- ==== Sys2Proof/Laws/Sound.lean ====
section
/-! SUPPORT. The invariant inside an operation: every part of `State.Inv` but idleness, kept by transactions, CRC
computations, exchanges and the units built on them. -/

namespace Sys2Proof.Machine

/-- The invariant while an operation runs: `State.Inv` but for idleness. -/
structure State.Sound (s : State) : Prop where
  config : s.cfg.wf
  exchange : s.seq.exchangeOk
  select : s.seq.selectOk
  image : s.seq.imageOk
  poll : s.seq.pollOk s.cfg
  health : s.Healthy
  shut : s.tgt.loadOpen = false

theorem State.Inv.sound {s : State} (h : s.Inv) : s.Sound :=
  ⟨h.config, h.exchange, h.select, h.image, h.poll, ⟨h.target, h.tag⟩, h.loading⟩

/-- A sound state that has returned meets the invariant. -/
theorem State.Sound.finish {s : State} (h : s.Sound) (r : Result) : (s.finish r).Inv :=
  ⟨h.config, ⟨rfl, rfl⟩, h.exchange, h.select, h.image, h.poll, h.health.1, h.shut, h.health.2⟩

/-- A sound state that has raised meets the invariant. -/
theorem State.Sound.raise {s : State} (h : s.Sound) (k : OpOutcome) : (s.raise k).Inv :=
  ⟨h.config, ⟨rfl, rfl⟩, h.exchange, h.select, h.image, h.poll, h.health.1, h.shut, h.health.2⟩

theorem State.Sound.start {s : State} (h : s.Sound) (n : OpName) : (s.start n).Sound :=
  ⟨h.config, h.exchange, h.select, h.image, h.poll, h.health, h.shut⟩

/-- The relation "a sound state stays sound, and the configuration is kept". -/
def SoundKept (s t : State) : Prop := t.cfg = s.cfg ∧ (s.Sound → t.Sound)

theorem soundKept_chains : Chains SoundKept where
  refl _ := ⟨rfl, id⟩
  trans h g := ⟨g.1.trans h.1, fun x => g.2 (h.2 x)⟩

/-- The exchange registers, the poll count, the target and the memory. -/
structure State.Base (s : State) : Prop where
  exchange : s.seq.exchangeOk
  poll : s.seq.pollOk s.cfg
  health : s.Healthy
  shut : s.tgt.loadOpen = false

/-- The relation "under a well-formed configuration the base stays sound, and the configuration is kept". -/
def BaseKept (s t : State) : Prop := t.cfg = s.cfg ∧ (s.cfg.wf → s.Base → t.Base)

theorem baseKept_chains : Chains BaseKept where
  refl _ := ⟨rfl, fun _ => id⟩
  trans h g := ⟨g.1.trans h.1, fun w x => g.2 (h.1 ▸ w) (h.2 w x)⟩

/-- The base from its parts. -/
theorem baseKept_of {α : Type} {m : Op α} (hh : Op.Within HealthKept m) (hs : Op.Within ShutKept m)
    (hx : ∀ s, s.cfg.wf → s.seq.exchangeOk → s.seq.pollOk s.cfg →
      match m s with
      | .ok _ t => t.seq.exchangeOk ∧ t.seq.pollOk s.cfg
      | .error (.raise _) t => t.seq.exchangeOk ∧ t.seq.pollOk s.cfg
      | .error (.refuse _) _ => True) : Op.Within BaseKept m := by
  intro s
  have g1 := hh s
  have g2 := hs s
  have g3 := hx s
  cases e : m s with
  | ok a t =>
    rw [e] at g1 g2 g3
    exact ⟨g1.1, fun w h =>
      ⟨(g3 w h.exchange h.poll).1, g1.1 ▸ (g3 w h.exchange h.poll).2, g1.2 w h.health, g2 h.shut⟩⟩
  | error x t =>
    rw [e] at g1 g2 g3
    cases x with
    | raise k =>
      exact ⟨g1.1, fun w h =>
        ⟨(g3 w h.exchange h.poll).1, g1.1 ▸ (g3 w h.exchange h.poll).2, g1.2 w h.health, g2 h.shut⟩⟩
    | refuse r => trivial

/-- The registers of an exchange and the poll count. -/
abbrev Sequencer.exchanging (q : Sequencer) : List Byte × Int × Status × ErrKind × Nat :=
  (q.rxbuf, q.rxbits, q.status, q.errkind, q.pollcnt)

theorem exchanging_sound {α : Type} {m : Op α} (hm : Op.Within (SeqKept Sequencer.exchanging) m) (s : State)
    (h1 : s.seq.exchangeOk) (h2 : s.seq.pollOk s.cfg) :
    match m s with
    | .ok _ t => t.seq.exchangeOk ∧ t.seq.pollOk s.cfg
    | .error (.raise _) t => t.seq.exchangeOk ∧ t.seq.pollOk s.cfg
    | .error (.refuse _) _ => True := by
  have build : ∀ {t : State}, SeqKept Sequencer.exchanging s t → t.seq.exchangeOk ∧ t.seq.pollOk s.cfg := by
    intro t h
    simp only [SeqKept, Sequencer.exchanging, Prod.mk.injEq] at h
    obtain ⟨a, b, c, d, e⟩ := h
    simp only [Sequencer.exchangeOk, Sequencer.pollOk] at h1 h2 ⊢
    rw [a, b, c, d, e]; exact ⟨h1, h2⟩
  have g := hm s
  cases e : m s with
  | ok a t => rw [e] at g; exact build g
  | error x t =>
    rw [e] at g
    cases x with
    | raise k => exact build g
    | refuse r => trivial

theorem exchanging_bus : BusKept (SeqKept Sequencer.exchanging) := seqKept_bus _ fun _ _ => rfl

/-- CRC_CALC keeps the exchange registers (R22: written by TO_CARD only). -/
theorem crcCalc_exchange (data : List Byte) :
    Op.Within (SeqKept fun q => (q.rxbuf, q.rxbits, q.status, q.errkind)) (crcCalc data) := by
  have B := seqKept_bus (fun q => (q.rxbuf, q.rxbits, q.status, q.errkind)) fun _ _ => rfl
  have poll : ∀ n, Op.Within (SeqKept fun q => (q.rxbuf, q.rxbits, q.status, q.errkind)) (pollDivirq n) := by
    intro n
    induction n with
    | zero => exact .ofPure B.chains ()
    | succ n ih =>
      refine .bind B.chains (.ofCfg B.chains) fun _ => .bind B.chains (B.read _) fun _ =>
        .bind B.chains (seqKept_setSeq fun _ => rfl) fun _ => ?_
      split
      · exact .ofPure B.chains ()
      · exact ih
  exact .bind B.chains (.ofCfg B.chains) fun _ => .bind B.chains (clearBits_within B _ _) fun _ =>
    .bind B.chains (setBits_within B _ _) fun _ => .bind B.chains (B.load _ _) fun _ =>
    .bind B.chains (B.write _ _) fun _ => .bind B.chains (seqKept_setSeq fun _ => rfl) fun _ =>
    .bind B.chains (poll _) fun _ => .bind B.chains (B.read _) fun lo =>
    .bind B.chains (B.read _) fun hi => .bind B.chains (seqKept_setSeq fun _ => rfl) fun _ => .ofPure B.chains _

theorem baseKept_bus : BusKept BaseKept where
  chains := baseKept_chains
  write a v := baseKept_of (healthKept_bus.write a v) (shutKept_bus.write a v) fun s _ h1 h2 =>
    exchanging_sound (exchanging_bus.write a v) s h1 h2
  read a := baseKept_of (healthKept_bus.read a) (shutKept_bus.read a) fun s _ h1 h2 =>
    exchanging_sound (exchanging_bus.read a) s h1 h2
  load a data := baseKept_of (healthKept_bus.load a data) (shutKept_bus.load a data) fun s _ h1 h2 =>
    exchanging_sound (exchanging_bus.load a data) s h1 h2

theorem baseKept_upper : UpperKept BaseKept where
  toBusKept := baseKept_bus
  crc data := baseKept_of (healthKept_upper.crc data) (shutKept_upper.crc data) fun s _ h1 _ => by
    have g := crcCalc_ranges (c := s.cfg) (E := fun _ => False) data s ⟨rfl, trivial⟩
    have k := crcCalc_exchange data s
    cases e : crcCalc data s with
    | ok a t =>
      rw [e] at g k
      simp only [SeqKept, Prod.mk.injEq] at k
      obtain ⟨k1, k2, k3, k4⟩ := k
      refine ⟨?_, Nat.le_trans g.2 (Nat.le_max_left _ _)⟩
      simp only [Sequencer.exchangeOk] at h1 ⊢
      rw [k1, k2, k3, k4]; exact h1
    | error x t =>
      rw [e] at g
      cases x with
      | raise k => exact absurd g id
      | refuse r => trivial
  card cmd tx := baseKept_of (healthKept_upper.card cmd tx) (shutKept_upper.card cmd tx) fun s hc _ _ => by
    have g := toCard_ranges hc (E := fun _ => False) cmd tx s ⟨rfl, trivial⟩
    cases e : toCard cmd tx s with
    | ok a t => rw [e] at g; exact ⟨g.2.1, Nat.le_trans g.2.2 (Nat.le_max_right _ _)⟩
    | error x t =>
      rw [e] at g
      cases x with
      | raise k => exact absurd g id
      | refuse r => trivial
  upper f hf s := ⟨rfl, fun _ h => by
    cases hf with
    | keep l g => cases l <;> exact ⟨h.exchange, h.poll, h.health, h.shut⟩
    | _ => exact ⟨h.exchange, h.poll, h.health, h.shut⟩⟩

/-- Soundness from the base, the selection and the image. -/
theorem soundKept_of {α : Type} {m : Op α} (hb : Op.Within BaseKept m)
    (hx : ∀ s, s.cfg.wf → s.seq.selectOk → s.seq.imageOk →
      match m s with
      | .ok _ t => t.seq.selectOk ∧ t.seq.imageOk
      | .error (.raise _) t => t.seq.selectOk ∧ t.seq.imageOk
      | .error (.refuse _) _ => True) : Op.Within SoundKept m := by
  intro s
  have g1 := hb s
  have g3 := hx s
  have build : ∀ {t : State}, BaseKept s t → (s.cfg.wf → s.seq.selectOk → s.seq.imageOk →
      t.seq.selectOk ∧ t.seq.imageOk) → SoundKept s t := fun {t} b g => ⟨b.1, fun h =>
    have k := b.2 h.config ⟨h.exchange, h.poll, h.health, h.shut⟩
    have j := g h.config h.select h.image
    ⟨b.1 ▸ h.config, k.exchange, j.1, j.2, k.poll, k.health, k.shut⟩⟩
  cases e : m s with
  | ok a t => rw [e] at g1 g3; exact build g1 g3
  | error x t =>
    rw [e] at g1 g3
    cases x with
    | raise k => exact build g1 g3
    | refuse r => trivial

theorem selectOk_part {q q' : Sequencer} (h : q'.selection = q.selection) (hs : q.selectOk) : q'.selectOk := by
  simp only [Sequencer.selection, Prod.mk.injEq] at h
  obtain ⟨a1, a2, a3, a4⟩ := h
  simp only [Sequencer.selectOk, Sequencer.fragments] at hs ⊢
  rw [a1, a2, a3, a4]; exact hs

theorem imageOk_part {q q' : Sequencer} (h : q'.imaging = q.imaging) (hs : q.imageOk) : q'.imageOk := by
  simp only [Sequencer.imaging, Prod.mk.injEq] at h
  obtain ⟨b1, b2, b3, b4⟩ := h
  simp only [Sequencer.imageOk] at hs ⊢
  rw [b1, b3, b4]; exact hs

/-- Soundness of a body that keeps the selection and the image. -/
theorem soundKept_base {α : Type} {m : Op α} (hb : Op.Within BaseKept m)
    (h1 : Op.Within (SeqKept Sequencer.selection) m) (h2 : Op.Within (SeqKept Sequencer.imaging) m) :
    Op.Within SoundKept m := by
  refine soundKept_of hb fun s _ hs hi => ?_
  have g1 := h1 s
  have g2 := h2 s
  cases e : m s with
  | ok a t => rw [e] at g1 g2; exact ⟨selectOk_part g1 hs, imageOk_part g2 hi⟩
  | error x t =>
    rw [e] at g1 g2
    cases x with
    | raise k => exact ⟨selectOk_part g1 hs, imageOk_part g2 hi⟩
    | refuse r => trivial

theorem soundKept_exchange : ExchangeKept SoundKept where
  chains := soundKept_chains
  write a v := soundKept_base (baseKept_bus.write a v) (selection_exchange.write a v) (imaging_exchange.write a v)
  read a := soundKept_base (baseKept_bus.read a) (selection_exchange.read a) (imaging_exchange.read a)
  load a data := soundKept_base (baseKept_bus.load a data) (selection_exchange.load a data)
    (imaging_exchange.load a data)
  crc data := soundKept_base (baseKept_upper.crc data) (selection_exchange.crc data) (imaging_exchange.crc data)
  card cmd tx := soundKept_base (baseKept_upper.card cmd tx) (selection_exchange.card cmd tx)
    (imaging_exchange.card cmd tx)

theorem requestTag_sound : Op.Within SoundKept requestTag :=
  requestTag_within soundKept_exchange fun _ _ _ =>
    ⟨rfl, fun h => ⟨h.config, h.exchange, h.select, h.image, h.poll, h.health, h.shut⟩⟩

theorem imaging_selectTag : Op.Within (SeqKept Sequencer.imaging) selectTag := by
  have E := imaging_exchange
  have C := E.chains
  have level : ∀ lvl, Op.Within (SeqKept Sequencer.imaging) (selectLevel lvl) := by
    intro lvl
    refine .bind C (.bind C (.ofCfg C) fun c => .bind C (seqKept_setSeq fun _ => rfl) fun _ => ?_) fun f =>
      .bind C (selectFragment_within E lvl f) fun _ => .ofPure C _
    have rest : Op.Within (SeqKept Sequencer.imaging) (do
        let (rx, _) ← transceive (anticollFrame c lvl)
        match fragmentOf rx with
        | none => Op.raise .protocolError
        | some f =>
          if f.valid then do
            Op.setSeq fun q => q.keepFragment lvl f
            pure f
          else Op.raise .checksumError : Op Fragment) := by
      refine .bind C (transceive_within E _) fun x => ?_
      obtain ⟨rx, bits⟩ := x
      simp only
      split
      · exact .ofRaise C _
      · split
        · exact .bind C (seqKept_setSeq fun q => by cases lvl <;> rfl) fun _ => .ofPure C _
        · exact .ofRaise C _
    split
    · exact .bind C (E.write _ _) fun _ => rest
    · exact rest
  have complete : Op.Within (SeqKept Sequencer.imaging) completeSelect :=
    .bind C (seqKept_setSeq fun _ => rfl) fun _ => .bind C (.ofState C) fun _ => .ofPure C _
  refine .bind C (seqKept_setSeq fun _ => rfl) fun _ => .bind C (level .one) fun more => ?_
  split
  · exact complete
  · refine .bind C (level .two) fun more => ?_
    split
    · exact complete
    · exact .ofRaise C _

/-- SELECT_TAG keeps the invariant (R26). -/
theorem selectTag_sound : Op.Within SoundKept selectTag := by
  refine soundKept_of (selectTag_within baseKept_upper) fun s _ _ hi => ?_
  have g := selectTag_ranges s.cfg s ⟨rfl, trivial⟩
  have k := imaging_selectTag s
  cases e : selectTag s with
  | ok a t => rw [e] at g k; exact ⟨g.2, imageOk_part k hi⟩
  | error x t =>
    rw [e] at g k
    cases x with
    | raise _ => exact ⟨g.2, imageOk_part k hi⟩
    | refuse r => trivial

/-- READ_IMAGE keeps the invariant (R29). -/
theorem readImage_sound : Op.Within SoundKept readImage := by
  have E := selection_exchange
  have C := E.chains
  have block : ∀ b k, Op.Within (SeqKept Sequencer.selection) (assembleBlock b k) := fun b k =>
    .bind C (seqKept_setSeq fun _ => rfl) fun _ => .bind C (readBlock_within E _) fun _ => seqKept_setSeq fun _ => rfl
  have blocks : ∀ n b, Op.Within (SeqKept Sequencer.selection) (assembleBlocks n b) := by
    intro n
    induction n with
    | zero => exact fun b => .ofPure C ()
    | succ n ih => exact fun b => .bind C (block b _) fun _ => ih (b + 1)
  have image : Op.Within (SeqKept Sequencer.selection) readImage := by
    refine .bind C (seqKept_setSeq fun _ => rfl) fun _ => .bind C (blocks _ _) fun _ => ?_
    rw [if_pos (by decide)]
    exact .bind C (block _ _) fun _ => seqKept_setSeq fun _ => rfl
  refine soundKept_of (readImage_within baseKept_upper) fun s _ hs hi => ?_
  have g := readImage_ranges s.cfg s ⟨rfl, hi.2⟩
  have k := image s
  cases e : readImage s with
  | ok a t => rw [e] at g k; exact ⟨selectOk_part k hs, g.2⟩
  | error x t =>
    rw [e] at g k
    cases x with
    | raise _ => exact ⟨selectOk_part k hs, g.2⟩
    | refuse r => trivial

/-- A host operation whose body keeps soundness keeps the invariant. -/
theorem hostOp_inv {n : OpName} {body : Op Result} (hb : Op.Within SoundKept body) {s t : State} (h : s.Inv)
    (e : hostOp n body s = .next t) : t.Inv := by
  rcases hostOp_next e with ⟨r, u, he, rfl⟩ | ⟨k, u, he, rfl⟩
  · exact (((hb.ok he).2 (h.sound.start n)).finish r)
  · exact (((hb.raised he).2 (h.sound.start n)).raise k)

/-- A raw access whose body keeps soundness and raises nothing keeps the invariant. -/
theorem rawOp_inv {body : Op Result} (hb : Op.Within SoundKept body)
    (ho : Op.Within (SeqKept Sequencer.op) body) {s t : State} (h : s.Inv) (e : rawOp body s = .next t) : t.Inv := by
  have h0 : s.startRaw.Sound := ⟨h.config, h.exchange, h.select, h.image, h.poll, ⟨h.target, h.tag⟩, h.loading⟩
  rcases rawOp_next e with ⟨r, u, he, rfl⟩ | ⟨k, u, he, rfl⟩
  · have k := (hb.ok he).2 h0
    have o : u.seq.op = none := (ho.ok he).trans h.idle.1
    exact ⟨k.config, ⟨o, rfl⟩, k.exchange, k.select, k.image, k.poll, k.health.1, k.shut, k.health.2⟩
  · exact ((hb.raised he).2 h0).raise k

end Sys2Proof.Machine
end

