-- ==== Sys2Proof/Laws/Bounds.lean ====
section
/-! SUPPORT. How many bus transactions a body makes at most (R371): one lemma for each shared operation, whatever the
target and the environment do. -/

namespace Sys2Proof.Machine

/-- Under this configuration every run of the body that ends with a value or a raise makes at most `n` transactions. -/
def Op.Cost {α : Type} (c : Config) (n : Nat) (m : Op α) : Prop :=
  ∀ s, s.cfg = c → match m s with
    | .ok _ t => t.cfg = c ∧ t.trace.length ≤ s.trace.length + n
    | .error (.raise _) t => t.trace.length ≤ s.trace.length + n
    | .error (.refuse _) _ => True

namespace Op.Cost

variable {α β : Type} {c : Config} {n k : Nat}

theorem ofPure (a : α) : Op.Cost c 0 (pure a : Op α) := fun _ h => ⟨h, Nat.le_refl _⟩
theorem ofRaise (o : OpOutcome) : Op.Cost c 0 (Op.raise o : Op α) := fun _ _ => Nat.le_refl _
theorem ofState : Op.Cost c 0 Op.state := fun _ h => ⟨h, Nat.le_refl _⟩
theorem ofSetSeq (f : Sequencer → Sequencer) : Op.Cost c 0 (Op.setSeq f) := fun _ h => ⟨h, Nat.le_refl _⟩
theorem ofSetEnv (f : Environment → Environment) : Op.Cost c 0 (Op.setEnv f) := fun _ h => ⟨h, Nat.le_refl _⟩

theorem le {m : Op α} (h : Op.Cost c n m) (hk : n ≤ k) : Op.Cost c k m := by
  intro s hs
  have g := h s hs
  cases e : m s with
  | ok a t => rw [e] at g; exact ⟨g.1, by have := g.2; omega⟩
  | error x t =>
    rw [e] at g
    cases x with
    | raise o => simp only at g ⊢; omega
    | refuse r => trivial

theorem bind {x : Op α} {f : α → Op β} (hx : Op.Cost c n x) (hf : ∀ a, Op.Cost c k (f a)) :
    Op.Cost c (n + k) (x >>= f) := by
  intro s hs
  have h := hx s hs
  cases hm : x s with
  | ok a t =>
    rw [Op.bind_ok hm]
    rw [hm] at h
    have g := hf a t h.1
    cases e : f a t with
    | ok b u => rw [e] at g; exact ⟨g.1, by have := h.2; have := g.2; omega⟩
    | error y u =>
      rw [e] at g
      cases y with
      | raise o => have := h.2; simp only at g ⊢; omega
      | refuse r => trivial
  | error y t =>
    rw [Op.bind_error hm]
    rw [hm] at h
    cases y with
    | raise o => simp only at h ⊢; omega
    | refuse r => trivial

/-- A body that makes no transaction, then another. -/
theorem bindFree {x : Op α} {f : α → Op β} (hx : Op.Cost c 0 x) (hf : ∀ a, Op.Cost c k (f a)) :
    Op.Cost c k (x >>= f) := (hx.bind hf).le (by omega)

theorem withCfg {f : Config → Op β} (h : Op.Cost c k (f c)) : Op.Cost c k (Op.cfg >>= f) := by
  intro s hs; rw [Op.bind_ok (Op.cfg_apply s), hs]; exact h s hs

theorem withState {f : State → Op β} (h : ∀ s, s.cfg = c → Op.Cost c k (f s)) : Op.Cost c k (Op.state >>= f) := by
  intro s hs; rw [Op.bind_ok (Op.state_apply s)]; exact h s hs s hs

/-- A host operation starts with no transaction done. -/
theorem hostOp {name : OpName} {body : Op Result} (h : Op.Cost c n body) {s t : State} (hs : s.cfg = c)
    (e : hostOp name body s = .next t) : t.trace.length ≤ n := by
  have g := h (s.start name) hs
  rcases hostOp_next e with ⟨r, u, he, rfl⟩ | ⟨o, u, he, rfl⟩
  · rw [he] at g; simpa using g.2
  · rw [he] at g; simpa using g

theorem rawOp {body : Op Result} (h : Op.Cost c n body) {s t : State} (hs : s.cfg = c)
    (e : rawOp body s = .next t) : t.trace.length ≤ n := by
  have g := h s.startRaw hs
  rcases rawOp_next e with ⟨r, u, he, rfl⟩ | ⟨o, u, he, rfl⟩
  · rw [he] at g; simpa [State.startRaw] using g.2
  · rw [he] at g; simpa [State.startRaw] using g

end Op.Cost

variable {c : Config}

/-! ## Transactions -/

theorem busWrite_cost (a : RegAddr) (v : Byte) : Op.Cost c 1 (busWrite a v) := by
  intro s hs
  rcases busWrite_cases s a v with ⟨t, e, w⟩ | ⟨r, t, e⟩
  · rw [e]
    refine ⟨((outside_bus.write a v).ok e).1.trans hs, ?_⟩
    have : t.trace = s.trace := by
      rcases w with ⟨-, rfl⟩ | ⟨-, w⟩
      · rfl
      · exact (written_seq w).2
    simp [this]
  · rw [e]; trivial

theorem busRead_cost (a : RegAddr) : Op.Cost c 1 (busRead a) := by
  intro s hs
  obtain ⟨v, t, e, w⟩ := busRead_cases s a
  rw [e]
  refine ⟨((outside_bus.read a).ok e).1.trans hs, ?_⟩
  have : t.trace = s.trace := by rcases w with ⟨-, rfl⟩ | ⟨-, rfl | ⟨rest, -, -, rfl⟩ | rfl⟩ <;> rfl
  simp [this]

theorem busSetBits_cost (a : RegAddr) (m : Byte) : Op.Cost c 2 (busSetBits a m) :=
  (busRead_cost a).bind fun _ => busWrite_cost a _

theorem busClearBits_cost (a : RegAddr) (m : Byte) : Op.Cost c 2 (busClearBits a m) :=
  (busRead_cost a).bind fun _ => busWrite_cost a _

theorem loadFifo_cost (a : RegAddr) (s : List Byte) : Op.Cost c s.length (loadFifo a s) := by
  induction s with
  | nil => exact .ofPure ()
  | cons b s ih => exact ((busWrite_cost a b).bind fun _ => ih).le (by simp only [List.length_cons]; omega)

theorem loadOperand_cost (a : RegAddr) (s : List Byte) : Op.Cost c s.length (loadOperand a s) :=
  have flag : ∀ b, Op.Cost c 0 (setLoading b) := fun _ _ h => ⟨h, Nat.le_refl _⟩
  .bindFree (flag true) fun _ => ((loadFifo_cost a s).bind fun _ => flag false).le (by omega)

theorem unloadFifo_cost (a : RegAddr) (n : Nat) : Op.Cost c n (unloadFifo a n) := by
  induction n with
  | zero => exact .ofPure _
  | succ n ih => exact ((busRead_cost a).bind fun _ => ih.bind fun _ => .ofPure _).le (by omega)

theorem writeAll_cost (l : List (RegAddr × Byte)) : Op.Cost c l.length (writeAll l) := by
  induction l with
  | nil => exact .ofPure ()
  | cons x l ih =>
    obtain ⟨a, v⟩ := x
    exact ((busWrite_cost a v).bind fun _ => ih).le (by simp only [List.length_cons]; omega)

/-! ## The CRC driver and the executor -/

theorem pollDivirq_cost (n : Nat) : Op.Cost c n (pollDivirq n) := by
  induction n with
  | zero => exact .ofPure ()
  | succ n ih =>
    refine .withCfg (((busRead_cost _).bind fun v => Op.Cost.bindFree (.ofSetSeq _) fun _ => ?_).le
      (Nat.le_of_eq (Nat.add_comm 1 n)))
    split
    · exact (Op.Cost.ofPure ()).le (Nat.zero_le n)
    · exact ih

/-- CRC_CALC of `n` bytes: at most 7 + n + POLL_CRC transactions (R371). -/
theorem crcCalc_cost (data : List Byte) : Op.Cost c (7 + data.length + c.pollCrc) (crcCalc data) :=
  .withCfg (((busClearBits_cost _ _).bind fun _ => (busSetBits_cost _ _).bind fun _ => (loadOperand_cost _ data).bind
    fun _ => (busWrite_cost _ _).bind fun _ => Op.Cost.bindFree (.ofSetSeq _) fun _ => (pollDivirq_cost c.pollCrc).bind
    fun _ => (busRead_cost _).bind fun _ => (busRead_cost _).bind fun _ => Op.Cost.bindFree (.ofSetSeq _)
    fun _ => .ofPure _).le (by omega))

theorem pollComirq_cost (n : Nat) : Op.Cost c n (pollComirq n) := by
  induction n with
  | zero => exact .ofPure false
  | succ n ih =>
    refine .withState fun s _ => ((busRead_cost _).bind fun v => Op.Cost.bindFree (.ofSetSeq _) fun _ => ?_).le
      (Nat.le_of_eq (Nat.add_comm 1 n))
    split
    · exact (Op.Cost.ofPure true).le (Nat.zero_le n)
    · exact ih

theorem readResponse_cost : Op.Cost c 18 readResponse :=
  .withCfg (((busRead_cost _).bind fun cnt => (busRead_cost _).bind fun _ => Op.Cost.bindFree (.ofSetSeq _) fun _ =>
    ((unloadFifo_cost _ _).le (readCount_le cnt)).bind fun _ => .ofSetSeq _).le (by decide))

/-- TO_CARD of `n` bytes: at most 30 + n + POLL_CMD transactions (R371). -/
theorem toCard_cost (cmd : Command) (tx : List Byte) : Op.Cost c (30 + tx.length + c.pollCmd) (toCard cmd tx) := by
  have fail : ∀ k, Op.Cost c 19 (failExchange k) := fun k =>
    (Op.Cost.bindFree (.ofSetSeq _) fun _ => .ofPure _).le (Nat.zero_le _)
  have load : Op.Cost c (7 + tx.length) (loadExchange cmd tx) :=
    .withCfg (((busWrite_cost _ _).bind fun _ => (busClearBits_cost _ _).bind fun _ => (busSetBits_cost _ _).bind fun _ =>
      (busWrite_cost _ _).bind fun _ => (loadFifo_cost _ tx).bind fun _ => busWrite_cost _ _).le (by omega))
  have start : Op.Cost c 2 (startSend cmd) := by
    refine .withCfg ?_
    split
    · exact busSetBits_cost _ _
    · exact (Op.Cost.ofPure ()).le (by omega)
  have complete : Op.Cost c 18 (completeExchange cmd) := by
    refine .withCfg (.bindFree (.ofSetSeq _) fun _ => ?_)
    have rest : Op.Cost c 0 (do
        let s ← Op.state
        pure (s.seq.status, s.seq.rxbuf, s.seq.rxbits) : Op (Status × List Byte × Int)) :=
      .bindFree .ofState fun _ => .ofPure _
    split
    · exact readResponse_cost.bind fun _ => rest
    · exact (Op.Cost.bindFree (.ofPure ()) fun _ => rest).le (by omega)
  refine .withCfg (.bindFree (.ofSetSeq _) fun _ => Op.Cost.le (load.bind fun _ => start.bind fun _ =>
    Op.Cost.bindFree (.ofSetSeq _) fun _ => (pollComirq_cost c.pollCmd).bind fun _ => (busClearBits_cost _ _).bind
    fun _ => (?_ : Op.Cost c 19 _)) (by omega))
  split
  · exact fail _
  · refine ((busRead_cost _).bind fun e => ?_ : Op.Cost c (1 + 18) _)
    split
    · exact (Op.Cost.bindFree (.ofSetSeq _) fun _ => .ofPure _).le (Nat.zero_le _)
    · exact complete

/-! ## The units above -/

theorem transceive_cost (frame : List Byte) : Op.Cost c (30 + frame.length + c.pollCmd) (transceive frame) := by
  refine ((toCard_cost _ frame).bind (k := 0) fun x => ?_).le (by omega)
  obtain ⟨st, rx, bits⟩ := x
  refine .bindFree (.bindFree .ofState fun s => ?_) fun _ => .ofPure _
  cases st
  · exact .ofPure ()
  · exact .ofRaise _
  · exact .ofRaise _

/-- A CRC computation of a body and the exchange of the body with its CRC. -/
theorem transceiveCrc_cost (body : List Byte) :
    Op.Cost c ((7 + body.length + c.pollCrc) + (32 + body.length + c.pollCmd)) (transceiveCrc body) := by
  refine (crcCalc_cost body).bind fun x => ?_
  obtain ⟨lo, hi⟩ := x
  exact (transceive_cost _).le (by simp only [List.length_append, List.length_cons, List.length_nil]; omega)

theorem requestTag_cost : Op.Cost c (1 + (31 + c.pollCmd)) requestTag := by
  refine .withCfg ((busWrite_cost _ _).bind fun _ => ((transceive_cost _).bind (k := 0) fun x => ?_).le (by
    simp only [reqaFrame, List.length_cons, List.length_nil]; omega))
  obtain ⟨rx, bits⟩ := x
  simp only
  split
  · exact .ofRaise _
  · exact .bindFree (.ofSetSeq _) fun _ => .ofPure _

/-- One level: the anti-collision exchange of 2 bytes, the CRC of 7, the exchange of 9. -/
theorem selectLevel_cost (lvl : CascadeLevel) : Op.Cost c ((if lvl = .one then 1 else 0) +
    ((32 + c.pollCmd) + (14 + c.pollCrc) + (39 + c.pollCmd))) (selectLevel lvl) := by
  have ac : Op.Cost c ((if lvl = .one then 1 else 0) + (32 + c.pollCmd)) (anticollision lvl) := by
    refine .withCfg (.bindFree (.ofSetSeq _) fun _ => ?_)
    have rest : Op.Cost c (32 + c.pollCmd) (do
        let (rx, _) ← transceive (anticollFrame c lvl)
        match fragmentOf rx with
        | none => Op.raise .protocolError
        | some f =>
          if f.valid then do
            Op.setSeq fun q => q.keepFragment lvl f
            pure f
          else Op.raise .checksumError : Op Fragment) := by
      refine ((transceive_cost _).bind (k := 0) fun x => ?_).le (by
        simp only [anticollFrame, List.length_cons, List.length_nil]; omega)
      obtain ⟨rx, bits⟩ := x
      simp only
      split
      · exact .ofRaise _
      · split
        · exact .bindFree (.ofSetSeq _) fun _ => .ofPure _
        · exact .ofRaise _
    by_cases h : lvl = .one
    · rw [if_pos h, if_pos h]; exact (busWrite_cost _ _).bind fun _ => rest
    · rw [if_neg h, if_neg h]; exact rest.le (by omega)
  have sf : ∀ f, Op.Cost c ((14 + c.pollCrc) + (39 + c.pollCmd)) (selectFragment lvl f) := fun f => by
    refine .withCfg (((transceiveCrc_cost _).bind (k := 0) fun x => ?_).le (by
      simp only [selectBody, List.length_cons, List.length_nil]; omega))
    obtain ⟨rx, bits⟩ := x
    simp only
    split
    · exact .ofPure _
    · exact .ofRaise _
  exact (ac.bind fun f => (sf f).bind fun _ => .ofPure _).le (by omega)

theorem selectTag_cost :
    Op.Cost c (1 + 2 * ((32 + c.pollCmd) + (14 + c.pollCrc) + (39 + c.pollCmd))) selectTag := by
  have complete : ∀ n, Op.Cost c n completeSelect := fun n =>
    (Op.Cost.bindFree (.ofSetSeq _) fun _ => .bindFree .ofState fun _ => .ofPure _).le (Nat.zero_le n)
  refine Op.Cost.bindFree (.ofSetSeq _) fun _ => ((selectLevel_cost .one).bind
    (k := (32 + c.pollCmd) + (14 + c.pollCrc) + (39 + c.pollCmd)) fun more => ?_).le (by rw [if_pos rfl]; omega)
  split
  · exact complete _
  · refine ((selectLevel_cost .two).bind (k := 0) fun more => ?_).le (by rw [if_neg nofun]; omega)
    split
    · exact complete _
    · exact .ofRaise _

theorem readBlock_cost (page : Byte) : Op.Cost c ((9 + c.pollCrc) + (34 + c.pollCmd)) (readBlock page) := by
  refine .withCfg (((transceiveCrc_cost _).bind (k := 0) fun x => ?_).le (by
    simp only [readBody, List.length_cons, List.length_nil]; omega))
  obtain ⟨rx, bits⟩ := x
  simp only
  split
  · exact .ofRaise _
  · exact .ofPure _

theorem readImage_cost : Op.Cost c (34 * ((9 + c.pollCrc) + (34 + c.pollCmd))) readImage := by
  have block : ∀ b keep, Op.Cost c ((9 + c.pollCrc) + (34 + c.pollCmd)) (assembleBlock b keep) := fun b keep =>
    Op.Cost.bindFree (.ofSetSeq _) fun _ => (readBlock_cost _).bind fun _ => .ofSetSeq _
  have blocks : ∀ n b, Op.Cost c (n * ((9 + c.pollCrc) + (34 + c.pollCmd))) (assembleBlocks n b) := by
    intro n
    induction n with
    | zero => exact fun b => (Op.Cost.ofPure ()).le (Nat.zero_le _)
    | succ n ih => exact fun b => ((block b _).bind fun _ => ih (b + 1)).le (by rw [Nat.succ_mul]; omega)
  refine Op.Cost.bindFree (.ofSetSeq _) fun _ => ((blocks fullBlocks 0).bind fun _ => ?_ :
    Op.Cost c (fullBlocks * _ + ((9 + c.pollCrc) + (34 + c.pollCmd))) _).le (by
      have : fullBlocks = 33 := by decide
      rw [this]; omega)
  rw [if_pos (by decide)]
  exact (block _ _).bind fun _ => .ofSetSeq _

theorem writeBlock_cost (page : Byte) (data : List Byte) :
    Op.Cost c ((13 + c.pollCrc) + (38 + c.pollCmd)) (writeBlock page data) := by
  refine .withCfg ?_
  split
  · exact (Op.Cost.ofRaise _).le (Nat.zero_le _)
  · rename_i h
    refine ((transceiveCrc_cost _).bind (k := 0) fun _ => .ofPure _).le ?_
    have h : data.length = 4 := Decidable.not_not.1 h
    simp only [writeBody, List.length_append, List.length_cons, List.length_nil, h]; omega

theorem initSequence_cost : Op.Cost c (3 + c.initWrites.length) initSequence :=
  .withCfg (.bindFree (.ofSetEnv _) fun _ => ((busWrite_cost _ _).bind fun _ => (writeAll_cost _).bind fun _ =>
    busSetBits_cost _ _).le (by omega))

theorem issueCommand_cost (cmd : Command) : Op.Cost c 1 (issueCommand cmd) :=
  .withCfg ((busWrite_cost _ _).bind fun _ => .ofPure _)

theorem regAddr_cost (addr : Byte) : Op.Cost c 0 (regAddr addr) := by
  unfold regAddr; split
  · exact .ofPure _
  · exact .ofRaise _

end Sys2Proof.Machine
end

