-- ==== Sys2Proof/Laws/Completion.lean ====
section
/-! SUPPORT. Which bodies never refuse: under a well-formed configuration every operation of units U1, U3 and U4
ends with a value or a raise, in whatever state and environment it starts; so does every exchange but an
authentication at the reference target. -/

namespace Sys2Proof.Machine

/-- From every state under this configuration the body ends with a value or a raise. -/
def Op.GoesOn {α : Type} (c : Config) (m : Op α) : Prop :=
  ∀ s, s.cfg = c → match m s with
    | .ok _ t => t.cfg = c
    | .error (.raise _) _ => True
    | .error (.refuse _) _ => False

namespace Op.GoesOn

variable {α β : Type} {c : Config}

theorem ofPure (a : α) : Op.GoesOn c (pure a : Op α) := fun _ h => h
theorem ofRaise (k : OpOutcome) : Op.GoesOn c (Op.raise k : Op α) := fun _ _ => trivial
theorem ofState : Op.GoesOn c Op.state := fun _ h => h
theorem ofSetSeq (f : Sequencer → Sequencer) : Op.GoesOn c (Op.setSeq f) := fun _ h => h
theorem ofSetEnv (f : Environment → Environment) : Op.GoesOn c (Op.setEnv f) := fun _ h => h

theorem bind {x : Op α} {f : α → Op β} (hx : Op.GoesOn c x) (hf : ∀ a, Op.GoesOn c (f a)) :
    Op.GoesOn c (x >>= f) := by
  intro s hs
  have h := hx s hs
  cases hm : x s with
  | ok a t => rw [Op.bind_ok hm]; rw [hm] at h; exact hf a t h
  | error e t => rw [Op.bind_error hm]; rw [hm] at h; cases e <;> exact h

theorem withCfg {f : Config → Op β} (h : Op.GoesOn c (f c)) : Op.GoesOn c (Op.cfg >>= f) := by
  intro s hs; rw [Op.bind_ok (Op.cfg_apply s), hs]; exact h s hs

/-- A body that goes on answers a next state as a host operation. -/
theorem hostOp {n : OpName} {body : Op Result} (h : Op.GoesOn c body) {s : State} (hc : s.cfg = c) :
    ∃ t, hostOp n body s = .next t := by
  have g := h (s.start n) hc
  cases e : body (s.start n) with
  | ok r t => exact ⟨_, hostOp_ok e⟩
  | error x t =>
    rw [e] at g
    cases x with
    | raise k => exact ⟨_, hostOp_raise e⟩
    | refuse r => exact absurd g id

end Op.GoesOn

/-! ## When the target takes a byte into the FIFO (R163, R366) -/

/-- No byte pushed into the FIFO would be refused. -/
def State.Pushable (s : State) : Prop :=
  s.env.level = .busOracle ∨ s.tgt.cmd ≠ s.cfg.codes.calccrc ∨ s.tgt.loadOpen = true

/-- The configuration, and that bytes may be pushed. -/
abbrev Loading (c : Config) (s : State) : Prop := s.cfg = c ∧ s.Pushable

/-- Only a write of COMMAND can close the FIFO. -/
theorem written_pushable {a : RegAddr} {v : Byte} {s t : State} (w : Written a v s t)
    (hn : s.cfg.regmap.nameAt a ≠ some .command) (h : s.tgt.cmd ≠ s.cfg.codes.calccrc ∨ s.tgt.loadOpen = true) :
    t.tgt.cmd ≠ t.cfg.codes.calccrc ∨ t.tgt.loadOpen = true := by
  cases w with
  | level _ => simp only; split <;> exact h
  | push _ _ =>
    rcases push_cases s.tgt s.cfg.fifoDepth v with ⟨-, e⟩ | ⟨-, e⟩ <;> simp only [e] <;> exact h
  | command hc _ _ _ => exact absurd hc hn
  | _ => exact h

theorem busRead_loading (c : Config) (a : RegAddr) : Op.Ensures (Loading c) (busRead a) fun _ => Loading c := by
  rintro s ⟨hc, hp⟩
  obtain ⟨v, t, e, w⟩ := busRead_cases s a
  refine ⟨v, _, e, ((outside_bus.read a).ok e).1.trans hc, ?_⟩
  rcases w with ⟨hl, rfl⟩ | ⟨hl, rfl | ⟨rest, -, -, rfl⟩ | rfl⟩
  · exact .inl hl
  all_goals
    rcases hp with hp | hp
    · exact absurd (hl.symm.trans hp) nofun
    · exact .inr (by simpa using hp)

theorem busRead_cfg (c : Config) (a : RegAddr) : Op.Ensures (fun s => s.cfg = c) (busRead a) fun _ s => s.cfg = c := by
  intro s hc
  obtain ⟨v, t, e, -⟩ := busRead_cases s a
  exact ⟨v, _, e, ((outside_bus.read a).ok e).1.trans hc⟩

/-- A read shows its frame, with the byte it returns, as the newest. -/
theorem busRead_shown (c : Config) (a : RegAddr) (before : List BusFrame) :
    Op.Ensures (fun s => s.cfg = c ∧ s.trace = before) (busRead a) fun v s =>
      s.cfg = c ∧ s.trace = readFrame a v :: before := by
  rintro s ⟨hc, hb⟩
  obtain ⟨v, t, e, w⟩ := busRead_cases s a
  refine ⟨v, _, e, ((outside_bus.read a).ok e).1.trans hc, ?_⟩
  rcases w with ⟨-, rfl⟩ | ⟨-, rfl | ⟨rest, -, -, rfl⟩ | rfl⟩ <;> exact congrArg _ hb

/-- A write to any register but COMMAND and FIFODATA is never refused. -/
theorem busWrite_cfg {c : Config} (hc : c.regmap.distinct) (n : RegName) (h1 : n ≠ .command) (h2 : n ≠ .fifodata)
    (v : Byte) : Op.Ensures (fun s => s.cfg = c) (busWrite (c.regmap.addr n) v) fun _ s => s.cfg = c := by
  intro s hs
  have hn : s.cfg.regmap.nameAt (c.regmap.addr n) = some n := by rw [hs]; exact RegMap.nameAt_addr hc n
  rcases busWrite_cases s (c.regmap.addr n) v with ⟨t, e, -⟩ | ⟨r, t, e⟩
  · exact ⟨(), _, e, ((outside_bus.write _ _).ok e).1.trans hs⟩
  · exfalso
    cases hl : s.env.level with
    | busOracle => rw [busWrite_oracle hl] at e; cases e
    | referenceTarget =>
      rcases targetWrite_cases s.ticked (c.regmap.addr n) v with ⟨u, e', -⟩ | ⟨r', e'⟩
      · rw [busWrite_target hl e'] at e; cases e
      · have hn' : s.ticked.cfg.regmap.nameAt (c.regmap.addr n) = some n := hn
        cases n with
        | command => exact h1 rfl
        | fifodata => exact h2 rfl
        | fifolevel => rw [targetWrite_fifolevel hn'] at e'; cases e'
        | comirq => rw [targetWrite_comirq hn'] at e'; cases e'
        | divirq => rw [targetWrite_divirq hn'] at e'; cases e'
        | error => rw [targetWrite_readOnly (.inl hn')] at e'; cases e'
        | crcresultH => rw [targetWrite_readOnly (.inr (.inl hn'))] at e'; cases e'
        | crcresultL => rw [targetWrite_readOnly (.inr (.inr hn'))] at e'; cases e'
        | bitframing =>
          by_cases hs : v.hasAny s.ticked.cfg.masks.startSend = true ∧
              s.ticked.tgt.cmd = s.ticked.cfg.codes.transceive ∧ s.ticked.tgt.sent = false
          · rw [targetWrite_bitframing_send hn' hs] at e'; cases e'
          · rw [targetWrite_bitframing_idle hn' hs] at e'; cases e'
        | _ => rw [targetWrite_storage (by rw [hn']; rfl)] at e'; cases e'

/-- A write to any register but COMMAND keeps the FIFO open. -/
theorem busWrite_loading {c : Config} (hc : c.regmap.distinct) (n : RegName) (h1 : n ≠ .command) (v : Byte) :
    Op.Ensures (Loading c) (busWrite (c.regmap.addr n) v) fun _ => Loading c := by
  rintro s ⟨hs, hp⟩
  have hn : s.cfg.regmap.nameAt (c.regmap.addr n) = some n := by rw [hs]; exact RegMap.nameAt_addr hc n
  have hne : s.cfg.regmap.nameAt (c.regmap.addr n) ≠ some .command := by rw [hn]; simpa using h1
  have ok : ∃ t, busWrite (c.regmap.addr n) v s = .ok () t := by
    by_cases hf : n = .fifodata
    · subst hf
      rcases hp with hl | ho
      · exact ⟨_, busWrite_oracle hl _ _⟩
      · cases hl : s.env.level with
        | busOracle => exact ⟨_, busWrite_oracle hl _ _⟩
        | referenceTarget =>
          refine ⟨_, busWrite_target hl (targetWrite_fifodata (s := s.ticked) hn ?_ v)⟩
          rcases ho with ho | ho
          · exact fun e => absurd (by simpa using e) ho
          · exact fun _ => by simpa using ho
    · obtain ⟨_, t, e, -⟩ := busWrite_cfg hc n h1 hf v s hs
      exact ⟨t, e⟩
  obtain ⟨t, e⟩ := ok
  refine ⟨(), t, e, ((outside_bus.write _ _).ok e).1.trans hs, ?_⟩
  rcases busWrite_cases s (c.regmap.addr n) v with ⟨u, e', w⟩ | ⟨r, u, e'⟩
  · rw [e] at e'
    cases e'
    rcases w with ⟨hl, rfl⟩ | ⟨hl, w⟩
    · exact .inl hl
    · rcases hp with hp | hp
      · exact absurd (hl.symm.trans hp) nofun
      · have p := written_pushable (s := s.ticked) w hne (by simpa using hp)
        exact .inr p
  · rw [e] at e'; cases e'

/-- A command other than AUTHENT is taken; all but CALCCRC leave the FIFO open (R194). -/
theorem command_taken {c : Config} (hc : c.regmap.distinct) (hk : c.codes.distinct) (k : Command)
    (hn : k ≠ .authent) : Op.Ensures (fun s => s.cfg = c) (busWrite c.regmap.command (c.codes.byte k))
      fun _ s => s.cfg = c ∧ (k ≠ .calccrc → s.Pushable) := by
  intro s hs
  have ha : s.ticked.cfg.regmap.nameAt c.regmap.command = some .command := by
    rw [ticked_cfg, hs]; exact RegMap.nameAt_addr hc .command
  cases hl : s.env.level with
  | busOracle => exact ⟨(), _, busWrite_oracle hl _ _, hs, fun _ => .inl hl⟩
  | referenceTarget =>
    have hb : s.ticked.cfg.codes.ofByte (c.codes.byte k) = some k := by
      rw [ticked_cfg, hs]; exact CmdCodes.ofByte_byte hk k
    refine ⟨(), _, busWrite_target hl (targetWrite_command ha hb hn), by simpa using hs, fun hne => .inr (.inl ?_)⟩
    have ne : ∀ k', k' ≠ .calccrc → c.codes.code k' ≠ c.codes.calccrc := fun k' h e =>
      h ((CmdCodes.code_inj hk).1 e)
    cases k with
    | authent => exact absurd rfl hn
    | calccrc => exact absurd rfl hne
    | idle => simp only [State.commanded, recorded_tgt, recorded_cfg, accept_cmd, ticked_cfg, hs]; exact ne _ hne
    | transceive =>
      simp only [State.commanded, recorded_tgt, recorded_cfg, accept_cmd, ticked_cfg, hs]; exact ne _ hne
    | resetphase =>
      simp only [State.commanded, recorded_tgt, recorded_cfg, targetReset_tgt, targetReset_cfg, ticked_cfg, hs]
      exact ne .idle nofun

theorem loadFifo_loading {c : Config} (hc : c.regmap.distinct) (data : List Byte) :
    Op.Ensures (Loading c) (loadFifo c.regmap.fifodata data) fun _ => Loading c := by
  induction data with
  | nil => exact fun s h => ⟨(), s, rfl, h⟩
  | cons b data ih => exact .bind (busWrite_loading hc .fifodata nofun b) fun _ => ih

/-- CRC_CALC's load of its operand always goes on (R160 step 3). -/
theorem loadOperand_cfg {c : Config} (hc : c.regmap.distinct) (data : List Byte) :
    Op.Ensures (fun s => s.cfg = c) (loadOperand c.regmap.fifodata data) fun _ s => s.cfg = c :=
  .bind (M := fun _ => Loading c) (fun _ h => ⟨(), _, rfl, h, .inr (.inr rfl)⟩) fun _ =>
    .bind (loadFifo_loading hc data) fun _ _ h => ⟨(), _, rfl, h.1⟩

/-! ## The CRC driver and the executor -/

/-- OR-ing in the flush mask sets its bits. -/
theorem hasAny_or {v m : Byte} (h : m ≠ 0) : (v ||| m).hasAny m = true := by
  have : (v ||| m) &&& m = m := by
    ext i hi; simp only [BitVec.getElem_and, BitVec.getElem_or]; cases v[i] <;> cases m[i] <;> rfl
  simpa [Byte.hasAny, this] using h

theorem Op.Ensures.withCfg {α : Type} {c : Config} {P : State → Prop} {Q : α → State → Prop} {f : Config → Op α}
    (hp : ∀ s, P s → s.cfg = c) (h : Op.Ensures P (f c) Q) : Op.Ensures P (Op.cfg >>= f) Q := by
  intro s hs
  rw [Op.bind_ok (Op.cfg_apply s), hp s hs]
  exact h s hs

theorem Op.Ensures.ofSetSeq {c : Config} (f : Sequencer → Sequencer) :
    Op.Ensures (fun s => s.cfg = c) (Op.setSeq f) fun _ s => s.cfg = c := fun _ h => ⟨(), _, rfl, h⟩

/-- CRC_CALC always ends with its two bytes (R160: "CRC_CALC always returns OK"), those its last two transactions read. -/
theorem crcCalc_ends {c : Config} (hc : c.wf) (data : List Byte) :
    Op.Ensures (fun s => s.cfg = c) (crcCalc data) fun r s => s.cfg = c ∧ s.seq.crcLo = r.1 ∧ s.seq.crcHi = r.2 ∧
      ∃ before, s.trace = readFrame c.regmap.crcresultH r.2 :: readFrame c.regmap.crcresultL r.1 :: before := by
  have poll : ∀ n, Op.Ensures (fun s => s.cfg = c) (pollDivirq n) fun _ s => s.cfg = c := by
    intro n
    induction n with
    | zero => exact fun s h => ⟨(), s, rfl, h⟩
    | succ n ih =>
      refine .withCfg (fun _ h => h) (.bind (busRead_cfg c _) fun v => .bind (.ofSetSeq _) fun _ => ?_)
      split
      · exact fun s h => ⟨(), s, rfl, h⟩
      · exact ih
  refine .withCfg (fun _ h => h) (.bind (.bind (busRead_cfg c _) fun v => busWrite_cfg hc.1 .divirq nofun nofun _)
    fun _ => .bind (.bind (busRead_cfg c _) fun v => busWrite_cfg hc.1 .fifolevel nofun nofun _) fun _ =>
    .bind (loadOperand_cfg hc.1 data) fun _ => .bind (command_taken hc.1 hc.2.1 .calccrc nofun) fun _ => .bind ((Op.Ensures.ofSetSeq (c := c) _).pre fun _ h => h.1) fun _ => .bind (poll _) fun _ =>
    fun s0 h0 => ?_)
  exact (Op.Ensures.bind (busRead_shown c _ s0.trace) fun lo => .bind (busRead_shown c _ _) fun hi s hs =>
    ⟨(lo, hi), _, rfl, hs.1, rfl, rfl, s0.trace, hs.2⟩) s0 ⟨h0, rfl⟩

/-- An exchange always ends with its triple, whatever the target and the card do (R180: "TO_CARD itself always
returns"); the verdict is S.STATUS, the response S.RXBUF of S.RXBITS bits, or ERR with neither. -/
theorem toCard_ends {c : Config} (hc : c.wf) {cmd : Command} (hn : cmd ≠ .authent) (tx : List Byte) :
    Op.Ensures (fun s => s.cfg = c) (toCard cmd tx) fun r s => s.cfg = c ∧ r.1 = s.seq.status ∧
      (s.seq.status ≠ .err → r.2.1 = s.seq.rxbuf ∧ r.2.2 = s.seq.rxbits) ∧
      (s.seq.status = .err → r.2.1 = [] ∧ r.2.2 = 0) := by
  refine .withCfg (fun _ h => h) (.bind (.ofSetSeq _) fun _ => ?_)
  refine .bind (M := fun _ s => s.cfg = c) ((Op.Ensures.withCfg (fun _ h => h)
    (.bind (busWrite_cfg hc.1 .comien nofun nofun _) fun _ =>
    .bind (.bind (busRead_cfg c _) fun v => busWrite_cfg hc.1 .comirq nofun nofun _) fun _ =>
    .bind (.bind (busRead_cfg c _) fun v => busWrite_cfg hc.1 .fifolevel nofun nofun _) fun _ =>
    .bind (command_taken hc.1 hc.2.1 .idle nofun) fun _ =>
    .bind ((loadFifo_loading hc.1 tx).pre fun _ h => ⟨h.1, h.2 nofun⟩) fun _ =>
    ((command_taken hc.1 hc.2.1 cmd hn).pre fun _ h => h.1))).imp fun _ _ h => h.1) fun _ => ?_
  refine .bind (M := fun _ s => s.cfg = c) (.withCfg (fun _ h => h) ?_) fun _ => ?_
  · split
    · exact .bind (busRead_cfg c _) fun v => busWrite_cfg hc.1 .bitframing nofun nofun _
    · exact fun s h => ⟨(), s, rfl, h⟩
  have poll : ∀ n, Op.Ensures (fun s => s.cfg = c) (pollComirq n) fun _ s => s.cfg = c := by
    intro n
    induction n with
    | zero => exact fun s h => ⟨false, s, rfl, h⟩
    | succ n ih =>
      intro s hs
      rw [pollComirq, Op.bind_ok (Op.state_apply s)]
      refine (Op.Ensures.bind (busRead_cfg c _) fun v => .bind (.ofSetSeq _) fun _ => ?_) s hs
      split
      · exact fun s h => ⟨true, s, rfl, h⟩
      · exact ih
  have fail : ∀ k, Op.Ensures (fun s => s.cfg = c) (failExchange k) fun r s => s.cfg = c ∧ r.1 = s.seq.status ∧
      (s.seq.status ≠ .err → r.2.1 = s.seq.rxbuf ∧ r.2.2 = s.seq.rxbits) ∧
      (s.seq.status = .err → r.2.1 = [] ∧ r.2.2 = 0) := fun k s hs =>
    ⟨(.err, [], 0), _, rfl, hs, rfl, fun h => absurd rfl h, fun _ => ⟨rfl, rfl⟩⟩
  have unload : ∀ n, Op.Ensures (fun s => s.cfg = c ∧ s.seq.status ≠ .err) (unloadFifo c.regmap.fifodata n)
      fun _ s => s.cfg = c ∧ s.seq.status ≠ .err := by
    intro n
    induction n with
    | zero => exact fun s h => ⟨[], s, rfl, h⟩
    | succ n ih =>
      refine .bind (M := fun _ s => s.cfg = c ∧ s.seq.status ≠ .err) ?_ fun b => .bind ih fun rest =>
        fun s h => ⟨b :: rest, s, rfl, h⟩
      intro s hs
      obtain ⟨v, t, e, -⟩ := busRead_cases s c.regmap.fifodata
      have k : (t.recorded (readFrame c.regmap.fifodata v)).seq.status = s.seq.status :=
        ((seqKept_bus (fun q => q.status) fun _ _ => rfl).read _).ok e
      exact ⟨v, _, e, ((outside_bus.read _).ok e).1.trans hs.1, k ▸ hs.2⟩
  have read : ∀ (a : RegAddr), Op.Ensures (fun s => s.cfg = c ∧ s.seq.status ≠ .err) (busRead a)
      fun _ s => s.cfg = c ∧ s.seq.status ≠ .err := by
    intro a s hs
    obtain ⟨v, t, e, -⟩ := busRead_cases s a
    have k : (t.recorded (readFrame a v)).seq.status = s.seq.status :=
      ((seqKept_bus (fun q => q.status) fun _ _ => rfl).read _).ok e
    exact ⟨v, _, e, ((outside_bus.read _).ok e).1.trans hs.1, k ▸ hs.2⟩
  refine .bind (.ofSetSeq _) fun _ => .bind (poll _) fun seen =>
    .bind (.bind (busRead_cfg c _) fun v => busWrite_cfg hc.1 .bitframing nofun nofun _) fun _ => ?_
  split
  · exact fail _
  · refine .bind (busRead_cfg c _) fun e => ?_
    split
    · exact fail _
    · refine .withCfg (fun _ h => h) (.bind (M := fun _ s => s.cfg = c ∧ s.seq.status ≠ .err) ?_ fun _ => ?_)
      · intro s hs
        exact ⟨(), _, rfl, hs, by simp only; split <;> nofun⟩
      · have rest : Op.Ensures (fun s => s.cfg = c ∧ s.seq.status ≠ .err) (do
            let s ← Op.state
            pure (s.seq.status, s.seq.rxbuf, s.seq.rxbits) : Op (Status × List Byte × Int)) fun r s => s.cfg = c ∧
              r.1 = s.seq.status ∧ (s.seq.status ≠ .err → r.2.1 = s.seq.rxbuf ∧ r.2.2 = s.seq.rxbits) ∧
              (s.seq.status = .err → r.2.1 = [] ∧ r.2.2 = 0) := fun s h =>
          ⟨(s.seq.status, s.seq.rxbuf, s.seq.rxbits), s, rfl, h.1, rfl, fun _ => ⟨rfl, rfl⟩, fun e => absurd e h.2⟩
        split
        · refine .bind (M := fun _ s => s.cfg = c ∧ s.seq.status ≠ .err) (.withCfg (fun _ h => h.1) ?_) fun _ => rest
          refine .bind (read _) fun cnt => .bind (read _) fun ctl => .bind (M := fun _ s => s.cfg = c ∧
            s.seq.status ≠ .err) (fun s h => ⟨(), _, rfl, h⟩) fun _ => .bind (unload _) fun rx =>
            fun s h => ⟨(), _, rfl, h⟩
        · exact rest

/-! ## The units above -/

theorem Op.Ensures.goesOn {α : Type} {c : Config} {m : Op α} {Q : α → State → Prop}
    (h : Op.Ensures (fun s => s.cfg = c) m Q) (hq : ∀ a s, Q a s → s.cfg = c) : Op.GoesOn c m := by
  intro s hs
  obtain ⟨a, t, e, q⟩ := h s hs
  rw [e]; exact hq a t q

variable {c : Config} (hc : c.wf)
include hc

theorem crcCalc_goesOn (data : List Byte) : Op.GoesOn c (crcCalc data) := (crcCalc_ends hc data).goesOn fun _ _ h => h.1

theorem transceive_goesOn (frame : List Byte) : Op.GoesOn c (transceive frame) := by
  refine .bind ((toCard_ends hc (cmd := .transceive) nofun frame).goesOn fun _ _ h => h.1) fun x => ?_
  obtain ⟨st, rx, bits⟩ := x
  refine .bind (.bind .ofState fun s => ?_) fun _ => .ofPure _
  cases st
  · exact .ofPure ()
  · exact .ofRaise _
  · exact .ofRaise _

theorem transceiveCrc_goesOn (body : List Byte) : Op.GoesOn c (transceiveCrc body) :=
  .bind (crcCalc_goesOn hc body) fun x => by obtain ⟨lo, hi⟩ := x; exact transceive_goesOn hc _

theorem bitframing_goesOn (v : Byte) : Op.GoesOn c (busWrite c.regmap.bitframing v) :=
  (busWrite_cfg hc.1 .bitframing nofun nofun v).goesOn fun _ _ h => h

theorem requestTag_goesOn : Op.GoesOn c requestTag := by
  refine .withCfg (.bind (bitframing_goesOn hc _) fun _ => .bind (transceive_goesOn hc _) fun x => ?_)
  obtain ⟨rx, bits⟩ := x
  simp only
  split
  · exact .ofRaise _
  · exact .bind (.ofSetSeq _) fun _ => .ofPure _

theorem selectLevel_goesOn (lvl : CascadeLevel) : Op.GoesOn c (selectLevel lvl) := by
  refine .bind (.withCfg (.bind (.ofSetSeq _) fun _ => ?_)) fun f => .bind (.withCfg (.bind
    (transceiveCrc_goesOn hc _) fun x => ?_)) fun _ => .ofPure _
  · have rest : Op.GoesOn c (do
        let (rx, _) ← transceive (anticollFrame c lvl)
        match fragmentOf rx with
        | none => Op.raise .protocolError
        | some f =>
          if f.valid then do
            Op.setSeq fun q => q.keepFragment lvl f
            pure f
          else Op.raise .checksumError : Op Fragment) := by
      refine .bind (transceive_goesOn hc _) fun x => ?_
      obtain ⟨rx, bits⟩ := x
      simp only
      split
      · exact .ofRaise _
      · split
        · exact .bind (.ofSetSeq _) fun _ => .ofPure _
        · exact .ofRaise _
    split
    · exact .bind (bitframing_goesOn hc _) fun _ => rest
    · exact rest
  · obtain ⟨rx, bits⟩ := x
    simp only
    split
    · exact .ofPure _
    · exact .ofRaise _

theorem selectTag_goesOn : Op.GoesOn c selectTag := by
  have complete : Op.GoesOn c completeSelect := .bind (.ofSetSeq _) fun _ => .bind .ofState fun _ => .ofPure _
  refine .bind (.ofSetSeq _) fun _ => .bind (selectLevel_goesOn hc .one) fun more => ?_
  split
  · exact complete
  · refine .bind (selectLevel_goesOn hc .two) fun more => ?_
    split
    · exact complete
    · exact .ofRaise _

theorem readBlock_goesOn (page : Byte) : Op.GoesOn c (readBlock page) := by
  refine .withCfg (.bind (transceiveCrc_goesOn hc _) fun x => ?_)
  obtain ⟨rx, bits⟩ := x
  simp only
  split
  · exact .ofRaise _
  · exact .ofPure _

theorem readImage_goesOn : Op.GoesOn c readImage := by
  have block : ∀ b k, Op.GoesOn c (assembleBlock b k) := fun b k =>
    .bind (.ofSetSeq _) fun _ => .bind (readBlock_goesOn hc _) fun _ => .ofSetSeq _
  have blocks : ∀ n b, Op.GoesOn c (assembleBlocks n b) := by
    intro n
    induction n with
    | zero => exact fun b => .ofPure ()
    | succ n ih => exact fun b => .bind (block b _) fun _ => ih (b + 1)
  refine .bind (.ofSetSeq _) fun _ => .bind (blocks _ _) fun _ => ?_
  rw [if_pos (by decide)]
  exact .bind (block _ _) fun _ => .ofSetSeq _

theorem writeBlock_goesOn (page : Byte) (data : List Byte) : Op.GoesOn c (writeBlock page data) := by
  refine .withCfg ?_
  split
  · exact .ofRaise _
  · exact .bind (transceiveCrc_goesOn hc _) fun _ => .ofPure _

end Sys2Proof.Machine
end

