-- ==== Sys2Proof/Laws/View.lean ====
section
/-! SUPPORT. Exact runs over the reference target: what each transaction does to the target and the environment,
while nothing is pending in the target. -/

namespace Sys2Proof.Machine

/-- The configuration, the target, the environment, and what is known of the sequencer's registers. -/
abbrev View (c : Config) (g : Target) (e : Environment) (P : Sequencer → Prop) (s : State) : Prop :=
  s.cfg = c ∧ s.tgt = g ∧ s.env = e ∧ P s.seq

/-- A predicate that does not look at the sequencer's position. -/
abbrev Placeless (P : Sequencer → Prop) : Prop := ∀ q n, P q → P { q with phase := n }

section
variable {c : Config} {g g' : Target} {e e' : Environment} {P : Sequencer → Prop} (hP : Placeless P)
include hP

theorem View.write {a : RegAddr} {v : Byte} (hl : e.level = .referenceTarget)
    (h : ∀ s : State, s.cfg = c → s.tgt = g.tick c → s.env = e →
      targetWrite a v s = .ok () { s with tgt := g', env := e' }) :
    Op.Ensures (View c g e P) (busWrite a v) fun _ => View c g' e' P := by
  rintro s ⟨hc, hg, he, hp⟩
  refine ⟨(), _, busWrite_target (by rw [he]; exact hl) (h s.ticked hc (by simp [hg, hc]) he), hc, rfl, rfl, ?_⟩
  exact hP _ _ hp

theorem View.read {a : RegAddr} {v : Byte} (hl : e.level = .referenceTarget)
    (h : ∀ s : State, s.cfg = c → s.tgt = g.tick c → s.env = e →
      targetRead a s = .ok v { s with tgt := g', env := e' }) :
    Op.Ensures (View c g e P) (busRead a) fun r s => r = v ∧ View c g' e' P s := by
  rintro s ⟨hc, hg, he, hp⟩
  refine ⟨v, _, busRead_target (by rw [he]; exact hl) (h s.ticked hc (by simp [hg, hc]) he), rfl, hc, rfl, rfl, ?_⟩
  exact hP _ _ hp

end

/-! ## Calm transactions -/

section
variable {c : Config} {g : Target} {e : Environment} {P : Sequencer → Prop} (hP : Placeless P)
  (hc : c.regmap.distinct) (hq : g.calm) (hl : e.level = .referenceTarget)
include hP hc hq hl

theorem View.storeReg {n : RegName} (hn : RegName.storesWrite (some n) = true) (v : Byte) :
    Op.Ensures (View c g e P) (busWrite (c.regmap.addr n) v) fun _ => View c (g.setReg (c.regmap.addr n) v) e P :=
  View.write hP hl fun s h1 h2 h3 => by
    rw [targetWrite_storage (by rw [h1, RegMap.nameAt_addr hc]; exact hn), h2, tick_calm hq, ← h3]

theorem View.loadReg {n : RegName} (hn : RegName.storesRead (some n) = true) :
    Op.Ensures (View c g e P) (busRead (c.regmap.addr n))
      fun r s => r = g.reg (c.regmap.addr n) ∧ View c g e P s :=
  View.read hP hl fun s h1 h2 h3 => by
    rw [tick_calm hq] at h2
    rw [targetRead_storage (by rw [h1, RegMap.nameAt_addr hc]; exact hn), ← h2, ← h3]

theorem View.readComirq : Op.Ensures (View c g e P) (busRead c.regmap.comirq)
    fun r s => r = flagByte g.comFlags ∧ View c g e P s :=
  View.read hP hl fun s h1 h2 h3 => by
    rw [tick_calm hq] at h2
    rw [targetRead_comirq (by rw [h1]; exact RegMap.nameAt_addr hc .comirq), ← h2, ← h3]

theorem View.writeComirq (v : Byte) : Op.Ensures (View c g e P) (busWrite c.regmap.comirq v)
    fun _ => View c { g with comFlags := setClearFlags g.comFlags v } e P :=
  View.write hP hl fun s h1 h2 h3 => by
    rw [targetWrite_comirq (by rw [h1]; exact RegMap.nameAt_addr hc .comirq), h2, tick_calm hq, ← h3]

theorem View.readDivirq : Op.Ensures (View c g e P) (busRead c.regmap.divirq)
    fun r s => r = flagByte g.divFlags ∧ View c g e P s :=
  View.read hP hl fun s h1 h2 h3 => by
    rw [tick_calm hq] at h2
    rw [targetRead_divirq (by rw [h1]; exact RegMap.nameAt_addr hc .divirq), ← h2, ← h3]

theorem View.writeDivirq (v : Byte) : Op.Ensures (View c g e P) (busWrite c.regmap.divirq v)
    fun _ => View c { g with divFlags := writeDivFlags c.divirqMode g.divFlags v } e P :=
  View.write hP hl fun s h1 h2 h3 => by
    rw [targetWrite_divirq (by rw [h1]; exact RegMap.nameAt_addr hc .divirq), h2, tick_calm hq, ← h3, h1]

theorem View.readError : Op.Ensures (View c g e P) (busRead c.regmap.error)
    fun r s => r = g.err ∧ View c g e P s :=
  View.read hP hl fun s h1 h2 h3 => by
    rw [tick_calm hq] at h2
    rw [targetRead_error (by rw [h1]; exact RegMap.nameAt_addr hc .error), ← h2, ← h3]

theorem View.readControl : Op.Ensures (View c g e P) (busRead c.regmap.control)
    fun r s => r = g.controlByte c.regmap.control ∧ View c g e P s :=
  View.read hP hl fun s h1 h2 h3 => by
    rw [tick_calm hq] at h2
    rw [targetRead_control (by rw [h1]; exact RegMap.nameAt_addr hc .control), ← h2, ← h3]

theorem View.readLevel : Op.Ensures (View c g e P) (busRead c.regmap.fifolevel)
    fun r s => r = g.level ∧ View c g e P s :=
  View.read hP hl fun s h1 h2 h3 => by
    rw [tick_calm hq] at h2
    rw [targetRead_fifolevel (by rw [h1]; exact RegMap.nameAt_addr hc .fifolevel), ← h2, ← h3]

theorem View.flush (hf : c.masks.flush ≠ 0) : Op.Ensures (View c g e P) (busSetBits c.regmap.fifolevel c.masks.flush)
    fun _ => View c g.flush e P :=
  .bind (View.readLevel hP hc hq hl) fun v => by
    refine .pre (P := View c g e P) (View.write hP hl fun s h1 h2 h3 => ?_) fun s h => h.2
    rw [targetWrite_fifolevel (by rw [h1]; exact RegMap.nameAt_addr hc .fifolevel), h2, tick_calm hq, ← h3, h1,
      if_pos (hasAny_or hf)]

theorem View.readCrc {n : RegName} (hn : n = .crcresultH ∨ n = .crcresultL) (hk : g.crcKnown = true) :
    Op.Ensures (View c g e P) (busRead (c.regmap.addr n)) fun r s => r = crcPart n g.crcRes ∧ View c g e P s :=
  View.read hP hl fun s h1 h2 h3 => by
    rw [tick_calm hq] at h2
    rw [targetRead_crcresult hn (by rw [h1]; exact RegMap.nameAt_addr hc n) (by rw [h2]; exact ⟨hk, hq.1⟩), ← h2, ← h3]

/-- A command other than AUTHENT, CALCCRC and RESETPHASE (R194, R195, R197). -/
theorem View.command (hd : c.codes.distinct) {k : Command} (hk : k = .idle ∨ k = .transceive) :
    Op.Ensures (View c g e P) (busWrite c.regmap.command (c.codes.byte k)) fun _ => View c (g.accept c k) e P :=
  View.write hP hl fun s h1 h2 h3 => by
    rw [targetWrite_command (by rw [h1]; exact RegMap.nameAt_addr hc .command)
      (by rw [h1]; exact CmdCodes.ofByte_byte hd k) (by rcases hk with rfl | rfl <;> nofun), h1, h2, tick_calm hq, ← h3]
    rcases hk with rfl | rfl <;> rfl

end

section
variable {c : Config} {e : Environment} {P : Sequencer → Prop} (hP : Placeless P)
  (hc : c.regmap.distinct) (hl : e.level = .referenceTarget)
include hP hc hl

omit hP hc hl in
theorem View.setLoading (b : Bool) {g : Target} :
    Op.Ensures (View c g e P) (setLoading b) fun _ => View c { g with loadOpen := b } e P := by
  rintro s ⟨h1, h2, h3, h4⟩
  exact ⟨(), _, rfl, h1, by rw [h2], h3, h4⟩

/-- A byte sequence that fits is loaded into the FIFO (R191). -/
theorem View.load (data : List Byte) {g : Target} (hq : g.calm) (ho : g.cmd = c.codes.calccrc → g.loadOpen = true)
    (hf : g.fifo.length + data.length ≤ c.fifoDepth) :
    Op.Ensures (View c g e P) (loadFifo c.regmap.fifodata data) fun _ => View c { g with fifo := g.fifo ++ data } e P := by
  induction data generalizing g with
  | nil => exact fun s h => ⟨(), s, rfl, by simpa using h⟩
  | cons b data ih =>
    simp only [List.length_cons] at hf
    refine .bind (M := fun _ => View c { g with fifo := g.fifo ++ [b] } e P) (View.write hP hl fun s h1 h2 h3 => ?_)
      fun _ => ?_
    · rw [tick_calm hq] at h2
      rw [targetWrite_fifodata (by rw [h1]; exact RegMap.nameAt_addr hc .fifodata) (by rw [h1, h2]; exact ho), h1, h2,
        Target.push, if_pos (by omega), ← h3]
    · refine (ih (g := { g with fifo := g.fifo ++ [b] }) hq ho ?_).imp fun _ s h => ?_
      · simp only [List.length_append, List.length_cons, List.length_nil]; omega
      · simpa using h

/-- `n` bytes are read out of a FIFO that holds them, first byte first (R73, R191). -/
theorem View.unload (n : Nat) {g : Target} (hq : g.calm) (hf : n ≤ g.fifo.length) :
    Op.Ensures (View c g e P) (unloadFifo c.regmap.fifodata n)
      fun r s => r = g.fifo.take n ∧ View c { g with fifo := g.fifo.drop n } e P s := by
  induction n generalizing g with
  | zero => exact fun s h => ⟨[], s, rfl, by simp, by simpa using h⟩
  | succ n ih =>
    cases hg : g.fifo with
    | nil => rw [hg] at hf; simp at hf
    | cons b rest =>
      rw [hg] at hf
      simp only [List.length_cons] at hf
      refine .bind (M := fun r s => r = b ∧ View c { g with fifo := rest } e P s) (View.read hP hl fun s h1 h2 h3 => ?_)
        fun r => ?_
      · rw [tick_calm hq] at h2
        rw [targetRead_fifodata (by rw [h1]; exact RegMap.nameAt_addr hc .fifodata) (by rw [h2]; exact hg), h2, ← h3]
      · refine .bind (M := fun x s => r = b ∧ x = rest.take n ∧ View c { g with fifo := rest.drop n } e P s) ?_ fun x => ?_
        · intro s h
          obtain ⟨x, t, ex, hx⟩ := ih (g := { g with fifo := rest }) hq (by simp only; omega) s h.2
          exact ⟨x, t, ex, h.1, hx⟩
        · exact fun s h => ⟨r :: x, s, rfl, by rw [h.1, h.2.1]; rfl, h.2.2⟩

end

end Sys2Proof.Machine
end

