-- ==== Sys2Proof/Laws/Runs.lean ====
section
/-! SUPPORT. What a CRC computation and an exchange return over the reference target when its events come within
the poll budgets: `crcCalc_run` and `toCard_run` say it once, for the units above. -/

namespace Sys2Proof.Machine

/-- A predicate on the registers that CRC computations and exchanges do not write. -/
structure Stable (P : Sequencer → Prop) : Prop where
  place : Placeless P
  update : ∀ f, ExchangeUpdate f → ∀ q, P q → P (f q)

theorem View.setSeq {c : Config} {g : Target} {e : Environment} {P Q : Sequencer → Prop} {f : Sequencer → Sequencer}
    (h : ∀ q, P q → Q (f q)) : Op.Ensures (View c g e P) (Op.setSeq f) fun _ => View c g e Q :=
  fun _ ⟨h1, h2, h3, h4⟩ => ⟨(), _, rfl, h1, h2, h3, h _ h4⟩

theorem View.cfg {α : Type} {c : Config} {g : Target} {e : Environment} {P : Sequencer → Prop} {f : Config → Op α}
    {Q : α → State → Prop} (h : Op.Ensures (View c g e P) (f c) Q) : Op.Ensures (View c g e P) (Op.cfg >>= f) Q :=
  .withCfg (fun _ h => h.1) h

/-! ## Flag bytes -/

/-- A raised flag reads as set (R164, R165). -/
theorem flagByte_raise (f : BitVec 7) {m : Byte} (h0 : m ≠ 0) (h : m &&& 0x7F = m) :
    (flagByte (raiseFlags f m)).hasAny m = true := by
  have e : flagByte (raiseFlags f m) &&& m = m := by
    ext i hi
    have hm : m[i] = true → i < 7 := by
      intro hb
      by_contra hn
      have : i = 7 := by omega
      subst this
      rw [← h] at hb
      simp at hb
    simp only [flagByte, raiseFlags, BitVec.getElem_and, BitVec.getElem_setWidth, BitVec.getLsbD_or, BitVec.getLsbD_setWidth]
    cases hb : m[i]
    · simp
    · have := hm hb
      simp [this, BitVec.getLsbD_eq_getElem hi, hb]
  simpa [Byte.hasAny, e] using h0

/-- Step 1 of CRC_CALC clears the CRC flag under DIVIRQ_WRITE_MODE = store (R165). -/
theorem clearCrc_store (f : BitVec 7) {m : Byte} :
    (flagByte (writeDivFlags .store f (flagByte f &&& m.compl))).hasAny m = false := by
  have e : flagByte (writeDivFlags .store f (flagByte f &&& m.compl)) &&& m = 0 := by
    have hc : m.compl = ~~~ m := by
      rw [Byte.compl, BitVec.xor_comm]; exact BitVec.xor_allOnes
    rw [hc]
    ext i hi
    simp only [flagByte, writeDivFlags, BitVec.getElem_and, BitVec.getElem_setWidth, BitVec.getLsbD_setWidth,
      BitVec.getLsbD_eq_getElem hi]
    cases hb : m[i] <;> simp [hb]
  simp [Byte.hasAny, e]

/-- Step 2 of TO_CARD clears every flag of COMIRQ (R201). -/
theorem clearCom (f : BitVec 7) : setClearFlags f (flagByte f &&& Byte.compl 0x80) = 0 := by
  revert f; decide +kernel

/-! ## CRC_CALC -/

/-- DIVFLAGS after step 1 of CRC_CALC (R165). -/
def clearedDiv (c : Config) (f : BitVec 7) : BitVec 7 :=
  writeDivFlags c.divirqMode f (flagByte f &&& c.masks.crcIrq.compl)

/-- The target after a CRC computation of `data` that completed. -/
def Target.summed (g : Target) (c : Config) (data : List Byte) : Target :=
  { g.flush.accept c .calccrc with
    fifo := [], loadOpen := false, crcWait := some 0, crcRes := crcFn c.crc data, crcKnown := true,
    divFlags := raiseFlags (clearedDiv c g.divFlags) c.masks.crcIrq }

/-- The CRC poll ends on the completion event when that comes within the budget (R161, R164). -/
theorem pollDivirq_event {c : Config} (hc : c.wf) {e : Environment} (hl : e.level = .referenceTarget)
    {P : Sequencer → Prop} (hP : Stable P) {g : Target} (hr : g.rxPend = none)
    (hd : (flagByte g.divFlags).hasAny c.masks.crcIrq = false) (data : List Byte) (n : Nat) {j : Nat} (hj : j < n) :
    Op.Ensures (View c { g with crcPend := some data, crcWait := some j } e P) (pollDivirq n)
      fun _ => View c ({ g with crcWait := some 0 }.completeCrc c data) e P := by
  induction n generalizing j with
  | zero => omega
  | succ n ih =>
    refine View.cfg ?_
    have hn := RegMap.nameAt_addr hc.1 .divirq
    cases j with
    | zero =>
      refine .bind (M := fun r s => r = flagByte (raiseFlags g.divFlags c.masks.crcIrq) ∧
        View c ({ g with crcWait := some 0 }.completeCrc c data) e P s)
        (View.read hP.place hl fun s h1 h2 h3 => ?_) fun v => ?_
      · have ht : Target.tick { g with crcPend := some data, crcWait := some 0 } c =
            { g with crcWait := some 0 }.completeCrc c data := by
          rw [Target.tick, tickRx_calm (by rw [tickCrc_rxPend]; exact hr)]; rfl
        rw [ht] at h2
        rw [targetRead_divirq (by rw [h1]; exact hn), ← h3, ← h2]
        exact congrArg (fun x => EStateM.Result.ok x s) (by rw [h2]; rfl)
      · intro s ⟨hv, hs⟩
        rw [Op.bind_ok (Op.setSeq_apply _ _), hv, if_pos (flagByte_raise _ hc.2.2.2.1.2.2.2.2.2.1 hc.2.2.2.1.2.2.2.2.2.2.1)]
        exact ⟨(), _, rfl, hs.1, hs.2.1, hs.2.2.1, hP.update _ .polled _ hs.2.2.2⟩
    | succ j =>
      refine .bind (M := fun r s => r = flagByte g.divFlags ∧
        View c { g with crcPend := some data, crcWait := some j } e P s)
        (View.read hP.place hl fun s h1 h2 h3 => ?_) fun v => ?_
      · have ht : Target.tick { g with crcPend := some data, crcWait := some (j + 1) } c =
            { g with crcPend := some data, crcWait := some j } := by
          rw [Target.tick, tickRx_calm (by rw [tickCrc_rxPend]; exact hr)]; rfl
        rw [ht] at h2
        rw [targetRead_divirq (by rw [h1]; exact hn), ← h3, ← h2]
        exact congrArg (fun x => EStateM.Result.ok x s) (by rw [h2])
      · intro s ⟨hv, hs⟩
        rw [Op.bind_ok (Op.setSeq_apply _ _), hv, if_neg (by rw [hd]; nofun)]
        exact ih (by omega) _ ⟨hs.1, hs.2.1, hs.2.2.1, hP.update _ .polled _ hs.2.2.2⟩

/-- The target after CALCCRC has been started with a drawn delay (R163, R164). -/
def Target.crcArmed (g : Target) (c : Config) (d : Delay) : Target :=
  { g.accept c .calccrc with crcPend := some g.fifo, fifo := [], crcWait := d }

theorem View.calccrc {c : Config} (hc : c.wf) {g : Target} (hq : g.calm) {e : Environment}
    (hl : e.level = .referenceTarget) {P : Sequencer → Prop} (hP : Placeless P) :
    Op.Ensures (View c g e P) (busWrite c.regmap.command (c.codes.byte .calccrc)) fun _ =>
      View c (g.crcArmed c (e.delayValue fun crcDelay _ => crcDelay)) e.afterDelay P :=
  View.write hP hl fun s h1 h2 h3 => by
    rw [targetWrite_command (k := .calccrc) (by rw [h1]; exact RegMap.nameAt_addr hc.1 .command)
      (by rw [h1]; exact CmdCodes.ofByte_byte hc.2.1 .calccrc) nofun, h1, h2, tick_calm hq, ← h3]
    rfl

/-- The target once the operand of CRC_CALC is loaded. -/
def Target.crcLoaded (g : Target) (c : Config) (data : List Byte) : Target :=
  { g.flush with divFlags := clearedDiv c g.divFlags, fifo := data, loadOpen := false }

/-- Steps 1 to 3 of CRC_CALC (R160). -/
theorem crcLoad_run {c : Config} (hc : c.wf) {g : Target} (hq : g.calm) {e : Environment}
    (hl : e.level = .referenceTarget) {P : Sequencer → Prop} (hP : Placeless P) {data : List Byte}
    (hf : data.length ≤ c.fifoDepth) {α : Type} {k : Op α} {Q : α → State → Prop}
    (hk : Op.Ensures (View c (g.crcLoaded c data) e P) k Q) : Op.Ensures (View c g e P) (do
      busClearBits c.regmap.divirq c.masks.crcIrq
      busSetBits c.regmap.fifolevel c.masks.flush
      loadOperand c.regmap.fifodata data
      k) Q := by
  refine .bind (M := fun _ => View c { g with divFlags := clearedDiv c g.divFlags } e P)
    (.bind (View.readDivirq hP hc.1 hq hl) fun v => fun s h => ?_) fun _ => ?_
  · rw [h.1]; exact View.writeDivirq hP hc.1 hq hl _ s h.2
  refine .bind (View.flush hP hc.1 (g := { g with divFlags := clearedDiv c g.divFlags }) hq hl hc.2.2.2.1.1)
    fun _ => ?_
  refine .bind (M := fun _ => View c (g.crcLoaded c data) e P) ?_ fun _ => hk
  refine .bind (View.setLoading true) fun _ => .bind (View.load hP hc.1 hl data (g := { Target.flush
    { g with divFlags := clearedDiv c g.divFlags } with loadOpen := true }) hq (fun _ => rfl) (by simpa using hf)) fun _ =>
    (View.setLoading false).imp fun _ s h => ?_
  simpa only [Target.flush, Target.crcLoaded, List.nil_append] using h

/-- Steps 6 and 7 of CRC_CALC, after a completion event (R169, R76). -/
theorem crcRead_run {c : Config} (hc : c.wf) {g : Target} (hq : g.calm) (hk : g.crcKnown = true) {e : Environment}
    (hl : e.level = .referenceTarget) {P : Sequencer → Prop} (hP : Stable P) :
    Op.Ensures (View c g e P) (do
      let lo ← busRead c.regmap.crcresultL
      let hi ← busRead c.regmap.crcresultH
      Op.setSeq fun q => { q with crcLo := lo, crcHi := hi }
      pure (lo, hi) : Op (Byte × Byte))
      fun r s => r = (crcLow g.crcRes, crcHigh g.crcRes) ∧ View c g e P s := by
  refine .bind (View.readCrc (n := .crcresultL) hP.place hc.1 hq hl (.inr rfl) hk) fun lo => ?_
  refine .bind (M := fun hi s => (lo = crcLow g.crcRes ∧ hi = crcHigh g.crcRes) ∧ View c g e P s)
    (fun s h => ?_) fun hi => fun s h => ?_
  · obtain ⟨v, t, ev, hv, ht⟩ := View.readCrc (n := .crcresultH) hP.place hc.1 hq hl (.inl rfl) hk s h.2
    exact ⟨v, t, ev, ⟨h.1, hv⟩, ht⟩
  · exact ⟨(lo, hi), _, rfl, by rw [h.1.1, h.1.2], h.2.1, h.2.2.1, h.2.2.2.1, hP.update _ (.crc lo hi) _ h.2.2.2.2⟩

/-- CRC_CALC returns the CRC of its operand, low byte first, when the FIFO holds it, the flag is clear before the
poll, and the completion event comes within POLL_CRC reads (R160, R163, R164, R76). -/
theorem crcCalc_run {c : Config} (hc : c.wf) {g : Target} (hq : g.calm) {e : Environment}
    (hl : e.level = .referenceTarget) {P : Sequencer → Prop} (hP : Stable P) {data : List Byte}
    (hf : data.length ≤ c.fifoDepth) (hd : (flagByte (clearedDiv c g.divFlags)).hasAny c.masks.crcIrq = false)
    {j : Nat} (hj : e.delayValue (fun crcDelay _ => crcDelay) = some j) (hn : j < c.pollCrc) :
    Op.Ensures (View c g e P) (crcCalc data) fun r s =>
      r = (crcLow (crcFn c.crc data), crcHigh (crcFn c.crc data)) ∧ View c (g.summed c data) e.afterDelay P s := by
  refine View.cfg (crcLoad_run hc hq hl hP.place hf ?_)
  refine .bind (View.calccrc hc (g := g.crcLoaded c data) hq hl hP.place) fun _ => ?_
  refine .bind (View.setSeq fun q h => hP.update _ .pollZero q h) fun _ => ?_
  rw [hj]
  refine .bind (pollDivirq_event hc (by simpa using hl) hP (g := ((g.crcLoaded c data).crcArmed c (some j))) rfl hd data
    _ hn) fun _ => ?_
  exact crcRead_run hc (g := g.summed c data) ⟨rfl, rfl⟩ rfl (by simpa using hl) hP

end Sys2Proof.Machine
end

