-- ==== Sys2Proof/Laws/Exchanges.lean ====
section
/-! SUPPORT. What an exchange returns over the reference target, for each answer of the card (R180, R291), when the
answer's event comes within the poll budget: `toCard_response`, `toCard_timeout`, `toCard_unanswered`. -/

namespace Sys2Proof.Machine

/-! ## The stages of an exchange -/

/-- The target after steps 1 to 6 of TO_CARD for a transceive of `tx` (R182, R183). -/
def Target.armed (g : Target) (c : Config) (tx : List Byte) : Target :=
  { ({ g.setReg c.regmap.comien (irqenXcv ||| c.masks.ienInv) with comFlags := 0 }.flush.accept c .idle) with
    fifo := tx }.accept c .transceive

/-- The target after step 7: it has transmitted, and the answer is pending (R202). -/
def Target.sending (g : Target) (c : Config) (tx : List Byte) (o : CardOutcome) (d : Delay) : Target :=
  { (g.armed c tx).setReg c.regmap.bitframing (g.reg c.regmap.bitframing ||| c.masks.startSend) with
    fifo := [], sent := true, comFlags := raiseFlags 0 comTransmitted, rxPend := some o, rxWait := d }

/-- Two different registers do not share storage (R31: "No aliasing"). -/
theorem named_reg_setReg {m : RegMap} (hm : m.distinct) (g : Target) {n k : RegName} (h : n ≠ k) (v : Byte) :
    (g.setReg (m.addr k) v).reg (m.addr n) = g.reg (m.addr n) := by
  rw [reg_setReg, if_neg fun e => h ((RegMap.addr_inj hm).1 e).symm]

theorem reg_setReg_self (g : Target) (a : RegAddr) (v : Byte) : (g.setReg a v).reg a = v := by
  rw [reg_setReg, if_pos rfl]

@[simp] theorem reg_flush (g : Target) (a : RegAddr) : g.flush.reg a = g.reg a := rfl

theorem armed_bitframing {c : Config} (hc : c.wf) (g : Target) (tx : List Byte) :
    (g.armed c tx).reg c.regmap.bitframing = g.reg c.regmap.bitframing := by
  have h1 := named_reg_setReg hc.1 (n := .bitframing) (k := .command) (h := by decide)
  have h2 := named_reg_setReg hc.1 (n := .bitframing) (k := .comien) (h := by decide)
  simp only [RegMap.addr] at h1 h2
  exact (h1 _ _).trans ((h1 _ _).trans (h2 g _))

/-- What of the sequencer an exchange of a transceive relies on, beside a stable predicate. -/
abbrev Arming (P : Sequencer → Prop) (q : Sequencer) : Prop :=
  P q ∧ q.irqen = irqenXcv ∧ q.waitirq = waitXcv ∧ q.errkind = .none ∧ q.rxbuf = [] ∧ q.rxbits = 0

theorem Stable.arming {P : Sequencer → Prop} (hP : Stable P) : Placeless (Arming P) :=
  fun q n h => ⟨hP.place q n h.1, h.2⟩

/-- Steps 0 to 6 of TO_CARD for a transceive. -/
theorem armExchange_run {c : Config} (hc : c.wf) (hm : c.masks = .default) {g : Target} (hq : g.calm)
    {e : Environment} (hl : e.level = .referenceTarget) {P : Sequencer → Prop} (hP : Stable P) {tx : List Byte}
    (hf : tx.length ≤ c.fifoDepth) {α : Type} {k : Op α} {Q : α → State → Prop}
    (hk : Op.Ensures (View c (g.armed c tx) e (Arming P)) k Q) : Op.Ensures (View c g e P) (do
      armExchange .transceive
      loadExchange .transceive tx
      k) Q := by
  have hA := hP.arming
  refine .bind (View.setSeq (Q := Arming P) fun q h => ⟨hP.update _ (.arm .transceive) q h, rfl, rfl, rfl, rfl, rfl⟩)
    fun _ => ?_
  refine .bind (M := fun _ => View c (g.armed c tx) e (Arming P)) (View.cfg ?_) fun _ => hk
  refine .bind (View.storeReg hA hc.1 hq hl (n := .comien) rfl _) fun _ => ?_
  let g1 := g.setReg c.regmap.comien (irqenXcv ||| c.masks.ienInv)
  have q1 : g1.calm := hq
  refine .bind (M := fun _ => View c { g1 with comFlags := 0 } e (Arming P)) (.bind
    (View.readComirq hA hc.1 q1 hl) fun v => fun s h => ?_) fun _ => ?_
  · rw [h.1]
    obtain ⟨u, t, ht, hv⟩ := View.writeComirq hA hc.1 q1 hl (flagByte g1.comFlags &&& c.masks.irqSet1.compl) s h.2
    refine ⟨u, t, ht, hv.1, ?_, hv.2.2⟩
    rw [hv.2.1, hm]
    exact congrArg (fun f => { g1 with comFlags := f }) (clearCom g1.comFlags)
  let g2 : Target := { g1 with comFlags := 0 }
  refine .bind (View.flush hA hc.1 (g := g2) q1 hl hc.2.2.2.1.1) fun _ => ?_
  refine .bind (View.command hA hc.1 (g := g2.flush) q1 hl hc.2.1 (.inl rfl)) fun _ => ?_
  have ne : c.codes.idle ≠ c.codes.calccrc := fun e => by
    have := (CmdCodes.code_inj hc.2.1 (c := .idle) (d := .calccrc)).1 e
    cases this
  refine .bind (View.load hA hc.1 hl tx (g := g2.flush.accept c .idle) ⟨rfl, rfl⟩ (fun e => absurd e ne)
    (by simpa [Target.accept, Target.flush, Target.setReg] using hf)) fun _ => ?_
  have e1 : ({ g2.flush.accept c .idle with fifo := (g2.flush.accept c .idle).fifo ++ tx } : Target).accept c
      .transceive = g.armed c tx := rfl
  rw [← e1]
  exact View.command hA hc.1 (g := { g2.flush.accept c .idle with fifo := (g2.flush.accept c .idle).fifo ++ tx })
    ⟨rfl, rfl⟩ hl hc.2.1 (.inr rfl)

/-- Step 7 of TO_CARD: the frame goes to the card port with the bits BITFRAMING names, and the answer is pending
(R183, R202). -/
theorem send_run {c : Config} (hc : c.wf) (hm : c.masks = .default) {g : Target} {e : Environment}
    (hl : e.level = .referenceTarget) {P : Sequencer → Prop} (hP : Placeless P) (tx : List Byte) :
    Op.Ensures (View c (g.armed c tx) e P) (startSend .transceive) fun _ =>
      View c (g.sending c tx (e.exchange tx ((g.reg c.regmap.bitframing).extractLsb' 0 3)).1
        ((e.exchange tx ((g.reg c.regmap.bitframing).extractLsb' 0 3)).2.delayValue fun _ rxDelay => rxDelay))
        (e.exchange tx ((g.reg c.regmap.bitframing).extractLsb' 0 3)).2.afterDelay P := by
  have hq : (g.armed c tx).calm := ⟨rfl, rfl⟩
  refine View.cfg ?_
  rw [if_pos rfl]
  refine .bind (View.loadReg hP hc.1 hq hl (n := .bitframing) rfl) fun v => ?_
  intro s ⟨hv, hs⟩
  subst hv
  revert hs; revert s
  simp only [RegMap.addr]
  rw [armed_bitframing hc]
  refine View.write hP hl fun s h1 h2 h3 => ?_
  rw [tick_calm hq] at h2
  have hb : ((g.reg c.regmap.bitframing ||| c.masks.startSend).extractLsb' 0 3 : BitVec 3) =
      (g.reg c.regmap.bitframing).extractLsb' 0 3 := by
    rw [hm]; simp only [Masks.default]
    ext i hi
    simp only [BitVec.getElem_extractLsb', BitVec.getLsbD_or]
    have : i = 0 ∨ i = 1 ∨ i = 2 := by omega
    rcases this with rfl | rfl | rfl <;> simp
  rw [targetWrite_bitframing_send (by rw [h1]; exact RegMap.nameAt_addr hc.1 .bitframing)
    ⟨by rw [h1]; exact hasAny_or hc.2.2.2.1.2.1, by rw [h1, h2]; rfl, by rw [h2]; rfl⟩, hb, h1, h2, State.transmitted]
  simp only [h3]
  rfl

/-! ## The poll -/

/-- The target once the card's answer has been delivered (R203 to R205). -/
def Target.answered (g : Target) (c : Config) : CardOutcome → Target
  | .response r lb e => g.receive c r lb e
  | .timeout => g.expire c
  | .silent => g

theorem tick_due {g : Target} {c : Config} (hq : g.crcPend = none) {o : CardOutcome} (ho : o ≠ .silent) :
    Target.tick { g with rxPend := some o, rxWait := some 0 } c =
      Target.answered { g with rxPend := some o, rxWait := some 0 } c o := by
  rw [Target.tick, tickCrc_calm (t := { g with rxPend := some o, rxWait := some 0 }) hq]
  cases o with
  | silent => exact absurd rfl ho
  | response r lb e => rfl
  | timeout => rfl

theorem tick_later {g : Target} {c : Config} (hq : g.crcPend = none) {o : CardOutcome} (ho : o ≠ .silent) (j : Nat) :
    Target.tick { g with rxPend := some o, rxWait := some (j + 1) } c =
      { g with rxPend := some o, rxWait := some j } := by
  rw [Target.tick, tickCrc_calm (t := { g with rxPend := some o, rxWait := some (j + 1) }) hq]
  cases o with
  | silent => exact absurd rfl ho
  | response r lb e => rfl
  | timeout => rfl

theorem tick_never {g : Target} {c : Config} (hq : g.crcPend = none) {o : CardOutcome} {d : Delay}
    (h : o = .silent ∨ d = none) :
    Target.tick { g with rxPend := some o, rxWait := d } c = { g with rxPend := some o, rxWait := d } := by
  rw [Target.tick, tickCrc_calm (t := { g with rxPend := some o, rxWait := d }) hq]
  rcases h with rfl | rfl
  · rfl
  · cases o <;> rfl

/-- One read of COMIRQ in the poll, and the register update after it. -/
theorem pollComirq_read {c : Config} (hc : c.wf) {e : Environment} (hl : e.level = .referenceTarget)
    {P : Sequencer → Prop} (hP : Stable P) {g g' : Target} (ht : g.tick c = g') (n : Nat)
    {Q : Bool → State → Prop}
    (hk : Op.Ensures (View c g' e fun q => Arming P q ∧ q.irqval = flagByte g'.comFlags)
      (if pollSeen c.masks waitXcv (flagByte g'.comFlags) then pure true else pollComirq n) Q) :
    Op.Ensures (View c g e (Arming P)) (pollComirq (n + 1)) Q := by
  intro s hs
  rw [pollComirq, Op.bind_ok (Op.state_apply s)]
  have hn := RegMap.nameAt_addr hc.1 .comirq
  obtain ⟨v, t, ev, rfl, ht'⟩ := View.read (P := Arming P) (g' := g') (e' := e) (a := c.regmap.comirq)
    (v := flagByte g'.comFlags) hP.arming hl (fun s h1 h2 h3 => by
      rw [ht] at h2
      rw [targetRead_comirq (by rw [h1]; exact hn), h2, ← h3, ← h2]) s hs
  rw [hs.1, Op.bind_ok ev, Op.bind_ok (Op.setSeq_apply _ _), hs.2.2.2.2.2.1]
  exact hk _ ⟨ht'.1, ht'.2.1, ht'.2.2.1, ⟨hP.update _ (.seen _) _ ht'.2.2.2.1, ht'.2.2.2.2⟩, rfl⟩

/-- The poll ends on the answer's event when that comes within the budget (R184). -/
theorem pollComirq_event {c : Config} (hc : c.wf) {e : Environment} (hl : e.level = .referenceTarget)
    {P : Sequencer → Prop} (hP : Stable P) {g : Target} (hq : g.crcPend = none) {o : CardOutcome} (ho : o ≠ .silent)
    (h0 : pollSeen c.masks waitXcv (flagByte g.comFlags) = false)
    (h1 : pollSeen c.masks waitXcv (flagByte (g.answered c o).comFlags) = true) (n : Nat) {j : Nat} (hj : j < n) :
    Op.Ensures (View c { g with rxPend := some o, rxWait := some j } e (Arming P)) (pollComirq n) fun r s => r = true ∧
      View c (Target.answered { g with rxPend := some o, rxWait := some 0 } c o) e (fun q => Arming P q ∧
        q.irqval = flagByte (g.answered c o).comFlags) s := by
  have hcom : (Target.answered { g with rxPend := some o, rxWait := some 0 } c o).comFlags =
      (g.answered c o).comFlags := by
    cases o with
    | silent => rfl
    | response r lb er => rfl
    | timeout => rfl
  induction n generalizing j with
  | zero => omega
  | succ n ih =>
    cases j with
    | zero =>
      refine pollComirq_read hc hl hP (tick_due hq ho) n ?_
      rw [hcom, if_pos h1]
      exact fun s hs => ⟨true, s, rfl, rfl, hs⟩
    | succ j =>
      refine pollComirq_read hc hl hP (tick_later hq ho j) n ?_
      rw [if_neg (by simpa using h0)]
      exact (ih (j := j) (by omega)).pre fun s hs => ⟨hs.1, hs.2.1, hs.2.2.1, hs.2.2.2.1⟩

/-- The poll runs out when no event comes (R185). -/
theorem pollComirq_never {c : Config} (hc : c.wf) {e : Environment} (hl : e.level = .referenceTarget)
    {P : Sequencer → Prop} (hP : Stable P) {g : Target} (hq : g.crcPend = none) {o : CardOutcome} {d : Delay}
    (h : o = .silent ∨ d = none) (h0 : pollSeen c.masks waitXcv (flagByte g.comFlags) = false) (n : Nat) :
    Op.Ensures (View c { g with rxPend := some o, rxWait := d } e (Arming P)) (pollComirq n) fun r s => r = false ∧
      View c { g with rxPend := some o, rxWait := d } e (Arming P) s := by
  induction n with
  | zero => exact fun s hs => ⟨false, s, rfl, rfl, hs⟩
  | succ n ih =>
    refine pollComirq_read hc hl hP (tick_never hq h) n ?_
    rw [if_neg (by simpa using h0)]
    exact ih.pre fun s hs => ⟨hs.1, hs.2.1, hs.2.2.1, hs.2.2.2.1⟩

/-! ## After the poll -/

/-- BITFRAMING is plain storage for a value without START_SEND (R202). -/
theorem View.storeBitframing {c : Config} (hc : c.regmap.distinct) {g : Target} {e : Environment}
    {P : Sequencer → Prop} (hP : Placeless P) (ht : g.tick c = g) (hl : e.level = .referenceTarget) {v : Byte}
    (hv : v.hasAny c.masks.startSend = false) :
    Op.Ensures (View c g e P) (busWrite c.regmap.bitframing v) fun _ =>
      View c (g.setReg c.regmap.bitframing v) e P :=
  View.write hP hl fun s h1 h2 h3 => by
    rw [ht] at h2
    rw [targetWrite_bitframing_idle (by rw [h1]; exact RegMap.nameAt_addr hc .bitframing)
      (by rw [h1, hv]; exact fun h => nomatch h.1), h1, h2, ← h3]

/-- A mask just cleared is clear. -/
theorem hasAny_and_compl (v m : Byte) : (v &&& m.compl).hasAny m = false := by
  have e : v &&& m.compl &&& m = 0 := by
    have hc : m.compl = ~~~ m := by
      rw [Byte.compl, BitVec.xor_comm]; exact BitVec.xor_allOnes
    rw [hc]
    ext i hi
    cases hb : m[i] <;> simp [hb]
  simp [Byte.hasAny, e]

/-- Step 9 of TO_CARD (R185). -/
theorem stopSend_run {c : Config} (hc : c.wf) {g : Target} {e : Environment} {P : Sequencer → Prop}
    (hP : Placeless P) (ht : g.tick c = g) (hl : e.level = .referenceTarget) :
    Op.Ensures (View c g e P) (busClearBits c.regmap.bitframing c.masks.startSend) fun _ =>
      View c (g.setReg c.regmap.bitframing (g.reg c.regmap.bitframing &&& c.masks.startSend.compl)) e P := by
  refine .bind (M := fun r s => r = g.reg c.regmap.bitframing ∧ View c g e P s) (View.read hP hl fun s h1 h2 h3 => ?_)
    fun v s h => ?_
  · rw [ht] at h2
    rw [targetRead_storage (by
        rw [h1, show c.regmap.nameAt c.regmap.bitframing = some .bitframing from RegMap.nameAt_addr hc.1 .bitframing]
        rfl), ← h2, ← h3]
  · rw [h.1]
    exact View.storeBitframing hc.1 hP ht hl (hasAny_and_compl _ _) s h.2

/-- What `n` reads of FIFODATA return of a FIFO that holds `r`, where `n` is the clamped count (R189, R192): the
first sixteen bytes, or one draw when there are none. -/
def Environment.drained (e : Environment) (r : List Byte) : List Byte :=
  if r = [] then [e.byteValue 0x00] else r.take maxRx

/-- The environment after the read-out. -/
def Environment.afterDrain (e : Environment) (r : List Byte) : Environment :=
  if r = [] then e.afterBytes 1 else e

theorem level_toNat {g : Target} {c : Config} (hc : c.wf) (h : g.fifo.length ≤ c.fifoDepth) :
    g.level.toNat = g.fifo.length := by
  have := hc.2.2.2.2.2.2.2.1
  rw [Target.level, BitVec.toNat_ofNat]
  omega

/-- The read-out of step 13 (R189). -/
theorem drain_run {c : Config} (hc : c.wf) {g : Target} (hq : g.calm) {e : Environment}
    (hl : e.level = .referenceTarget) {P : Sequencer → Prop} (hP : Placeless P) (hf : g.fifo.length ≤ c.fifoDepth) :
    Op.Ensures (View c g e P) (unloadFifo c.regmap.fifodata (readCount g.level)) fun rx s =>
      rx = e.drained g.fifo ∧ View c { g with fifo := g.fifo.drop maxRx } (e.afterDrain g.fifo) P s := by
  have hn : readCount g.level = min (max g.fifo.length 1) maxRx := by rw [readCount, level_toNat hc hf]
  cases hg : g.fifo with
  | nil =>
    have h1 : readCount g.level = 1 := by rw [hn, hg]; rfl
    rw [h1]
    refine .bind (M := fun r s => r = e.byteValue 0x00 ∧ View c g (e.afterBytes 1) P s)
      (View.read hP hl fun s h1 h2 h3 => ?_) fun v s h => ?_
    · rw [tick_calm hq] at h2
      rw [targetRead_fifodata_empty (by rw [h1]; exact RegMap.nameAt_addr hc.1 .fifodata) (by rw [h2]; exact hg), ← h2,
        ← h3]
    · refine ⟨[v], s, rfl, ?_, ?_⟩
      · rw [h.1]; rfl
      · have : ({ g with fifo := List.drop maxRx [] } : Target) = g := by
          rw [List.drop_nil, ← hg]
        rw [this]; exact h.2
  | cons b rest =>
    have hle : readCount g.level ≤ g.fifo.length := by
      rw [hn, hg]; simp only [List.length_cons]; omega
    refine (View.unload hP hc.1 hl (readCount g.level) hq hle).imp fun rx s h => ?_
    have h16 : (readCount g.level = maxRx) ∨ (g.fifo.length ≤ maxRx ∧ readCount g.level = g.fifo.length) := by
      rw [hn, hg]; simp only [List.length_cons]; omega
    have ht : g.fifo.take (readCount g.level) = g.fifo.take maxRx := by
      rcases h16 with h | ⟨h, h'⟩
      · rw [h]
      · rw [h', List.take_length, List.take_of_length_le h]
    have hd : g.fifo.drop (readCount g.level) = g.fifo.drop maxRx := by
      rcases h16 with h | ⟨h, h'⟩
      · rw [h]
      · rw [h', List.drop_length, List.drop_of_length_le h]
    rw [ht, hd] at h
    rw [hg] at h
    exact ⟨by rw [h.1, Environment.drained, if_neg nofun], by
      rw [Environment.afterDrain, if_neg nofun]; exact h.2⟩

/-! ## The whole exchange -/

/-- A state ready for an exchange over the reference target: nothing pending, BITFRAMING's count is `b`. -/
abbrev Ready (c : Config) (b : BitVec 3) (e : Environment) (P : Sequencer → Prop) (s : State) : Prop :=
  s.cfg = c ∧ s.tgt.calm ∧ (s.tgt.reg c.regmap.bitframing).extractLsb' 0 3 = b ∧ s.env = e ∧ P s.seq

/-- ERROR when a response with error bits `er` is read after the flush of step 3 (R193, R203). -/
def receivedError (er : Byte) (tooLong : Bool) : Byte := er ||| if tooLong then errOverflow else 0

theorem Op.Ensures.ofReady {α : Type} {c : Config} {b : BitVec 3} {e : Environment} {P : Sequencer → Prop} {m : Op α}
    {Q : α → State → Prop} (h : ∀ g : Target, g.calm → (g.reg c.regmap.bitframing).extractLsb' 0 3 = b →
      Op.Ensures (View c g e P) m Q) : Op.Ensures (Ready c b e P) m Q :=
  fun s hs => h s.tgt hs.2.1 hs.2.2.1 s ⟨hs.1, rfl, hs.2.2.2⟩

theorem errAfterReception_flushed (err er : Byte) (long : Bool) :
    errAfterReception (errAfterFlush err) er long = receivedError er long := by
  have : errAfterFlush err &&& errOverflow = 0 := by
    have h := hasAny_and_compl err errOverflow
    simpa [Byte.hasAny, errAfterFlush] using h
  rw [errAfterReception, this, receivedError]
  simp

theorem errorFails_flush {v : Byte} (h : errorFails v = false) : errorFails (errAfterFlush v) = false := by
  have h' : v &&& errMask = 0 := by simpa [errorFails, Byte.hasAny] using h
  have : errAfterFlush v &&& errMask = 0 := by
    rw [errAfterFlush, BitVec.and_assoc, BitVec.and_comm _ errMask, ← BitVec.and_assoc, h']
    exact BitVec.zero_and
  simp [errorFails, Byte.hasAny, this]

/-- The flags the poll sees when the answer comes (R184, R203, R204). -/
theorem answered_seen {c : Config} (hm : c.masks = .default) {g : Target} (hg : g.comFlags = raiseFlags 0 comTransmitted)
    {o : CardOutcome} (ho : o ≠ .silent) :
    pollSeen c.masks waitXcv (flagByte (g.answered c o).comFlags) = true ∧
      noTagSeen c.masks (flagByte (g.answered c o).comFlags) irqenXcv = decide (o = .timeout) := by
  rw [hm]
  cases o with
  | silent => exact absurd rfl ho
  | timeout =>
    simp only [Target.answered, Target.expire, hg, hm]
    decide
  | response r lb er =>
    simp only [Target.answered, Target.receive, hg]
    rw [decide_eq_false nofun]
    split <;> decide

theorem sending_unseen {c : Config} (hm : c.masks = .default) {g : Target}
    (hg : g.comFlags = raiseFlags 0 comTransmitted) : pollSeen c.masks waitXcv (flagByte g.comFlags) = false := by
  rw [hm, hg]; decide

/-- A mask set and cleared is clear, and nothing else changes. -/
theorem or_and_compl (v m : Byte) : (v ||| m) &&& m.compl = v &&& m.compl := by
  ext i hi
  rw [Byte.compl, show (0xFF : Byte) = BitVec.allOnes 8 from rfl]
  simp only [BitVec.getElem_and, BitVec.getElem_or, BitVec.getElem_xor, BitVec.getElem_allOnes]
  cases v[i] <;> cases m[i] <;> rfl

/-- BITFRAMING's count after the start-send bit has been set and cleared. -/
theorem count_kept {c : Config} (hm : c.masks = .default) (v : Byte) :
    ((v ||| c.masks.startSend) &&& c.masks.startSend.compl).extractLsb' 0 3 = (v.extractLsb' 0 3 : BitVec 3) := by
  rw [hm]; simp only [Masks.default]
  ext i hi
  simp only [BitVec.getElem_extractLsb', BitVec.getLsbD_or, BitVec.getLsbD_and, Byte.compl, BitVec.getLsbD_xor]
  have : i = 0 ∨ i = 1 ∨ i = 2 := by omega
  rcases this with rfl | rfl | rfl <;> simp

/-- An exchange up to the end of step 9, when the answer comes within the budget: what is left is the error check and
the read-out, on a target that holds the answer. -/
theorem toCard_answer {c : Config} (hc : c.wf) (hm : c.masks = .default) {b : BitVec 3} {e e1 : Environment}
    {gs : Target} (hq : gs.calm) (hb : (gs.reg c.regmap.bitframing).extractLsb' 0 3 = b)
    (hl : e.level = .referenceTarget) {P : Sequencer → Prop} (hP : Stable P) {tx : List Byte} (hf : tx.length ≤ c.fifoDepth) {o : CardOutcome} (ho : o ≠ .silent) (he : e.exchange tx b = (o, e1)) {j : Nat}
    (hj : (e1.delayValue fun _ rxDelay => rxDelay) = some j) (hn : j < c.pollCmd)
    {Q : Status × List Byte × Int → State → Prop}
    (hk : ∀ g : Target, g.calm → (g.reg c.regmap.bitframing).extractLsb' 0 3 = b →
      g.reg c.regmap.bitframing = gs.reg c.regmap.bitframing &&& c.masks.startSend.compl →
      (∀ r lb er, o = .response r lb er → g.fifo = r.take c.fifoDepth ∧ g.rxLast = lb ∧
        g.err = receivedError er (c.fifoDepth < r.length)) →
      (o = .timeout → g.fifo = [] ∧ g.err = errAfterFlush gs.err ∧ g.rxLast = gs.rxLast) →
      Op.Ensures (View c g e1.afterDelay fun q => Arming P q ∧ noTagSeen c.masks q.irqval irqenXcv = decide (o = .timeout))
        (do
          let x ← busRead c.regmap.error
          if errorFails x then failExchange .protocolError else completeExchange .transceive) Q) :
    Op.Ensures (View c gs e P) (toCard .transceive tx) Q := by
  have he' : e.exchange tx ((gs.reg c.regmap.bitframing).extractLsb' 0 3) = (o, e1) := by rw [hb]; exact he
  have hl1 : e1.afterDelay.level = .referenceTarget := by
    have := (exchange_sources e tx b).1
    rw [he] at this
    exact this.trans hl
  refine View.cfg (armExchange_run hc hm (g := gs) hq hl hP hf ?_)
  refine .bind (send_run hc hm hl hP.arming tx) fun _ => ?_
  rw [he']
  refine .bind (View.setSeq (Q := Arming P) fun q h => ⟨hP.update _ .begin q h.1, h.2⟩) fun _ => ?_
  rw [hj]
  let g0 := gs.sending c tx o (some j)
  have hcom : g0.comFlags = raiseFlags 0 comTransmitted := rfl
  have key := pollComirq_event hc hl1 hP (g := g0) rfl ho (sending_unseen hm hcom) (answered_seen hm hcom ho).1 c.pollCmd hn
  refine .bind (M := fun r s => r = true ∧ View c (Target.answered { g0 with rxPend := some o, rxWait := some 0 } c o)
    e1.afterDelay (fun q => Arming P q ∧ q.irqval = flagByte (g0.answered c o).comFlags) s) key fun seen => ?_
  let g1 := Target.answered { g0 with rxPend := some o, rxWait := some 0 } c o
  have q1 : g1.calm := by
    cases o with
    | silent => exact absurd rfl ho
    | response r lb er => exact ⟨rfl, rfl⟩
    | timeout => exact ⟨rfl, rfl⟩
  have r1 : g1.reg c.regmap.bitframing = gs.reg c.regmap.bitframing ||| c.masks.startSend := by
    have h : g1.reg c.regmap.bitframing = g0.reg c.regmap.bitframing := by cases o <;> rfl
    exact h.trans (reg_setReg_self _ _ _)
  have hP1 : Placeless fun q => Arming P q ∧ q.irqval = flagByte (g0.answered c o).comFlags :=
    fun q n h => ⟨hP.arming q n h.1, h.2⟩
  refine .bind (M := fun _ s' => seen = true ∧ View c (g1.setReg c.regmap.bitframing
    (g1.reg c.regmap.bitframing &&& c.masks.startSend.compl)) e1.afterDelay
    (fun q => Arming P q ∧ q.irqval = flagByte (g0.answered c o).comFlags) s') (fun s' h => ?_) fun _ => ?_
  · obtain ⟨u, t, et, ht⟩ := stopSend_run hc hP1 (tick_calm q1 c) hl1 s' h.2
    exact ⟨u, t, et, h.1, ht⟩
  intro s' ⟨hseen, hs'⟩
  subst hseen
  rw [if_neg nofun]
  refine hk (g1.setReg c.regmap.bitframing (g1.reg c.regmap.bitframing &&& c.masks.startSend.compl)) q1 ?_ ?_ ?_ ?_ s' ⟨hs'.1, hs'.2.1, hs'.2.2.1, hs'.2.2.2.1, ?_⟩
  · rw [reg_setReg_self, r1, count_kept hm, hb]
  · rw [reg_setReg_self, r1, or_and_compl]
  · intro r lb er h
    subst h
    exact ⟨rfl, rfl, errAfterReception_flushed gs.err er _⟩
  · intro h
    subst h
    exact ⟨rfl, rfl, rfl⟩
  · rw [hs'.2.2.2.2]; exact (answered_seen hm hcom ho).2

/-- The last-byte count the executor reads, with the default register and mask (R40, R188). -/
theorem controlByte_masked (g : Target) (a : RegAddr) :
    g.controlByte a &&& Masks.default.rxlastMask = g.rxLast.setWidth 8 := by
  simp only [Target.controlByte, Masks.default]
  ext i hi
  simp only [BitVec.getElem_and, BitVec.getElem_or, BitVec.getElem_setWidth]
  by_cases h : i < 3
  · have : i = 0 ∨ i = 1 ∨ i = 2 := by omega
    rcases this with rfl | rfl | rfl <;> simp
  · have : g.rxLast.getLsbD i = false := BitVec.getLsbD_of_ge _ _ (by omega)
    rw [this]
    have : i = 3 ∨ i = 4 ∨ i = 5 ∨ i = 6 ∨ i = 7 := by omega
    rcases this with rfl | rfl | rfl | rfl | rfl <;> simp

/-- Steps 12 to 14 of TO_CARD over the reference target (R187 to R190). -/
theorem completeExchange_run {c : Config} (hc : c.wf) (hm : c.masks = .default) {g : Target} (hq : g.calm)
    {e : Environment} (hl : e.level = .referenceTarget) {P : Sequencer → Prop} (hP : Stable P) {tag : Bool}
    (hf : g.fifo.length ≤ c.fifoDepth) :
    Op.Ensures (View c g e fun q => Arming P q ∧ noTagSeen c.masks q.irqval irqenXcv = tag)
      (completeExchange .transceive) fun x s =>
        x = (if tag then .notag else .ok, e.drained g.fifo, rxBits g.level (g.rxLast.setWidth 8)) ∧
          View c { g with fifo := g.fifo.drop maxRx } (e.afterDrain g.fifo) (fun q => P q ∧ q.errkind = .none ∧
            q.status = if tag then .notag else .ok) s := by
  let P1 : Sequencer → Prop := fun q => P q ∧ q.errkind = .none ∧ q.status = if tag then .notag else .ok
  let P2 : Sequencer → Prop := fun q => P1 q ∧ q.rxbits = rxBits g.level (g.rxLast.setWidth 8)
  have h1 : Placeless P1 := fun q n h => ⟨hP.place q n h.1, h.2⟩
  have h2 : Placeless P2 := fun q n h => ⟨h1 q n h.1, h.2⟩
  refine View.cfg ?_
  refine .bind (M := fun _ => View c g e P1) (View.setSeq fun q h => ⟨hP.update _ (.status c.masks) q h.1.1, h.1.2.2.2.1,
    ?_⟩) fun _ => ?_
  · simp only [h.1.2.1, h.2]
  rw [if_pos rfl]
  refine .bind (M := fun _ s => View c { g with fifo := g.fifo.drop maxRx } (e.afterDrain g.fifo) (fun q => P1 q ∧
    q.rxbuf = e.drained g.fifo ∧ q.rxbits = rxBits g.level (g.rxLast.setWidth 8)) s) ?_ fun _ => ?_
  · refine View.cfg (.bind (View.readLevel h1 hc.1 hq hl) fun cnt => ?_)
    intro s ⟨hv, hs⟩
    subst hv
    revert hs; revert s
    rw [hm]
    change Op.Ensures (View c g e P1) _ _
    refine .bind (View.readControl h1 hc.1 hq hl) fun ctl => ?_
    intro s ⟨hv, hs⟩
    subst hv
    rw [controlByte_masked]
    revert hs; revert s
    change Op.Ensures (View c g e P1) _ _
    refine .bind (M := fun _ => View c g e P2) (View.setSeq fun q h => ⟨⟨hP.update _ (.rxbits _) q h.1, h.2⟩, rfl⟩)
      fun _ => ?_
    refine .bind (drain_run hc hq hl h2 hf) fun rx => ?_
    intro s ⟨hv, hs⟩
    subst hv
    exact ⟨(), _, rfl, hs.1, hs.2.1, hs.2.2.1, ⟨hP.update _ (.rxbuf _) _ hs.2.2.2.1.1, hs.2.2.2.1.2⟩, rfl, hs.2.2.2.2⟩
  · intro s hs
    refine ⟨_, s, rfl, ?_, hs.1, hs.2.1, hs.2.2.1, hs.2.2.2.1⟩
    rw [hs.2.2.2.1.2.2, hs.2.2.2.2.1, hs.2.2.2.2.2]

/-- The number of bytes of a response that the executor finds in the FIFO, as a byte (R191, R203). -/
def foundCount (c : Config) (r : List Byte) : Byte := BitVec.ofNat 8 (r.take c.fifoDepth).length

/-- "OK with `cnt = min(len(r), FIFO_DEPTH)`, `vb = lb`" (R291): an exchange whose answer carries no error of
ERR_MASK. -/
theorem toCard_response {c : Config} (hc : c.wf) (hm : c.masks = .default) {b : BitVec 3} {e e1 : Environment}
    (hl : e.level = .referenceTarget) {P : Sequencer → Prop} (hP : Stable P) {tx : List Byte}
    (hf : tx.length ≤ c.fifoDepth) {r : List Byte} {lb : BitVec 3} {er : Byte}
    (he : e.exchange tx b = (.response r lb er, e1)) {j : Nat}
    (hj : (e1.delayValue fun _ rxDelay => rxDelay) = some j) (hn : j < c.pollCmd)
    (hr : errorFails (receivedError er (c.fifoDepth < r.length)) = false) :
    ∀ s, Ready c b e P s → ∃ x t, toCard .transceive tx s = .ok x t ∧
      x = (.ok, e1.afterDelay.drained (r.take c.fifoDepth), rxBits (foundCount c r) (lb.setWidth 8)) ∧ t.clean ∧
      t.tgt.reg c.regmap.bitframing = s.tgt.reg c.regmap.bitframing &&& c.masks.startSend.compl ∧
      Ready c b (e1.afterDelay.afterDrain (r.take c.fifoDepth)) (fun q => P q ∧ q.errkind = .none ∧ q.status = .ok) t := by
  have hl1 : e1.afterDelay.level = .referenceTarget := by
    have := (exchange_sources e tx b).1
    rw [he] at this
    exact this.trans hl
  rintro s0 ⟨k1, hq0, hb0, k2, k3⟩
  refine toCard_answer (o := .response r lb er) hc hm hq0 hb0 hl hP hf nofun he hj hn (fun g hq hb hv ho _ => ?_) s0
    ⟨k1, rfl, k2, k3⟩
  obtain ⟨h1, h2, h3⟩ := ho r lb er rfl
  refine .bind (View.readError (fun q n h => ⟨hP.arming q n h.1, h.2⟩) hc.1 hq hl1) fun x => ?_
  intro s ⟨hx, hs⟩
  rw [hx, h3, if_neg (by rw [hr]; nofun)]
  obtain ⟨y, t, et, hy, ht⟩ := completeExchange_run hc hm hq hl1 hP (tag := false)
    (by rw [h1, List.length_take]; exact Nat.min_le_left _ _) s (by simpa using hs)
  refine ⟨y, t, et, ?_, ?_, ?_, ht.1, ?_, ?_, ?_, ht.2.2.2⟩
  · rw [hy, h1, h2, Target.level, h1]; rfl
  · rw [State.clean, ht.2.1]
    exact errorFails_flush (by rw [h3]; exact hr)
  · rw [ht.2.1]; exact hv
  · rw [ht.2.1]; exact hq
  · rw [ht.2.1]; exact hb
  · rw [ht.2.2.1, h1]

/-- "ProtocolError if `e & 0x1B != 0`" (R291). -/
theorem toCard_errors {c : Config} (hc : c.wf) (hm : c.masks = .default) {b : BitVec 3} {e e1 : Environment}
    (hl : e.level = .referenceTarget) {P : Sequencer → Prop} (hP : Stable P) {tx : List Byte}
    (hf : tx.length ≤ c.fifoDepth) {r : List Byte} {lb : BitVec 3} {er : Byte}
    (he : e.exchange tx b = (.response r lb er, e1)) {j : Nat}
    (hj : (e1.delayValue fun _ rxDelay => rxDelay) = some j) (hn : j < c.pollCmd)
    (hr : errorFails (receivedError er (c.fifoDepth < r.length)) = true) :
    Op.Ensures (Ready c b e P) (toCard .transceive tx) fun x s =>
      x = (.err, [], 0) ∧ s.cfg = c ∧ s.env = e1.afterDelay ∧ P s.seq ∧ s.seq.errkind = .protocolError ∧
        s.seq.status = .err := by
  have hl1 : e1.afterDelay.level = .referenceTarget := by
    have := (exchange_sources e tx b).1
    rw [he] at this
    exact this.trans hl
  refine .ofReady fun gs hq0 hb0 => toCard_answer (o := .response r lb er) hc hm hq0 hb0 hl hP hf nofun he hj hn fun g hq hb hv ho _ => ?_
  obtain ⟨h1, h2, h3⟩ := ho r lb er rfl
  refine .bind (View.readError (fun q n h => ⟨hP.arming q n h.1, h.2⟩) hc.1 hq hl1) fun x => ?_
  intro s ⟨hx, hs⟩
  rw [hx, h3, if_pos hr]
  exact ⟨_, _, rfl, rfl, hs.1, hs.2.2.1, hP.update _ (.fail _) _ hs.2.2.2.1.1, rfl, rfl⟩

/-- "`Timeout` ... NOTAG" (R291): the read-out happens too, of an empty FIFO. -/
theorem toCard_timeout {c : Config} (hc : c.wf) (hm : c.masks = .default) {b : BitVec 3} {e e1 : Environment}
    (hl : e.level = .referenceTarget) {P : Sequencer → Prop} (hP : Stable P) {tx : List Byte}
    (hf : tx.length ≤ c.fifoDepth) (he : e.exchange tx b = (.timeout, e1)) {j : Nat}
    (hj : (e1.delayValue fun _ rxDelay => rxDelay) = some j) (hn : j < c.pollCmd) :
    Op.Ensures (fun s => Ready c b e P s ∧ errorFails (errAfterFlush s.tgt.err) = false) (toCard .transceive tx)
      fun x s => (∃ vb, x = (.notag, [e1.afterDelay.byteValue 0x00], rxBits 0 vb)) ∧
        Ready c b (e1.afterDelay.afterBytes 1) (fun q => P q ∧ q.errkind = .none ∧ q.status = .notag) s := by
  have hl1 : e1.afterDelay.level = .referenceTarget := by
    have := (exchange_sources e tx b).1
    rw [he] at this
    exact this.trans hl
  intro s0 ⟨⟨k1, hq0, hb0, k2, k3⟩, hr⟩
  refine toCard_answer (o := .timeout) hc hm hq0 hb0 hl hP hf nofun he hj hn (fun g hq hb _ _ ho => ?_) s0
    ⟨k1, rfl, k2, k3⟩
  obtain ⟨h1, h2, h3⟩ := ho rfl
  refine .bind (View.readError (fun q n h => ⟨hP.arming q n h.1, h.2⟩) hc.1 hq hl1) fun x => ?_
  intro s ⟨hx, hs⟩
  rw [hx, h2, if_neg (by rw [hr]; nofun)]
  obtain ⟨y, t, et, hy, ht⟩ := completeExchange_run hc hm hq hl1 hP (tag := true) (by rw [h1]; exact Nat.zero_le _) s
    (by simpa using hs)
  refine ⟨y, t, et, ?_, ht.1, ?_, ?_, ?_, ht.2.2.2⟩
  · exact ⟨_, by rw [hy, h1, Target.level, h1]; rfl⟩
  · rw [ht.2.1]; exact hq
  · rw [ht.2.1]; exact hb
  · rw [ht.2.2.1, h1]; rfl

/-- A timeout with an error bit of ERR_MASK left from before is ProtocolError: the check of step 10 comes before the
no-tag test (R186, R187). -/
theorem toCard_timeout_errors {c : Config} (hc : c.wf) (hm : c.masks = .default) {b : BitVec 3} {e e1 : Environment}
    (hl : e.level = .referenceTarget) {P : Sequencer → Prop} (hP : Stable P) {tx : List Byte}
    (hf : tx.length ≤ c.fifoDepth) (he : e.exchange tx b = (.timeout, e1)) {j : Nat}
    (hj : (e1.delayValue fun _ rxDelay => rxDelay) = some j) (hn : j < c.pollCmd) :
    Op.Ensures (fun s => Ready c b e P s ∧ errorFails (errAfterFlush s.tgt.err) = true) (toCard .transceive tx)
      fun x s => x = (.err, [], 0) ∧ s.cfg = c ∧ s.env = e1.afterDelay ∧ P s.seq ∧ s.seq.errkind = .protocolError ∧
        s.seq.status = .err := by
  have hl1 : e1.afterDelay.level = .referenceTarget := by
    have := (exchange_sources e tx b).1
    rw [he] at this
    exact this.trans hl
  intro s0 ⟨⟨k1, hq0, hb0, k2, k3⟩, hr⟩
  refine toCard_answer (o := .timeout) hc hm hq0 hb0 hl hP hf nofun he hj hn (fun g hq hb _ _ ho => ?_) s0
    ⟨k1, rfl, k2, k3⟩
  obtain ⟨h1, h2, h3⟩ := ho rfl
  refine .bind (View.readError (fun q n h => ⟨hP.arming q n h.1, h.2⟩) hc.1 hq hl1) fun x => ?_
  intro s ⟨hx, hs⟩
  rw [hx, h2, if_pos hr]
  exact ⟨_, _, rfl, rfl, hs.1, hs.2.2.1, hP.update _ (.fail _) _ hs.2.2.2.1.1, rfl, rfl⟩

/-- "`Silent` ... BusTimeout after POLL_CMD reads" (R291); so does an answer that never comes. -/
theorem toCard_unanswered {c : Config} (hc : c.wf) (hm : c.masks = .default) {b : BitVec 3} {e e1 : Environment}
    (hl : e.level = .referenceTarget) {P : Sequencer → Prop} (hP : Stable P) {tx : List Byte}
    (hf : tx.length ≤ c.fifoDepth) {o : CardOutcome} (he : e.exchange tx b = (o, e1))
    (ho : o = .silent ∨ (e1.delayValue fun _ rxDelay => rxDelay) = none) :
    Op.Ensures (Ready c b e P) (toCard .transceive tx) fun x s =>
      x = (.err, [], 0) ∧ s.cfg = c ∧ s.env = e1.afterDelay ∧ P s.seq ∧ s.seq.errkind = .busTimeout ∧
        s.seq.status = .err := by
  intro s ⟨hs, hq, hb, hen, hp⟩
  have he' : e.exchange tx ((s.tgt.reg c.regmap.bitframing).extractLsb' 0 3) = (o, e1) := by rw [hb]; exact he
  have hl1 : e1.afterDelay.level = .referenceTarget := by
    have := (exchange_sources e tx b).1
    rw [he] at this
    exact this.trans hl
  refine View.cfg (armExchange_run hc hm (g := s.tgt) hq hl hP hf ?_) s ⟨hs, rfl, hen, hp⟩
  refine .bind (send_run hc hm hl hP.arming tx) fun _ => ?_
  rw [he']
  refine .bind (View.setSeq (Q := Arming P) fun q h => ⟨hP.update _ .begin q h.1, h.2⟩) fun _ => ?_
  let d := e1.delayValue fun _ rxDelay => rxDelay
  let g0 := s.tgt.sending c tx o d
  have key := pollComirq_never hc hl1 hP (g := g0) (o := o) (d := d) rfl ho (sending_unseen hm rfl) c.pollCmd
  refine .bind (M := fun r s => r = false ∧ View c g0 e1.afterDelay (Arming P) s) key fun seen => ?_
  have ht : g0.tick c = g0 := tick_never (g := g0) (o := o) (d := d) rfl ho
  refine .bind (M := fun _ s' => seen = false ∧ s'.cfg = c ∧ s'.env = e1.afterDelay ∧ P s'.seq) (fun s' h => ?_)
    fun _ => ?_
  · obtain ⟨u, t, et, ht⟩ := stopSend_run hc hP.arming ht hl1 s' h.2
    exact ⟨u, t, et, h.1, ht.1, ht.2.2.1, ht.2.2.2.1⟩
  intro s' ⟨hseen, h1, h2, h3⟩
  subst hseen
  rw [if_pos rfl]
  exact ⟨_, _, rfl, rfl, h1, h2, hP.update _ (.fail _) _ h3, rfl, rfl⟩

end Sys2Proof.Machine
end

