-- ==== Sys2Proof/Laws/Footprint.lean ====
section
/-! SUPPORT. What an operation leaves alone in the target and the environment, by the registers it writes: a CRC
computation writes DIVIRQ, FIFOLEVEL, FIFODATA and COMMAND, an exchange COMIEN, COMIRQ, FIFOLEVEL, FIFODATA, COMMAND and
BITFRAMING (R160, R180). -/

namespace Sys2Proof.Machine

/-- Under this configuration every run of the body that ends with a value or a raise relates its first state to its
last. -/
def Op.Keeps {α : Type} (c : Config) (R : State → State → Prop) (m : Op α) : Prop :=
  ∀ s, s.cfg = c → match m s with
    | .ok _ t => t.cfg = c ∧ R s t
    | .error (.raise _) t => t.cfg = c ∧ R s t
    | .error (.refuse _) _ => True

namespace Op.Keeps

variable {R : State → State → Prop} {α β : Type} {c : Config}

theorem ofPure (hR : Chains R) (a : α) : Op.Keeps c R (pure a : Op α) := fun s h => ⟨h, hR.refl s⟩
theorem ofRaise (hR : Chains R) (k : OpOutcome) : Op.Keeps c R (Op.raise k : Op α) := fun s h => ⟨h, hR.refl s⟩
theorem ofState (hR : Chains R) : Op.Keeps c R Op.state := fun s h => ⟨h, hR.refl s⟩

theorem bind (hR : Chains R) {x : Op α} {f : α → Op β} (hx : Op.Keeps c R x) (hf : ∀ a, Op.Keeps c R (f a)) :
    Op.Keeps c R (x >>= f) := by
  intro s hs
  have h := hx s hs
  cases hm : x s with
  | ok a t =>
    rw [Op.bind_ok hm]
    rw [hm] at h
    have g := hf a t h.1
    cases e : f a t with
    | ok b u => rw [e] at g; exact ⟨g.1, hR.trans h.2 g.2⟩
    | error y u =>
      rw [e] at g
      cases y with
      | raise o => exact ⟨g.1, hR.trans h.2 g.2⟩
      | refuse r => trivial
  | error y t =>
    rw [Op.bind_error hm]
    rw [hm] at h
    cases y with
    | raise o => exact h
    | refuse r => trivial

theorem withCfg {f : Config → Op β} (h : Op.Keeps c R (f c)) : Op.Keeps c R (Op.cfg >>= f) := by
  intro s hs; rw [Op.bind_ok (Op.cfg_apply s), hs]; exact h s hs

theorem withState {f : State → Op β} (h : ∀ s, s.cfg = c → Op.Keeps c R (f s)) : Op.Keeps c R (Op.state >>= f) := by
  intro s hs; rw [Op.bind_ok (Op.state_apply s)]; exact h s hs s hs

/-- A host operation relates the state it is given to the state it answers, for a relation that does not look at the
sequencer, the result or the frames. -/
theorem hostOp {n : OpName} {body : Op Result} (h : Op.Keeps c R body) {s t : State} (hs : s.cfg = c)
    (hl : ∀ u v : State, R u v → ∀ x y : State, x.tgt = u.tgt → x.env = u.env → x.cfg = u.cfg → y.tgt = v.tgt →
      y.env = v.env → R x y) (e : hostOp n body s = .next t) : R s t := by
  have g := h (s.start n) hs
  rcases hostOp_next e with ⟨r, u, he, rfl⟩ | ⟨k, u, he, rfl⟩
  · rw [he] at g; exact hl _ _ g.2 _ _ rfl rfl rfl rfl rfl
  · rw [he] at g; exact hl _ _ g.2 _ _ rfl rfl rfl rfl rfl

end Op.Keeps

variable {R : State → State → Prop} {c : Config}

/-! ## The shared operations -/

/-- A relation that composes, that reads and register updates keep. -/
structure ReadKept (c : Config) (R : State → State → Prop) : Prop where
  chains : Chains R
  read : ∀ a, Op.Keeps c R (busRead a)
  seq : ∀ f, Op.Keeps c R (Op.setSeq f)
  loading : ∀ b, Op.Keeps c R (setLoading b)

/-- Every write to a named register keeps the relation. -/
def Writable (c : Config) (R : State → State → Prop) (n : RegName) : Prop :=
  ∀ v, Op.Keeps c R (busWrite (c.regmap.addr n) v)

/-- The write of a command's code keeps the relation. -/
def Issuable (c : Config) (R : State → State → Prop) (k : Command) : Prop :=
  Op.Keeps c R (busWrite c.regmap.command (c.codes.byte k))

theorem setBits_keeps (B : ReadKept c R) {n : RegName} (h : Writable c R n) (m : Byte) :
    Op.Keeps c R (busSetBits (c.regmap.addr n) m) := .bind B.chains (B.read _) fun _ => h _

theorem clearBits_keeps (B : ReadKept c R) {n : RegName} (h : Writable c R n) (m : Byte) :
    Op.Keeps c R (busClearBits (c.regmap.addr n) m) := .bind B.chains (B.read _) fun _ => h _

theorem loadFifo_keeps (B : ReadKept c R) (h : Writable c R .fifodata) (s : List Byte) :
    Op.Keeps c R (loadFifo c.regmap.fifodata s) := by
  induction s with
  | nil => exact .ofPure B.chains ()
  | cons b s ih => exact .bind B.chains (h b) fun _ => ih

theorem unloadFifo_keeps (B : ReadKept c R) (a : RegAddr) (n : Nat) : Op.Keeps c R (unloadFifo a n) := by
  induction n with
  | zero => exact .ofPure B.chains _
  | succ n ih => exact .bind B.chains (B.read a) fun _ => .bind B.chains ih fun _ => .ofPure B.chains _

/-- What CRC_CALC writes (R160). -/
theorem crcCalc_keeps (B : ReadKept c R) (h1 : Writable c R .divirq) (h2 : Writable c R .fifolevel)
    (h3 : Writable c R .fifodata) (h4 : Issuable c R .calccrc) (data : List Byte) : Op.Keeps c R (crcCalc data) := by
  have poll : ∀ n, Op.Keeps c R (pollDivirq n) := by
    intro n
    induction n with
    | zero => exact .ofPure B.chains ()
    | succ n ih =>
      refine .withCfg (.bind B.chains (B.read _) fun v => .bind B.chains (B.seq _) fun _ => ?_)
      split
      · exact .ofPure B.chains ()
      · exact ih
  exact .withCfg (.bind B.chains (clearBits_keeps B h1 _) fun _ => .bind B.chains (setBits_keeps B h2 _) fun _ =>
    .bind B.chains (.bind B.chains (B.loading _) fun _ => .bind B.chains (loadFifo_keeps B h3 _) fun _ => B.loading _)
    fun _ => .bind B.chains h4 fun _ => .bind B.chains (B.seq _) fun _ =>
    .bind B.chains (poll _) fun _ => .bind B.chains (B.read _) fun _ => .bind B.chains (B.read _) fun _ =>
    .bind B.chains (B.seq _) fun _ => .ofPure B.chains _)

/-- What TO_CARD writes (R180). -/
theorem toCard_keeps (B : ReadKept c R) (h1 : Writable c R .comien) (h2 : Writable c R .comirq)
    (h3 : Writable c R .fifolevel) (h4 : Issuable c R .idle) (h5 : Writable c R .fifodata)
    (h6 : Writable c R .bitframing) {cmd : Command} (h7 : Issuable c R cmd) (tx : List Byte) :
    Op.Keeps c R (toCard cmd tx) := by
  have C := B.chains
  have poll : ∀ n, Op.Keeps c R (pollComirq n) := by
    intro n
    induction n with
    | zero => exact .ofPure C false
    | succ n ih =>
      refine .withState fun s hs => .bind C (B.read _) fun v => .bind C (B.seq _) fun _ => ?_
      split
      · exact .ofPure C true
      · exact ih
  have fail : ∀ k, Op.Keeps c R (failExchange k) := fun k => .bind C (B.seq _) fun _ => .ofPure C _
  have load : Op.Keeps c R (loadExchange cmd tx) := .withCfg (.bind C (h1 _) fun _ => .bind C (clearBits_keeps B h2 _)
    fun _ => .bind C (setBits_keeps B h3 _) fun _ => .bind C h4 fun _ => .bind C (loadFifo_keeps B h5 _) fun _ => h7)
  have start : Op.Keeps c R (startSend cmd) := by
    refine .withCfg ?_
    split
    · exact setBits_keeps B h6 _
    · exact .ofPure C ()
  have complete : Op.Keeps c R (completeExchange cmd) := by
    refine .withCfg (.bind C (B.seq _) fun _ => ?_)
    have rest : Op.Keeps c R (do
        let s ← Op.state
        pure (s.seq.status, s.seq.rxbuf, s.seq.rxbits) : Op (Status × List Byte × Int)) :=
      .bind C (.ofState C) fun _ => .ofPure C _
    split
    · exact .bind C (.withCfg (.bind C (B.read _) fun _ => .bind C (B.read _) fun _ => .bind C (B.seq _) fun _ =>
        .bind C (unloadFifo_keeps B _ _) fun _ => B.seq _)) fun _ => rest
    · exact .bind C (.ofPure C ()) fun _ => rest
  refine .withCfg (.bind C (B.seq _) fun _ => .bind C load fun _ => .bind C start fun _ => .bind C (B.seq _) fun _ =>
    .bind C (poll _) fun _ => .bind C (clearBits_keeps B h6 _) fun _ => ?_)
  split
  · exact fail _
  · refine .bind C (B.read _) fun e => ?_
    split
    · exact fail _
    · exact complete

/-! ## The units above -/

/-- A relation that register updates, BITFRAMING writes, CRC computations and exchanges keep. -/
structure UnitKept (c : Config) (R : State → State → Prop) : Prop where
  chains : Chains R
  seq : ∀ f, Op.Keeps c R (Op.setSeq f)
  framing : Writable c R .bitframing
  crc : ∀ data, Op.Keeps c R (crcCalc data)
  card : ∀ tx, Op.Keeps c R (toCard .transceive tx)

variable (K : UnitKept c R)
include K

theorem UnitKept.transceive (frame : List Byte) : Op.Keeps c R (transceive frame) := by
  refine .bind K.chains (K.card _) fun x => ?_
  obtain ⟨st, rx, bits⟩ := x
  refine .bind K.chains (.bind K.chains (.ofState K.chains) fun s => ?_) fun _ => .ofPure K.chains _
  cases st
  · exact .ofPure K.chains ()
  · exact .ofRaise K.chains _
  · exact .ofRaise K.chains _

theorem UnitKept.transceiveCrc (body : List Byte) : Op.Keeps c R (transceiveCrc body) :=
  .bind K.chains (K.crc _) fun x => by obtain ⟨lo, hi⟩ := x; exact K.transceive _

theorem UnitKept.requestTag : Op.Keeps c R requestTag := by
  refine .withCfg (.bind K.chains (K.framing _) fun _ => .bind K.chains (K.transceive _) fun x => ?_)
  obtain ⟨rx, bits⟩ := x
  simp only
  split
  · exact .ofRaise K.chains _
  · exact .bind K.chains (K.seq _) fun _ => .ofPure K.chains _

theorem UnitKept.selectLevel (lvl : CascadeLevel) : Op.Keeps c R (selectLevel lvl) := by
  have C := K.chains
  refine .bind C (.withCfg (.bind C (K.seq _) fun _ => ?_)) fun f => .bind C (.withCfg (.bind C (K.transceiveCrc _)
    fun x => ?_)) fun _ => .ofPure C _
  · have rest : Op.Keeps c R (do
        let (rx, _) ← Machine.transceive (anticollFrame c lvl)
        match fragmentOf rx with
        | none => Op.raise .protocolError
        | some f =>
          if f.valid then do
            Op.setSeq fun q => q.keepFragment lvl f
            pure f
          else Op.raise .checksumError : Op Fragment) := by
      refine .bind C (K.transceive _) fun x => ?_
      obtain ⟨rx, bits⟩ := x
      simp only
      split
      · exact .ofRaise C _
      · split
        · exact .bind C (K.seq _) fun _ => .ofPure C _
        · exact .ofRaise C _
    split
    · exact .bind C (K.framing _) fun _ => rest
    · exact rest
  · obtain ⟨rx, bits⟩ := x
    simp only
    split
    · exact .ofPure C _
    · exact .ofRaise C _

theorem UnitKept.selectTag : Op.Keeps c R selectTag := by
  have C := K.chains
  have complete : Op.Keeps c R completeSelect := .bind C (K.seq _) fun _ => .bind C (.ofState C) fun _ => .ofPure C _
  refine .bind C (K.seq _) fun _ => .bind C (K.selectLevel .one) fun more => ?_
  split
  · exact complete
  · refine .bind C (K.selectLevel .two) fun more => ?_
    split
    · exact complete
    · exact .ofRaise C _

theorem UnitKept.readBlock (page : Byte) : Op.Keeps c R (readBlock page) := by
  refine .withCfg (.bind K.chains (K.transceiveCrc _) fun x => ?_)
  obtain ⟨rx, bits⟩ := x
  simp only
  split
  · exact .ofRaise K.chains _
  · exact .ofPure K.chains _

theorem UnitKept.readImage : Op.Keeps c R readImage := by
  have C := K.chains
  have block : ∀ b k, Op.Keeps c R (assembleBlock b k) := fun b k =>
    .bind C (K.seq _) fun _ => .bind C (K.readBlock _) fun _ => K.seq _
  have blocks : ∀ n b, Op.Keeps c R (assembleBlocks n b) := by
    intro n
    induction n with
    | zero => exact fun b => .ofPure C ()
    | succ n ih => exact fun b => .bind C (block b _) fun _ => ih (b + 1)
  refine .bind C (K.seq _) fun _ => .bind C (blocks _ _) fun _ => ?_
  rw [if_pos (by decide)]
  exact .bind C (block _ _) fun _ => K.seq _

theorem UnitKept.writeBlock (page : Byte) (data : List Byte) : Op.Keeps c R (writeBlock page data) := by
  refine .withCfg ?_
  split
  · exact .ofRaise K.chains _
  · exact .bind K.chains (K.transceiveCrc _) fun _ => .ofPure K.chains _

omit K

/-! ## The storage of the registers -/

/-- The registers outside `A` keep their storage. -/
def RegsKept (A : RegAddr → Prop) (s t : State) : Prop := ∀ a, ¬ A a → t.tgt.reg a = s.tgt.reg a

theorem regsKept_chains (A : RegAddr → Prop) : Chains (RegsKept A) where
  refl _ _ _ := rfl
  trans h g a ha := (g a ha).trans (h a ha)

theorem regsKept_read (A : RegAddr → Prop) : ReadKept c (RegsKept A) where
  chains := regsKept_chains A
  read a := by
    intro s hs
    obtain ⟨v, t, e, w⟩ := busRead_cases s a
    rw [e]
    refine ⟨((outside_bus.read a).ok e).1.trans hs, fun b _ => ?_⟩
    rcases w with ⟨-, rfl⟩ | ⟨-, rfl | ⟨rest, -, -, rfl⟩ | rfl⟩ <;> simp [Target.reg]
  seq f := fun s h => ⟨h, fun _ _ => rfl⟩
  loading b := fun s h => ⟨h, fun _ _ => rfl⟩

/-- A write transaction at a named register keeps the registers outside `A`, if it stores nothing or stores inside `A`. -/
theorem regsKept_write {A : RegAddr → Prop} (hc : c.regmap.distinct) {n : RegName} (h1 : n ≠ .command)
    (h2 : RegName.storesWrite (some n) = true ∨ n = .bitframing → A (c.regmap.addr n)) :
    Writable c (RegsKept A) n := by
  intro v s hs
  have hn : s.cfg.regmap.nameAt (c.regmap.addr n) = some n := by rw [hs]; exact RegMap.nameAt_addr hc n
  have hset : ∀ (g : Target), A (c.regmap.addr n) → ∀ a, ¬ A a → (g.setReg (c.regmap.addr n) v).reg a = g.reg a :=
    fun g hA a ha => by rw [reg_setReg, if_neg (by rintro rfl; exact ha hA)]
  rcases busWrite_cases s (c.regmap.addr n) v with ⟨t, e, w⟩ | ⟨r, t, e⟩
  · rw [e]
    refine ⟨((outside_bus.write _ _).ok e).1.trans hs, fun a ha => ?_⟩
    rcases w with ⟨-, rfl⟩ | ⟨-, w⟩
    · rfl
    · have hb : n = .bitframing → s.cfg.regmap.bitframing = c.regmap.addr n := by rintro rfl; rw [hs]; rfl
      have name : ∀ {k}, s.ticked.cfg.regmap.nameAt (c.regmap.addr n) = some k → n = k := fun h =>
        Option.some.inj (hn.symm.trans h)
      cases w with
      | storage h =>
        rw [ticked_cfg, hn] at h
        rw [recorded_tgt]; simp only
        rw [hset _ (h2 (.inl h)) a ha]; simp
      | readOnly _ => simp
      | level _ =>
        rw [recorded_tgt]; simp only
        split <;> simp [Target.reg]
      | comirq _ => simp [Target.reg]
      | divirq _ => simp [Target.reg]
      | push _ _ =>
        rw [recorded_tgt]; simp only
        rcases push_cases s.ticked.tgt s.ticked.cfg.fifoDepth v with ⟨-, e⟩ | ⟨-, e⟩ <;> rw [e] <;> simp [Target.reg]
      | framing h _ =>
        rw [recorded_tgt]; simp only
        rw [ticked_cfg, hb (name h), hset _ (h2 (.inr (name h))) a ha]; simp
      | send h _ =>
        rw [recorded_tgt]
        change Target.reg (Target.setReg s.ticked.tgt s.ticked.cfg.regmap.bitframing v) a = _
        rw [ticked_cfg, hb (name h), hset _ (h2 (.inr (name h))) a ha]; simp
      | command h _ _ _ => exact absurd (name h) h1
  · rw [e]; trivial

/-- The code of a command other than RESETPHASE writes COMMAND alone. -/
theorem regsKept_command {A : RegAddr → Prop} (hc : c.wf) (hA : A c.regmap.command) {k : Command}
    (hk : k ≠ .resetphase) : Issuable c (RegsKept A) k := by
  intro s hs
  have hn : s.cfg.regmap.nameAt c.regmap.command = some .command := by
    rw [hs]; exact RegMap.nameAt_addr hc.1 .command
  rcases busWrite_cases s c.regmap.command (c.codes.byte k) with ⟨t, e, w⟩ | ⟨r, t, e⟩
  · rw [e]
    refine ⟨((outside_bus.write _ _).ok e).1.trans hs, fun a ha => ?_⟩
    rcases w with ⟨-, rfl⟩ | ⟨-, w⟩
    · rfl
    · have acc : ∀ (g : Target) (k : Command), (g.accept c k).reg a = g.reg a := fun g k => by
        change (g.setReg c.regmap.command (c.codes.byte k)).reg a = g.reg a
        rw [reg_setReg, if_neg (by rintro rfl; exact ha hA)]
      have no : ∀ {m}, s.ticked.cfg.regmap.nameAt c.regmap.command = some m → m = .command := fun h =>
        (Option.some.inj (hn.symm.trans h)).symm
      cases w with
      | command h j hj hne =>
        rw [ticked_cfg, hs, CmdCodes.ofByte_byte hc.2.1 k] at hj
        obtain rfl := Option.some.inj hj
        rw [recorded_tgt]
        cases k with
        | resetphase => exact absurd rfl hk
        | authent => exact absurd rfl hne
        | calccrc =>
          change (Target.accept s.ticked.tgt s.ticked.cfg .calccrc).reg a = _
          rw [ticked_cfg, hs, acc]; simp
        | idle => simp only [State.commanded]; rw [ticked_cfg, hs, acc]; simp
        | transceive => simp only [State.commanded]; rw [ticked_cfg, hs, acc]; simp
      | storage h => rw [ticked_cfg, hn] at h; cases h
      | readOnly h => rcases h with h | h | h <;> cases no h
      | level h => cases no h
      | comirq h => cases no h
      | divirq h => cases no h
      | push h _ => cases no h
      | framing h _ => cases no h
      | send h _ => cases no h
  · rw [e]; trivial

/-! ## The card -/

/-- The tag and the scripted answers are untouched. -/
def CardKept (s t : State) : Prop := t.env.tag = s.env.tag ∧ t.env.cardFeed = s.env.cardFeed

theorem cardKept_chains : Chains CardKept where
  refl _ := ⟨rfl, rfl⟩
  trans h g := ⟨g.1.trans h.1, g.2.trans h.2⟩

theorem cardKept_read : ReadKept c CardKept where
  chains := cardKept_chains
  read a := by
    intro s hs
    obtain ⟨v, t, e, w⟩ := busRead_cases s a
    rw [e]
    refine ⟨((outside_bus.read a).ok e).1.trans hs, ?_⟩
    rcases w with ⟨-, rfl⟩ | ⟨-, rfl | ⟨rest, -, -, rfl⟩ | rfl⟩ <;> exact ⟨rfl, rfl⟩
  seq f := fun s h => ⟨h, rfl, rfl⟩
  loading b := fun s h => ⟨h, rfl, rfl⟩

/-- Only BITFRAMING reaches the card. -/
theorem cardKept_write (hc : c.regmap.distinct) {n : RegName} (h1 : n ≠ .bitframing) : Writable c CardKept n := by
  intro v s hs
  have hn : s.cfg.regmap.nameAt (c.regmap.addr n) = some n := by rw [hs]; exact RegMap.nameAt_addr hc n
  rcases busWrite_cases s (c.regmap.addr n) v with ⟨t, e, w⟩ | ⟨r, t, e⟩
  · rw [e]
    refine ⟨((outside_bus.write _ _).ok e).1.trans hs, ?_⟩
    rcases w with ⟨-, rfl⟩ | ⟨-, w⟩
    · exact ⟨rfl, rfl⟩
    · cases w with
      | send h _ => exact absurd (Option.some.inj (hn.symm.trans h)) h1
      | command _ k _ _ => cases k <;> exact ⟨rfl, rfl⟩
      | _ => exact ⟨rfl, rfl⟩
  · rw [e]; trivial

end Sys2Proof.Machine
end

