-- ==== Sys2Proof/Laws/Oracle.lean ====
section
/-! SUPPORT. Exact runs over an unconstrained transport (R3 (a)): the bytes read are the script's, the target is not
touched, and the frames are recorded in order. -/

namespace Sys2Proof.Machine

/-- An unconstrained transport with this script of bytes still to read and these frames done, newest first. -/
abbrev Bus (c : Config) (g : Target) (feed : List Byte) (tr : List BusFrame) (P : Sequencer → Prop) (s : State) : Prop :=
  s.cfg = c ∧ s.tgt = g ∧ s.env.level = .busOracle ∧ s.env.byteFeed = feed ∧ s.trace = tr ∧ P s.seq

section
variable {c : Config} {g : Target} {P : Sequencer → Prop} (hP : Placeless P)
include hP

theorem Bus.write (a : RegAddr) (v : Byte) {feed : List Byte} {tr : List BusFrame} :
    Op.Ensures (Bus c g feed tr P) (busWrite a v) fun _ => Bus c g feed (BusFrame.write a v :: tr) P := by
  rintro s ⟨h1, h2, h3, h4, h5, h6⟩
  exact ⟨(), _, busWrite_oracle h3 a v, h1, h2, h3, h4, by rw [recorded_trace, h5]; rfl, hP _ _ h6⟩

theorem Bus.read (a : RegAddr) (v : Byte) {feed : List Byte} {tr : List BusFrame} :
    Op.Ensures (Bus c g (v :: feed) tr P) (busRead a) fun r s => r = v ∧ Bus c g feed (BusFrame.read a v :: tr) P s := by
  rintro s ⟨h1, h2, h3, h4, h5, h6⟩
  have hv : s.env.byteValue 0x00 = v := by rw [Environment.byteValue, h4]
  have e := busRead_oracle h3 a
  rw [hv] at e
  refine ⟨v, _, e, rfl, h1, h2, h3, ?_, by rw [recorded_trace]; rw [h5]; rfl, hP _ _ h6⟩
  simp [Environment.afterBytes, h4]

theorem Bus.setBits (a : RegAddr) (v m : Byte) {feed : List Byte} {tr : List BusFrame} :
    Op.Ensures (Bus c g (v :: feed) tr P) (busSetBits a m) fun _ =>
      Bus c g feed (BusFrame.write a (v ||| m) :: BusFrame.read a v :: tr) P :=
  .bind (Bus.read hP a v) fun r s h => by rw [h.1]; exact Bus.write hP a (v ||| m) s h.2

theorem Bus.clearBits (a : RegAddr) (v m : Byte) {feed : List Byte} {tr : List BusFrame} :
    Op.Ensures (Bus c g (v :: feed) tr P) (busClearBits a m) fun _ =>
      Bus c g feed (BusFrame.write a (v &&& m.compl) :: BusFrame.read a v :: tr) P :=
  .bind (Bus.read hP a v) fun r s h => by rw [h.1]; exact Bus.write hP a (v &&& m.compl) s h.2

theorem Bus.load (a : RegAddr) (data : List Byte) {feed : List Byte} {tr : List BusFrame} :
    Op.Ensures (Bus c g feed tr P) (loadFifo a data) fun _ =>
      Bus c g feed ((data.map (BusFrame.write a)).reverse ++ tr) P := by
  induction data generalizing tr with
  | nil => exact fun s h => ⟨(), s, rfl, h⟩
  | cons b data ih =>
    refine .bind (Bus.write hP a b) fun _ => (ih (tr := BusFrame.write a b :: tr)).imp fun _ s h => ?_
    simpa using h

theorem Bus.unload (a : RegAddr) (rx : List Byte) {feed : List Byte} {tr : List BusFrame} :
    Op.Ensures (Bus c g (rx ++ feed) tr P) (unloadFifo a rx.length) fun r s => r = rx ∧
      Bus c g feed ((rx.map (BusFrame.read a)).reverse ++ tr) P s := by
  induction rx generalizing tr with
  | nil => exact fun s h => ⟨[], s, rfl, rfl, h⟩
  | cons b rx ih =>
    refine .bind (Bus.read hP a b) fun r => fun s h => ?_
    refine Op.Ensures.bind (ih (tr := BusFrame.read a b :: tr)) (fun rest s h' => ?_) s h.2
    exact ⟨r :: rest, s, rfl, by rw [h.1, h'.1], by simpa using h'.2⟩

end

theorem Bus.setSeq {c : Config} {g : Target} {feed : List Byte} {tr : List BusFrame} {P Q : Sequencer → Prop}
    {f : Sequencer → Sequencer} (h : ∀ q, P q → Q (f q)) :
    Op.Ensures (Bus c g feed tr P) (Op.setSeq f) fun _ => Bus c g feed tr Q :=
  fun _ ⟨h1, h2, h3, h4, h5, h6⟩ => ⟨(), _, rfl, h1, h2, h3, h4, h5, h _ h6⟩

theorem Bus.cfg {α : Type} {c : Config} {g : Target} {feed : List Byte} {tr : List BusFrame} {P : Sequencer → Prop}
    {f : Config → Op α} {Q : α → State → Prop} (h : Op.Ensures (Bus c g feed tr P) (f c) Q) :
    Op.Ensures (Bus c g feed tr P) (Op.cfg >>= f) Q := .withCfg (fun _ h => h.1) h

/-! ## The stages of an exchange (R180) -/

/-- What of the sequencer the poll of an exchange relies on. -/
abbrev Waiting (cmd : Command) (q : Sequencer) : Prop :=
  q.irqen = irqEnable cmd ∧ q.waitirq = irqWait cmd ∧ q.errkind = .none ∧ q.rxbuf = [] ∧ q.rxbits = 0

theorem waiting_place (cmd : Command) : Placeless (Waiting cmd) := fun _ _ h => h

section
variable {c : Config} {g : Target}

/-- Steps 0 to 6. -/
theorem Bus.loadExchange (cmd : Command) (tx : List Byte) (n l : Byte) {feed : List Byte} {tr : List BusFrame} :
    Op.Ensures (Bus c g (n :: l :: feed) tr (Waiting cmd)) (loadExchange cmd tx) fun _ =>
      Bus c g feed ((armFrames c cmd tx n l).reverse ++ tr) (Waiting cmd) := by
  have hP := waiting_place cmd
  refine Bus.cfg (.bind (Bus.write hP _ _) fun _ => .bind (Bus.clearBits hP _ n _) fun _ =>
    .bind (Bus.setBits hP _ l _) fun _ => .bind (Bus.write hP _ _) fun _ => .bind (Bus.load hP _ tx) fun _ =>
    (Bus.write hP _ _).imp fun _ s h => ?_)
  simpa [armFrames] using h

/-- Step 7: the script holds one byte for a transceive, none for another command. -/
theorem Bus.startSend (cmd : Command) {b : List Byte} (hb : b.length = if cmd = .transceive then 1 else 0)
    {feed : List Byte} {tr : List BusFrame} :
    Op.Ensures (Bus c g (b ++ feed) tr (Waiting cmd)) (startSend cmd) fun _ =>
      Bus c g feed ((startFrames c b).reverse ++ tr) (Waiting cmd) := by
  refine Bus.cfg ?_
  by_cases h : cmd = .transceive
  · rw [if_pos h] at hb ⊢
    obtain ⟨v, rfl⟩ := List.length_eq_one_iff.1 hb
    exact (Bus.setBits (waiting_place cmd) _ v _).imp fun _ s h => by simpa [startFrames] using h
  · rw [if_neg h] at hb ⊢
    obtain rfl := List.length_eq_zero_iff.1 hb
    exact fun s h => ⟨(), s, rfl, by simpa [startFrames] using h⟩

theorem pollSeen_false {m : Masks} {w p : Byte} (h : p &&& m.timerIrq = 0 ∧ p &&& w = 0) : pollSeen m w p = false := by
  simp [pollSeen, Byte.hasAny, h.1, h.2]

theorem pollSeen_true {m : Masks} {w p : Byte} (h : p &&& m.timerIrq ≠ 0 ∨ p &&& w ≠ 0) : pollSeen m w p = true := by
  simpa [pollSeen, Byte.hasAny] using h

/-- One read of the poll. -/
theorem Bus.pollRead (cmd : Command) (v : Byte) (n : Nat) {feed : List Byte} {tr : List BusFrame}
    {Q : Bool → State → Prop}
    (hk : Op.Ensures (Bus c g feed (BusFrame.read c.regmap.comirq v :: tr) fun q => Waiting cmd q ∧ q.irqval = v)
      (if pollSeen c.masks (irqWait cmd) v then pure true else pollComirq n) Q) :
    Op.Ensures (Bus c g (v :: feed) tr (Waiting cmd)) (pollComirq (n + 1)) Q := by
  intro s hs
  rw [pollComirq, Op.bind_ok (Op.state_apply s)]
  obtain ⟨r, t, e, hr, ht⟩ := Bus.read (waiting_place cmd) (c := c) (g := g) c.regmap.comirq v s hs
  subst hr
  rw [hs.1, Op.bind_ok e, Op.bind_ok (Op.setSeq_apply _ _), hs.2.2.2.2.2.2.1]
  exact hk _ ⟨ht.1, ht.2.1, ht.2.2.1, ht.2.2.2.1, ht.2.2.2.2.1, ht.2.2.2.2.2, rfl⟩

/-- The poll runs over the values that show no flag (R184). -/
theorem Bus.pollSkip (cmd : Command) (polls : List Byte)
    (hp : ∀ p ∈ polls, p &&& c.masks.timerIrq = 0 ∧ p &&& irqWait cmd = 0) (n : Nat) {feed : List Byte}
    {tr : List BusFrame} {Q : Bool → State → Prop}
    (hk : Op.Ensures (Bus c g feed ((polls.map (BusFrame.read c.regmap.comirq)).reverse ++ tr) (Waiting cmd))
      (pollComirq n) Q) :
    Op.Ensures (Bus c g (polls ++ feed) tr (Waiting cmd)) (pollComirq (polls.length + n)) Q := by
  induction polls generalizing tr with
  | nil => simpa using hk
  | cons p polls ih =>
    rw [List.length_cons, show polls.length + 1 + n = polls.length + n + 1 by omega, List.cons_append]
    refine Bus.pollRead cmd p _ ?_
    rw [pollSeen_false (hp p (List.mem_cons_self ..)), if_neg nofun]
    refine (ih (fun x hx => hp x (List.mem_cons_of_mem _ hx)) (tr := BusFrame.read c.regmap.comirq p :: tr)
      (by simpa using hk)).pre fun s h => ⟨h.1, h.2.1, h.2.2.1, h.2.2.2.1, h.2.2.2.2.1, h.2.2.2.2.2.1⟩

/-- The poll ends on the first value that shows a flag (R184). -/
theorem Bus.poll (cmd : Command) {polls : List Byte} {v : Byte}
    (hp : ∀ p ∈ polls, p &&& c.masks.timerIrq = 0 ∧ p &&& irqWait cmd = 0)
    (hv : v &&& c.masks.timerIrq ≠ 0 ∨ v &&& irqWait cmd ≠ 0) {n : Nat} (hn : polls.length < n) {feed : List Byte}
    {tr : List BusFrame} :
    Op.Ensures (Bus c g (polls ++ v :: feed) tr (Waiting cmd)) (pollComirq n) fun r s => r = true ∧
      Bus c g feed (((polls ++ [v]).map (BusFrame.read c.regmap.comirq)).reverse ++ tr)
        (fun q => Waiting cmd q ∧ q.irqval = v) s := by
  obtain ⟨k, rfl⟩ : ∃ k, n = polls.length + (k + 1) := ⟨n - polls.length - 1, by omega⟩
  refine Bus.pollSkip cmd polls hp _ (Bus.pollRead cmd v _ ?_)
  rw [pollSeen_true hv, if_pos rfl]
  exact fun s h => ⟨true, s, rfl, rfl, by simpa using h⟩

/-- The poll runs out (R185). -/
theorem Bus.pollOut (cmd : Command) {polls : List Byte}
    (hp : ∀ p ∈ polls, p &&& c.masks.timerIrq = 0 ∧ p &&& irqWait cmd = 0) {feed : List Byte} {tr : List BusFrame} :
    Op.Ensures (Bus c g (polls ++ feed) tr (Waiting cmd)) (pollComirq polls.length) fun r s => r = false ∧
      Bus c g feed ((polls.map (BusFrame.read c.regmap.comirq)).reverse ++ tr) (Waiting cmd) s :=
  Bus.pollSkip cmd polls hp 0 fun s h => ⟨false, s, rfl, rfl, h⟩

/-- Step 13 (R188, R189). -/
theorem Bus.readResponse (cnt ctl : Byte) {rx : List Byte} (hr : rx.length = readCount cnt) {feed : List Byte}
    {tr : List BusFrame} {P : Sequencer → Prop} (hP : Placeless P) (hb : ∀ q n, P q → P { q with rxbits := n })
    (hx : ∀ q r, P q → P { q with rxbuf := r }) :
    Op.Ensures (Bus c g (cnt :: ctl :: (rx ++ feed)) tr P) readResponse fun _ =>
      Bus c g feed ((readFrames c cnt ctl rx).reverse ++ tr) fun q => P q ∧
        q.rxbits = rxBits cnt (ctl &&& c.masks.rxlastMask) ∧ q.rxbuf = rx := by
  refine Bus.cfg (.bind (Bus.read hP _ cnt) fun x s h => ?_)
  obtain ⟨rfl, h⟩ := h
  refine Op.Ensures.bind (Bus.read hP _ ctl) (fun y s h => ?_) s h
  obtain ⟨rfl, h⟩ := h
  refine Op.Ensures.bind (Bus.setSeq (Q := fun q => P q ∧ q.rxbits = rxBits x (y &&& c.masks.rxlastMask))
    fun q h => ⟨hb q _ h, rfl⟩) (fun _ => ?_) s h
  rw [← hr]
  refine .bind (Bus.unload (fun q n h => ⟨hP q n h.1, h.2⟩) _ rx) fun r s h => ?_
  obtain ⟨rfl, h⟩ := h
  exact ⟨(), _, rfl, h.1, h.2.1, h.2.2.1, h.2.2.2.1, by simpa [readFrames] using h.2.2.2.2.1, hx _ _ h.2.2.2.2.2.1,
    h.2.2.2.2.2.2, rfl⟩

end

end Sys2Proof.Machine
end

