-- ==== Sys2Proof/Laws/Outcomes.lean ====
section
/-! SUPPORT. What a host operation raises after a failed exchange, and what stands in S.STATUS and S.ERRKIND then
(R221, R257). -/

namespace Sys2Proof.Machine

/-- From every state that meets `P`: a value and a state that meet `Q`, an outcome raised in a state that meets `E`, or a
refusal. -/
def Op.Ends {α : Type} (P : State → Prop) (m : Op α) (Q : α → State → Prop) (E : OpOutcome → State → Prop) : Prop :=
  ∀ s, P s → match m s with
    | .ok a t => Q a t
    | .error (.raise k) t => E k t
    | .error (.refuse _) _ => True

namespace Op.Ends

variable {α β : Type} {P : State → Prop} {E : OpOutcome → State → Prop}

theorem bind {M : α → State → Prop} {Q : β → State → Prop} {x : Op α} {f : α → Op β}
    (hx : Op.Ends P x M E) (hf : ∀ a, Op.Ends (M a) (f a) Q E) : Op.Ends P (x >>= f) Q E := by
  intro s hs
  have h := hx s hs
  cases hm : x s with
  | ok a t => rw [Op.bind_ok hm]; rw [hm] at h; exact hf a t h
  | error e t => rw [Op.bind_error hm]; rw [hm] at h; cases e <;> exact h

/-- Runs that raise nothing. -/
theorem ofTriple {Q : α → State → Prop} {m : Op α} (h : Op.Triple P m Q fun _ => False) : Op.Ends P m Q E := by
  intro s hs
  have g := h s hs
  cases e : m s with
  | ok a t => rw [e] at g; exact g
  | error x t => rw [e] at g; cases x <;> first | exact g.elim | trivial

theorem imp {Q Q' : α → State → Prop} {E' : OpOutcome → State → Prop} {m : Op α} (h : Op.Ends P m Q E)
    (hq : ∀ a t, Q a t → Q' a t) (he : ∀ k t, E k t → E' k t) : Op.Ends P m Q' E' := by
  intro s hs
  have g := h s hs
  cases e : m s with
  | ok a t => rw [e] at g; exact hq a t g
  | error x t => rw [e] at g; cases x <;> first | exact he _ t g | trivial

end Op.Ends

/-- The last exchange passed. -/
abbrev Passed (s : State) : Prop := s.seq.status = .ok

/-- What a failed exchange may be raised as. -/
abbrev exchangeKinds : List OpOutcome := [.noTag, .busTimeout, .protocolError]

/-- An exchange raises nothing; its verdict is S.STATUS, and a failed one has one of two kinds (R180, R185, R186). -/
theorem toCard_verdict (cmd : Command) (tx : List Byte) :
    Op.Triple (fun _ => True) (toCard cmd tx) (fun x t => x.1 = t.seq.status ∧
      (t.seq.status = .err → t.seq.errkind = .busTimeout ∨ t.seq.errkind = .protocolError)) fun _ => False := by
  intro s _
  refine (show Op.Triple (At s.cfg fun _ => True) (toCard cmd tx) _ _ from ?_) s ⟨rfl, trivial⟩
  have W := fun a v => At.write (c := s.cfg) (P := fun _ => True) (E := fun _ => False) (fun _ _ h => h) a v
  have R := fun a => At.read (c := s.cfg) (P := fun _ => True) (E := fun _ => False) (fun _ _ h => h) a
  have S := fun f => Op.Triple.setSeq (c := s.cfg) (P := fun _ => True) (Q := fun _ => True) (E := fun _ => False)
    (f := f) (fun _ h => h)
  refine .withCfg (.bind (S _) fun _ => .bind (.withCfg (.bind (W _ _) fun _ => .bind (.bind (R _) fun _ => W _ _) fun _ =>
    .bind (.bind (R _) fun _ => W _ _) fun _ => .bind (W _ _) fun _ => .bind (At.loadFifo (fun _ _ h => h) _ _) fun _ =>
    W _ _)) fun _ => .bind (M := fun _ => At s.cfg fun _ => True) (.withCfg ?_) fun _ => .bind (S _) fun _ =>
    .bind (M := fun _ => At s.cfg fun _ => True) ?_ fun seen =>
    .bind (.bind (R _) fun _ => W _ _) fun _ => ?_)
  · split
    · exact .bind (R _) fun _ => W _ _
    · exact fun s h => h
  · suffices ∀ n, Op.Triple (At s.cfg fun _ => True) (pollComirq n) (fun _ => At s.cfg fun _ => True) fun _ => False
      from this _
    intro n
    induction n with
    | zero => exact fun s h => h
    | succ n ih =>
      intro s h
      rw [pollComirq, Op.bind_ok (Op.state_apply s)]
      refine (Op.Triple.bind (R _) fun v => .bind (S _) fun _ => ?_) s h
      split
      · exact fun s h => h
      · exact ih
  · split
    · exact fun s h => ⟨rfl, fun _ => .inl rfl⟩
    · refine .bind (R _) fun e => ?_
      split
      · exact fun s h => ⟨rfl, fun _ => .inr rfl⟩
      · refine .withCfg (.bind (M := fun _ => At s.cfg fun q => q.status ≠ .err) (.setSeq fun q _ => ?_) fun _ => ?_)
        · simp only; split <;> nofun
        · have rest : Op.Triple (At s.cfg fun q => q.status ≠ .err) (do
              let s ← Op.state
              pure (s.seq.status, s.seq.rxbuf, s.seq.rxbits) : Op (Status × List Byte × Int))
              (fun x t => x.1 = t.seq.status ∧
                (t.seq.status = .err → t.seq.errkind = .busTimeout ∨ t.seq.errkind = .protocolError)) fun _ => False :=
            fun s h => ⟨rfl, fun e => absurd e h.2⟩
          split
          · refine .bind (.withCfg (.bind (At.read (fun _ _ h => h) _) fun cnt => .bind (At.read (fun _ _ h => h) _) fun ctl =>
              .bind (M := fun _ => At s.cfg fun q => q.status ≠ .err) (.setSeq fun _ h => h) fun _ =>
              .bind (At.unloadFifo (fun _ _ h => h) _ _) fun rx => ?_)) fun _ => rest
            exact fun s h => h.2
          · exact rest

/-- An outcome raised, one of `ks`, that agrees with the last exchange. -/
abbrev Raised (ks : List OpOutcome) (k : OpOutcome) (t : State) : Prop := t.seq.agrees k ∧ k ∈ ks

/-- A checked exchange ends passed, or raises what its failure says (R221). -/
theorem transceive_ends (tx : List Byte) :
    Op.Ends (fun _ => True) (transceive tx) (fun _ => Passed) fun k t => Raised exchangeKinds k t ∧ ¬ Passed t := by
  refine .bind (.ofTriple (toCard_verdict _ _)) fun x => ?_
  obtain ⟨st, rx, bits⟩ := x
  rintro t ⟨h1, h2⟩
  simp only at h1
  subst h1
  cases hs : t.seq.status with
  | ok => exact hs
  | notag => exact ⟨⟨by simp [Sequencer.agrees, hs], by simp⟩, by simp [hs]⟩
  | err =>
    change (_ ∧ t.seq.errkind.outcome ∈ _) ∧ _
    rcases h2 hs with h | h <;>
      exact ⟨⟨by simp [Sequencer.agrees, hs, h, ErrKind.outcome], by simp [h, ErrKind.outcome]⟩, by simp [hs]⟩

/-- What raises while the last exchange passed is the unit's own outcome. -/
theorem passed_agrees {s : State} (h : Passed s) {k : OpOutcome} (hk : k ∉ [OpOutcome.noTag, .busTimeout]) :
    s.seq.agrees k := by
  simp only [List.mem_cons, List.not_mem_nil, or_false, not_or] at hk
  simp [Sequencer.agrees, h, hk]

/-- A CRC_CALC raises nothing (R162). -/
theorem crcCalc_raisesNothing (data : List Byte) :
    Op.Triple (fun _ => True) (crcCalc data) (fun _ _ => True) fun _ => False := by
  intro s _
  have := crcCalc_ranges (c := s.cfg) (E := fun _ => False) data s ⟨rfl, trivial⟩
  cases e : crcCalc data s with
  | ok a t => trivial
  | error x t => rw [e] at this; cases x <;> exact this

theorem transceiveCrc_ends (body : List Byte) :
    Op.Ends (fun _ => True) (transceiveCrc body) (fun _ => Passed) fun k t => Raised exchangeKinds k t ∧ ¬ Passed t :=
  .bind (.ofTriple (crcCalc_raisesNothing _)) fun _ => transceive_ends _

theorem passed_write {a v} {E} : Op.Ends (fun _ => True) (busWrite a v) (fun _ _ => True) E := .ofTriple fun s _ => by
  rcases busWrite_cases s a v with ⟨t, e, -⟩ | ⟨r, t, e⟩ <;> rw [e] <;> trivial

theorem raise_passed {α : Type} {Q : α → State → Prop} {k : OpOutcome} {ks}
    (h1 : k ∉ [OpOutcome.noTag, .busTimeout]) (h2 : k ∈ ks) :
    Op.Ends Passed (Op.raise k : Op α) Q (Raised ks) := fun _ h => ⟨passed_agrees h h1, h2⟩

theorem requestTag_ends : Op.Ends (fun _ => True) requestTag (fun _ => Passed) (Raised exchangeKinds) := by
  refine .bind (M := fun _ _ => True) (fun _ _ => trivial) fun c => .bind passed_write fun _ =>
    .bind ((transceive_ends _).imp (fun _ _ h => h) fun _ _ h => h.1) fun x => ?_
  obtain ⟨rx, bits⟩ := x
  simp only
  split
  · exact raise_passed (by decide) (by decide)
  · exact fun s h => h

abbrev selectKinds : List OpOutcome := [.noTag, .busTimeout, .protocolError, .checksumError, .unsupportedCascade]

theorem widen {k t} (h : Raised exchangeKinds k t) : Raised selectKinds k t :=
  ⟨h.1, by have := h.2; simp only [List.mem_cons, List.not_mem_nil, or_false] at this ⊢; tauto⟩

theorem selectLevel_ends (lvl : CascadeLevel) :
    Op.Ends (fun _ => True) (selectLevel lvl) (fun _ => Passed) (Raised selectKinds) := by
  refine .bind (M := fun _ => Passed) (.bind (M := fun _ _ => True) (fun _ _ => trivial) fun c =>
      .bind (M := fun _ _ => True) (fun _ _ => trivial) fun _ => ?_) fun f =>
    .bind (M := fun _ => Passed) (.bind (M := fun _ _ => True) (fun _ _ => trivial) fun c =>
      .bind ((transceiveCrc_ends _).imp (fun _ _ h => h) fun _ _ h => widen h.1) fun x => ?_) fun sak => fun s h => h
  · have rest : Op.Ends (fun _ => True) (do
        let (rx, _) ← transceive (anticollFrame c lvl)
        match fragmentOf rx with
        | none => Op.raise .protocolError
        | some f =>
          if f.valid then do
            Op.setSeq fun q => q.keepFragment lvl f
            pure f
          else Op.raise .checksumError : Op Fragment) (fun _ => Passed) (Raised selectKinds) := by
      refine .bind ((transceive_ends _).imp (fun _ _ h => h) fun _ _ h => widen h.1) fun x => ?_
      obtain ⟨rx, bits⟩ := x
      simp only
      split
      · exact raise_passed (by decide) (by decide)
      · split
        · exact fun s h => by cases lvl <;> exact h
        · exact raise_passed (by decide) (by decide)
    split
    · exact .bind passed_write fun _ => rest
    · exact rest
  · obtain ⟨rx, bits⟩ := x
    simp only
    split
    · exact fun s h => h
    · exact raise_passed (by decide) (by decide)

theorem selectTag_ends : Op.Ends (fun _ => True) selectTag (fun _ => Passed) (Raised selectKinds) := by
  have complete : Op.Ends Passed completeSelect (fun _ => Passed) (Raised selectKinds) := fun s h => h
  refine .bind (M := fun _ _ => True) (fun _ _ => trivial) fun _ => .bind (selectLevel_ends .one) fun more => ?_
  split
  · exact complete
  · refine .bind (M := fun _ => Passed) (fun s _ => selectLevel_ends .two s trivial) fun more => ?_
    split
    · exact complete
    · exact raise_passed (by decide) (by decide)

theorem readBlock_ends (page : Byte) :
    Op.Ends (fun _ => True) (readBlock page) (fun _ => Passed) (Raised exchangeKinds) := by
  refine .bind (M := fun _ _ => True) (fun _ _ => trivial) fun c => .bind
    ((transceiveCrc_ends _).imp (fun _ _ h => h) fun _ _ h => h.1) fun x => ?_
  obtain ⟨rx, bits⟩ := x
  simp only
  split
  · exact raise_passed (by decide) (by decide)
  · exact fun s h => h

theorem readImage_ends : Op.Ends (fun _ => True) readImage (fun _ => Passed) (Raised exchangeKinds) := by
  have block : ∀ b k, Op.Ends (fun _ => True) (assembleBlock b k) (fun _ => Passed)
      (Raised exchangeKinds) := fun b k =>
    .bind (M := fun _ _ => True) (fun _ _ => trivial) fun _ => .bind (readBlock_ends _) fun _ => fun s h => h
  have blocks : ∀ n b, Op.Ends (fun _ => True) (assembleBlocks n b) (fun _ _ => True) (Raised exchangeKinds) := by
    intro n
    induction n with
    | zero => exact fun b s h => trivial
    | succ n ih => exact fun b => .bind (block b _) fun _ s _ => ih (b + 1) s trivial
  refine .bind (M := fun _ _ => True) (fun _ _ => trivial) fun _ => .bind (blocks _ _) fun _ => ?_
  rw [if_pos (by decide)]
  exact .bind (block _ _) fun _ => fun s h => h

theorem writeBlock_ends (page : Byte) {data : List Byte} (h : data.length = 4) :
    Op.Ends (fun _ => True) (writeBlock page data) (fun _ => Passed) fun k t => Raised exchangeKinds k t ∧ ¬ Passed t := by
  refine .bind (M := fun _ _ => True) (fun _ _ => trivial) fun c => ?_
  rw [if_neg (by simp [h, pageSize])]
  exact .bind (transceiveCrc_ends _) fun _ => fun s h => h

/-- How a host operation ends whose body ends so. -/
theorem Op.Ends.hostOp {n : OpName} {body : Op Result} {Q : State → Prop} {E : OpOutcome → State → Prop}
    (h : Op.Ends (fun _ => True) body (fun _ => Q) E) {s t : State} (e : hostOp n body s = .next t) :
    (∃ r u, Q u ∧ t = u.finish r) ∨ ∃ k u, E k u ∧ t = u.raise k := by
  have g := h (s.start n) trivial
  rcases hostOp_next e with ⟨r, u, he, rfl⟩ | ⟨k, u, he, rfl⟩
  · rw [he] at g; exact .inl ⟨r, u, g, rfl⟩
  · rw [he] at g; exact .inr ⟨k, u, g, rfl⟩

/-- Its outcome agrees with its last exchange. -/
theorem Op.Ends.agrees {n : OpName} {body : Op Result} {ks : List OpOutcome}
    (h : Op.Ends (fun _ => True) body (fun _ => Passed) (Raised ks)) {s t : State} (e : Machine.hostOp n body s = .next t) :
    t.seq.agrees t.seq.outcome := by
  rcases h.hostOp e with ⟨r, u, g, rfl⟩ | ⟨k, u, g, rfl⟩
  · exact passed_agrees (s := u) g (by simp)
  · exact g.1

end Sys2Proof.Machine
end

