-- ==== Sys2Proof/Laws/PerInstr.lean ====
section
/-! SUPPORT. Family RoundTrip: the decoder reads back what the encoder wrote, one lemma for each instruction. -/

namespace Sys2Proof.Laws.RoundTrip

/-- Under a well-formed configuration, decoding the bytes of a well-formed instruction gives it back. -/
def Statement (i : Instr) : Prop :=
  ∀ c : Config, c.wf → i.wf = true → decode c i.format (encode c i) = .ok i

/-! ## Fields read back -/

theorem busWriteByte0_fields : ∀ a : RegAddr, (busWriteByte0 a).getLsbD 0 = false ∧
    (busWriteByte0 a).getLsbD 7 = false ∧ (busWriteByte0 a).extractLsb' 1 6 = a := by decide +kernel

theorem busReadByte0_fields : ∀ a : RegAddr, (busReadByte0 a).getLsbD 0 = false ∧
    (busReadByte0 a).getLsbD 7 = true ∧ (busReadByte0 a).extractLsb' 1 6 = a := by decide +kernel

/-- The code of a command decodes to the command's row. -/
theorem decodeCmd_byte {c : Config} (hc : c.wf) (k : Command) :
    decodeCmd c [c.codes.byte k] = .ok k.instr := by
  simp only [decodeCmd, CmdCodes.ofByte_byte hc.2.1 k]

theorem length_byte {n : Nat} (h : n ≤ 255) : (BitVec.ofNat 8 n).toNat = n := by
  rw [BitVec.toNat_ofNat]; omega

/-! ## HOP -/

theorem regWrite (addr value : Byte) : Statement (.regWrite addr value) := fun _ _ _ => rfl
theorem regRead (addr : Byte) : Statement (.regRead addr) := fun _ _ _ => rfl
theorem setBits (addr mask : Byte) : Statement (.setBits addr mask) := fun _ _ _ => rfl
theorem clearBits (addr mask : Byte) : Statement (.clearBits addr mask) := fun _ _ _ => rfl
theorem crcCalc (data : List Byte) : Statement (.crcCalc data) := fun _ _ _ => rfl

theorem toCard (cmd : Command) (tx : List Byte) : Statement (.toCard cmd tx) := by
  intro c hc _
  have h : decode c .hop (0x06 :: c.codes.byte cmd :: tx) = toCardOperands c (c.codes.byte cmd :: tx) := rfl
  simp only [Instr.format, encode]
  rw [h, toCardOperands, CmdCodes.ofByte_byte hc.2.1 cmd]

theorem requestTag : Statement .requestTag := fun _ _ _ => rfl
theorem selectTag : Statement .selectTag := fun _ _ _ => rfl
theorem readBlock (page : Byte) : Statement (.readBlock page) := fun _ _ _ => rfl
theorem readImage : Statement .readImage := fun _ _ _ => rfl
theorem readTag : Statement .readTag := fun _ _ _ => rfl
theorem writeBlock (page : Byte) (data : List Byte) : Statement (.writeBlock page data) := fun _ _ _ => rfl
theorem region (name : Region) : Statement (.region name) := by cases name <;> exact fun _ _ _ => rfl
theorem extract (buffer : List Byte) : Statement (.extract buffer) := fun _ _ _ => rfl
theorem wrap (payload : List Byte) : Statement (.wrap payload) := fun _ _ _ => rfl
theorem init : Statement .init := fun _ _ _ => rfl

/-! ## BUS and CMD -/

theorem busWrite (a : RegAddr) (v : Byte) : Statement (.busWrite a v) := by
  intro c _ _
  obtain ⟨h0, h7, ha⟩ := busWriteByte0_fields a
  simp only [Instr.format, encode, decode, decodeBus, h0, h7, ha, Bool.false_eq_true, if_false]

theorem busRead (a : RegAddr) : Statement (.busRead a) := by
  intro c _ _
  obtain ⟨h0, h7, ha⟩ := busReadByte0_fields a
  simp only [Instr.format, encode, decode, decodeBus, h0, h7, ha, Bool.false_eq_true, if_false, if_true]

theorem cmdIdle : Statement .cmdIdle := fun _ hc _ => decodeCmd_byte hc .idle
theorem cmdCalccrc : Statement .cmdCalccrc := fun _ hc _ => decodeCmd_byte hc .calccrc
theorem cmdTransceive : Statement .cmdTransceive := fun _ hc _ => decodeCmd_byte hc .transceive
theorem cmdAuthent : Statement .cmdAuthent := fun _ hc _ => decodeCmd_byte hc .authent
theorem cmdResetphase : Statement .cmdResetphase := fun _ hc _ => decodeCmd_byte hc .resetphase

/-! ## CARD and TLV -/

theorem reqa : Statement .reqa := fun c _ _ => if_pos (c := c.card.reqCode = c.card.reqCode) rfl

theorem anticoll (lvl : CascadeLevel) : Statement (.anticoll lvl) := by
  intro c hc _
  simp only [Instr.format, encode, decode, anticollFrame, decodeCard, CardCodes.level?_sel hc.2.2.1, if_true]

theorem select (lvl : CascadeLevel) (u0 u1 u2 u3 bcc crcLo crcHi : Byte) :
    Statement (.select lvl u0 u1 u2 u3 bcc crcLo crcHi) := by
  intro c hc _
  simp only [Instr.format, encode, decode, selectBody, List.cons_append, List.nil_append, decodeCard,
    CardCodes.level?_sel hc.2.2.1, if_true]

theorem read (page crcLo crcHi : Byte) : Statement (.read page crcLo crcHi) :=
  fun c _ _ => if_pos (c := c.card.readCmd = c.card.readCmd) rfl

theorem write (page d0 d1 d2 d3 crcLo crcHi : Byte) : Statement (.write page d0 d1 d2 d3 crcLo crcHi) :=
  fun c _ _ => if_pos (c := c.card.writeCmd = c.card.writeCmd) rfl

theorem tlvRecord (payload : List Byte) : Statement (.tlvRecord payload) := by
  intro c _ h
  simp only [Instr.wf, decide_eq_true_eq] at h
  exact if_pos (c := tlvType = tlvType ∧ (BitVec.ofNat 8 payload.length).toNat = payload.length) ⟨rfl, length_byte h⟩

end Sys2Proof.Laws.RoundTrip
end

