-- ==== Sys2Proof/Laws/Retry.lean ====
section
/-! SUPPORT. What the host's retry loop can do (R336). -/

namespace Sys2Proof.Machine

variable {retryMax : Option Nat} {attempt : State → Answer}

/-- A loop that has stopped has the answer it stopped with. -/
@[simp] theorem retryLoop_stopped (passes : Nat) (a : Answer) :
    retryLoop retryMax attempt passes (.stopped a) = .stopped a := by
  induction passes with
  | zero => rfl
  | succ n ih => exact ih

/-- Everything one pass can come to: a stop on OK or at the bound, another attempt, a stop on an answer that is no next
state. -/
theorem pass_cases (retryMax : Option Nat) (attempt : State → Answer) (n : Nat) (s : State) :
    (∃ t, attempt s = .next t ∧ (t.seq.outcome = .ok ∨ boundReached retryMax (n + 1) = true) ∧
      Retry.pass retryMax attempt (.trying n s) = .stopped (.next t)) ∨
    (∃ t, attempt s = .next t ∧ t.seq.outcome ≠ .ok ∧ boundReached retryMax (n + 1) = false ∧
      Retry.pass retryMax attempt (.trying n s) = .trying (n + 1) t) ∨
    (∀ t, attempt s ≠ .next t) ∧ Retry.pass retryMax attempt (.trying n s) = .stopped (attempt s) := by
  cases h : attempt s with
  | next t =>
    by_cases g : t.seq.outcome = .ok ∨ boundReached retryMax (n + 1) = true
    · exact .inl ⟨t, rfl, g, by simp only [Retry.pass, h, if_pos g]⟩
    · exact .inr (.inl ⟨t, rfl, fun e => g (.inl e), by simpa using fun e => g (.inr e),
        by simp only [Retry.pass, h, if_neg g]⟩)
  | fault r => exact .inr (.inr ⟨fun _ e => (nomatch e : False), by simp only [Retry.pass, h]⟩)
  | refused r => exact .inr (.inr ⟨fun _ e => (nomatch e : False), by simp only [Retry.pass, h]⟩)

/-- A bounded loop makes at most RETRY_MAX attempts, and one if RETRY_MAX is 0. -/
theorem retryLoop_stops {m passes : Nat} (hm : m ≤ passes) (hp : 1 ≤ passes) (s : State) :
    ∃ a, retryLoop (some m) attempt passes (.trying 0 s) = .stopped a := by
  have go : ∀ p n s, m ≤ n + p → 1 ≤ p → ∃ a, retryLoop (some m) attempt p (.trying n s) = .stopped a := by
    intro p
    induction p with
    | zero => intro _ _ _ h; omega
    | succ p ih =>
      intro n s h _
      rcases pass_cases (some m) attempt n s with ⟨t, -, -, e⟩ | ⟨t, -, -, hb, e⟩ | ⟨-, e⟩
      · exact ⟨_, by rw [retryLoop, e, retryLoop_stopped]⟩
      · rw [retryLoop, e]
        have : ¬ m ≤ n + 1 := by simpa [boundReached] using hb
        exact ih (n + 1) t (by omega) (by omega)
      · exact ⟨_, by rw [retryLoop, e, retryLoop_stopped]⟩
  exact go passes 0 s (by omega) hp

end Sys2Proof.Machine
end

