-- ==== Sys2Proof/Laws/Units.lean ====
section
/-! SUPPORT. The units above the executor over the reference target, when every event comes within its poll budget:
what REQUEST_TAG, SELECT_TAG, READ_BLOCK and WRITE_BLOCK return for the card's answers. -/

namespace Sys2Proof.Machine

/-! ## Runs that raise -/

/-- From every state that meets `P` the body raises `k`, in a state that meets `Q`. -/
def Op.Raises {α : Type} (P : State → Prop) (m : Op α) (k : OpOutcome) (Q : State → Prop) : Prop :=
  ∀ s, P s → ∃ t, m s = .error (.raise k) t ∧ Q t

namespace Op.Raises

variable {α β : Type} {P : State → Prop} {k : OpOutcome} {Q : State → Prop}

theorem bind {x : Op α} {f : α → Op β} (h : Op.Raises P x k Q) : Op.Raises P (x >>= f) k Q := by
  intro s hs
  obtain ⟨t, e, ht⟩ := h s hs
  exact ⟨t, Op.bind_error e, ht⟩

theorem after {M : α → State → Prop} {x : Op α} {f : α → Op β} (hx : Op.Ensures P x M)
    (hf : ∀ a, Op.Raises (M a) (f a) k Q) : Op.Raises P (x >>= f) k Q := by
  intro s hs
  obtain ⟨a, t, e, ha⟩ := hx s hs
  rw [Op.bind_ok e]
  exact hf a t ha

theorem imp {m : Op α} {Q' : State → Prop} (h : Op.Raises P m k Q) (hq : ∀ s, Q s → Q' s) : Op.Raises P m k Q' := by
  intro s hs
  obtain ⟨t, e, ht⟩ := h s hs
  exact ⟨t, e, hq t ht⟩

theorem withCfg {c : Config} {f : Config → Op β} (hp : ∀ s, P s → s.cfg = c) (h : Op.Raises P (f c) k Q) :
    Op.Raises P (Op.cfg >>= f) k Q := by
  intro s hs
  rw [Op.bind_ok (Op.cfg_apply s), hp s hs]
  exact h s hs

end Op.Raises

/-! ## States ready for an exchange, and environments whose events are prompt -/

/-- Ready for an exchange, in an environment that meets `E`. -/
abbrev InEnv (c : Config) (b : BitVec 3) (E : Environment → Prop) (P : Sequencer → Prop) (s : State) : Prop :=
  s.cfg = c ∧ s.tgt.calm ∧ (s.tgt.reg c.regmap.bitframing).extractLsb' 0 3 = b ∧ E s.env ∧ P s.seq

/-- The same, where no error bit is left if `quiet`. -/
abbrev Settled (c : Config) (b : BitVec 3) (E : Environment → Prop) (P : Sequencer → Prop) (quiet : Prop) (s : State) :
    Prop := InEnv c b E P s ∧ (quiet → s.clean)

/-- The reference target with the simulator's draws and no scripted delay (R304). -/
abbrev Prompt (cd rd : Nat) (e : Environment) : Prop :=
  e.level = .referenceTarget ∧ e.drawSource = .simulator cd rd ∧ e.delayFeed = []

theorem Prompt.crc {cd rd : Nat} {e : Environment} (h : Prompt cd rd e) :
    (e.delayValue fun crcDelay _ => crcDelay) = some cd := by
  rw [Environment.delayValue, h.2.1, h.2.2]

theorem Prompt.rx {cd rd : Nat} {e : Environment} (h : Prompt cd rd e) :
    (e.delayValue fun _ rxDelay => rxDelay) = some rd := by
  rw [Environment.delayValue, h.2.1, h.2.2]

theorem Prompt.exchange {cd rd : Nat} {e : Environment} (h : Prompt cd rd e) (frame : List Byte) (n : BitVec 3) :
    Prompt cd rd (e.exchange frame n).2 := by
  obtain ⟨h1, -, h3⟩ := exchange_sources e frame n
  refine ⟨h1.trans h.1, h3.trans h.2.1, ?_⟩
  rw [← h.2.2]
  unfold Environment.exchange; split <;> rfl

/-- The configurations the lemmas on exchanges are about: the default masks, and a poll budget above the delay. -/
structure Quick (c : Config) (rd : Nat) : Prop where
  wf : c.wf
  masks : c.masks = .default
  rx : rd < c.pollCmd

/-- Those the lemmas on frames with a CRC are about: also a DIVIRQ that stores (R165), and a CRC budget above the
delay. -/
structure Standard (c : Config) (cd rd : Nat) : Prop extends Quick c rd where
  store : c.divirqMode = .store
  crc : cd < c.pollCrc

theorem fragmentOf_bytes (f : Fragment) : fragmentOf f.bytes = some f := rfl

section
variable {c : Config} {cd rd : Nat} (hs : Quick c rd)
include hs

/-- A transceive whose answer fits the FIFO and carries no error of ERR_MASK; of an empty one one byte is read (R189). -/
theorem transceive_answered {b : BitVec 3} {E E' : Environment → Prop} (hE : ∀ e, E e → Prompt cd rd e)
    {frame : List Byte} {r : List Byte} {lb : BitVec 3} {er : Byte}
    (hx : ∀ e, E e → (e.exchange frame b).1 = .response r lb er ∧
      E' ((e.exchange frame b).2.afterDelay.afterDrain r))
    {P : Sequencer → Prop} (hP : Stable P) (hf : frame.length ≤ c.fifoDepth) (hr : r.length ≤ c.fifoDepth)
    (her : errorFails er = false) :
    Op.Ensures (InEnv c b E P) (transceive frame) fun x s => x.1.length = min (max r.length 1) maxRx ∧
      (r ≠ [] → x = (r.take maxRx, rxBits (BitVec.ofNat 8 r.length) (lb.setWidth 8))) ∧ s.clean ∧
      InEnv c b E' P s := by
  intro s ⟨h1, hq, hb, he, hp⟩
  have ht : r.take c.fifoDepth = r := List.take_of_length_le hr
  have hnl : decide (c.fifoDepth < r.length) = false := decide_eq_false (by omega)
  obtain ⟨x, t, et, hx', hcl, -, ht'⟩ := toCard_response hs.wf hs.masks (hE _ he).1 hP hf (tx := frame) (b := b)
    (e1 := (s.env.exchange frame b).2) (r := r) (lb := lb) (er := er) (Prod.ext (hx _ he).1 rfl)
    ((hE _ he).exchange frame b).rx hs.rx (by rw [hnl, receivedError]; simpa using her) s ⟨h1, hq, hb, rfl, hp⟩
  rw [transceive, Op.bind_ok et, hx']
  simp only [ht]
  refine ⟨_, t, rfl, ?_, fun h0 => ?_, hcl, ht'.1, ht'.2.1, ht'.2.2.1, ?_, ht'.2.2.2.2.1⟩
  · rw [Environment.drained]
    split
    · rename_i h0; subst h0; rfl
    · rename_i h0
      have := List.length_pos_iff.mpr h0
      rw [List.length_take]; omega
  · rw [foundCount, ht, Environment.drained, if_neg h0]
  · rw [ht'.2.2.2.1, ht]; exact (hx _ he).2

/-- It leaves BITFRAMING as it was, with START_SEND cleared (R180). -/
theorem transceive_framing {b : BitVec 3} {E : Environment → Prop} (hE : ∀ e, E e → Prompt cd rd e)
    {frame : List Byte} {r : List Byte} {lb : BitVec 3} {er : Byte}
    (hx : ∀ e, E e → (e.exchange frame b).1 = .response r lb er) {P : Sequencer → Prop} (hP : Stable P)
    (hf : frame.length ≤ c.fifoDepth) (hr : r.length ≤ c.fifoDepth) (her : errorFails er = false) (v : Byte) :
    Op.Ensures (fun s => InEnv c b E P s ∧ s.tgt.reg c.regmap.bitframing = v) (transceive frame) fun _ s =>
      s.tgt.reg c.regmap.bitframing = v &&& c.masks.startSend.compl := by
  intro s ⟨⟨h1, hq, hb, he, hp⟩, hv⟩
  have hnl : decide (c.fifoDepth < r.length) = false := decide_eq_false (by omega)
  obtain ⟨x, t, et, hx', -, ht, -⟩ := toCard_response hs.wf hs.masks (hE _ he).1 hP hf (tx := frame) (b := b)
    (e1 := (s.env.exchange frame b).2) (r := r) (lb := lb) (er := er) (Prod.ext (hx _ he) rfl)
    ((hE _ he).exchange frame b).rx hs.rx (by rw [hnl, receivedError]; simpa using her) s ⟨h1, hq, hb, rfl, hp⟩
  rw [transceive, Op.bind_ok et, hx']
  exact ⟨_, t, rfl, hv ▸ ht⟩

/-- A transceive whose answer is at least one byte, fits the FIFO and carries no error of ERR_MASK. -/
theorem transceive_in {b : BitVec 3} {E E' : Environment → Prop} (hE : ∀ e, E e → Prompt cd rd e) {frame : List Byte}
    {r : List Byte} {lb : BitVec 3} {er : Byte}
    (hx : ∀ e, E e → (e.exchange frame b).1 = .response r lb er ∧ E' (e.exchange frame b).2.afterDelay)
    {P : Sequencer → Prop} (hP : Stable P) (hf : frame.length ≤ c.fifoDepth) (h0 : r ≠ [])
    (hr : r.length ≤ c.fifoDepth) (her : errorFails er = false) :
    Op.Ensures (InEnv c b E P) (transceive frame) fun x s =>
      x = (r.take maxRx, rxBits (BitVec.ofNat 8 r.length) (lb.setWidth 8)) ∧ s.clean ∧ InEnv c b E' P s :=
  (transceive_answered hs hE (fun e he => ⟨(hx e he).1, by rw [Environment.afterDrain, if_neg h0]; exact (hx e he).2⟩)
    hP hf hr her).imp fun _ _ h => ⟨h.2.1 h0, h.2.2⟩

/-- The answers that fail an exchange, and what they are raised as (R221): an error bit of ERR_MASK, a response longer
than the FIFO among them, silence, and a timeout where no error bit is left (`quiet`). -/
inductive Fails (c : Config) (quiet : Prop) : CardOutcome → OpOutcome → Prop
  | errors {r : List Byte} {lb : BitVec 3} {er : Byte}
      (h : errorFails (receivedError er (c.fifoDepth < r.length)) = true) : Fails c quiet (.response r lb er) .protocolError
  | silent : Fails c quiet .silent .busTimeout
  | timeout (h : quiet) : Fails c quiet .timeout .noTag

/-- A transceive whose answer fails it. -/
theorem transceive_fails {b : BitVec 3} {E E' : Environment → Prop} (hE : ∀ e, E e → Prompt cd rd e)
    {frame : List Byte} {quiet : Prop} {o : CardOutcome} {k : OpOutcome} (hk : Fails c quiet o k)
    (hx : ∀ e, E e → (e.exchange frame b).1 = o ∧ E' (e.exchange frame b).2.afterDelay)
    {P : Sequencer → Prop} (hP : Stable P) (hf : frame.length ≤ c.fifoDepth) :
    Op.Raises (Settled c b E P quiet) (transceive frame) k
      fun s => s.cfg = c ∧ P s.seq ∧ (k ≠ .noTag → E' s.env) := by
  intro s ⟨⟨h1, hq, hb, he, hp⟩, hcl⟩
  obtain ⟨ho, hE'⟩ := hx _ he
  have raised : ∀ {x : Status × List Byte × Int} {t : State}, toCard .transceive frame s = .ok x t →
      x = (.err, [], 0) → t.seq.errkind.outcome = k → transceive frame s = .error (.raise k) t := by
    intro x t et hx hk
    subst hx
    rw [transceive, Op.bind_ok et]
    exact Op.bind_error (hk ▸ rfl)
  cases hk with
  | errors hr =>
    obtain ⟨x, t, et, hx', h2, h3, h4, h5, -⟩ := toCard_errors hs.wf hs.masks (hE _ he).1 hP hf (tx := frame) (b := b)
      (e1 := (s.env.exchange frame b).2) (Prod.ext ho rfl) ((hE _ he).exchange frame b).rx hs.rx hr s
      ⟨h1, hq, hb, rfl, hp⟩
    exact ⟨t, raised et hx' (by rw [h5]; rfl), h2, h4, fun _ => h3 ▸ hE'⟩
  | silent =>
    obtain ⟨x, t, et, hx', h2, h3, h4, h5, -⟩ := toCard_unanswered hs.wf hs.masks (hE _ he).1 hP hf (tx := frame) (b := b)
      (e1 := (s.env.exchange frame b).2) (Prod.ext ho rfl) (.inl rfl) s ⟨h1, hq, hb, rfl, hp⟩
    exact ⟨t, raised et hx' (by rw [h5]; rfl), h2, h4, fun _ => h3 ▸ hE'⟩
  | timeout h =>
    obtain ⟨x, t, et, ⟨vb, hx'⟩, ht⟩ := toCard_timeout hs.wf hs.masks (hE _ he).1 hP hf (tx := frame) (b := b)
      (e1 := (s.env.exchange frame b).2) (Prod.ext ho rfl) ((hE _ he).exchange frame b).rx hs.rx s
      ⟨⟨h1, hq, hb, rfl, hp⟩, hcl h⟩
    refine ⟨t, ?_, ht.1, ht.2.2.2.2.1, fun h => absurd rfl h⟩
    rw [transceive, Op.bind_ok et, hx']
    rfl

/-! ## REQUEST_TAG (R220) -/

/-- BITFRAMING written with the bits of a frame (R41). -/
theorem bitframing_settled {b b' : BitVec 3} {E : Environment → Prop} (hE : ∀ e, E e → Prompt cd rd e)
    {P : Sequencer → Prop} (hP : Placeless P) {v : Byte} (hv : v.hasAny Masks.default.startSend = false)
    (hb' : v.extractLsb' 0 3 = b') {quiet : Prop} :
    Op.Ensures (Settled c b E P quiet) (busWrite c.regmap.bitframing v) fun _ => Settled c b' E P quiet := by
  intro s ⟨⟨h1, hq, hb, he, hp⟩, hcl⟩
  obtain ⟨u, t, et, ht⟩ := View.storeBitframing hs.wf.1 (g := s.tgt) (e := s.env) (v := v) hP (tick_calm hq c)
    (hE _ he).1 (by rw [hs.masks]; exact hv) s ⟨h1, rfl, rfl, hp⟩
  refine ⟨u, t, et, ⟨ht.1, ?_, ?_, ?_, ht.2.2.2⟩, fun h => ?_⟩
  · rw [ht.2.1]; exact hq
  · rw [ht.2.1, reg_setReg_self]; exact hb'
  · rw [ht.2.2.1]; exact he
  · rw [State.clean, ht.2.1]; exact hcl h

theorem bitframing_in {b b' : BitVec 3} {E : Environment → Prop} (hE : ∀ e, E e → Prompt cd rd e)
    {P : Sequencer → Prop} (hP : Placeless P) {v : Byte} (hv : v.hasAny Masks.default.startSend = false)
    (hb' : v.extractLsb' 0 3 = b') :
    Op.Ensures (InEnv c b E P) (busWrite c.regmap.bitframing v) fun _ => InEnv c b' E P := fun s h =>
  ((bitframing_settled hs hE hP hv hb' (quiet := False)).imp fun _ _ h => h.1) s ⟨h, nofun⟩

/-- REQUEST_TAG over a card that answers with 16 bits: the ATQA, and BITFRAMING "left at 0x07" (R220). -/
theorem requestTag_in {b : BitVec 3} {E E' : Environment → Prop} (hE : ∀ e, E e → Prompt cd rd e) {a0 a1 er : Byte}
    (hx : ∀ e, E e → (e.exchange (reqaFrame c) 7).1 = .response [a0, a1] 0 er ∧
      E' (e.exchange (reqaFrame c) 7).2.afterDelay)
    {P P' : Sequencer → Prop} (hP : Stable P) (hP' : ∀ q, P q → P' { q with atqa0 := a0, atqa1 := a1 })
    (h2 : 2 ≤ c.fifoDepth) (her : errorFails er = false) :
    Op.Ensures (InEnv c b E P) requestTag fun x s => x = (a0, a1) ∧ s.tgt.reg c.regmap.bitframing = 0x07 ∧
      InEnv c 7 E' P' s := by
  refine .withCfg (fun _ h => h.1) (.bind (M := fun _ s => InEnv c 7 E P s ∧ s.tgt.reg c.regmap.bitframing = 0x07)
    (fun s ⟨h1, hq, _, he, hp⟩ => ?_) fun _ => ?_)
  · obtain ⟨u, t, et, ht⟩ := View.storeBitframing hs.wf.1 (g := s.tgt) (e := s.env) (v := shortFrameBits) hP.place
      (tick_calm hq c) (hE _ he).1 (by rw [hs.masks]; decide) s ⟨h1, rfl, rfl, hp⟩
    have hv : t.tgt.reg c.regmap.bitframing = 0x07 := by rw [ht.2.1, reg_setReg_self]; rfl
    exact ⟨u, t, et, ⟨ht.1, by rw [ht.2.1]; exact hq, by rw [hv]; rfl, by rw [ht.2.2.1]; exact he, ht.2.2.2⟩, hv⟩
  have hf : (reqaFrame c).length ≤ c.fifoDepth := by simp [reqaFrame]; omega
  intro s h
  obtain ⟨x, t, et, hxx, -, ht⟩ := transceive_in hs hE hx hP hf nofun (by simpa using h2) her s h.1
  obtain ⟨x', t', et', hv⟩ := transceive_framing hs hE (fun e he => (hx e he).1) hP hf (by simpa using h2) her 0x07 s h
  rw [et] at et'
  cases et'
  rw [Op.bind_ok et, hxx]
  exact ⟨_, _, rfl, rfl, hv.trans (by rw [hs.masks]; rfl), ht.1, ht.2.1, ht.2.2.1, ht.2.2.2.1, hP' _ ht.2.2.2.2⟩

/-- "a strict test": any other bit length is ProtocolError (R220). -/
theorem requestTag_length {b : BitVec 3} {E : Environment → Prop} (hE : ∀ e, E e → Prompt cd rd e) {r : List Byte}
    {lb : BitVec 3} {er : Byte} (hx : ∀ e, E e → (e.exchange (reqaFrame c) 7).1 = .response r lb er)
    {P : Sequencer → Prop} (hP : Stable P) (h0 : r ≠ []) (hr : r.length ≤ c.fifoDepth) (her : errorFails er = false)
    (hb : rxBits (BitVec.ofNat 8 r.length) (lb.setWidth 8) ≠ 16) :
    Op.Raises (InEnv c b E P) requestTag .protocolError fun s => s.cfg = c ∧ P s.seq := by
  refine .withCfg (fun _ h => h.1) (.after (bitframing_in hs hE hP.place (v := shortFrameBits) (b' := 7) (by decide)
    (by decide)) fun _ => ?_)
  have h1 := hs.wf.2.2.2.2.2.2.1
  refine .after (transceive_in hs hE (E' := fun _ => True) (fun e he => ⟨hx e he, trivial⟩) hP
    (by simp [reqaFrame]; omega) h0 hr her) fun x => ?_
  rintro s ⟨hxx, -, h⟩
  subst hxx
  simp only
  rw [if_pos hb]
  exact ⟨s, rfl, h.1, h.2.2.2.2⟩

/-! ## SELECT_TAG (R225 to R229) -/

/-- Steps 1 and 2 at a level: the anti-collision exchange, the fragment kept (R226). -/
theorem anticollision_in {b : BitVec 3} {E E' : Environment → Prop} (hE : ∀ e, E e → Prompt cd rd e)
    (lvl : CascadeLevel) (hb : lvl = .two → b = 0) {f : Fragment} {lb : BitVec 3} {er : Byte}
    (hx : ∀ e, E e → (e.exchange (anticollFrame c lvl) 0).1 = .response f.bytes lb er ∧
      E' (e.exchange (anticollFrame c lvl) 0).2.afterDelay)
    {P P' : Sequencer → Prop} (hP : Stable P) (hl : ∀ q, P q → P { q with level := lvl })
    (hP' : ∀ q, P q → P' (q.keepFragment lvl f)) (h5 : 5 ≤ c.fifoDepth) (her : errorFails er = false)
    (hv : f.valid = true) :
    Op.Ensures (InEnv c b E P) (anticollision lvl) fun x s => x = f ∧ s.clean ∧ InEnv c 0 E' P' s := by
  refine .withCfg (fun _ h => h.1) ?_
  refine .bind (M := fun _ => InEnv c b E P) (fun s h => ⟨(), _, rfl, h.1, h.2.1, h.2.2.1, h.2.2.2.1, hl _ h.2.2.2.2⟩)
    fun _ => ?_
  have rest : Op.Ensures (InEnv c 0 E P) (do
        let (rx, _) ← transceive (anticollFrame c lvl)
        match fragmentOf rx with
        | none => Op.raise .protocolError
        | some f =>
          if f.valid then do
            Op.setSeq fun q => q.keepFragment lvl f
            pure f
          else Op.raise .checksumError : Op Fragment) fun x s => x = f ∧ s.clean ∧ InEnv c 0 E' P' s := by
    refine .bind (transceive_in hs hE hx hP (by simp [anticollFrame]; omega) nofun (by simpa [Fragment.bytes] using h5)
      her) fun x => ?_
    intro s ⟨hxx, hcl, h⟩
    subst hxx
    have ht : f.bytes.take maxRx = f.bytes := rfl
    simp only
    rw [ht, fragmentOf_bytes]
    simp only
    rw [if_pos hv]
    exact ⟨f, _, rfl, rfl, hcl, h.1, h.2.1, h.2.2.1, h.2.2.2.1, hP' _ h.2.2.2.2⟩
  by_cases h1 : lvl = .one
  · rw [if_pos h1]
    exact .bind (bitframing_in hs hE hP.place (v := fullFrameBits) (b' := 0) (by decide) (by decide)) fun _ => rest
  · rw [if_neg h1]
    have : b = 0 := hb (by cases lvl with | one => exact absurd rfl h1 | two => rfl)
    subst this
    exact rest

/-- The anti-collision answers that end SELECT_TAG, and what they are raised as: a failed exchange, another length than
5, tested before the checksum, and five bytes whose XOR is wrong (R226). -/
inductive RejectsFragment (c : Config) (quiet : Prop) : CardOutcome → OpOutcome → Prop
  | exchange {o : CardOutcome} {k : OpOutcome} (h : Fails c quiet o k) : RejectsFragment c quiet o k
  | length {r : List Byte} {lb : BitVec 3} {er : Byte} (hr : r.length ≤ c.fifoDepth) (her : errorFails er = false)
      (h : r.length ≠ 5) : RejectsFragment c quiet (.response r lb er) .protocolError
  | checksum {f : Fragment} {lb : BitVec 3} {er : Byte} (her : errorFails er = false) (h : f.valid = false) :
      RejectsFragment c quiet (.response f.bytes lb er) .checksumError

/-- Steps 1 and 2 at a level, when the answer is rejected (R226). -/
theorem anticollision_rejects {b : BitVec 3} {E : Environment → Prop} (hE : ∀ e, E e → Prompt cd rd e)
    (lvl : CascadeLevel) (hb : lvl = .two → b = 0) {quiet : Prop} {o : CardOutcome} {k : OpOutcome}
    (hk : RejectsFragment c quiet o k) (hx : ∀ e, E e → (e.exchange (anticollFrame c lvl) 0).1 = o)
    {P : Sequencer → Prop} (hP : Stable P) (hl : ∀ q, P q → P { q with level := lvl }) (h5 : 5 ≤ c.fifoDepth) :
    Op.Raises (Settled c b E P quiet) (anticollision lvl) k fun s => s.cfg = c ∧ P s.seq := by
  refine .withCfg (fun _ h => h.1.1) ?_
  refine .after (M := fun _ => Settled c b E P quiet) (fun s h => ⟨(), _, rfl, ⟨h.1.1, h.1.2.1, h.1.2.2.1, h.1.2.2.2.1,
    hl _ h.1.2.2.2.2⟩, h.2⟩) fun _ => ?_
  have rest : Op.Raises (Settled c 0 E P quiet) (do
        let (rx, _) ← transceive (anticollFrame c lvl)
        match fragmentOf rx with
        | none => Op.raise .protocolError
        | some f =>
          if f.valid then do
            Op.setSeq fun q => q.keepFragment lvl f
            pure f
          else Op.raise .checksumError : Op Fragment) k fun s => s.cfg = c ∧ P s.seq := by
    have h2 : (anticollFrame c lvl).length ≤ c.fifoDepth := by simp [anticollFrame]; omega
    cases hk with
    | exchange hk =>
      exact .bind ((transceive_fails hs hE hk (E' := fun _ => True) (fun e he => ⟨hx e he, trivial⟩) hP h2).imp
        fun _ h => ⟨h.1, h.2.1⟩)
    | length hr her h =>
      intro s hs'
      refine Op.Raises.after (transceive_answered hs hE (E' := fun _ => True) (fun e he => ⟨hx e he, trivial⟩) hP h2 hr
        her) (fun x => ?_) s hs'.1
      obtain ⟨rx, bits⟩ := x
      rintro t ⟨hlen, -, -, ht⟩
      simp only at hlen ⊢
      rw [show fragmentOf rx = none from ?_]
      · exact ⟨t, rfl, ht.1, ht.2.2.2.2⟩
      · unfold fragmentOf
        split
        · simp only [List.length_cons, List.length_nil, maxRx] at hlen; omega
        · rfl
    | checksum her h =>
      intro s hs'
      refine Op.Raises.after (transceive_answered hs hE (E' := fun _ => True) (fun e he => ⟨hx e he, trivial⟩) hP h2
        (by simpa [Fragment.bytes] using h5) her) (fun x => ?_) s hs'.1
      rintro t ⟨-, hxx, -, ht⟩
      rw [hxx nofun]
      simp only
      rw [show ∀ f : Fragment, f.bytes.take maxRx = f.bytes from fun _ => rfl, fragmentOf_bytes]
      simp only
      rw [if_neg (by rw [h]; nofun)]
      exact ⟨t, rfl, ht.1, ht.2.2.2.2⟩
  by_cases h1 : lvl = .one
  · rw [if_pos h1]
    exact .after (bitframing_settled hs hE hP.place (v := fullFrameBits) (b' := 0) (by decide) (by decide)) fun _ => rest
  · rw [if_neg h1]
    have : b = 0 := hb (by cases lvl with | one => exact absurd rfl h1 | two => rfl)
    subst this
    exact rest

end

section
variable {c : Config} {cd rd : Nat} (hs : Standard c cd rd)
include hs

/-! ## Frames with a CRC -/

/-- CRC_CALC of a sequence the FIFO holds. -/
theorem crcCalc_settled {b : BitVec 3} {E E' : Environment → Prop} (hE : ∀ e, E e → Prompt cd rd e)
    (hn : ∀ e, E e → E' e.afterDelay) {P : Sequencer → Prop} (hP : Stable P) {data : List Byte}
    (hf : data.length ≤ c.fifoDepth) {quiet : Prop} :
    Op.Ensures (Settled c b E P quiet) (crcCalc data) fun r s =>
      r = (crcLow (crcFn c.crc data), crcHigh (crcFn c.crc data)) ∧ Settled c b E' P quiet s := by
  intro s ⟨⟨h1, hq, hb, he, hp⟩, hcl⟩
  have hd : (flagByte (clearedDiv c s.tgt.divFlags)).hasAny c.masks.crcIrq = false := by
    rw [clearedDiv, hs.store]; exact clearCrc_store _
  obtain ⟨r, t, et, hr, ht⟩ := crcCalc_run hs.wf (g := s.tgt) hq (hE _ he).1 hP hf hd (hE _ he).crc hs.crc s
    ⟨h1, rfl, rfl, hp⟩
  refine ⟨r, t, et, hr, ⟨ht.1, ?_, ?_, ?_, ht.2.2.2⟩, fun h => ?_⟩
  · rw [ht.2.1]; exact ⟨rfl, rfl⟩
  · rw [ht.2.1, ← hb]
    have h := named_reg_setReg hs.wf.1 s.tgt.flush (n := .bitframing) (k := .command) nofun (c.codes.byte .calccrc)
    exact congrArg _ h
  · rw [ht.2.2.1]; exact hn _ he
  · rw [State.clean, ht.2.1]; exact errorFails_flush (hcl h)

theorem crcCalc_in {b : BitVec 3} {E E' : Environment → Prop} (hE : ∀ e, E e → Prompt cd rd e)
    (hn : ∀ e, E e → E' e.afterDelay) {P : Sequencer → Prop} (hP : Stable P) {data : List Byte}
    (hf : data.length ≤ c.fifoDepth) :
    Op.Ensures (InEnv c b E P) (crcCalc data) fun r s =>
      r = (crcLow (crcFn c.crc data), crcHigh (crcFn c.crc data)) ∧ InEnv c b E' P s := fun s h =>
  ((crcCalc_settled hs hE hn hP hf (quiet := False)).imp fun _ _ h => ⟨h.1, h.2.1⟩) s ⟨h, nofun⟩

/-- A transceive of a body with its CRC. -/
theorem transceiveCrc_in {b : BitVec 3} {E E' E'' : Environment → Prop} (hE : ∀ e, E e → Prompt cd rd e)
    (hE' : ∀ e, E' e → Prompt cd rd e) (hn : ∀ e, E e → E' e.afterDelay) {body : List Byte} {r : List Byte}
    {lb : BitVec 3} {er : Byte}
    (hx : ∀ e, E' e → (e.exchange (body ++ crcBytes (crcFn c.crc body)) b).1 = .response r lb er ∧
      E'' (e.exchange (body ++ crcBytes (crcFn c.crc body)) b).2.afterDelay)
    {P : Sequencer → Prop} (hP : Stable P) (hf : body.length + 2 ≤ c.fifoDepth) (h0 : r ≠ [])
    (hr : r.length ≤ c.fifoDepth) (her : errorFails er = false) :
    Op.Ensures (InEnv c b E P) (transceiveCrc body) fun x s =>
      x = (r.take maxRx, rxBits (BitVec.ofNat 8 r.length) (lb.setWidth 8)) ∧ s.clean ∧ InEnv c b E'' P s := by
  refine .bind (crcCalc_in hs hE hn hP (by omega)) fun x => ?_
  intro s ⟨hxx, h⟩
  subst hxx
  exact transceive_in hs.toQuick hE' hx hP (by simp only [crcBytes, List.length_append, List.length_cons, List.length_nil]; omega)
    h0 hr her s h

/-- Step 3 at a level: the select exchange (R227). -/
theorem selectFragment_in {b : BitVec 3} {E E' E'' : Environment → Prop} (hE : ∀ e, E e → Prompt cd rd e)
    (hE' : ∀ e, E' e → Prompt cd rd e) (hn : ∀ e, E e → E' e.afterDelay) (lvl : CascadeLevel) {f : Fragment}
    {sak x y : Byte} {lb : BitVec 3} {er : Byte}
    (hx : ∀ e, E' e → (e.exchange (selectBody c lvl f.u0 f.u1 f.u2 f.u3 f.bcc ++
        crcBytes (crcFn c.crc (selectBody c lvl f.u0 f.u1 f.u2 f.u3 f.bcc))) b).1 = .response [sak, x, y] lb er ∧
      E'' (e.exchange (selectBody c lvl f.u0 f.u1 f.u2 f.u3 f.bcc ++
        crcBytes (crcFn c.crc (selectBody c lvl f.u0 f.u1 f.u2 f.u3 f.bcc))) b).2.afterDelay)
    {P : Sequencer → Prop} (hP : Stable P) (h9 : 9 ≤ c.fifoDepth) (her : errorFails er = false) :
    Op.Ensures (InEnv c b E P) (selectFragment lvl f) fun z s => z = sak ∧ s.clean ∧ InEnv c b E'' P s := by
  refine .withCfg (fun _ h => h.1) (.bind (transceiveCrc_in hs hE hE' hn hx hP (by simpa [selectBody] using h9) nofun
    (by simp; omega) her) fun z => ?_)
  intro s ⟨hz, h⟩
  subst hz
  exact ⟨sak, s, rfl, rfl, h⟩

/-- A transceive of a body with its CRC whose answer fails it. -/
theorem transceiveCrc_fails {b : BitVec 3} {E E' E'' : Environment → Prop} (hE : ∀ e, E e → Prompt cd rd e)
    (hE' : ∀ e, E' e → Prompt cd rd e) (hn : ∀ e, E e → E' e.afterDelay) {body : List Byte} {quiet : Prop}
    {o : CardOutcome} {k : OpOutcome} (hk : Fails c quiet o k)
    (hx : ∀ e, E' e → (e.exchange (body ++ crcBytes (crcFn c.crc body)) b).1 = o ∧
      E'' (e.exchange (body ++ crcBytes (crcFn c.crc body)) b).2.afterDelay)
    {P : Sequencer → Prop} (hP : Stable P) (hf : body.length + 2 ≤ c.fifoDepth) :
    Op.Raises (Settled c b E P quiet) (transceiveCrc body) k
      fun s => s.cfg = c ∧ P s.seq ∧ (k ≠ .noTag → E'' s.env) := by
  refine .after (crcCalc_settled hs hE hn hP (by omega)) fun x => ?_
  intro s ⟨hxx, h⟩
  subst hxx
  exact transceive_fails hs.toQuick hE' hk hx hP
    (by simp only [crcBytes, List.length_append, List.length_cons, List.length_nil]; omega) s h

/-- A transceive of a body with its CRC whose answer fits the FIFO and carries no error of ERR_MASK. -/
theorem transceiveCrc_answered {b : BitVec 3} {E E' E'' : Environment → Prop} (hE : ∀ e, E e → Prompt cd rd e)
    (hE' : ∀ e, E' e → Prompt cd rd e) (hn : ∀ e, E e → E' e.afterDelay) {body : List Byte} {r : List Byte}
    {lb : BitVec 3} {er : Byte}
    (hx : ∀ e, E' e → (e.exchange (body ++ crcBytes (crcFn c.crc body)) b).1 = .response r lb er ∧
      E'' ((e.exchange (body ++ crcBytes (crcFn c.crc body)) b).2.afterDelay.afterDrain r))
    {P : Sequencer → Prop} (hP : Stable P) (hf : body.length + 2 ≤ c.fifoDepth)
    (hr : r.length ≤ c.fifoDepth) (her : errorFails er = false) :
    Op.Ensures (InEnv c b E P) (transceiveCrc body) fun x s => x.1.length = min (max r.length 1) maxRx ∧
      s.clean ∧ InEnv c b E'' P s := by
  refine .bind (crcCalc_in hs hE hn hP (by omega)) fun x => ?_
  intro s ⟨hxx, h⟩
  subst hxx
  exact ((transceive_answered hs.toQuick hE' hx hP
    (by simp only [crcBytes, List.length_append, List.length_cons, List.length_nil]; omega) hr her).imp
    fun _ _ h => ⟨h.1, h.2.2⟩) s h

/-- The select answers that end SELECT_TAG, and what they are raised as: a failed exchange, another length than 3
(R227). -/
inductive RejectsSak (c : Config) (quiet : Prop) : CardOutcome → OpOutcome → Prop
  | exchange {o : CardOutcome} {k : OpOutcome} (h : Fails c quiet o k) : RejectsSak c quiet o k
  | length {r : List Byte} {lb : BitVec 3} {er : Byte} (hr : r.length ≤ c.fifoDepth) (her : errorFails er = false)
      (h : r.length ≠ 3) : RejectsSak c quiet (.response r lb er) .protocolError

/-- Step 3 at a level, when the answer is rejected (R227). -/
theorem selectFragment_rejects {b : BitVec 3} {E E' : Environment → Prop} (hE : ∀ e, E e → Prompt cd rd e)
    (hE' : ∀ e, E' e → Prompt cd rd e) (hn : ∀ e, E e → E' e.afterDelay) (lvl : CascadeLevel) {f : Fragment}
    {quiet : Prop} {o : CardOutcome} {k : OpOutcome} (hk : RejectsSak c quiet o k)
    (hx : ∀ e, E' e → (e.exchange (selectBody c lvl f.u0 f.u1 f.u2 f.u3 f.bcc ++
        crcBytes (crcFn c.crc (selectBody c lvl f.u0 f.u1 f.u2 f.u3 f.bcc))) b).1 = o)
    {P : Sequencer → Prop} (hP : Stable P) (h9 : 9 ≤ c.fifoDepth) :
    Op.Raises (Settled c b E P quiet) (selectFragment lvl f) k fun s => s.cfg = c ∧ P s.seq := by
  refine .withCfg (fun _ h => h.1.1) ?_
  have hf : (selectBody c lvl f.u0 f.u1 f.u2 f.u3 f.bcc).length + 2 ≤ c.fifoDepth := by simpa [selectBody] using h9
  cases hk with
  | exchange hk =>
    exact .bind ((transceiveCrc_fails hs hE hE' hn hk (E'' := fun _ => True) (fun e he => ⟨hx e he, trivial⟩) hP hf).imp
      fun _ h => ⟨h.1, h.2.1⟩)
  | length hr her h =>
    intro s hs'
    refine Op.Raises.after (transceiveCrc_answered hs hE hE' hn (E'' := fun _ => True) (fun e he => ⟨hx e he, trivial⟩)
      hP hf hr her) (fun x => ?_) s hs'.1
    obtain ⟨rx, bits⟩ := x
    rintro t ⟨hlen, -, ht⟩
    simp only at hlen ⊢
    split
    · simp only [List.length_cons, List.length_nil, maxRx] at hlen; omega
    · exact ⟨t, rfl, ht.1, ht.2.2.2.2⟩

end

end Sys2Proof.Machine
end

