-- ==== Sys2Proof/Laws/Sessions.lean ====
section
/-! SUPPORT. SELECT_TAG, READ_BLOCK, READ_IMAGE, WRITE_BLOCK over the reference target with a scripted card, and with
the reference tag (R303). -/

namespace Sys2Proof.Machine

/-! ## A scripted card -/

/-- Prompt events and this script of card answers. -/
abbrev Scripted (cd rd : Nat) (feed : List CardOutcome) (e : Environment) : Prop := Prompt cd rd e ∧ e.cardFeed = feed

theorem Scripted.prompt {cd rd : Nat} {feed : List CardOutcome} (e : Environment) (h : Scripted cd rd feed e) :
    Prompt cd rd e := h.1

theorem Scripted.afterDelay {cd rd : Nat} {feed : List CardOutcome} (e : Environment) (h : Scripted cd rd feed e) :
    Scripted cd rd feed e.afterDelay := ⟨⟨h.1.1, h.1.2.1, by simp [Environment.afterDelay, h.1.2.2]⟩, h.2⟩

theorem Scripted.exchange {cd rd : Nat} {o : CardOutcome} {feed : List CardOutcome} (frame : List Byte) (n : BitVec 3)
    (e : Environment) (h : Scripted cd rd (o :: feed) e) :
    (e.exchange frame n).1 = o ∧ Scripted cd rd feed (e.exchange frame n).2.afterDelay := by
  have key : e.exchange frame n = (o, { e with cardFeed := feed, answer := some o }) := by
    rw [Environment.exchange, h.2]
  rw [key]
  exact ⟨rfl, Scripted.afterDelay _ ⟨h.1, rfl⟩⟩

section
variable {c : Config} {cd rd : Nat} (hs : Standard c cd rd)
include hs

/-! ## SELECT_TAG -/

/-- A card whose anti-collision answer at a level is `f` and whose select answer is `sak` with two more bytes: from
an environment `E` to an environment `E'`. -/
structure Answers (c : Config) (cd rd : Nat) (lvl : CascadeLevel) (f : Fragment) (sak : Byte)
    (E E' : Environment → Prop) : Prop where
  valid : f.valid = true
  run : ∃ E1 E2 : Environment → Prop, ∃ lb lb' er er' x y,
    errorFails er = false ∧ errorFails er' = false ∧ (∀ e, E e → Prompt cd rd e) ∧ (∀ e, E1 e → Prompt cd rd e) ∧
    (∀ e, E2 e → Prompt cd rd e) ∧ (∀ e, E1 e → E2 e.afterDelay) ∧
    (∀ e, E e → (e.exchange (anticollFrame c lvl) 0).1 = .response f.bytes lb er ∧
      E1 (e.exchange (anticollFrame c lvl) 0).2.afterDelay) ∧
    (∀ e, E2 e → (e.exchange (selectBody c lvl f.u0 f.u1 f.u2 f.u3 f.bcc ++
        crcBytes (crcFn c.crc (selectBody c lvl f.u0 f.u1 f.u2 f.u3 f.bcc))) 0).1 = .response [sak, x, y] lb' er' ∧
      E' (e.exchange (selectBody c lvl f.u0 f.u1 f.u2 f.u3 f.bcc ++
        crcBytes (crcFn c.crc (selectBody c lvl f.u0 f.u1 f.u2 f.u3 f.bcc))) 0).2.afterDelay)

theorem selectLevel_in {lvl : CascadeLevel} {f : Fragment} {sak : Byte} {E E' : Environment → Prop}
    (ha : Answers c cd rd lvl f sak E E') {b : BitVec 3} (hb : lvl = .two → b = 0) (h9 : 9 ≤ c.fifoDepth)
    {P P' : Sequencer → Prop} (hP : Stable P) (hl : ∀ q, P q → P { q with level := lvl }) (hP' : Stable P')
    (hk : ∀ q, P q → P' (q.keepFragment lvl f)) :
    Op.Ensures (InEnv c b E P) (selectLevel lvl) fun x s => x = cascadeContinues sak ∧ s.clean ∧ InEnv c 0 E' P' s := by
  obtain ⟨E1, E2, lb, lb', er, er', x, y, h1, h2, h3, h4, h5, h6, h7, h8⟩ := ha.run
  refine .bind (anticollision_in hs.toQuick h3 lvl hb h7 hP hl hk (by omega) h1 ha.valid) fun f' => ?_
  rintro s ⟨hf, -, h⟩
  subst hf
  refine Op.Ensures.bind (M := fun z s => z = sak ∧ s.clean ∧ InEnv c 0 E' P' s)
    (selectFragment_in hs h4 h5 h6 lvl h8 hP' h9 h2) (fun z => ?_) s h
  intro s ⟨hz, h⟩
  exact ⟨_, s, rfl, by rw [hz], h⟩

/-- A 4-byte identifier: the first SAK does not continue the cascade (R228). -/
theorem selectTag_one {f : Fragment} {sak : Byte} {E E' : Environment → Prop}
    (ha : Answers c cd rd .one f sak E E') (hk : cascadeContinues sak = false) {b : BitVec 3} (h9 : 9 ≤ c.fifoDepth) :
    Op.Ensures (InEnv c b E fun _ => True) selectTag fun x s => x = f.uidBytes ∧
      InEnv c 0 E' (fun q => q.uid = f.uidBytes ∧ q.nfrag = 1 ∧ q.frag1 = f) s := by
  refine .bind (M := fun _ => InEnv c b E fun q => q.nfrag = 0) (fun s h => ⟨(), _, rfl, h.1, h.2.1, h.2.2.1, h.2.2.2.1,
    rfl⟩) fun _ => ?_
  refine .bind (selectLevel_in hs ha nofun h9 (P := fun q => q.nfrag = 0) (P' := fun q => q.nfrag = 1 ∧ q.frag1 = f)
    ⟨fun q n h => h, fun g hg q h => by cases hg <;> exact h⟩ (fun q h => h)
    ⟨fun q n h => h, fun g hg q h => by cases hg <;> exact h⟩
    (fun q h => ⟨by simp [Sequencer.keepFragment, h], rfl⟩)) fun more => ?_
  rintro s ⟨hm, -, h⟩
  rw [hm, hk, if_pos rfl]
  refine ⟨_, _, rfl, ?_, h.1, h.2.1, h.2.2.1, h.2.2.2.1, ?_, h.2.2.2.2⟩ <;>
    simp [Sequencer.fragments, h.2.2.2.2.1, h.2.2.2.2.2, combine]

/-- A 7-byte identifier: the first SAK continues the cascade, the second does not (R223, R228). -/
theorem selectTag_two {f1 f2 : Fragment} {sak1 sak2 : Byte} {E E' E'' : Environment → Prop}
    (ha : Answers c cd rd .one f1 sak1 E E') (h1 : cascadeContinues sak1 = true)
    (hb : Answers c cd rd .two f2 sak2 E' E'') (h2 : cascadeContinues sak2 = false) {b : BitVec 3}
    (h9 : 9 ≤ c.fifoDepth) :
    Op.Ensures (InEnv c b E fun _ => True) selectTag fun x s => x = f1.uidBytes.drop 1 ++ f2.uidBytes ∧
      InEnv c 0 E'' (fun q => q.uid = f1.uidBytes.drop 1 ++ f2.uidBytes ∧ q.nfrag = 2 ∧ q.frag1 = f1 ∧
        q.frag2 = f2) s := by
  refine .bind (M := fun _ => InEnv c b E fun q => q.nfrag = 0) (fun s h => ⟨(), _, rfl, h.1, h.2.1, h.2.2.1, h.2.2.2.1,
    rfl⟩) fun _ => ?_
  refine .bind (selectLevel_in hs ha nofun h9 (P := fun q => q.nfrag = 0) (P' := fun q => q.nfrag = 1 ∧ q.frag1 = f1)
    ⟨fun q n h => h, fun g hg q h => by cases hg <;> exact h⟩ (fun q h => h)
    ⟨fun q n h => h, fun g hg q h => by cases hg <;> exact h⟩
    (fun q h => ⟨by simp [Sequencer.keepFragment, h], rfl⟩)) fun more => ?_
  rintro s ⟨hm, -, h⟩
  rw [hm, h1, if_neg nofun]
  refine Op.Ensures.bind (selectLevel_in hs hb (fun _ => rfl) h9 (P := fun q => q.nfrag = 1 ∧ q.frag1 = f1)
    (P' := fun q => q.nfrag = 2 ∧ q.frag1 = f1 ∧ q.frag2 = f2)
    ⟨fun q n h => h, fun g hg q h => by cases hg <;> exact h⟩ (fun q h => h)
    ⟨fun q n h => h, fun g hg q h => by cases hg <;> exact h⟩
    (fun q h => ⟨by simp [Sequencer.keepFragment, h.1], h.2, rfl⟩)) (fun more => ?_) s h
  rintro s ⟨hm, -, h⟩
  rw [hm, h2, if_pos rfl]
  refine ⟨_, _, rfl, ?_, h.1, h.2.1, h.2.2.1, h.2.2.2.1, ?_, h.2.2.2.2⟩ <;>
    simp [Sequencer.fragments, h.2.2.2.2.1, h.2.2.2.2.2, combine]

/-- "level 3 is unsupported": the second SAK continues the cascade (R229). -/
theorem selectTag_three {f1 f2 : Fragment} {sak1 sak2 : Byte} {E E' E'' : Environment → Prop}
    (ha : Answers c cd rd .one f1 sak1 E E') (h1 : cascadeContinues sak1 = true)
    (hb : Answers c cd rd .two f2 sak2 E' E'') (h2 : cascadeContinues sak2 = true) {b : BitVec 3}
    (h9 : 9 ≤ c.fifoDepth) :
    Op.Raises (InEnv c b E fun _ => True) selectTag .unsupportedCascade fun s => s.cfg = c ∧ s.seq.uid = [] := by
  refine .after (M := fun _ => InEnv c b E fun q => q.uid = []) (fun s h => ⟨(), _, rfl, h.1, h.2.1, h.2.2.1, h.2.2.2.1,
    rfl⟩) fun _ => ?_
  have st : Stable fun q : Sequencer => q.uid = [] := ⟨fun q n h => h, fun g hg q h => by cases hg <;> exact h⟩
  refine .after (selectLevel_in hs ha nofun h9 st (fun q h => h) st (fun q h => h)) fun more => ?_
  rintro s ⟨hm, -, h⟩
  rw [hm, h1, if_neg nofun]
  refine Op.Raises.after (selectLevel_in hs hb (fun _ => rfl) h9 st (fun q h => h) st (fun q h => h)) (fun more => ?_) s h
  rintro s ⟨hm, -, h⟩
  rw [hm, h2, if_neg nofun]
  exact ⟨s, rfl, h.1, h.2.2.2.2⟩

omit hs in
/-- SELECT_TAG, once its first step is done: whatever it then raises leaves no identifier (R225 step 1, R26). -/
theorem selectTag_raises {E : Environment → Prop} {quiet : Prop} {k : OpOutcome} {b : BitVec 3}
    (h : Op.Raises (Settled c b E (fun q => q.uid = []) quiet) (do
      let more ← selectLevel .one
      if more = false then completeSelect
      else do
        let more ← selectLevel .two
        if more = false then completeSelect else Op.raise .unsupportedCascade) k
      fun s => s.cfg = c ∧ s.seq.uid = []) :
    Op.Raises (Settled c b E (fun _ => True) quiet) selectTag k fun s => s.cfg = c ∧ s.seq.uid = [] :=
  .after (M := fun _ => Settled c b E (fun q => q.uid = []) quiet) (fun _ h => ⟨(), _, rfl, ⟨h.1.1, h.1.2.1, h.1.2.2.1,
    h.1.2.2.2.1, rfl⟩, h.2⟩) fun _ => h

/-- A level whose anti-collision answer is rejected, or whose select answer is, after a fragment that was accepted: from
an environment `E`. -/
inductive RejectsLevel (c : Config) (cd rd : Nat) (lvl : CascadeLevel) (quiet : Prop) (E : Environment → Prop)
    (k : OpOutcome) : Prop
  | fragment {o : CardOutcome} (hk : RejectsFragment c quiet o k) (hE : ∀ e, E e → Prompt cd rd e)
      (hx : ∀ e, E e → (e.exchange (anticollFrame c lvl) 0).1 = o) : RejectsLevel c cd rd lvl quiet E k
  | sak {o : CardOutcome} {f : Fragment} {E1 E2 : Environment → Prop} {lb : BitVec 3} {er : Byte}
      (hk : RejectsSak c quiet o k) (hv : f.valid = true) (her : errorFails er = false)
      (hE : ∀ e, E e → Prompt cd rd e) (hE1 : ∀ e, E1 e → Prompt cd rd e) (hE2 : ∀ e, E2 e → Prompt cd rd e)
      (hn : ∀ e, E1 e → E2 e.afterDelay)
      (ha : ∀ e, E e → (e.exchange (anticollFrame c lvl) 0).1 = .response f.bytes lb er ∧
        E1 (e.exchange (anticollFrame c lvl) 0).2.afterDelay)
      (hx : ∀ e, E2 e → (e.exchange (selectBody c lvl f.u0 f.u1 f.u2 f.u3 f.bcc ++
        crcBytes (crcFn c.crc (selectBody c lvl f.u0 f.u1 f.u2 f.u3 f.bcc))) 0).1 = o) :
      RejectsLevel c cd rd lvl quiet E k

theorem selectLevel_rejects {lvl : CascadeLevel} {quiet : Prop} {E : Environment → Prop} {k : OpOutcome}
    (hk : RejectsLevel c cd rd lvl quiet E k) {b : BitVec 3} (hb : lvl = .two → b = 0) (h9 : 9 ≤ c.fifoDepth)
    {P : Sequencer → Prop} (hP : Stable P) (hl : ∀ q, P q → P { q with level := lvl })
    (hf : ∀ q f, P q → P (q.keepFragment lvl f)) :
    Op.Raises (Settled c b E P quiet) (selectLevel lvl) k fun s => s.cfg = c ∧ P s.seq := by
  cases hk with
  | fragment hk hE hx => exact .bind (anticollision_rejects hs.toQuick hE lvl hb hk hx hP hl (by omega))
  | sak hk hv her hE hE1 hE2 hn ha hx =>
    intro s h
    refine Op.Raises.after (anticollision_in hs.toQuick hE lvl hb ha hP hl (fun q h => hf q _ h) (by omega) her hv)
      (fun f' => ?_) s h.1
    rintro s ⟨rfl, hcl, h⟩
    exact (Op.Raises.bind (selectFragment_rejects hs hE1 hE2 hn lvl hk hx hP h9)) s ⟨h, fun _ => hcl⟩

/-- SELECT_TAG over a card whose answers end it at the first level. -/
theorem selectTag_rejects_one {quiet : Prop} {E : Environment → Prop} {k : OpOutcome}
    (hk : RejectsLevel c cd rd .one quiet E k) {b : BitVec 3} (h9 : 9 ≤ c.fifoDepth) :
    Op.Raises (Settled c b E (fun _ => True) quiet) selectTag k fun s => s.cfg = c ∧ s.seq.uid = [] :=
  selectTag_raises (.bind (selectLevel_rejects hs hk nofun h9 (P := fun q => q.uid = []) ⟨fun q n h => h, fun g hg q h => by
    cases hg <;> exact h⟩ (fun q h => h) fun q f h => h))

/-- SELECT_TAG over a card that lets the first level go on and ends the second: "there is no partial-resume" (R231). -/
theorem selectTag_rejects_two {f : Fragment} {sak : Byte} {quiet : Prop} {E E' : Environment → Prop} {k : OpOutcome}
    (ha : Answers c cd rd .one f sak E E') (h1 : cascadeContinues sak = true)
    (hk : RejectsLevel c cd rd .two quiet E' k) {b : BitVec 3} (h9 : 9 ≤ c.fifoDepth) :
    Op.Raises (Settled c b E (fun _ => True) quiet) selectTag k fun s => s.cfg = c ∧ s.seq.uid = [] := by
  have st : Stable fun q : Sequencer => q.uid = [] := ⟨fun q n h => h, fun g hg q h => by cases hg <;> exact h⟩
  refine selectTag_raises fun s h => Op.Raises.after (selectLevel_in hs ha nofun h9 st (fun q h => h) st fun q h => h)
    (fun more => ?_) s h.1
  rintro s ⟨rfl, hcl, h⟩
  rw [h1, if_neg nofun]
  exact (Op.Raises.bind (selectLevel_rejects hs hk (fun _ => rfl) h9 st (fun q h => h) fun q f h => h)) s
    ⟨h, fun _ => hcl⟩

/-! ## READ_BLOCK and WRITE_BLOCK -/

/-- READ_BLOCK returns the first sixteen bytes of the answer (R250). -/
theorem readBlock_in {b : BitVec 3} {E E' E'' : Environment → Prop} (hE : ∀ e, E e → Prompt cd rd e)
    (hE' : ∀ e, E' e → Prompt cd rd e) (hn : ∀ e, E e → E' e.afterDelay) {page : Byte} {r : List Byte}
    {lb : BitVec 3} {er : Byte}
    (hx : ∀ e, E' e → (e.exchange (readBody c page ++ crcBytes (crcFn c.crc (readBody c page))) b).1 =
        .response r lb er ∧ E'' (e.exchange (readBody c page ++ crcBytes (crcFn c.crc (readBody c page))) b).2.afterDelay)
    {P : Sequencer → Prop} (hP : Stable P) (h4 : 4 ≤ c.fifoDepth) (hr : r.length ≤ c.fifoDepth)
    (hlen : blockSize ≤ r.length) (her : errorFails er = false) :
    Op.Ensures (InEnv c b E P) (readBlock page) fun x s => x = r.take blockSize ∧ InEnv c b E'' P s := by
  have h0 : r ≠ [] := by intro h; rw [h] at hlen; exact absurd hlen (by decide)
  refine .withCfg (fun _ h => h.1) (.bind (transceiveCrc_in hs hE hE' hn hx hP (by simpa [readBody] using h4) h0 hr her)
    fun z => ?_)
  rintro s ⟨hz, -, h⟩
  subst hz
  simp only
  rw [if_neg (by rw [List.length_take]; simp only [maxRx, blockSize] at *; omega)]
  exact ⟨_, s, rfl, rfl, h⟩

/-- The read answers that end READ_BLOCK, and what they are raised as: a failed exchange, fewer than 16 bytes (R250). -/
inductive RejectsRead (c : Config) (quiet : Prop) : CardOutcome → OpOutcome → Prop
  | exchange {o : CardOutcome} {k : OpOutcome} (h : Fails c quiet o k) : RejectsRead c quiet o k
  | length {r : List Byte} {lb : BitVec 3} {er : Byte} (hr : r.length ≤ c.fifoDepth) (her : errorFails er = false)
      (h : r.length < blockSize) : RejectsRead c quiet (.response r lb er) .protocolError

/-- READ_BLOCK, when the answer is rejected (R250). -/
theorem readBlock_rejects {b : BitVec 3} {E E' : Environment → Prop} (hE : ∀ e, E e → Prompt cd rd e)
    (hE' : ∀ e, E' e → Prompt cd rd e) (hn : ∀ e, E e → E' e.afterDelay) {page : Byte} {quiet : Prop}
    {o : CardOutcome} {k : OpOutcome} (hk : RejectsRead c quiet o k)
    (hx : ∀ e, E' e → (e.exchange (readBody c page ++ crcBytes (crcFn c.crc (readBody c page))) b).1 = o)
    {P : Sequencer → Prop} (hP : Stable P) (h4 : 4 ≤ c.fifoDepth) :
    Op.Raises (Settled c b E P quiet) (readBlock page) k fun s => s.cfg = c ∧ P s.seq := by
  refine .withCfg (fun _ h => h.1.1) ?_
  have hf : (readBody c page).length + 2 ≤ c.fifoDepth := by simpa [readBody] using h4
  cases hk with
  | exchange hk =>
    exact .bind ((transceiveCrc_fails hs hE hE' hn hk (E'' := fun _ => True) (fun e he => ⟨hx e he, trivial⟩) hP hf).imp
      fun _ h => ⟨h.1, h.2.1⟩)
  | length hr her h =>
    intro s hs'
    refine Op.Raises.after (transceiveCrc_answered hs hE hE' hn (E'' := fun _ => True) (fun e he => ⟨hx e he, trivial⟩)
      hP hf hr her) (fun x => ?_) s hs'.1
    obtain ⟨rx, bits⟩ := x
    rintro t ⟨hlen, -, ht⟩
    simp only [maxRx] at hlen ⊢
    rw [if_pos (by simp only [blockSize] at *; omega)]
    exact ⟨t, rfl, ht.1, ht.2.2.2.2⟩

/-- WRITE_BLOCK discards the response, an empty one too (R257). -/
theorem writeBlock_in {b : BitVec 3} {E E' E'' : Environment → Prop} (hE : ∀ e, E e → Prompt cd rd e)
    (hE' : ∀ e, E' e → Prompt cd rd e) (hn : ∀ e, E e → E' e.afterDelay) {page : Byte} {data r : List Byte}
    {lb : BitVec 3} {er : Byte}
    (hx : ∀ e, E' e → (e.exchange (writeBody c page data ++ crcBytes (crcFn c.crc (writeBody c page data))) b).1 =
        .response r lb er ∧
      E'' ((e.exchange (writeBody c page data ++ crcBytes (crcFn c.crc (writeBody c page data))) b).2.afterDelay.afterDrain
        r))
    {P : Sequencer → Prop} (hP : Stable P) (hd : data.length = pageSize) (h8 : 8 ≤ c.fifoDepth)
    (hr : r.length ≤ c.fifoDepth) (her : errorFails er = false) :
    Op.Ensures (InEnv c b E P) (writeBlock page data) fun _ => InEnv c b E'' P := by
  refine .withCfg (fun _ h => h.1) ?_
  rw [if_neg (by rw [hd]; exact fun h => h rfl)]
  refine .bind (transceiveCrc_answered hs hE hE' hn hx hP (by simp [writeBody, hd, pageSize]; omega) hr her) fun z => ?_
  rintro s ⟨-, -, h⟩
  exact ⟨(), s, rfl, h⟩

/-- WRITE_BLOCK, when the exchange fails (R257). -/
theorem writeBlock_fails {b : BitVec 3} {E E' E'' : Environment → Prop} (hE : ∀ e, E e → Prompt cd rd e)
    (hE' : ∀ e, E' e → Prompt cd rd e) (hn : ∀ e, E e → E' e.afterDelay) {page : Byte} {data : List Byte} {quiet : Prop}
    {o : CardOutcome} {k : OpOutcome} (hk : Fails c quiet o k)
    (hx : ∀ e, E' e → (e.exchange (writeBody c page data ++ crcBytes (crcFn c.crc (writeBody c page data))) b).1 = o ∧
      E'' (e.exchange (writeBody c page data ++ crcBytes (crcFn c.crc (writeBody c page data))) b).2.afterDelay)
    {P : Sequencer → Prop} (hP : Stable P) (hd : data.length = pageSize) (h8 : 8 ≤ c.fifoDepth) :
    Op.Raises (Settled c b E P quiet) (writeBlock page data) k
      fun s => s.cfg = c ∧ P s.seq ∧ (k ≠ .noTag → E'' s.env) := by
  refine .withCfg (fun _ h => h.1.1) ?_
  rw [if_neg (by rw [hd]; exact fun h => h rfl)]
  exact .bind (transceiveCrc_fails hs hE hE' hn hk hx hP (by simp [writeBody, hd, pageSize]; omega))

/-! ## READ_IMAGE (R253) -/

/-- A card that answers the read of page `p` with `r`: from an environment `E` to an environment `E'`. -/
structure Reads (c : Config) (cd rd : Nat) (b : BitVec 3) (p : Byte) (r : List Byte) (E E' : Environment → Prop) :
    Prop where
  long : blockSize ≤ r.length
  fits : r.length ≤ c.fifoDepth
  run : ∃ E1 : Environment → Prop, ∃ lb er, errorFails er = false ∧ (∀ e, E e → Prompt cd rd e) ∧
    (∀ e, E1 e → Prompt cd rd e) ∧ (∀ e, E e → E1 e.afterDelay) ∧
    ∀ e, E1 e → (e.exchange (readBody c p ++ crcBytes (crcFn c.crc (readBody c p))) b).1 = .response r lb er ∧
      E' (e.exchange (readBody c p ++ crcBytes (crcFn c.crc (readBody c p))) b).2.afterDelay

theorem assembleBlock_in {b : BitVec 3} {n : Nat} {r : List Byte} {E E' : Environment → Prop}
    (hr : Reads c cd rd b (blockPage n) r E E') (h4 : 4 ≤ c.fifoDepth) (keep : Nat) (hk : keep ≤ blockSize)
    (a : List Byte) {R : Sequencer → Prop} (hR : Stable R) (hb : ∀ q k, R q → R { q with blk := k })
    (ha : ∀ q s, R q → R { q with acc := s }) :
    Op.Ensures (InEnv c b E fun q => R q ∧ q.acc = a) (assembleBlock n keep) fun _ =>
      InEnv c b E' fun q => R q ∧ q.acc = a ++ r.take keep := by
  obtain ⟨E1, lb, er, her, h1, h2, h3, h5⟩ := hr.run
  have st : Stable fun q : Sequencer => R q ∧ q.acc = a := ⟨fun q n h => ⟨hR.place q n h.1, h.2⟩, fun f hf q h =>
    ⟨hR.update f hf q h.1, by have := h.2; cases hf <;> exact this⟩⟩
  refine .bind (M := fun _ => InEnv c b E fun q => R q ∧ q.acc = a) (fun s h => ⟨(), _, rfl, h.1, h.2.1, h.2.2.1,
    h.2.2.2.1, hb _ _ h.2.2.2.2.1, h.2.2.2.2.2⟩) fun _ => ?_
  refine .bind (readBlock_in hs h1 h2 h3 h5 st h4 hr.fits hr.long her) fun rx => ?_
  intro s ⟨hx, h⟩
  subst hx
  refine ⟨(), _, rfl, h.1, h.2.1, h.2.2.1, h.2.2.2.1, ha _ _ h.2.2.2.2.1, ?_⟩
  change _ ++ _ = _
  rw [h.2.2.2.2.2, List.take_take, Nat.min_eq_left hk]

theorem assembleBlocks_in {b : BitVec 3} (h4 : 4 ≤ c.fifoDepth) {R : Sequencer → Prop} (hR : Stable R)
    (hb : ∀ q k, R q → R { q with blk := k }) (ha : ∀ q s, R q → R { q with acc := s }) {E : Nat → Environment → Prop}
    {r : Nat → List Byte} (n m : Nat) (hr : ∀ i, m ≤ i → i < m + n → Reads c cd rd b (blockPage i) (r i) (E i) (E (i + 1)))
    (a : List Byte) :
    Op.Ensures (InEnv c b (E m) fun q => R q ∧ q.acc = a) (assembleBlocks n m) fun _ =>
      InEnv c b (E (m + n)) fun q => R q ∧ q.acc = a ++ (List.range' m n).flatMap fun i => (r i).take blockSize := by
  induction n generalizing m a with
  | zero => exact fun s h => ⟨(), s, rfl, by simpa using h⟩
  | succ n ih =>
    refine .bind (assembleBlock_in hs (hr m (Nat.le_refl _) (by omega)) h4 blockSize (Nat.le_refl _) a hR hb ha)
      fun _ => ?_
    refine (ih (m + 1) (fun i h1 h2 => hr i (by omega) (by omega)) (a ++ (r m).take blockSize)).imp fun _ s h => ?_
    rw [List.range'_succ, List.flatMap_cons, ← List.append_assoc, show m + (n + 1) = m + 1 + n by omega]
    exact h

/-- READ_IMAGE assembles the answers' first bytes: sixteen of each full block, twelve of the last (R253, R254). -/
theorem readImage_in {b : BitVec 3} (h4 : 4 ≤ c.fifoDepth) {R : Sequencer → Prop} (hR : Stable R)
    (hb : ∀ q k, R q → R { q with blk := k }) (ha : ∀ q s, R q → R { q with acc := s })
    (hi : ∀ q s a p, R q → R { q with acc := a, img := s, imgPopulated := p }) {E : Nat → Environment → Prop} {r : Nat → List Byte}
    (hr : ∀ i, i ≤ fullBlocks → Reads c cd rd b (blockPage i) (r i) (E i) (E (i + 1))) :
    Op.Ensures (InEnv c b (E 0) R) readImage fun _ => InEnv c b (E (fullBlocks + 1)) fun q => R q ∧
      q.imgPopulated = true ∧
      q.img = ((List.range' 0 fullBlocks).flatMap fun i => (r i).take blockSize) ++ (r fullBlocks).take remBytes := by
  refine .bind (M := fun _ => InEnv c b (E 0) fun q => R q ∧ q.acc = []) (fun s h => ⟨(), _, rfl, h.1, h.2.1, h.2.2.1,
    h.2.2.2.1, hi s.seq s.seq.img [] false h.2.2.2.2, rfl⟩) fun _ => ?_
  refine .bind (assembleBlocks_in hs h4 hR hb ha fullBlocks 0 (fun i _ h => hr i (by omega)) []) fun _ => ?_
  rw [Nat.zero_add, if_pos (by decide)]
  refine .bind (assembleBlock_in hs (hr fullBlocks (Nat.le_refl _)) h4 remBytes (by decide) _ hR hb ha) fun _ => ?_
  intro s h
  exact ⟨(), _, rfl, h.1, h.2.1, h.2.2.1, h.2.2.2.1, hi s.seq s.seq.acc s.seq.acc true h.2.2.2.2.1, rfl, h.2.2.2.2.2⟩

end

/-! ## The reference tag (R296 to R303) -/

/-- Prompt events, nothing scripted, and the reference tag in this state. -/
abbrev Tagged (cd rd : Nat) (g : Tag) (e : Environment) : Prop :=
  Prompt cd rd e ∧ e.cardFeed = [] ∧ e.cardSource = .referenceTag ∧ e.tag = g

theorem Tagged.prompt {cd rd : Nat} {g : Tag} (e : Environment) (h : Tagged cd rd g e) : Prompt cd rd e := h.1

theorem Tagged.afterDelay {cd rd : Nat} {g : Tag} (e : Environment) (h : Tagged cd rd g e) :
    Tagged cd rd g e.afterDelay := ⟨⟨h.1.1, h.1.2.1, by simp [Environment.afterDelay, h.1.2.2]⟩, h.2⟩

theorem Tagged.exchange {cd rd : Nat} {g : Tag} (frame : List Byte) (n : BitVec 3) (e : Environment)
    (h : Tagged cd rd g e) : (e.exchange frame n).1 = (g.exchange frame n).1 ∧
      Tagged cd rd (g.exchange frame n).2 (e.exchange frame n).2.afterDelay := by
  have key : e.exchange frame n = ((g.exchange frame n).1,
      { e with tag := (g.exchange frame n).2, answer := some (g.exchange frame n).1 }) := by
    rw [Environment.exchange, h.2.1, h.2.2.1]; simp only [h.2.2.2]
  rw [key]
  exact ⟨rfl, Tagged.afterDelay _ ⟨h.1, h.2.1, h.2.2.1, rfl⟩⟩

/-- A frame followed by its CRC_A is well formed (R296). -/
theorem wellFormedBody_crc (body : List Byte) :
    wellFormedBody (body ++ crcBytes (crcA body)) 0 = some body := by
  have hl : (body ++ crcBytes (crcA body)).length - 2 = body.length := by simp [crcBytes]
  rw [wellFormedBody, hl, List.take_left, List.drop_left, if_pos ⟨rfl, by simp [crcBytes], rfl⟩]

/-- What the tag does with a body of at least one byte followed by its CRC (R296, R300 to R302). -/
theorem tagExchange_crc (g : Tag) {body : List Byte} (h : body ≠ []) :
    g.exchange (body ++ crcBytes (crcA body)) 0 = g.onBody body := by
  have hw := wellFormedBody_crc body
  match body, h with
  | [x], _ => rw [Tag.exchange, hw]
              all_goals simp [crcBytes]
  | x :: y :: rest, _ => rw [Tag.exchange, hw]
                         all_goals simp [crcBytes]

end Sys2Proof.Machine
end

