-- ==== Sys2Proof/Laws/TagRun.lean ====
section
/-! SUPPORT. READ_TAG and WRITE_BLOCK with the reference tag (R303): the identifier read is the tag's, and the image
read is its memory. -/

namespace Sys2Proof.Machine

/-- The first fragment of the tag (R298). -/
def Tag.fragment1 (g : Tag) : Fragment := ⟨0x88, g.byte 0, g.byte 1, g.byte 2, g.byte 3⟩
/-- The second fragment of the tag (R298). -/
def Tag.fragment2 (g : Tag) : Fragment := ⟨g.byte 4, g.byte 5, g.byte 6, g.byte 7, g.byte 8⟩

theorem fragment1_valid {g : Tag} (h : g.bccOk) : g.fragment1.valid = true := by
  simp [Fragment.valid, Tag.fragment1, bcc, h.1]

theorem fragment2_valid {g : Tag} (h : g.bccOk) : g.fragment2.valid = true := by
  simp [Fragment.valid, Tag.fragment2, bcc, h.2]

/-- The tag in another state. -/
def Tag.to (g : Tag) (st : TagState) : Tag := { g with st := st }

@[simp] theorem to_byte (g : Tag) (st : TagState) (a : Nat) : (g.to st).byte a = g.byte a := rfl

theorem tag_request (g : Tag) : g.exchange [0x26] 7 = (.response [0x44, 0x00] 0 0, g.to .ready1) := by
  rw [Tag.exchange]; rfl

theorem tag_anticoll1 (g : Tag) :
    (g.to .ready1).exchange [0x93, 0x20] 0 = (.response g.fragment1.bytes 0 0, g.to .ready1) := by
  rw [Tag.exchange]; rfl

theorem tag_anticoll2 (g : Tag) :
    (g.to .ready2).exchange [0x95, 0x20] 0 = (.response g.fragment2.bytes 0 0, g.to .ready2) := by
  rw [Tag.exchange]; rfl

theorem tag_select1 (g : Tag) : (g.to .ready1).onBody [0x93, 0x70, 0x88, g.byte 0, g.byte 1, g.byte 2, g.byte 3] =
    (.response [0x04, 0xDA, 0x17] 0 0, g.to .ready2) :=
  if_pos (c := [0x88, g.byte 0, g.byte 1, g.byte 2, g.byte 3] = (g.to .ready1).frag1) rfl

theorem tag_select2 (g : Tag) : (g.to .ready2).onBody [0x95, 0x70, g.byte 4, g.byte 5, g.byte 6, g.byte 7, g.byte 8] =
    (.response [0x00, 0xFE, 0x51] 0 0, g.to .active) :=
  if_pos (c := [g.byte 4, g.byte 5, g.byte 6, g.byte 7, g.byte 8] = (g.to .ready2).frag2) rfl

theorem tag_read (g : Tag) {p : Byte} (h : p.toNat < pageCount) : (g.to .active).onBody [0x30, p] =
    (.response (g.block p.toNat ++ crcBytes (crcA (g.block p.toNat))) 0 0, g.to .active) :=
  if_pos (c := p.toNat < pageCount) h

theorem tag_write (g : Tag) {p : Byte} (h : 2 ≤ p.toNat ∧ p.toNat < pageCount) (d0 d1 d2 d3 : Byte) :
    (g.to .active).onBody [0xA2, p, d0, d1, d2, d3] = (.response [0x0A] 4 0,
      { (g.to .active) with mem := Memory.writeBytes g.mem (pageSize * p.toNat) [d0, d1, d2, d3] }) :=
  if_pos (c := 2 ≤ p.toNat ∧ p.toNat < pageCount) h

/-- Two 7-byte identifiers' fragments combine to the serial number (R223, R298). -/
theorem fragments_serial (g : Tag) : g.fragment1.uidBytes.drop 1 ++ g.fragment2.uidBytes = g.serial := rfl

/-! ## The image -/

/-- The whole memory of the tag, in address order. -/
def Tag.bytes (g : Tag) : List Byte := (List.range imageSize).map g.byte

theorem block_take (g : Tag) (p : Nat) {n : Nat} (h : n ≤ blockSize) (tail : List Byte) :
    (g.block p ++ tail).take n = (List.range n).map fun i => g.byte ((pageSize * p + i) % imageSize) := by
  rw [List.take_append_of_le_length (by simpa [Tag.block] using h), Tag.block, ← List.map_take, List.take_range,
    Nat.min_eq_left h]

theorem blockPage_toNat {i : Nat} (h : i ≤ fullBlocks) : (blockPage i).toNat = pageSize * i := by
  have : fullBlocks = 33 := by decide
  rw [blockPage, BitVec.toNat_ofNat, Nat.mod_eq_of_lt (by simp only [pageSize]; omega)]

/-- The answer of the tag to the read of block `i`. -/
def Tag.answer (g : Tag) (i : Nat) : List Byte :=
  g.block (pageSize * i) ++ crcBytes (crcA (g.block (pageSize * i)))

/-- The blocks of an image laid end to end, and twelve bytes of the last, are the memory (R303). -/
theorem blocks_image (g : Tag) : ((List.range' 0 fullBlocks).flatMap fun i => (g.answer i).take blockSize) ++
    (g.answer fullBlocks).take remBytes = g.bytes := by
  have h : ∀ i, (g.answer i).take blockSize =
      ((List.range blockSize).map fun k => (pageSize * (pageSize * i) + k) % imageSize).map g.byte := fun i => by
    rw [Tag.answer, block_take g _ (Nat.le_refl _), List.map_map]; rfl
  have h' : (g.answer fullBlocks).take remBytes =
      ((List.range remBytes).map fun k => (pageSize * (pageSize * fullBlocks) + k) % imageSize).map g.byte := by
    rw [Tag.answer, block_take g _ (by decide), List.map_map]; rfl
  simp only [h]
  rw [h', ← List.map_flatMap, ← List.map_append, Tag.bytes]
  exact congrArg (List.map g.byte) (by decide +kernel)

section
variable {c : Config} {cd rd : Nat} (hk : c.card = .default) (hf : c.crc = .crcA)
include hk hf

theorem tag_answers1 {g : Tag} (hg : g.bccOk) :
    Answers c cd rd .one g.fragment1 0x04 (Tagged cd rd (g.to .ready1)) (Tagged cd rd (g.to .ready2)) where
  valid := fragment1_valid hg
  run := by
    refine ⟨Tagged cd rd (g.to .ready1), Tagged cd rd (g.to .ready1), 0, 0, 0, 0, 0xDA, 0x17, by decide, by decide,
      Tagged.prompt, Tagged.prompt, Tagged.prompt, Tagged.afterDelay, fun e h => ?_, fun e h => ?_⟩
    · have := Tagged.exchange (anticollFrame c .one) 0 e h
      simp only [anticollFrame, hk] at this ⊢
      rw [show (g.to .ready1).exchange [CardCodes.default.sel .one, nvbAnticoll] 0 = _ from tag_anticoll1 g] at this
      exact this
    · have := Tagged.exchange (selectBody c .one g.fragment1.u0 g.fragment1.u1 g.fragment1.u2 g.fragment1.u3
        g.fragment1.bcc ++ crcBytes (crcFn c.crc (selectBody c .one g.fragment1.u0 g.fragment1.u1 g.fragment1.u2
        g.fragment1.u3 g.fragment1.bcc))) 0 e h
      rw [hf] at this ⊢
      rw [crcFn, tagExchange_crc _ (by simp [selectBody])] at this
      simp only [selectBody, hk] at this ⊢
      rw [show (g.to .ready1).onBody [CardCodes.default.sel .one, nvbSelect, g.fragment1.u0, g.fragment1.u1,
        g.fragment1.u2, g.fragment1.u3, g.fragment1.bcc] = _ from tag_select1 g] at this
      exact this

theorem tag_answers2 {g : Tag} (hg : g.bccOk) :
    Answers c cd rd .two g.fragment2 0x00 (Tagged cd rd (g.to .ready2)) (Tagged cd rd (g.to .active)) where
  valid := fragment2_valid hg
  run := by
    refine ⟨Tagged cd rd (g.to .ready2), Tagged cd rd (g.to .ready2), 0, 0, 0, 0, 0xFE, 0x51, by decide, by decide,
      Tagged.prompt, Tagged.prompt, Tagged.prompt, Tagged.afterDelay, fun e h => ?_, fun e h => ?_⟩
    · have := Tagged.exchange (anticollFrame c .two) 0 e h
      simp only [anticollFrame, hk] at this ⊢
      rw [show (g.to .ready2).exchange [CardCodes.default.sel .two, nvbAnticoll] 0 = _ from tag_anticoll2 g] at this
      exact this
    · have := Tagged.exchange (selectBody c .two g.fragment2.u0 g.fragment2.u1 g.fragment2.u2 g.fragment2.u3
        g.fragment2.bcc ++ crcBytes (crcFn c.crc (selectBody c .two g.fragment2.u0 g.fragment2.u1 g.fragment2.u2
        g.fragment2.u3 g.fragment2.bcc))) 0 e h
      rw [hf] at this ⊢
      rw [crcFn, tagExchange_crc _ (by simp [selectBody])] at this
      simp only [selectBody, hk] at this ⊢
      rw [show (g.to .ready2).onBody [CardCodes.default.sel .two, nvbSelect, g.fragment2.u0, g.fragment2.u1,
        g.fragment2.u2, g.fragment2.u3, g.fragment2.bcc] = _ from tag_select2 g] at this
      exact this

variable (hd : 18 ≤ c.fifoDepth)
include hd

/-- The active tag answers the read of every page it has (R301). -/
theorem tag_reads (g : Tag) {p : Byte} (hp : p.toNat < pageCount) :
    Reads c cd rd 0 p (g.block p.toNat ++ crcBytes (crcA (g.block p.toNat))) (Tagged cd rd (g.to .active))
      (Tagged cd rd (g.to .active)) where
  long := by simp [Tag.block, crcBytes]
  fits := by simpa [Tag.block, crcBytes, blockSize] using hd
  run := by
    refine ⟨Tagged cd rd (g.to .active), 0, 0, by decide, Tagged.prompt, Tagged.prompt, Tagged.afterDelay, fun e h => ?_⟩
    have := Tagged.exchange (readBody c p ++ crcBytes (crcFn c.crc (readBody c p))) 0 e h
    rw [hf] at this ⊢
    rw [crcFn, tagExchange_crc _ (by simp [readBody])] at this
    simp only [readBody, hk] at this ⊢
    rw [show (g.to .active).onBody [CardCodes.default.readCmd, p] = _ from tag_read g hp] at this
    exact this

variable (hs : Standard c cd rd)
include hs

/-- READ_IMAGE of the active tag: the image is its memory (R303). -/
theorem readImage_tag (g : Tag) {R : Sequencer → Prop} (hR : Stable R) (hb : ∀ q k, R q → R { q with blk := k })
    (ha : ∀ q s, R q → R { q with acc := s }) (hi : ∀ q s a p, R q → R { q with acc := a, img := s, imgPopulated := p }) :
    Op.Ensures (InEnv c 0 (Tagged cd rd (g.to .active)) R) readImage fun _ =>
      InEnv c 0 (Tagged cd rd (g.to .active)) fun q => R q ∧ q.imgPopulated = true ∧ q.img = g.bytes := by
  have key := readImage_in hs (b := 0) (by omega) hR hb ha hi (E := fun _ => Tagged cd rd (g.to .active))
    (r := g.answer) fun i h => by
      have hn := blockPage_toNat h
      have := tag_reads (cd := cd) (rd := rd) hk hf hd g (p := blockPage i) (by
        have : fullBlocks = 33 := by decide
        rw [hn]; simp only [pageSize, pageCount]; omega)
      rw [hn] at this
      exact this
  refine key.imp fun _ s h => ⟨h.1, h.2.1, h.2.2.1, h.2.2.2.1, h.2.2.2.2.1, h.2.2.2.2.2.1, ?_⟩
  rw [h.2.2.2.2.2.2]; exact blocks_image g

/-- READ_TAG with the reference tag: the identifier is its serial number, the image its memory (R303). -/
theorem readTag_tag {g : Tag} (hg : g.bccOk) {b : BitVec 3} :
    Op.Ensures (InEnv c b (Tagged cd rd g) fun _ => True) (do
      let _ ← requestTag
      let uid ← selectTag
      readImage
      pure (.bytes uid) : Op Result) fun r => fun s => r = .bytes g.serial ∧
        InEnv c 0 (Tagged cd rd (g.to .active)) (fun q => q.uid = g.serial ∧ q.imgPopulated = true ∧ q.img = g.bytes) s := by
  refine .bind (requestTag_in hs.toQuick Tagged.prompt (E' := Tagged cd rd (g.to .ready1)) (a0 := 0x44) (a1 := 0x00) (er := 0)
    (fun e h => ?_) (P := fun _ => True) (P' := fun _ => True) ⟨fun _ _ h => h, fun _ _ _ h => h⟩ (fun _ h => h) (by omega)
    (by decide)) fun _ => ?_
  · have := Tagged.exchange (reqaFrame c) 7 e h
    simp only [reqaFrame, hk] at this ⊢
    rw [show g.exchange [CardCodes.default.reqCode] 7 = _ from tag_request g] at this
    exact this
  rintro s ⟨_, -, h⟩
  refine Op.Ensures.bind (selectTag_two hs (tag_answers1 hk hf hg) (by decide) (tag_answers2 hk hf hg)
    (by decide) (by omega)) (fun uid => ?_) s h
  intro s ⟨hu, h⟩
  subst hu
  refine Op.Ensures.bind (readImage_tag hk hf hd hs g (R := fun q => q.uid = g.serial)
    ⟨fun _ _ h => h, fun f hf q h => by cases hf <;> exact h⟩ (fun _ _ h => h) (fun _ _ h => h) (fun _ _ _ _ h => h))
    (fun _ => ?_) s ⟨h.1, h.2.1, h.2.2.1, h.2.2.2.1, h.2.2.2.2.1⟩
  intro s h
  exact ⟨_, s, rfl, rfl, h⟩

/-- WRITE_BLOCK to the active tag: the four bytes of the page are the data (R302). -/
theorem writeBlock_tag (g : Tag) {p : Byte} (hp : 2 ≤ p.toNat ∧ p.toNat < pageCount) (d0 d1 d2 d3 : Byte)
    {P : Sequencer → Prop} (hP : Stable P) :
    Op.Ensures (InEnv c 0 (Tagged cd rd (g.to .active)) P) (writeBlock p [d0, d1, d2, d3]) fun _ =>
      InEnv c 0 (Tagged cd rd { (g.to .active) with
        mem := Memory.writeBytes g.mem (pageSize * p.toNat) [d0, d1, d2, d3] }) P := by
  refine writeBlock_in hs Tagged.prompt Tagged.prompt Tagged.afterDelay (r := [0x0A]) (lb := 4) (er := 0) (fun e h => ?_)
    hP rfl (by omega) (by simp; omega) (by decide)
  have := Tagged.exchange (writeBody c p [d0, d1, d2, d3] ++ crcBytes (crcFn c.crc (writeBody c p [d0, d1, d2, d3]))) 0
    e h
  rw [hf] at this ⊢
  rw [crcFn, tagExchange_crc _ (by simp [writeBody])] at this
  simp only [writeBody, hk] at this ⊢
  rw [show (g.to .active).onBody ([CardCodes.default.writeCmd, p] ++ [d0, d1, d2, d3]) = _ from
    tag_write g hp d0 d1 d2 d3] at this
  exact this

end

/-! ## From a ready state -/

theorem quick_of_ready {s : State} {cd rd : Nat} (h : s.ready cd rd) : Quick s.cfg rd :=
  ⟨h.1.1, h.1.2, h.2.1.2.2.2.2⟩

theorem standard_of_sumsReady {s : State} {cd rd : Nat} (h : s.sumsReady cd rd) : Standard s.cfg cd rd :=
  ⟨quick_of_ready h.1, h.2, h.1.2.1.2.2.2.1⟩

theorem prompt_of_ready {s : State} {cd rd : Nat} (h : s.ready cd rd) : Prompt cd rd s.env :=
  ⟨h.2.1.1, h.2.1.2.1, h.2.1.2.2.1⟩

/-- READ_IMAGE of the active tag completes (R303). -/
theorem readImage_completes {s : State} {cd rd : Nat} (h : s.tagReady cd rd) (ha : s.env.tag.st = .active)
    (ht : s.txlast = 0) : ∃ t, exec .readImage s = .next t ∧ t.seq.outcome = .ok := by
  have hg : s.env.tag.to .active = s.env.tag := by
    rw [← ha]; rfl
  obtain ⟨r, t, e, -⟩ := readImage_tag h.2.1 h.2.2.1 h.2.2.2.1 (standard_of_sumsReady h.1) s.env.tag (R := fun _ => True)
    ⟨fun _ _ h => h, fun _ _ _ h => h⟩ (fun _ _ h => h) (fun _ _ h => h) (fun _ _ _ _ h => h) (s.start .readImage)
    ⟨rfl, h.1.1.2.2, ht, ⟨prompt_of_ready h.1.1, h.2.2.2.2.1, h.2.2.2.2.2, hg.symm⟩, trivial⟩
  exact ⟨_, hostOp_ok (n := .readImage) (r := .none) (Op.bind_ok e), rfl⟩

end Sys2Proof.Machine
end

