-- ==== Sys2Proof/Laws/TagSafe.lean ====
section
/-! SUPPORT. The tag's memory: which frames change it, and that the operations that read a tag send none of them
(R301 to R303). -/

namespace Sys2Proof.Machine

/-! ## Which frames change the memory -/

/-- A write of one byte leaves every other byte, whatever form the memory has. -/
theorem Memory.read_write_other (m : Memory) {a b : Nat} (h : b ≠ a) (v : Byte) :
    Memory.read (Memory.write m a v) b = Memory.read m b := by
  have cell : ∀ l : Memory, Memory.read (Memory.cell a v ++ l) b = Memory.read l b := by
    intro l; unfold Memory.cell; split
    · rfl
    · simp [Memory.read, h]
  induction m with
  | nil => have := cell []; simpa [Memory.write] using this
  | cons x m ih =>
    obtain ⟨c, w⟩ := x
    rw [Memory.write]
    split
    · exact cell _
    · split
      · rename_i hac; subst hac; rw [cell, Memory.read, if_neg h]
      · rw [Memory.read, ih, Memory.read]

/-- A write of bytes leaves every byte outside them, whatever form the memory has. -/
theorem Memory.read_writeBytes_other (m : Memory) (a b : Nat) (s : List Byte) (h : b < a ∨ a + s.length ≤ b) :
    Memory.read (Memory.writeBytes m a s) b = Memory.read m b := by
  induction s generalizing m a with
  | nil => rfl
  | cons v s ih =>
    simp only [List.length_cons] at h
    rw [Memory.writeBytes, ih _ _ (by omega), Memory.read_write_other _ (by omega)]

/-- Only a frame whose first byte is WRITE's, of whole bytes, can change the memory (R111, R302). -/
theorem tag_mem (g : Tag) {frame : List Byte} {n : BitVec 3} (h : frame.head? ≠ some 0xA2 ∨ n ≠ 0) :
    (g.exchange frame n).2.mem = g.mem := by
  have body : ∀ b, (∀ p d0 d1 d2 d3, b ≠ [0xA2, p, d0, d1, d2, d3]) → (g.onBody b).2.mem = g.mem := by
    intro b hb
    unfold Tag.onBody
    split
    · split <;> rfl
    · split <;> rfl
    · unfold Tag.readPage; split <;> rfl
    · exact absurd rfl (hb _ _ _ _ _)
    · rfl
  unfold Tag.exchange
  split
  · split <;> rfl
  · split
    · rfl
    · split <;> rfl
  · split
    · rename_i b hb
      unfold wellFormedBody at hb
      split at hb
      · rename_i hw
        refine body _ fun p d0 d1 d2 d3 e => ?_
        have hb' := Option.some.inj hb
        rw [e] at hb'
        rcases h with h | h
        · apply h
          cases frame with
          | nil => simp at hb'
          | cons x f =>
            cases hk : (x :: f).length - 2 with
            | zero => rw [hk] at hb'; simp at hb'
            | succ k => rw [hk, List.take_succ_cons] at hb'; rw [(List.cons.inj hb').1]; rfl
        · exact h hw.1
      · cases hb
    · rfl

/-- The same at the card port, whoever answers there. -/
theorem exchange_mem (e : Environment) {frame : List Byte} {n : BitVec 3} (h : frame.head? ≠ some 0xA2 ∨ n ≠ 0) :
    (e.exchange frame n).2.tag.mem = e.tag.mem := by
  unfold Environment.exchange
  split
  · rfl
  · rfl
  · exact tag_mem e.tag h

/-- No response waits to be delivered. -/
def Target.NoResponse (g : Target) : Prop := ∀ r lb e, g.rxPend ≠ some (.response r lb e)

/-- What is known while no WRITE has been sent: the configuration, the tag's memory and, at the reference target,
something of the target. -/
abbrev On (c : Config) (m : Memory) (J : Target → Prop) (s : State) : Prop :=
  s.cfg = c ∧ s.env.tag.mem = m ∧ (s.env.level = .referenceTarget → J s.tgt)

/-- The memory, once an operation has raised. -/
abbrev Held (m : Memory) (s : State) : Prop := s.env.tag.mem = m

section
variable {c : Config} {m : Memory}

theorem On.write {J J' : Target → Prop} {a : RegAddr} {v : Byte}
    (hw : ∀ s t : State, s.cfg = c → J s.tgt → Written a v s.ticked t → t.env.tag.mem = s.env.tag.mem ∧ J' t.tgt) :
    Op.Triple (On c m J) (busWrite a v) (fun _ => On c m J') (Held m) := by
  rintro s ⟨hc, hm, hj⟩
  rcases busWrite_cases s a v with ⟨t, e, w⟩ | ⟨r, t, e⟩
  · rw [e]
    rcases w with ⟨hl, rfl⟩ | ⟨hl, w⟩
    · exact ⟨hc, hm, fun h => absurd (h.symm.trans hl) nofun⟩
    · obtain ⟨h1, h2⟩ := hw s t hc (hj hl) w
      exact ⟨(written_outside w).1.trans hc, h1.trans hm, fun _ => h2⟩
  · rw [e]; trivial

theorem On.read {J J' : Target → Prop} {a : RegAddr} (hr : ∀ g, J g → J' (g.tick c))
    (hpop : c.regmap.nameAt a = some .fifodata → ∀ g v rest, J g → (g.tick c).fifo = v :: rest →
      J' { g.tick c with fifo := rest }) :
    Op.Triple (On c m J) (busRead a) (fun _ => On c m J') (Held m) := by
  rintro s ⟨hc, hm, hj⟩
  obtain ⟨v, t, e, w⟩ := busRead_cases s a
  rw [e]
  subst hc
  rcases w with ⟨hl, rfl⟩ | ⟨hl, rfl | ⟨rest, hn, hf, rfl⟩ | rfl⟩
  · exact ⟨rfl, hm, fun h => absurd (h.symm.trans hl) nofun⟩
  · exact ⟨rfl, hm, fun _ => hr _ (hj hl)⟩
  · exact ⟨rfl, hm, fun _ => hpop hn _ _ _ (hj hl) hf⟩
  · exact ⟨rfl, hm, fun _ => hr _ (hj hl)⟩

/-! ### What an event does -/

theorem Target.NoResponse.tick {g : Target} (h : g.NoResponse) : (g.tick c).NoResponse ∧ (g.tick c).fifo = g.fifo := by
  have h' : (g.tickCrc c).NoResponse := by simpa only [Target.NoResponse, tickCrc_rxPend] using h
  have hf : (g.tickCrc c).fifo = g.fifo := tickCrc_fifo g c
  rw [Target.tick]
  generalize g.tickCrc c = u at h' hf
  unfold Target.tickRx
  split
  · rename_i hp _; exact absurd hp (h' _ _ _)
  · exact ⟨nofun, hf⟩
  · rename_i hp _; exact absurd hp (h' _ _ _)
  · exact ⟨h', hf⟩
  · exact ⟨h', hf⟩

/-- Until the response has come the FIFO is empty. -/
def Target.Quiet (g : Target) : Prop := g.fifo = [] ∨ g.NoResponse

theorem Target.Quiet.tick {g : Target} (h : g.Quiet) : (g.tick c).Quiet := by
  rcases h with h | h
  · have hf : (g.tickCrc c).fifo = [] := (tickCrc_fifo g c).trans h
    rw [Target.tick]
    generalize g.tickCrc c = u at hf
    unfold Target.tickRx
    split
    · exact .inr nofun
    all_goals exact .inl hf
  · exact .inr h.tick.1

/-- BITFRAMING sends 7 bits of the last byte, so no frame sent with it is a WRITE. -/
def Target.Seven (c : Config) (g : Target) : Prop := (g.reg c.regmap.bitframing).extractLsb' 0 3 = (7 : BitVec 3)

/-- What is loaded is no WRITE, or is not sent as one, and no response can come into the FIFO. -/
def Target.Harmless (c : Config) (g : Target) : Prop := g.NoResponse ∧ (g.fifo.head? ≠ some 0xA2 ∨ g.Seven c)

theorem Target.Seven.tick {g : Target} (h : g.Seven c) : (g.tick c).Seven c := by
  simpa only [Target.Seven, tick_reg] using h

theorem Target.Harmless.tick {g : Target} (h : g.Harmless c) : (g.tick c).Harmless c :=
  ⟨h.1.tick.1, h.2.imp (fun h' => by rwa [h.1.tick.2]) fun h => h.tick⟩


/-! ### What a write does -/

/-- Only START_SEND written to BITFRAMING reaches the card. -/
theorem written_tag {a : RegAddr} {v : Byte} {s t : State} (w : Written a v s t)
    (h : s.cfg.regmap.nameAt a ≠ some .bitframing ∨ v.hasAny s.cfg.masks.startSend = false) : t.env.tag = s.env.tag := by
  cases w with
  | send hn hy => rcases h with h | h
                  · exact absurd hn h
                  · rw [h] at hy; exact absurd hy.1 nofun
  | command _ k _ _ => cases k <;> simp [State.commanded, State.crcStarted]
  | _ => rfl

/-- What a write of a named register does at the target, when it sends nothing. -/
theorem On.writeNamed (hc : c.regmap.distinct) {J J' : Target → Prop} {n : RegName} {v : Byte}
    (h : n ≠ .bitframing ∨ v.hasAny c.masks.startSend = false)
    (hw : ∀ s t : State, s.cfg = c → J s.tgt → s.cfg.regmap.nameAt (c.regmap.addr n) = some n →
      Written (c.regmap.addr n) v s.ticked t → J' t.tgt) :
    Op.Triple (On c m J) (busWrite (c.regmap.addr n) v) (fun _ => On c m J') (Held m) :=
  On.write fun s t hs hj w => by
    have hn : s.cfg.regmap.nameAt (c.regmap.addr n) = some n := by rw [hs]; exact RegMap.nameAt_addr hc n
    refine ⟨congrArg Tag.mem (written_tag (s := s.ticked) w ?_), hw s t hs hj hn w⟩
    rw [ticked_cfg, hn, hs]
    exact h.imp (fun h e => h (Option.some.inj e)) id

/-- A write that is neither a command nor a transmission lets no response come. -/
theorem On.writeNoResponse (hc : c.regmap.distinct) {n : RegName} {v : Byte} (h0 : n ≠ .command)
    (h : n ≠ .bitframing ∨ v.hasAny c.masks.startSend = false) :
    Op.Triple (On c m Target.NoResponse) (busWrite (c.regmap.addr n) v) (fun _ => On c m Target.NoResponse) (Held m) :=
  On.writeNamed hc h fun s t hs hj hn w => by
    have hj' : s.ticked.tgt.NoResponse := hj.tick.1
    cases w with
    | command h' => exact absurd (Option.some.inj (hn.symm.trans h')) h0
    | send h' hy =>
      rcases h with h | h
      · exact absurd (Option.some.inj (hn.symm.trans h')) h
      · rw [ticked_cfg, hs, h] at hy; exact absurd hy.1 nofun
    | level _ => simp only; split <;> exact hj'
    | push _ _ =>
      rcases push_cases s.ticked.tgt s.ticked.cfg.fifoDepth v with ⟨-, e⟩ | ⟨-, e⟩ <;> simp only [e] <;> exact hj'
    | _ => exact hj'

/-- A flush, while no response can come. -/
theorem On.flush (hc : c.regmap.distinct) {v : Byte} (hv : v.hasAny c.masks.flush = true) :
    Op.Triple (On c m Target.NoResponse) (busWrite c.regmap.fifolevel v)
      (fun _ => On c m fun g => g.NoResponse ∧ g.fifo = []) (Held m) :=
  On.writeNamed hc (n := .fifolevel) (.inl nofun) fun s t hs hj hn w => by
    have no : ∀ {k}, s.ticked.cfg.regmap.nameAt (c.regmap.addr .fifolevel) = some k → k = .fifolevel := fun h =>
      (Option.some.inj (hn.symm.trans h)).symm
    cases w with
    | level _ => simp only; rw [if_pos (by rw [ticked_cfg, hs]; exact hv)]; exact ⟨hj.tick.1, rfl⟩
    | storage h => rw [ticked_cfg, hn] at h; cases h
    | readOnly h => rcases h with h | h | h <;> cases no h
    | comirq h => cases no h
    | divirq h => cases no h
    | push h _ => cases no h
    | framing h _ => cases no h
    | send h _ => cases no h
    | command h _ _ _ => cases no h

/-- A command other than RESETPHASE cancels what is pending and takes or leaves the FIFO. -/
theorem On.command (hc : c.wf) {k : Command} (hk : k ≠ .resetphase) {J : Target → Prop} {F : List Byte → Prop}
    (h0 : F []) (hJ : ∀ g, J g → F (g.tick c).fifo) :
    Op.Triple (On c m J) (busWrite c.regmap.command (c.codes.byte k)) (fun _ => On c m fun g => g.NoResponse ∧ F g.fifo)
      (Held m) :=
  On.writeNamed hc.1 (n := .command) (.inl nofun) fun s t hs hj hn w => by
    have no : ∀ {k}, s.ticked.cfg.regmap.nameAt (c.regmap.addr .command) = some k → k = .command := fun h =>
      (Option.some.inj (hn.symm.trans h)).symm
    have hf : F s.ticked.tgt.fifo := by rw [ticked_tgt, hs]; exact hJ _ hj
    cases w with
    | command _ j hj' hne =>
      rw [ticked_cfg, hs, CmdCodes.ofByte_byte hc.2.1 k] at hj'
      obtain rfl := Option.some.inj hj'
      cases k with
      | resetphase => exact absurd rfl hk
      | authent => exact absurd rfl hne
      | calccrc => exact ⟨nofun, h0⟩
      | idle => exact ⟨nofun, hf⟩
      | transceive => exact ⟨nofun, hf⟩
    | storage h => rw [ticked_cfg, hn] at h; cases h
    | readOnly h => rcases h with h | h | h <;> cases no h
    | comirq h => cases no h
    | divirq h => cases no h
    | push h _ => cases no h
    | framing h _ => cases no h
    | send h _ => cases no h
    | level h => cases no h

/-- A push, while no response can come. -/
theorem On.push (hc : c.regmap.distinct) {v : Byte} {F F' : List Byte → Prop}
    (hF : ∀ f, F f → F' (f ++ [v])) (hF' : ∀ f, c.fifoDepth ≤ f.length → F f → F' f) :
    Op.Triple (On c m fun g => g.NoResponse ∧ F g.fifo) (busWrite c.regmap.fifodata v)
      (fun _ => On c m fun g => g.NoResponse ∧ F' g.fifo) (Held m) :=
  On.writeNamed hc (n := .fifodata) (.inl nofun) fun s t hs hj hn w => by
    have no : ∀ {k}, s.ticked.cfg.regmap.nameAt (c.regmap.addr .fifodata) = some k → k = .fifodata := fun h =>
      (Option.some.inj (hn.symm.trans h)).symm
    have hn' : s.ticked.tgt.NoResponse := hj.1.tick.1
    have hf : F s.ticked.tgt.fifo := by rw [ticked_tgt, hj.1.tick.2]; exact hj.2
    cases w with
    | push _ _ =>
      rw [ticked_cfg, hs]
      rcases push_cases s.ticked.tgt c.fifoDepth v with ⟨-, e⟩ | ⟨hl, e⟩ <;> simp only [e]
      · exact ⟨hn', hF _ hf⟩
      · exact ⟨hn', hF' _ (by omega) hf⟩
    | storage h => rw [ticked_cfg, hn] at h; cases h
    | readOnly h => rcases h with h | h | h <;> cases no h
    | comirq h => cases no h
    | divirq h => cases no h
    | command h _ _ _ => cases no h
    | framing h _ => cases no h
    | send h _ => cases no h
    | level h => cases no h

/-- Loading a frame whose first byte is not WRITE's. -/
theorem On.load (hc : c.wf) {tx : List Byte} (ht : tx.head? ≠ some 0xA2) :
    Op.Triple (On c m fun g => g.NoResponse ∧ g.fifo = []) (loadFifo c.regmap.fifodata tx)
      (fun _ => On c m fun g => g.NoResponse ∧ g.fifo.head? ≠ some 0xA2) (Held m) := by
  have more : ∀ s : List Byte, Op.Triple (On c m fun g => g.NoResponse ∧ (g.fifo ≠ [] ∧ g.fifo.head? ≠ some 0xA2))
      (loadFifo c.regmap.fifodata s) (fun _ => On c m fun g => g.NoResponse ∧ g.fifo.head? ≠ some 0xA2) (Held m) := by
    intro s
    induction s with
    | nil => exact fun s h => ⟨h.1, h.2.1, fun hl => ⟨(h.2.2 hl).1, (h.2.2 hl).2.2⟩⟩
    | cons b s ih =>
      refine .bind (On.push hc.1 (F := fun f => f ≠ [] ∧ f.head? ≠ some 0xA2) (F' := fun f => f ≠ [] ∧ f.head? ≠ some 0xA2)
        (fun f h => ⟨by simp, ?_⟩) fun f _ h => h) fun _ => ih
      cases f with
      | nil => exact absurd rfl h.1
      | cons x f => exact h.2
  have h1 := hc.2.2.2.2.2.2.1
  cases tx with
  | nil => exact fun s h => ⟨h.1, h.2.1, fun hl => ⟨(h.2.2 hl).1, by rw [(h.2.2 hl).2]; nofun⟩⟩
  | cons b s =>
    refine .bind (On.push hc.1 (F := fun f => f = []) (F' := fun f => f ≠ [] ∧ f.head? ≠ some 0xA2)
      (fun f h => ⟨by simp, by rw [h]; exact ht⟩) fun f hl h => ?_) fun _ => more s
    rw [h] at hl; simp at hl; omega

/-- BITFRAMING's count, kept by a body that keeps the register. -/
theorem On.seven {α : Type} {J J' : Target → Prop} {o : Op α} (h : Op.Triple (On c m J) o (fun _ => On c m J') (Held m))
    (ho : Op.Within Outside o) (k : Op.Keeps c (RegsKept fun a => a ≠ c.regmap.bitframing) o) :
    Op.Triple (On c m fun g => J g ∧ g.Seven c) o (fun _ => On c m fun g => J' g ∧ g.Seven c) (Held m) := by
  intro s hs
  have g := h s ⟨hs.1, hs.2.1, fun hl => (hs.2.2 hl).1⟩
  have k := k s hs.1
  have o' := ho s
  cases e : o s with
  | ok a t =>
    rw [e] at g k o'
    refine ⟨g.1, g.2.1, fun hl => ⟨g.2.2 hl, ?_⟩⟩
    rw [Target.Seven, k.2 _ (by simp)]
    exact (hs.2.2 (o'.2.2.2.1 ▸ hl)).2
  | error x t => rw [e] at g; cases x <;> exact g

/-- A body that begins by reading the configuration. -/
theorem On.withCfg {α : Type} {J : Target → Prop} {Q : α → State → Prop} {E : State → Prop} {f : Config → Op α}
    (h : Op.Triple (On c m J) (f c) Q E) : Op.Triple (On c m J) (Op.cfg >>= f) Q E := by
  intro s hs
  rw [Op.bind_ok (Op.cfg_apply s), hs.1]
  exact h s hs

/-- What is loaded for an exchange is no WRITE, or is not sent as one (R180 steps 1 to 6). -/
theorem loadExchange_harmless (hc : c.wf) {tx : List Byte} (ht : tx.head? ≠ some 0xA2) :
    Op.Triple (On c m Target.NoResponse) (loadExchange .transceive tx) (fun _ => On c m (Target.Harmless c)) (Held m) ∧
      Op.Triple (On c m (Target.Seven c)) (loadExchange .transceive tx) (fun _ => On c m (Target.Harmless c)) (Held m) := by
  constructor
  · refine On.withCfg ?_
    have read : ∀ {n : RegName}, n ≠ .fifodata → Op.Triple (On c m Target.NoResponse) (busRead (c.regmap.addr n))
        (fun _ => On c m Target.NoResponse) (Held m) := fun hn =>
      On.read (fun _ h => h.tick.1) fun h => by rw [RegMap.nameAt_addr hc.1] at h; exact absurd (Option.some.inj h) hn
    refine .bind (On.writeNoResponse hc.1 (n := .comien) nofun (.inl nofun)) fun _ => ?_
    refine .bind (.bind (read (n := .comirq) nofun) fun v => On.writeNoResponse hc.1 (n := .comirq) nofun (.inl nofun))
      fun _ => ?_
    refine .bind (.bind (read (n := .fifolevel) nofun) fun v => On.flush hc.1 (hasAny_or hc.2.2.2.1.1)) fun _ => ?_
    refine .bind (On.command hc (k := .idle) nofun (F := fun f => f = []) rfl fun g h => by rw [h.1.tick.2]; exact h.2)
      fun _ => ?_
    refine .bind (On.load hc ht) fun _ => ?_
    refine (On.command hc (k := .transceive) nofun (F := fun f => f.head? ≠ some 0xA2) nofun fun g h => by
      rw [h.1.tick.2]; exact h.2).imp (fun _ h => h) (fun _ s h => ⟨h.1, h.2.1, fun hl => ⟨(h.2.2 hl).1, .inl (h.2.2 hl).2⟩⟩)
      fun _ h => h
  · have ne : ∀ {n : RegName}, n ≠ .bitframing → c.regmap.addr n ≠ c.regmap.bitframing := fun hn e =>
      hn ((RegMap.addr_inj hc.1 (k := .bitframing)).1 e)
    have W : ∀ {n : RegName}, n ≠ .command → n ≠ .bitframing → Writable c (RegsKept fun a => a ≠ c.regmap.bitframing) n :=
      fun h1 h2 => regsKept_write hc.1 h1 fun _ => ne h2
    have B := regsKept_read (c := c) fun a => a ≠ c.regmap.bitframing
    have C := B.chains
    have key : Op.Triple (On c m fun _ => True) (loadExchange .transceive tx) (fun _ => On c m Target.NoResponse) (Held m) := by
      refine On.withCfg ?_
      have any : ∀ {n : RegName} (v : Byte), n ≠ .bitframing → Op.Triple (On c m fun _ => True)
          (busWrite (c.regmap.addr n) v) (fun _ => On c m fun _ => True) (Held m) := fun v h =>
        On.writeNamed hc.1 (.inl h) fun _ _ _ _ _ _ => trivial
      have read : ∀ a, Op.Triple (On c m fun _ => True) (busRead a) (fun _ => On c m fun _ => True) (Held m) := fun a =>
        On.read (fun _ _ => trivial) fun _ _ _ _ _ _ => trivial
      have load : ∀ s, Op.Triple (On c m Target.NoResponse) (loadFifo c.regmap.fifodata s)
          (fun _ => On c m Target.NoResponse) (Held m) := by
        intro s
        induction s with
        | nil => exact fun s h => h
        | cons b s ih => exact .bind (On.writeNoResponse hc.1 (n := .fifodata) nofun (.inl nofun)) fun _ => ih
      have cmd : ∀ {J : Target → Prop} {k : Command}, k ≠ .resetphase → Op.Triple (On c m J)
          (busWrite c.regmap.command (c.codes.byte k)) (fun _ => On c m Target.NoResponse) (Held m) := fun hk =>
        (On.command hc hk (F := fun _ => True) trivial fun _ _ => trivial).imp (fun _ h => h)
          (fun _ s h => ⟨h.1, h.2.1, fun hl => (h.2.2 hl).1⟩) fun _ h => h
      exact .bind (any (n := .comien) _ nofun) fun _ => .bind (.bind (read _) fun v => any (n := .comirq) _ nofun) fun _ =>
        .bind (.bind (read _) fun v => any (n := .fifolevel) _ nofun) fun _ => .bind (cmd nofun) fun _ =>
        .bind (load tx) fun _ => cmd nofun
    have K : Op.Keeps c (RegsKept fun a => a ≠ c.regmap.bitframing) (loadExchange .transceive tx) :=
      .withCfg (.bind C (W (n := .comien) nofun nofun _) fun _ => .bind C (clearBits_keeps B (W (n := .comirq) nofun nofun) _)
        fun _ => .bind C (setBits_keeps B (W (n := .fifolevel) nofun nofun) _) fun _ =>
        .bind C (regsKept_command hc (ne (n := .command) nofun) nofun) fun _ =>
        .bind C (loadFifo_keeps B (W (n := .fifodata) nofun nofun) _) fun _ =>
        regsKept_command hc (ne (n := .command) nofun) nofun)
    exact (On.seven key (loadExchange_within outside_bus _ _) K).imp
      (fun s h => ⟨h.1, h.2.1, fun hl => ⟨trivial, h.2.2 hl⟩⟩)
      (fun _ s h => ⟨h.1, h.2.1, fun hl => ⟨(h.2.2 hl).1, .inr (h.2.2 hl).2⟩⟩) fun _ h => h

/-- Sending a harmless frame leaves the tag's memory, and the FIFO is empty until the response comes (R202, R203). -/
theorem startSend_held (hc : c.wf) :
    Op.Triple (On c m (Target.Harmless c)) (startSend .transceive) (fun _ => On c m Target.Quiet) (Held m) := by
  refine On.withCfg ?_
  rw [if_pos rfl]
  have hn : c.regmap.nameAt c.regmap.bitframing = some .bitframing := RegMap.nameAt_addr hc.1 .bitframing
  refine Op.Triple.bind (M := fun v => On c m fun g => g.Harmless c ∧ v = g.reg c.regmap.bitframing) ?_ fun v => ?_
  · rintro s ⟨hc', hm, hj⟩
    subst hc'
    cases hl : s.env.level with
    | busOracle => rw [busRead_oracle hl]; exact ⟨rfl, hm, fun h => absurd (h.symm.trans hl) nofun⟩
    | referenceTarget =>
      rw [busRead_target hl (targetRead_storage (s := s.ticked) (by rw [ticked_cfg, hn]; rfl))]
      exact ⟨rfl, hm, fun _ => ⟨(hj hl).tick, rfl⟩⟩
  · refine On.write fun s t hs hj w => ?_
    obtain ⟨⟨h1, h2⟩, hv⟩ := hj
    have low : ((v ||| c.masks.startSend).extractLsb' 0 3 : BitVec 3) = v.extractLsb' 0 3 := by
      have hm : c.masks.startSend &&& 0x07 = 0 := hc.2.2.2.1.2.2.1
      ext i hi
      have := congrArg (fun x : Byte => x.getLsbD i) hm
      have hi' : i = 0 ∨ i = 1 ∨ i = 2 := by omega
      rcases hi' with rfl | rfl | rfl <;> simp at this <;> simp [BitVec.getElem_extractLsb', this]
    have hn' : s.ticked.cfg.regmap.nameAt c.regmap.bitframing = some .bitframing := by rw [ticked_cfg, hs]; exact hn
    cases w with
    | send _ hy =>
      refine ⟨?_, .inl rfl⟩
      change (Environment.afterDelay _).tag.mem = _
      rw [afterDelay_tag]
      refine exchange_mem _ ?_
      rcases h2 with h2 | h2
      · left; change (s.tgt.tick s.cfg).fifo.head? ≠ _; rw [h1.tick.2]; exact h2
      · right; rw [low, hv, h2]; decide
    | framing _ _ => exact ⟨rfl, .inr h1.tick.1⟩
    | storage h => rw [hn'] at h; cases h
    | readOnly h => rw [hn'] at h; rcases h with h | h | h <;> cases h
    | comirq h => rw [hn'] at h; cases h
    | divirq h => rw [hn'] at h; cases h
    | push h _ => rw [hn'] at h; cases h
    | level h => rw [hn'] at h; cases h
    | command h _ _ _ => rw [hn'] at h; cases h


theorem On.setSeq {J : Target → Prop} (f : Sequencer → Sequencer) :
    Op.Triple (On c m J) (Op.setSeq f) (fun _ => On c m J) (Held m) := fun _ h => h

/-- A read while no response can come. -/
theorem On.readNoResponse (a : RegAddr) :
    Op.Triple (On c m Target.NoResponse) (busRead a) (fun _ => On c m Target.NoResponse) (Held m) :=
  On.read (fun _ h => h.tick.1) fun _ _ _ _ h _ => h.tick.1

/-- A read until the response has come. -/
theorem On.readQuiet (a : RegAddr) :
    Op.Triple (On c m Target.Quiet) (busRead a) (fun _ => On c m Target.Quiet) (Held m) :=
  On.read (fun _ h => h.tick) fun _ g v rest h hf => by
    rcases h.tick (c := c) with h | h
    · rw [h] at hf; cases hf
    · exact .inr h

/-- What is known once an exchange has ended with a value: the response has come, or there is at most one byte. -/
def Answered (c : Config) (m : Memory) (x : Status × List Byte × Int) (s : State) : Prop :=
  On c m Target.NoResponse s ∨ On c m (fun _ => True) s ∧ x.2.1.length ≤ 1 ∧ x.2.2 ≠ 16

theorem On.top {J : Target → Prop} {s : State} (h : On c m J s) : On c m (fun _ => True) s :=
  ⟨h.1, h.2.1, fun _ => trivial⟩

/-- The read-out of an exchange (R188, R189): a count above zero means that the response has come. -/
theorem completeExchange_held (hc : c.wf) :
    Op.Triple (On c m Target.Quiet) (completeExchange .transceive) (Answered c m) (Held m) := by
  refine On.withCfg (.bind (On.setSeq _) fun _ => ?_)
  rw [if_pos rfl]
  refine Op.Triple.bind (M := fun _ s => Answered c m (s.seq.status, s.seq.rxbuf, s.seq.rxbits) s) (On.withCfg ?_)
    fun _ => fun s h => h
  refine .bind (M := fun cnt s => On c m Target.NoResponse s ∨ On c m (fun _ => True) s ∧ cnt = 0) ?_ fun cnt => ?_
  · rintro s ⟨hs, hm, hj⟩
    subst hs
    have hn : s.cfg.regmap.nameAt s.cfg.regmap.fifolevel = some .fifolevel := RegMap.nameAt_addr hc.1 .fifolevel
    cases hl : s.env.level with
    | busOracle =>
      rw [busRead_oracle hl]
      exact .inl ⟨rfl, hm, fun h => absurd (h.symm.trans hl) nofun⟩
    | referenceTarget =>
      rw [busRead_target hl (targetRead_fifolevel (s := s.ticked) hn)]
      rcases (hj hl).tick (c := s.cfg) with h | h
      · refine .inr ⟨⟨rfl, hm, fun _ => trivial⟩, ?_⟩
        rw [ticked_tgt, Target.level, h]; rfl
      · exact .inl ⟨rfl, hm, fun _ => h⟩
  · have unload : ∀ {J : Target → Prop}, (∀ a, Op.Triple (On c m J) (busRead a) (fun _ => On c m J) (Held m)) → ∀ n,
        Op.Triple (On c m J) (unloadFifo c.regmap.fifodata n) (fun _ => On c m J) (Held m) := by
      intro J hr n
      induction n with
      | zero => exact fun s h => h
      | succ n ih => exact .bind (hr _) fun _ => .bind ih fun _ => fun s h => h
    have rest : ∀ {J : Target → Prop}, (∀ a, Op.Triple (On c m J) (busRead a) (fun _ => On c m J) (Held m)) →
        Op.Triple (On c m J) (do
          let ctl ← busRead (c.regmap.addr c.masks.rxlastReg)
          Op.setSeq fun q => { q with rxbits := rxBits cnt (ctl &&& c.masks.rxlastMask) }
          let rx ← unloadFifo c.regmap.fifodata (readCount cnt)
          Op.setSeq fun q => { q with rxbuf := rx }) (fun _ => On c m J) (Held m) := fun hr =>
      .bind (hr _) fun ctl => .bind (On.setSeq _) fun _ => .bind (unload hr _) fun rx => On.setSeq _
    intro s hs
    rcases hs with hs | ⟨hs, h0⟩
    · have := rest (J := Target.NoResponse) On.readNoResponse s hs
      split at this
      · exact .inl this
      · exact this
      · trivial
    · subst h0
      have g := rest (J := fun _ => True) (fun a => On.read (fun _ _ => trivial) fun _ _ _ _ _ _ => trivial) s hs
      have k : Op.Triple (At c fun _ => True) (do
          let ctl ← busRead (c.regmap.addr c.masks.rxlastReg)
          Op.setSeq fun q => { q with rxbits := rxBits 0 (ctl &&& c.masks.rxlastMask) }
          let rx ← unloadFifo c.regmap.fifodata (readCount 0)
          Op.setSeq fun q => { q with rxbuf := rx })
          (fun _ => At c fun q => q.rxbuf.length ≤ 1 ∧ q.rxbits ≠ 16) (fun _ => True) := by
        have hm7 : c.masks.rxlastMask &&& 0x07 = c.masks.rxlastMask := hc.2.2.2.1.2.2.2.2.2.2.2
        refine .bind (At.read (fun _ _ h => h) _) fun ctl => .bind (M := fun _ => At c fun q => q.rxbits ≠ 16)
          (.setSeq fun q _ => ?_) fun _ => .bind (At.unloadFifo (fun _ _ h => h) _ _) fun rx => ?_
        · have hv : (ctl &&& c.masks.rxlastMask).toNat ≤ 7 := by
            have : ((ctl &&& c.masks.rxlastMask) &&& 0x07).toNat ≤ 7 := by rw [BitVec.toNat_and]; exact Nat.and_le_right
            rwa [and_mask_low ctl _ hm7] at this
          simp only [rxBits]
          split
          · have : (0 : Byte).toNat = 0 := rfl
            omega
          · decide
        · rintro s ⟨hl, hs, hb⟩
          exact ⟨hs, by simp only [hl]; decide, hb⟩
      have k := k s ⟨hs.1, trivial⟩
      split at g
      · rename_i e; rw [e] at k; exact .inr ⟨g, k.2⟩
      · exact g
      · trivial

/-- An exchange of a frame that is not a WRITE, while no response can come or with BITFRAMING at 7, leaves the tag's
memory, whatever the target, the draws and the card do. -/
theorem toCard_held (hc : c.wf) {tx : List Byte} (ht : tx.head? ≠ some 0xA2) {J : Target → Prop}
    (hJ : J = Target.NoResponse ∨ J = Target.Seven c) :
    Op.Triple (On c m J) (toCard .transceive tx) (fun x s => Answered c m x s ∨ x.1 = .err ∧ Held m s) (Held m) := by
  have load : Op.Triple (On c m J) (loadExchange .transceive tx) (fun _ => On c m (Target.Harmless c)) (Held m) := by
    rcases hJ with rfl | rfl
    · exact (loadExchange_harmless hc ht).1
    · exact (loadExchange_harmless hc ht).2
  have poll : ∀ n, Op.Triple (On c m Target.Quiet) (pollComirq n) (fun _ => On c m Target.Quiet) (Held m) := by
    intro n
    induction n with
    | zero => exact fun s h => h
    | succ n ih =>
      intro s hs
      rw [pollComirq, Op.bind_ok (Op.state_apply s)]
      refine (Op.Triple.bind (On.readQuiet _) fun v => .bind (On.setSeq _) fun _ => ?_) s hs
      split
      · exact fun s h => h
      · exact ih
  have fail : ∀ k, Op.Triple (On c m Target.Quiet) (failExchange k)
      (fun x s => Answered c m x s ∨ x.1 = .err ∧ Held m s) (Held m) := fun k s h => .inr ⟨rfl, h.2.1⟩
  refine On.withCfg (.bind (On.setSeq _) fun _ => .bind load fun _ => .bind (startSend_held hc) fun _ =>
    .bind (On.setSeq _) fun _ => .bind (poll _) fun seen => .bind (M := fun _ => On c m Target.Quiet) ?_ fun _ => ?_)
  · refine .bind (On.readQuiet _) fun v => ?_
    have hv := hasAny_and_compl v c.masks.startSend
    refine On.writeNamed hc.1 (n := .bitframing) (.inr hv) fun s t hs hj hn w => ?_
    have hn' : s.ticked.cfg.regmap.nameAt (c.regmap.addr .bitframing) = some .bitframing := hn
    cases w with
    | send _ hy => rw [ticked_cfg, hs, hv] at hy; exact absurd hy.1 nofun
    | framing _ _ => exact hj.tick (c := s.cfg)
    | storage h => rw [hn'] at h; cases h
    | readOnly h => rw [hn'] at h; rcases h with h | h | h <;> cases h
    | comirq h => rw [hn'] at h; cases h
    | divirq h => rw [hn'] at h; cases h
    | push h _ => rw [hn'] at h; cases h
    | level h => rw [hn'] at h; cases h
    | command h _ _ _ => rw [hn'] at h; cases h
  · split
    · exact fail _
    · refine .bind (On.readQuiet _) fun e => ?_
      split
      · exact fail _
      · exact (completeExchange_held hc).imp (fun _ h => h) (fun _ _ h => .inl h) fun _ h => h

/-- The same for a checked exchange: when it ends with a value the response has come, or there is at most one byte. -/
theorem transceive_held (hc : c.wf) {tx : List Byte} (ht : tx.head? ≠ some 0xA2) {J : Target → Prop}
    (hJ : J = Target.NoResponse ∨ J = Target.Seven c) :
    Op.Triple (On c m J) (transceive tx)
      (fun x s => On c m Target.NoResponse s ∨ On c m (fun _ => True) s ∧ x.1.length ≤ 1 ∧ x.2 ≠ 16) (Held m) := by
  refine .bind (toCard_held hc ht hJ) fun x => ?_
  obtain ⟨st, rx, bits⟩ := x
  rintro s (h | ⟨rfl, h⟩)
  · have held : Held m s := h.elim (fun h => h.2.1) fun h => h.1.2.1
    cases st with
    | ok => exact h
    | notag => exact held
    | err => exact held
  · exact h

/-- CRC_CALC sends nothing and leaves no response to come (R163, R194). -/
theorem crcCalc_held (hc : c.wf) (data : List Byte) :
    Op.Triple (On c m fun _ => True) (crcCalc data) (fun _ => On c m Target.NoResponse) (Held m) := by
  have any : ∀ {n : RegName} (v : Byte), n ≠ .bitframing → Op.Triple (On c m fun _ => True)
      (busWrite (c.regmap.addr n) v) (fun _ => On c m fun _ => True) (Held m) := fun v h =>
    On.writeNamed hc.1 (.inl h) fun _ _ _ _ _ _ => trivial
  have read : ∀ a, Op.Triple (On c m fun _ => True) (busRead a) (fun _ => On c m fun _ => True) (Held m) := fun a =>
    On.read (fun _ _ => trivial) fun _ _ _ _ _ _ => trivial
  have load : ∀ s, Op.Triple (On c m fun _ => True) (loadFifo c.regmap.fifodata s) (fun _ => On c m fun _ => True)
      (Held m) := by
    intro s
    induction s with
    | nil => exact fun s h => h
    | cons b s ih => exact .bind (any (n := .fifodata) _ nofun) fun _ => ih
  have flag : ∀ b, Op.Triple (On c m fun _ => True) (setLoading b) (fun _ => On c m fun _ => True) (Held m) := fun b s h =>
    ⟨h.1, h.2.1, fun _ => trivial⟩
  have poll : ∀ n, Op.Triple (On c m Target.NoResponse) (pollDivirq n) (fun _ => On c m Target.NoResponse) (Held m) := by
    intro n
    induction n with
    | zero => exact fun s h => h
    | succ n ih =>
      refine On.withCfg (.bind (On.readNoResponse _) fun v => .bind (On.setSeq _) fun _ => ?_)
      split
      · exact fun s h => h
      · exact ih
  have cmd : Op.Triple (On c m fun _ => True) (busWrite c.regmap.command (c.codes.byte .calccrc))
      (fun _ => On c m Target.NoResponse) (Held m) :=
    (On.command hc (k := .calccrc) nofun (F := fun _ => True) trivial fun _ _ => trivial).imp (fun _ h => h)
      (fun _ s h => ⟨h.1, h.2.1, fun hl => (h.2.2 hl).1⟩) fun _ h => h
  exact On.withCfg (.bind (.bind (read _) fun v => any (n := .divirq) _ nofun) fun _ =>
    .bind (.bind (read _) fun v => any (n := .fifolevel) _ nofun) fun _ =>
    .bind (.bind (flag _) fun _ => .bind (load _) fun _ => flag _) fun _ => .bind cmd fun _ => .bind (On.setSeq _) fun _ => .bind (poll _) fun _ => .bind (On.readNoResponse _) fun _ =>
    .bind (On.readNoResponse _) fun _ => .bind (On.setSeq _) fun _ => fun s h => h)

theorem transceiveCrc_held (hc : c.wf) {b : Byte} {body : List Byte} (hb : b ≠ 0xA2) :
    Op.Triple (On c m fun _ => True) (transceiveCrc (b :: body))
      (fun x s => On c m Target.NoResponse s ∨ On c m (fun _ => True) s ∧ x.1.length ≤ 1 ∧ x.2 ≠ 16) (Held m) :=
  .bind (crcCalc_held hc _) fun _ => transceive_held hc (by simpa using hb) (.inl rfl)

theorem requestTag_held (hc : c.wf) (hk : ReadsOnly c.card) :
    Op.Triple (On c m fun _ => True) requestTag (fun _ => On c m Target.NoResponse) (Held m) := by
  have seven : shortFrameBits &&& c.masks.startSend = 0 := by
    have := hc.2.2.2.1.2.2.1
    rw [BitVec.and_comm]; exact this
  refine On.withCfg (.bind (M := fun _ => On c m (Target.Seven c)) ?_ fun _ =>
    .bind (transceive_held hc (by simpa [reqaFrame] using hk _ (by simp)) (.inr rfl)) fun x => ?_)
  · have hv : shortFrameBits.hasAny c.masks.startSend = false := by simp [Byte.hasAny, seven]
    refine On.writeNamed hc.1 (n := .bitframing) (.inr hv) fun s t hs hj hn w => ?_
    have hn' : s.ticked.cfg.regmap.nameAt (c.regmap.addr .bitframing) = some .bitframing := hn
    cases w with
    | send _ hy => rw [ticked_cfg, hs, hv] at hy; exact absurd hy.1 nofun
    | framing _ _ => rw [Target.Seven, ticked_cfg, hs, reg_setReg_self]; decide
    | storage h => rw [hn'] at h; cases h
    | readOnly h => rw [hn'] at h; rcases h with h | h | h <;> cases h
    | comirq h => rw [hn'] at h; cases h
    | divirq h => rw [hn'] at h; cases h
    | push h _ => rw [hn'] at h; cases h
    | level h => rw [hn'] at h; cases h
    | command h _ _ _ => rw [hn'] at h; cases h
  · obtain ⟨rx, bits⟩ := x
    simp only
    split
    · exact fun s h => h.elim (fun h => h.2.1) fun h => h.1.2.1
    · rename_i hb
      rintro s (h | ⟨-, -, h⟩)
      · exact h
      · exact absurd h hb

theorem selectLevel_held (hc : c.wf) (hk : ReadsOnly c.card) (lvl : CascadeLevel) :
    Op.Triple (On c m Target.NoResponse) (selectLevel lvl) (fun _ => On c m Target.NoResponse) (Held m) := by
  have hl : c.card.sel lvl ≠ 0xA2 := by cases lvl <;> exact hk _ (by simp [CardCodes.sel])
  refine .bind (M := fun _ => On c m Target.NoResponse) (On.withCfg (.bind (On.setSeq _) fun _ => ?_)) fun f =>
    .bind (M := fun _ => On c m Target.NoResponse) (On.withCfg (.bind ((transceiveCrc_held hc hl).imp
      (fun _ h => On.top h) (fun _ _ h => h) fun _ h => h) fun x => ?_)) fun sak => fun s h => h
  · have rest : Op.Triple (On c m Target.NoResponse) (do
        let (rx, _) ← transceive (anticollFrame c lvl)
        match fragmentOf rx with
        | none => Op.raise .protocolError
        | some f =>
          if f.valid then do
            Op.setSeq fun q => q.keepFragment lvl f
            pure f
          else Op.raise .checksumError : Op Fragment) (fun _ => On c m Target.NoResponse) (Held m) := by
      refine .bind (transceive_held hc (by simpa [anticollFrame] using hl) (.inl rfl)) fun x => ?_
      obtain ⟨rx, bits⟩ := x
      simp only
      intro s h
      have held : Held m s := h.elim (fun h => h.2.1) fun h => h.1.2.1
      cases hf : fragmentOf rx with
      | none => exact held
      | some f =>
        have h5 : On c m Target.NoResponse s := by
          rcases h with h | ⟨-, h, -⟩
          · exact h
          · unfold fragmentOf at hf
            split at hf
            · simp at h
            · cases hf
        by_cases hv : f.valid = true
        · simp only [hv, if_true]; exact h5
        · simp only [hv]; exact held
    split
    · refine .bind (On.writeNoResponse hc.1 (n := .bitframing) nofun (.inr ?_)) fun _ => rest
      simp [Byte.hasAny, fullFrameBits]
    · exact rest
  · obtain ⟨rx, bits⟩ := x
    simp only
    split
    · rintro s (h | ⟨-, h, -⟩)
      · exact h
      · simp at h
    · exact fun s h => h.elim (fun h => h.2.1) fun h => h.1.2.1

theorem selectTag_held (hc : c.wf) (hk : ReadsOnly c.card) :
    Op.Triple (On c m Target.NoResponse) selectTag (fun _ => On c m Target.NoResponse) (Held m) := by
  have complete : Op.Triple (On c m Target.NoResponse) completeSelect (fun _ => On c m Target.NoResponse) (Held m) :=
    fun s h => h
  refine .bind (On.setSeq _) fun _ => .bind (selectLevel_held hc hk .one) fun more => ?_
  split
  · exact complete
  · refine .bind (selectLevel_held hc hk .two) fun more => ?_
    split
    · exact complete
    · exact fun s h => h.2.1

theorem readBlock_held (hc : c.wf) (hk : ReadsOnly c.card) (page : Byte) :
    Op.Triple (On c m fun _ => True) (readBlock page) (fun _ => On c m fun _ => True) (Held m) := by
  refine On.withCfg (.bind (transceiveCrc_held hc (hk _ (by simp))) fun x => ?_)
  obtain ⟨rx, bits⟩ := x
  simp only
  have top : ∀ s, (On c m Target.NoResponse s ∨ On c m (fun _ => True) s ∧ rx.length ≤ 1 ∧ bits ≠ 16) →
      On c m (fun _ => True) s := fun s h => h.elim On.top fun h => h.1
  split
  · exact fun s h => (top s h).2.1
  · exact fun s h => top s h

theorem readImage_held (hc : c.wf) (hk : ReadsOnly c.card) :
    Op.Triple (On c m fun _ => True) readImage (fun _ => On c m fun _ => True) (Held m) := by
  have block : ∀ k keep, Op.Triple (On c m fun _ => True) (assembleBlock k keep) (fun _ => On c m fun _ => True) (Held m) :=
    fun k keep => .bind (On.setSeq _) fun _ => .bind (readBlock_held hc hk _) fun rx => On.setSeq _
  have blocks : ∀ n k, Op.Triple (On c m fun _ => True) (assembleBlocks n k) (fun _ => On c m fun _ => True) (Held m) := by
    intro n
    induction n with
    | zero => exact fun k s h => h
    | succ n ih => exact fun k => .bind (block k _) fun _ => ih (k + 1)
  refine .bind (On.setSeq _) fun _ => .bind (blocks _ _) fun _ => ?_
  rw [if_pos (by decide)]
  exact .bind (block _ _) fun _ => On.setSeq _

end

end Sys2Proof.Machine
end

