-- ==== Sys2Proof/Laws/Transport.lean ====
section
/-! SUPPORT. Unit U0: a transaction looks at the configuration, the target and the environment only, so the host
operations of the transport are the bus rows with another sequencer; and what each bus row does, by the register at its
address. -/

namespace Sys2Proof.Machine

/-- The state with other sequencer registers, result and frames. -/
def State.outer (s : State) (q : Sequencer) (r : Result) (tr : List BusFrame) : State :=
  { s with seq := q, result := r, trace := tr }

/-- The answer of a body, its states seen through `outer`. -/
def outerResult {α : Type} (q : Sequencer) (r : Result) (tr : List BusFrame) :
    EStateM.Result Stop State α → EStateM.Result Stop State α
  | .ok a t => .ok a (t.outer q r tr)
  | .error e t => .error e (t.outer q r tr)

/-- A write at the target does not look at the sequencer, the result or the frames. -/
theorem targetWrite_outer (a : RegAddr) (v : Byte) (s : State) (q : Sequencer) (r : Result) (tr : List BusFrame) :
    targetWrite a v (s.outer q r tr) = outerResult q r tr (targetWrite a v s) := by
  rw [targetWrite, Op.bind_ok (Op.cfg_apply _), Op.bind_ok (Op.cfg_apply _)]
  have hc : (s.outer q r tr).cfg = s.cfg := rfl
  rw [hc]
  cases s.cfg.regmap.nameAt a with
  | none => rfl
  | some n =>
    cases n with
    | command =>
      simp only [writeCommand]
      rw [Op.bind_ok (Op.cfg_apply _), Op.bind_ok (Op.cfg_apply _), hc]
      cases s.cfg.codes.ofByte v with
      | none => rfl
      | some k => cases k <;> rfl
    | fifodata =>
      simp only [writeFifo]
      rw [Op.bind_ok (Op.state_apply _), Op.bind_ok (Op.state_apply _)]
      change (if s.tgt.cmd = s.cfg.codes.calccrc ∧ s.tgt.loadOpen = false then Op.refuse .fifoPushDuringCrc
        else Op.setTgt fun t => t.push s.cfg.fifoDepth v : Op Unit) (s.outer q r tr) = _
      split <;> rfl
    | bitframing =>
      simp only [writeBitframing]
      rw [Op.bind_ok (Op.state_apply _), Op.bind_ok (Op.state_apply _), Op.bind_ok (Op.setTgt_apply _ _),
        Op.bind_ok (Op.setTgt_apply _ _)]
      change (if v.hasAny s.cfg.masks.startSend ∧ s.tgt.cmd = s.cfg.codes.transceive ∧ s.tgt.sent = false then
        transmit (v.extractLsb' 0 3) else pure () : Op Unit) _ = _
      split <;> rfl
    | _ => rfl

/-- A read at the target does not look at the sequencer, the result or the frames. -/
theorem targetRead_outer (a : RegAddr) (s : State) (q : Sequencer) (r : Result) (tr : List BusFrame) :
    targetRead a (s.outer q r tr) = outerResult q r tr (targetRead a s) := by
  rw [targetRead, Op.bind_ok (Op.state_apply _), Op.bind_ok (Op.state_apply _)]
  have hc : (s.outer q r tr).cfg = s.cfg := rfl
  rw [hc]
  cases s.cfg.regmap.nameAt a with
  | none => rfl
  | some n =>
    cases n with
    | fifodata =>
      simp only [readFifo]
      rw [Op.bind_ok (Op.state_apply _), Op.bind_ok (Op.state_apply _)]
      change (match s.tgt.fifo with
        | h :: rest => (do
          Op.setTgt fun t => { t with fifo := rest }
          pure h : Op Byte)
        | [] => Op.draw 0x00) (s.outer q r tr) = _
      cases s.tgt.fifo <;> rfl
    | crcresultH =>
      simp only [readCrcResult]
      rw [Op.bind_ok (Op.state_apply _), Op.bind_ok (Op.state_apply _)]
      change (if s.tgt.crcKnown = true ∧ s.tgt.crcPend = none then pure (crcHigh s.tgt.crcRes)
        else Op.draw (crcHigh s.tgt.crcRes) : Op Byte) _ = _
      split <;> rfl
    | crcresultL =>
      simp only [readCrcResult]
      rw [Op.bind_ok (Op.state_apply _), Op.bind_ok (Op.state_apply _)]
      change (if s.tgt.crcKnown = true ∧ s.tgt.crcPend = none then pure (crcLow s.tgt.crcRes)
        else Op.draw (crcLow s.tgt.crcRes) : Op Byte) _ = _
      split <;> rfl
    | _ => rfl

/-! ## One transaction, with the place it leaves the sequencer in -/

/-- What a write transaction does to a state, its frame apart: nothing over an unconstrained transport, the target's
events and the write over the reference target. -/
def writeAccess (a : RegAddr) (v : Byte) (s : State) : EStateM.Result Stop State Unit :=
  match s.env.level with
  | .busOracle => .ok () s
  | .referenceTarget => targetWrite a v s.ticked

/-- What a read transaction does to a state, its frame apart. -/
def readAccess (a : RegAddr) (s : State) : EStateM.Result Stop State Byte :=
  match s.env.level with
  | .busOracle => .ok (s.env.byteValue 0x00) { s with env := s.env.afterBytes 1 }
  | .referenceTarget => targetRead a s.ticked

theorem writeAccess_outer (a : RegAddr) (v : Byte) (s : State) (q : Sequencer) (r : Result) (tr : List BusFrame) :
    writeAccess a v (s.outer q r tr) = outerResult q r tr (writeAccess a v s) := by
  rw [writeAccess, writeAccess]
  change (match s.env.level with
    | .busOracle => EStateM.Result.ok () (s.outer q r tr)
    | .referenceTarget => targetWrite a v (s.ticked.outer q r tr)) = _
  cases s.env.level with
  | busOracle => rfl
  | referenceTarget => exact targetWrite_outer a v s.ticked q r tr

theorem readAccess_outer (a : RegAddr) (s : State) (q : Sequencer) (r : Result) (tr : List BusFrame) :
    readAccess a (s.outer q r tr) = outerResult q r tr (readAccess a s) := by
  rw [readAccess, readAccess]
  change (match s.env.level with
    | .busOracle => EStateM.Result.ok (s.env.byteValue 0x00) ({ s with env := s.env.afterBytes 1 }.outer q r tr)
    | .referenceTarget => targetRead a (s.ticked.outer q r tr)) = _
  cases s.env.level with
  | busOracle => rfl
  | referenceTarget => exact targetRead_outer a s.ticked q r tr

theorem busWrite_access (a : RegAddr) (v : Byte) (s : State) : busWrite a v s = match writeAccess a v s with
    | .ok _ t => .ok () (t.recorded (writeFrame a v))
    | .error e t => .error e t := by
  cases h : s.env.level with
  | busOracle => rw [busWrite_oracle h, writeAccess, h]
  | referenceTarget =>
    rw [writeAccess, h]
    cases e : targetWrite a v s.ticked with
    | ok u t => exact busWrite_target h e
    | error x t => exact busWrite_stop h e

/-- A read transaction always goes on. -/
theorem readAccess_ok (a : RegAddr) (s : State) : ∃ v t, readAccess a s = .ok v t := by
  rw [readAccess]
  cases s.env.level with
  | busOracle => exact ⟨_, _, rfl⟩
  | referenceTarget => obtain ⟨v, t, e, -⟩ := targetRead_cases s.ticked a; exact ⟨v, t, e⟩

theorem busRead_access {a : RegAddr} {s t : State} {v : Byte} (e : readAccess a s = .ok v t) :
    busRead a s = .ok v (t.recorded (readFrame a v)) := by
  cases h : s.env.level with
  | busOracle => rw [readAccess, h] at e; cases e; exact busRead_oracle h a
  | referenceTarget => rw [readAccess, h] at e; exact busRead_target h e

theorem busWrite_outer {a : RegAddr} {v : Byte} {s t : State} {u : Unit} (e : writeAccess a v s = .ok u t)
    (q : Sequencer) (r : Result) (tr : List BusFrame) :
    busWrite a v (s.outer q r tr) = .ok () ((t.outer q r tr).recorded (writeFrame a v)) := by
  rw [busWrite_access, writeAccess_outer, e]; rfl

theorem busWrite_outer_stop {a : RegAddr} {v : Byte} {s t : State} {x : Stop} (e : writeAccess a v s = .error x t)
    (q : Sequencer) (r : Result) (tr : List BusFrame) :
    busWrite a v (s.outer q r tr) = .error x (t.outer q r tr) := by
  rw [busWrite_access, writeAccess_outer, e]; rfl

theorem busRead_outer {a : RegAddr} {s t : State} {v : Byte} (e : readAccess a s = .ok v t)
    (q : Sequencer) (r : Result) (tr : List BusFrame) :
    busRead a (s.outer q r tr) = .ok v ((t.outer q r tr).recorded (readFrame a v)) :=
  busRead_access (by rw [readAccess_outer, e]; rfl)

/-- A write access goes on or is refused. -/
theorem writeAccess_cases (a : RegAddr) (v : Byte) (s : State) :
    (∃ t, writeAccess a v s = .ok () t) ∨ ∃ r t, writeAccess a v s = .error (.refuse r) t := by
  rw [writeAccess]
  cases s.env.level with
  | busOracle => exact .inl ⟨_, rfl⟩
  | referenceTarget =>
    rcases targetWrite_cases s.ticked a v with ⟨t, e, -⟩ | ⟨r, e⟩
    · exact .inl ⟨t, e⟩
    · exact .inr ⟨r, _, e⟩

/-- An access writes neither the configuration, the sequencer, the port, the result nor the frames. -/
theorem writeAccess_rest {a : RegAddr} {v : Byte} {s t : State} {u : Unit} (e : writeAccess a v s = .ok u t) :
    t.cfg = s.cfg ∧ t.seq = s.seq ∧ t.port = s.port ∧ t.result = s.result ∧ t.trace = s.trace := by
  have h := writeAccess_outer a v s s.seq s.result s.trace
  rw [show s.outer s.seq s.result s.trace = s from rfl, e] at h
  have ht : t = t.outer s.seq s.result s.trace := by injection h
  have hr : t.cfg = s.cfg ∧ t.port = s.port := by
    rw [writeAccess] at e
    cases hl : s.env.level with
    | busOracle => rw [hl] at e; cases e; exact ⟨rfl, rfl⟩
    | referenceTarget =>
      rw [hl] at e
      rcases targetWrite_cases s.ticked a v with ⟨t', e', w⟩ | ⟨r, e'⟩
      · rw [show targetWrite a v s.ticked = .ok u t from e] at e'
        cases e'
        cases w with
        | command h k hk hn => exact ⟨by simp, by simp⟩
        | _ => exact ⟨rfl, rfl⟩
      · rw [show targetWrite a v s.ticked = .ok u t from e] at e'; cases e'
  rw [ht]
  exact ⟨hr.1, rfl, hr.2, rfl, rfl⟩

theorem readAccess_rest {a : RegAddr} {s t : State} {v : Byte} (e : readAccess a s = .ok v t) :
    t.cfg = s.cfg ∧ t.seq = s.seq ∧ t.port = s.port ∧ t.result = s.result ∧ t.trace = s.trace := by
  rw [readAccess] at e
  cases hl : s.env.level with
  | busOracle => rw [hl] at e; cases e; exact ⟨rfl, rfl, rfl, rfl, rfl⟩
  | referenceTarget =>
    rw [hl] at e
    obtain ⟨v', t', e', w⟩ := targetRead_cases s.ticked a
    rw [show targetRead a s.ticked = .ok v t from e] at e'
    cases e'
    rcases w with rfl | ⟨rest, -, -, rfl⟩ | rfl <;> exact ⟨rfl, rfl, rfl, rfl, rfl⟩

/-- Over the reference target an access is the target's events, then the write or the read. -/
theorem writeAccess_target {a : RegAddr} {v : Byte} {s t : State} (h : s.env.level = .referenceTarget)
    (e : targetWrite a v s.ticked = .ok () t) : writeAccess a v s = .ok () t := by rw [writeAccess, h]; exact e

theorem writeAccess_stop {a : RegAddr} {v : Byte} {s t : State} {x : Stop} (h : s.env.level = .referenceTarget)
    (e : targetWrite a v s.ticked = .error x t) : writeAccess a v s = .error x t := by rw [writeAccess, h]; exact e

theorem readAccess_target {a : RegAddr} {v : Byte} {s t : State} (h : s.env.level = .referenceTarget)
    (e : targetRead a s.ticked = .ok v t) : readAccess a s = .ok v t := by rw [readAccess, h]; exact e

/-! ## The bus rows -/

theorem exec_busWrite {a : RegAddr} {v : Byte} {s t : State} {u : Unit} (e : writeAccess a v s = .ok u t) :
    exec (.busWrite a v) s = .next (t.outer { s.seq with phase := 0 } .none [writeFrame a v]) :=
  rawOp_ok (s := s) (body := do
    busWrite a v
    pure .none) (Op.bind_ok (busWrite_outer e s.seq .none []))

theorem exec_busWrite_refused {a : RegAddr} {v : Byte} {s t : State} {r : Refusal}
    (e : writeAccess a v s = .error (.refuse r) t) : exec (.busWrite a v) s = .refused r := by
  have h : (do
      busWrite a v
      pure .none : Op Result) s.startRaw = .error (.refuse r) (t.outer s.seq .none []) :=
    Op.bind_error (busWrite_outer_stop e s.seq .none [])
  change rawOp (do
    busWrite a v
    pure .none) s = _
  rw [rawOp, ← State.startRaw, h]

theorem exec_busRead {a : RegAddr} {s t : State} {v : Byte} (e : readAccess a s = .ok v t) :
    exec (.busRead a) s = .next (t.outer { s.seq with phase := 0 } (.byte v) [readFrame a v]) :=
  rawOp_ok (s := s) (body := do
    let v ← busRead a
    pure (.byte v)) (Op.bind_ok (busRead_outer e s.seq .none []))

/-! ## The host operations of the transport -/

theorem regAddr_of_le {addr : Byte} (h : addr ≤ 0x3F) (s : State) : regAddr addr s = .ok (addr.setWidth 6) s := by
  rw [regAddr, regAddr?, if_pos (show addr ≤ regAddrMax from h)]; rfl

theorem regAddr_of_gt {addr : Byte} (h : 0x3F < addr) (s : State) :
    regAddr addr s = .error (.raise .preconditionViolation) s := by
  rw [regAddr, regAddr?, if_neg (show ¬ addr ≤ regAddrMax from BitVec.not_le.2 h)]; rfl

/-- A host operation whose first step raises leaves nothing but the outcome. -/
theorem hostOp_refused {n : OpName} {body : Op Result} {s : State} {k : OpOutcome}
    (h : body (s.start n) = .error (.raise k) (s.start n)) :
    hostOp n body s = .next { s with seq := s.seq.done k, result := .none, trace := [] } := hostOp_raise h

/-- The state a host operation starts its body in. -/
theorem start_outer (s : State) (n : OpName) :
    s.start n = s.outer { s.seq with op := some n, phase := 0 } .none [] := rfl

theorem hostOp_refuses {n : OpName} {body : Op Result} {s t : State} {r : Refusal}
    (h : body (s.start n) = .error (.refuse r) t) : hostOp n body s = .refused r := by rw [hostOp, h]

/-- REG_WRITE is the write of its bus row (R140). -/
theorem exec_regWrite {addr v : Byte} {s t : State} {x : Unit} (ha : addr ≤ 0x3F)
    (e : writeAccess (addr.setWidth 6) v s = .ok x t) :
    exec (.regWrite addr v) s = .next (t.outer (s.seq.done .ok) .none [writeFrame (addr.setWidth 6) v]) := by
  have h := busWrite_outer e { s.seq with op := some .regWrite, phase := 0 } .none []
  exact (hostOp_ok (n := .regWrite) (s := s) (r := .none) ((Op.bind_ok (regAddr_of_le ha _)).trans
    (Op.bind_ok h))).trans rfl

theorem exec_regWrite_refused {addr v : Byte} {s t : State} {r : Refusal} (ha : addr ≤ 0x3F)
    (e : writeAccess (addr.setWidth 6) v s = .error (.refuse r) t) : exec (.regWrite addr v) s = .refused r := by
  have h := busWrite_outer_stop e { s.seq with op := some .regWrite, phase := 0 } .none []
  exact hostOp_refuses (n := .regWrite) (s := s) ((Op.bind_ok (regAddr_of_le ha _)).trans (Op.bind_error h))

/-- REG_READ is the read of its bus row (R141). -/
theorem exec_regRead {addr v : Byte} {s t : State} (ha : addr ≤ 0x3F)
    (e : readAccess (addr.setWidth 6) s = .ok v t) :
    exec (.regRead addr) s = .next (t.outer (s.seq.done .ok) (.byte v) [readFrame (addr.setWidth 6) v]) := by
  have h := busRead_outer e { s.seq with op := some .regRead, phase := 0 } .none []
  exact (hostOp_ok (n := .regRead) (s := s) (r := .byte v) ((Op.bind_ok (regAddr_of_le ha _)).trans
    (Op.bind_ok h))).trans rfl

/-- SET_BITS is the read and the write of its bus rows, one after the other (R142). -/
theorem exec_setBits {addr m v : Byte} {s t u : State} {x : Unit} (ha : addr ≤ 0x3F)
    (er : readAccess (addr.setWidth 6) s = .ok v t) (ew : writeAccess (addr.setWidth 6) (v ||| m) t = .ok x u) :
    exec (.setBits addr m) s = .next (u.outer (s.seq.done .ok) .none
      [writeFrame (addr.setWidth 6) (v ||| m), readFrame (addr.setWidth 6) v]) := by
  have h2 := busWrite_outer ew { s.seq with op := some .setBits, phase := 1 } .none [readFrame (addr.setWidth 6) v]
  have h1 := busRead_outer er { s.seq with op := some .setBits, phase := 0 } .none []
  exact (hostOp_ok (n := .setBits) (s := s) (r := .none) ((Op.bind_ok (regAddr_of_le ha _)).trans (Op.bind_ok
    ((Op.bind_ok h1).trans h2)))).trans rfl

/-- CLEAR_BITS is the read and the write of its bus rows, one after the other (R143). -/
theorem exec_clearBits {addr m v : Byte} {s t u : State} {x : Unit} (ha : addr ≤ 0x3F)
    (er : readAccess (addr.setWidth 6) s = .ok v t) (ew : writeAccess (addr.setWidth 6) (v &&& m.compl) t = .ok x u) :
    exec (.clearBits addr m) s = .next (u.outer (s.seq.done .ok) .none
      [writeFrame (addr.setWidth 6) (v &&& m.compl), readFrame (addr.setWidth 6) v]) := by
  have h2 := busWrite_outer ew { s.seq with op := some .clearBits, phase := 1 } .none [readFrame (addr.setWidth 6) v]
  have h1 := busRead_outer er { s.seq with op := some .clearBits, phase := 0 } .none []
  exact (hostOp_ok (n := .clearBits) (s := s) (r := .none) ((Op.bind_ok (regAddr_of_le ha _)).trans (Op.bind_ok
    ((Op.bind_ok h1).trans h2)))).trans rfl

/-! ## Which writes the target takes -/

/-- A write goes on exactly where the target accepts the value (R163, R194, R199, R200). -/
theorem writeAccess_ok_iff (a : RegAddr) (v : Byte) (s : State) :
    (∃ t, writeAccess a v s = .ok () t) ↔ s.accepts a v := by
  rw [writeAccess, State.accepts]
  cases s.env.level with
  | busOracle => exact ⟨fun _ => .inl rfl, fun _ => ⟨_, rfl⟩⟩
  | referenceTarget =>
    simp only [reduceCtorEq, false_or]
    rw [← ticked_cfg s]
    have hc : s.tgt.cmd = s.ticked.tgt.cmd := by simp
    have hl : s.tgt.loadOpen = s.ticked.tgt.loadOpen := by simp
    rw [hc, hl]
    generalize s.ticked = u
    by_cases hs : RegName.storesWrite (u.cfg.regmap.nameAt a) = true
    · refine ⟨fun _ => ⟨fun h => ?_, fun h => ?_⟩, fun _ => ⟨_, targetWrite_storage hs v⟩⟩ <;>
        exact absurd (h ▸ hs) (by decide)
    cases hn : u.cfg.regmap.nameAt a with
    | none => rw [hn] at hs; exact absurd rfl hs
    | some n =>
      have free : (∃ t, targetWrite a v u = .ok () t) → n ≠ .command → n ≠ .fifodata →
          ((∃ t, targetWrite a v u = .ok () t) ↔ (some n = some RegName.command →
            (u.cfg.codes.ofByte v).isSome = true ∧ u.cfg.codes.ofByte v ≠ some .authent) ∧
            (some n = some RegName.fifodata → u.tgt.cmd = u.cfg.codes.calccrc → u.tgt.loadOpen = true)) :=
        fun h h1 h2 => ⟨fun _ => ⟨fun e => absurd (Option.some.inj e) h1, fun e => absurd (Option.some.inj e) h2⟩,
          fun _ => h⟩
      cases n with
      | command =>
        cases hk : u.cfg.codes.ofByte v with
        | none => simp [targetWrite_command_unknown hn hk]
        | some k =>
          by_cases ha : k = .authent
          · subst ha; simp [targetWrite_command_authent hn hk]
          · simp [targetWrite_command hn hk ha, ha]
      | fifodata =>
        by_cases h : u.tgt.cmd = u.cfg.codes.calccrc ∧ u.tgt.loadOpen = false
        · simp [targetWrite_fifodata_refused hn h.1 h.2, h.1, h.2]
        · have ho : u.tgt.cmd = u.cfg.codes.calccrc → u.tgt.loadOpen = true := by
            intro e; rcases hb : u.tgt.loadOpen with _ | _
            · exact absurd ⟨e, hb⟩ h
            · rfl
          simpa [targetWrite_fifodata hn ho v] using ho
      | fifolevel => exact free ⟨_, targetWrite_fifolevel hn v⟩ nofun nofun
      | comirq => exact free ⟨_, targetWrite_comirq hn v⟩ nofun nofun
      | divirq => exact free ⟨_, targetWrite_divirq hn v⟩ nofun nofun
      | error => exact free ⟨_, targetWrite_readOnly (.inl hn) v⟩ nofun nofun
      | crcresultH => exact free ⟨_, targetWrite_readOnly (.inr (.inl hn)) v⟩ nofun nofun
      | crcresultL => exact free ⟨_, targetWrite_readOnly (.inr (.inr hn)) v⟩ nofun nofun
      | bitframing =>
        refine free ?_ nofun nofun
        by_cases hb : v.hasAny u.cfg.masks.startSend = true ∧ u.tgt.cmd = u.cfg.codes.transceive ∧ u.tgt.sent = false
        · exact ⟨_, targetWrite_bitframing_send hn hb⟩
        · exact ⟨_, targetWrite_bitframing_idle hn hb⟩
      | _ => exact absurd (by rw [hn]; rfl) hs

end Sys2Proof.Machine
end

