-- ==== Sys2Proof/Tests/Slice0.lean ====
section
/-! SUPPORT. Tests: ill-formed terms refused, words written out from the spec's encodings decoded, one step per vector
of 95_test_vectors.md, and a witness for the hypotheses of every statement. -/

namespace Sys2Proof.Tests

open Sys2Proof.Machine

/- One kernel evaluation at a time: each holds memory of its own. -/
set_option Elab.async false

/-- A configuration with other poll budgets and another FIFO depth. -/
def budgets (crc cmd depth : Nat) : Config := { Config.default with pollCrc := crc, pollCmd := cmd, fifoDepth := depth }

/-- What an answer goes on with. -/
def out : Answer → Option State
  | .next t => some t
  | .fault _ => none
  | .refused _ => none

/-- What an answer refuses with. -/
def stop : Answer → Option Refusal
  | .next _ => none
  | .fault _ => none
  | .refused r => some r

/-! ## WellFormed (smoke) -/

/-- A record's length byte holds at most 255 (R113). -/
theorem test_wf_record_too_long : (Instr.tlvRecord (List.replicate 256 0x00)).wf = false := by decide +kernel

/-- "The addresses must be pairwise distinct" (R31). -/
theorem test_wf_regmap_clash : ¬ ({ RegMap.default with comien := 0x01 } : RegMap).distinct := by decide +kernel

/-- "The five codes must be pairwise distinct" (R104). -/
theorem test_wf_codes_clash : ¬ ({ CmdCodes.default with authent := 0xC } : CmdCodes).distinct := by decide +kernel

/-- Both SELECT codes the same (log entry 22). -/
theorem test_wf_card_clash : ¬ ({ CardCodes.default with selCl2 := 0x93 } : CardCodes).distinct := by decide +kernel

/-- No flush bit; a start-send bit among the bit-count bits; a timer bit outside 0x77; a done flag at bit 7; a mask of
more than three bits (R8, R41, D6, R40). -/
theorem test_wf_masks_bad : ¬ ({ Masks.default with flush := 0x00 } : Masks).ok ∧
    ¬ ({ Masks.default with startSend := 0x04 } : Masks).ok ∧ ¬ ({ Masks.default with timerIrq := 0x08 } : Masks).ok ∧
    ¬ ({ Masks.default with crcIrq := 0x80 } : Masks).ok ∧ ¬ ({ Masks.default with rxlastMask := 0x0F } : Masks).ok := by
  decide +kernel

/-- A hole between two regions; a table that ends before 540 (R261). -/
theorem test_wf_regions_bad : ({ RegionTable.doc with cc := ⟨13, 3⟩ } : RegionTable).contiguous = false ∧
    ({ RegionTable.doc with reservedB := ⟨538, 1⟩ } : RegionTable).contiguous = false := by decide +kernel

/-- Tables without a gap whose lengths are not the document's: INTERNAL of 5 bytes, CFG0 of none, USER of 504 where the
table is not the NTAG215's (R261, R264). -/
theorem test_wf_region_lengths :
    (∀ t ∈ [{ RegionTable.doc with internal := ⟨9, 5⟩, staticLock := ⟨14, 0⟩, cc := ⟨14, 2⟩ },
      { RegionTable.doc with cfg0 := ⟨524, 0⟩, cfg1 := ⟨524, 8⟩ },
      { RegionTable.doc with user := ⟨16, 504⟩, dynLock := ⟨520, 0⟩, reservedA := ⟨520, 4⟩ }],
      t.contiguous = true ∧ ¬ t.ok ∧ ¬ ({ Config.default with regions := t } : Config).wf) := by decide +kernel

/-- No poll at all; a FIFO of no byte; a FIFO whose level does not fit a byte (R161, R184, R45, R191). -/
theorem test_wf_config_bad : ¬ (budgets 0 2000 64).wf ∧ ¬ (budgets 255 0 64).wf ∧ ¬ (budgets 255 2000 0).wf ∧
    ¬ (budgets 255 2000 256).wf ∧ (budgets 1 1 1).wf ∧ (budgets 1 1 255).wf := by
  refine ⟨?_, ?_, ?_, ?_, ?_, ?_⟩ <;> decide +kernel

/-- The defaults are well-formed, with either region table (R263, R264); only the document's has its lengths. -/
theorem test_wf_default : Config.default.wf ∧ ({ Config.default with regions := .ntag215 } : Config).wf ∧
    RegionTable.doc.docLengths ∧ ¬ RegionTable.ntag215.docLengths := by decide +kernel

/-! ## A state for one step

The simulator's settings (R304) with smaller poll budgets: unwritten registers read 0x00, COMIRQ's flags are clear, the
reference tag or a script answers. -/

/-- The target with every register 0x00 and no flag set. -/
def blankTarget : Target := { Target.reset with regs := Vector.replicate 64 0x00, comFlags := 0x00 }

/-- A state at the reference target. -/
def sim (crcDelay rxDelay : Nat) (feed : List CardOutcome) : State :=
  { State.reset with
    cfg := budgets 8 8 64
    tgt := blankTarget
    env := { Environment.reset with cardSource := .referenceTag, drawSource := .simulator crcDelay rxDelay,
                                    cardFeed := feed } }

/-- The tag's memory of MEM0, its first 16 bytes (95_test_vectors.md part 3). -/
def mem0 : Memory :=
  Memory.ofBytes [0x04, 0x12, 0x34, 0xAA, 0xAA, 0xBB, 0xCC, 0xDD, 0x00, 0x48, 0x00, 0x00, 0xE1, 0x10, 0x3E, 0x00]

/-- A state whose reference tag holds MEM0 and stands in a given state. -/
def withTag (st : TagState) : State :=
  let s := sim 0 1 []
  { s with env := { s.env with tag := { mem := mem0, st := st } } }

/-- A state over an unconstrained transport, its reads scripted. -/
def oracle (bytes : List Byte) : State :=
  let s := sim 0 1 []
  { s with env := { s.env with level := .busOracle, byteFeed := bytes } }

/-- The bus frames an answer shows, oldest first: the two bytes sent and the byte returned. -/
def frames (a : Answer) : List (Byte × Byte × Option Byte) :=
  match out a with
  | some t => t.trace.reverse.map fun f => (f.b0, f.b1, f.answer)
  | none => []

/-- The outcome and the result of an answer. -/
def told (a : Answer) : Option (OpOutcome × Result) := (out a).map fun t => (t.seq.outcome, t.result)

/-- The number of bus transactions of an answer. -/
def count (a : Answer) : Nat := (frames a).length

/-! ## Decoding: words written out bit by bit -/

/-- The HOP rows (R117). -/
theorem test_decode_hop :
    decode .default .hop [0b00000001, 0b00001101, 0b10000111] = .ok (.regWrite 0x0D 0x87) ∧
    decode .default .hop [0b00000010, 0b00111111] = .ok (.regRead 0x3F) ∧
    decode .default .hop [0b00000011, 0b00010100, 0b00000011] = .ok (.setBits 0x14 0x03) ∧
    decode .default .hop [0b00000100, 0b00000100, 0b10000000] = .ok (.clearBits 0x04 0x80) ∧
    decode .default .hop [0b00000101, 0b00110000, 0b00000100] = .ok (.crcCalc [0x30, 0x04]) ∧
    decode .default .hop [0b00000110, 0b00001100, 0b00100110] = .ok (.toCard .transceive [0x26]) ∧
    decode .default .hop [0b00000111] = .ok .requestTag ∧
    decode .default .hop [0b00001000] = .ok .selectTag ∧
    decode .default .hop [0b00001001, 0b10000111] = .ok (.readBlock 0x87) ∧
    decode .default .hop [0b00001010] = .ok .readImage ∧
    decode .default .hop [0b00001011] = .ok .readTag ∧
    decode .default .hop [0b00001100, 0b00000100, 1, 2, 3, 4] = .ok (.writeBlock 0x04 [1, 2, 3, 4]) ∧
    decode .default .hop [0b00001101, 0b00000100] = .ok (.region .user) ∧
    decode .default .hop [0b00001110, 0b00000011, 0b00000000] = .ok (.extract [0x03, 0x00]) ∧
    decode .default .hop [0b00001111, 0b10101010] = .ok (.wrap [0xAA]) ∧
    decode .default .hop [0b00010000] = .ok .init := by decide +kernel

/-- The BUS rows: `0aaaaaa0vvvvvvvv` and `1aaaaaa000000000` (R101 to R103). -/
theorem test_decode_bus :
    decode .default .bus [0b00101000, 0b10000011] = .ok (.busWrite 0b010100 0b10000011) ∧
    decode .default .bus [0b01111110, 0b01010101] = .ok (.busWrite 0b111111 0b01010101) ∧
    decode .default .bus [0b10001000, 0b00000000] = .ok (.busRead 0b000100) ∧
    decode .default .bus [0b11111110, 0b00000000] = .ok (.busRead 0b111111) := by decide +kernel

/-- The CMD rows: bits[7:4] zero, bits[3:0] the code (R104). -/
theorem test_decode_cmd :
    decode .default .cmd [0b00000000] = .ok .cmdIdle ∧ decode .default .cmd [0b00000011] = .ok .cmdCalccrc ∧
    decode .default .cmd [0b00001100] = .ok .cmdTransceive ∧ decode .default .cmd [0b00001110] = .ok .cmdAuthent ∧
    decode .default .cmd [0b00001111] = .ok .cmdResetphase := by decide +kernel

/-- The CARD rows, with the frames of vectors A1, M1 and M5 (R107 to R111). -/
theorem test_decode_card :
    decode .default .card [0b00100110] = .ok .reqa ∧
    decode .default .card [0b10010011, 0b00100000] = .ok (.anticoll .one) ∧
    decode .default .card [0b10010101, 0b00100000] = .ok (.anticoll .two) ∧
    decode .default .card [0b10010011, 0b01110000, 0x04, 0x12, 0x34, 0x56, 0x74, 0x10, 0x59] =
      .ok (.select .one 0x04 0x12 0x34 0x56 0x74 0x10 0x59) ∧
    decode .default .card [0b00110000, 0x04, 0x26, 0xEE] = .ok (.read 0x04 0x26 0xEE) ∧
    decode .default .card [0b10100010, 0x04, 0x01, 0x02, 0x03, 0x04, 0x78, 0x57] =
      .ok (.write 0x04 0x01 0x02 0x03 0x04 0x78 0x57) := by decide +kernel

/-- The payload record of vector T2 (R113). -/
theorem test_decode_tlv :
    decode .default .tlv [0b00000011, 0b00000101, 0x48, 0x65, 0x6C, 0x6C, 0x6F] =
      .ok (.tlvRecord [0x48, 0x65, 0x6C, 0x6C, 0x6F]) := by decide +kernel

/-- What encodes no instruction is refused by name (R118): reserved operations, bit 0 of a frame, a high bit of a
command, an unused code, 0x91 and 0x97 for SELECT (the table's note), a record that is cut. -/
theorem test_decode_rejects :
    decode .default .hop [0x00] = .error .reservedOp ∧ decode .default .hop [0x11] = .error .reservedOp ∧
    decode .default .hop [] = .error .badOperands ∧ decode .default .hop [0x07, 0x00] = .error .badOperands ∧
    decode .default .bus [0b00000001, 0x00] = .error .badBusFrame ∧
    decode .default .cmd [0b00011100] = .error .badCommand ∧ decode .default .cmd [0x07] = .error .badCommand ∧
    decode .default .card [0x91, 0x20] = .error .badCardFrame ∧
    decode .default .card [0x97, 0x20] = .error .badCardFrame ∧
    decode .default .tlv [0x03, 0x02, 0xAA] = .error .badRecord ∧
    decode .default .tlv [0x04, 0x00] = .error .badRecord := by decide +kernel

/-- Words of the opcode table, as the table numbers them. -/
theorem test_table_words :
    decodeTableWord 8 0x10 = some .init ∧ decodeTableWord 16 0x1A07 = some (.busWrite 0x0D 0x07) ∧
    decodeTableWord 16 0x8800 = some (.busRead 0x04) ∧ decodeTableWord 8 0x00 = some .cmdIdle ∧
    decodeTableWord 8 0x26 = some .reqa ∧ decodeTableWord 16 0x9320 = some (.anticoll .one) ∧
    decodeTableWord 16 0x9570 = some (.select .two 0 0 0 0 0 0 0) ∧ decodeTableWord 8 0xA2 = some (.write 0 0 0 0 0 0 0)
    := by decide +kernel

/-- The word placed at the port is the instruction the next step runs. -/
theorem test_withFetchWord :
    (State.reset.withFetchWord 8 0x0F).port = [{ format := .hop, bytes := [0x0F] }] ∧
    out (step (State.reset.withFetchWord 8 0x0F)) = out (exec (.wrap []) State.reset) := by decide +kernel

/-- Words of the table's width that no format decodes keep the format of that width: a frame with bit 0 set is refused
by the bus, a reserved operation by the host port (R118, log entry 7). -/
theorem test_withFetchWord_refused :
    (State.reset.withFetchWord 16 0x0904).port = [{ format := .bus, bytes := [0x09, 0x04] }] ∧
    stop (step (State.reset.withFetchWord 16 0x0904)) = some (.noEncoding .badBusFrame) ∧
    stop (step (State.reset.withFetchWord 16 0x0F41)) = some (.noEncoding .badBusFrame) ∧
    (State.reset.withFetchWord 8 0x11).port = [{ format := .hop, bytes := [0x11] }] ∧
    told (step (State.reset.withFetchWord 8 0x11)) = some (.preconditionViolation, .none) := by decide +kernel

/-! ## One step: the transport (vectors B1 to B13) -/

/-- B7: an operand above 0x3F. B4: `7E 55`. -/
theorem test_regWrite : told (exec (.regWrite 0x40 0x00) (sim 0 1 [])) = some (.preconditionViolation, .none) ∧
    frames (exec (.regWrite 0x3F 0x55) (sim 0 1 [])) = [(0x7E, 0x55, none)] := by decide +kernel

/-- B5: `FE 00` -> 9C. -/
theorem test_regRead : told (exec (.regRead 0x3F) (oracle [0x9C])) = some (.ok, .byte 0x9C) ∧
    frames (exec (.regRead 0x3F) (oracle [0x9C])) = [(0xFE, 0x00, some 0x9C)] := by decide +kernel

/-- B8: TXCONTROL, old value 80: `A8 00` -> 80, `28 83`. -/
theorem test_setBits : frames (exec (.setBits 0x14 0x03) (oracle [0x80])) =
    [(0xA8, 0x00, some 0x80), (0x28, 0x83, none)] := by decide +kernel

/-- B9: BITFRAMING, old value 87: `9A 00` -> 87, `1A 07`. -/
theorem test_clearBits : frames (exec (.clearBits 0x0D 0x80) (oracle [0x87])) =
    [(0x9A, 0x00, some 0x87), (0x1A, 0x07, none)] := by decide +kernel

/-- B10: a flush of five bytes: `94 00` -> 05, `14 85`, the FIFO empty afterwards. -/
theorem test_setBits_flush :
    let s := sim 0 1 []
    let a := exec (.setBits 0x0A 0x80) { s with tgt := { s.tgt with fifo := [1, 2, 3, 4, 5] } }
    frames a = [(0x94, 0x00, some 0x05), (0x14, 0x85, none)] ∧ (out a).map (·.tgt.fifo) = some [] := by decide +kernel

/-- B11: COMIRQ with flags 65: `88 00` -> 65, `08 65`, all flags 0 afterwards. -/
theorem test_clearBits_comirq :
    let s := sim 0 1 []
    let a := exec (.clearBits 0x04 0x80) { s with tgt := { s.tgt with comFlags := 0x65 } }
    frames a = [(0x88, 0x00, some 0x65), (0x08, 0x65, none)] ∧ (out a).map (·.tgt.comFlags) = some 0 := by
  decide +kernel

/-- A plain register stores the byte and reads it back (R146); the host operation's outcome is not written. -/
theorem test_busWrite : (out (exec (.busWrite 0x3F 0x55) (sim 0 1 []))).map (·.tgt.reg 0x3F) = some 0x55 ∧
    stop (exec (.busWrite 0x01 0x1C) (sim 0 1 [])) = some (.commandRefused 0x1C) := by decide +kernel

/-- CONTROL reads its stored bits[7:3] and the valid-bit count (R40); a read of FIFODATA pops the head (R191). -/
theorem test_busRead :
    let s := sim 0 1 []
    told (exec (.busRead 0x0C) { s with tgt := { (s.tgt.setReg 0x0C 0xFD) with rxLast := 4 } }) =
      some (.ok, .byte 0xFC) ∧
    (out (exec (.busRead 0x09) { s with tgt := { s.tgt with fifo := [7, 8] } })).map (fun t => (t.result, t.tgt.fifo)) =
      some (.byte 7, [8]) := by decide +kernel

/-! ## One step: the command register -/

/-- A write of IDLE cancels a pending answer (R194). -/
theorem test_cmdIdle :
    let s := sim 0 1 []
    (out (exec .cmdIdle { s with tgt := { s.tgt with cmd := 0xC, sent := true, rxPend := some .silent } })).map
      (fun t => (t.tgt.cmd, t.tgt.rxPend, t.tgt.sent)) = some (0x0, none, false) := by decide +kernel

/-- CALCCRC takes the FIFO (R163). -/
theorem test_cmdCalccrc :
    let s := sim 0 1 []
    (out (exec .cmdCalccrc { s with tgt := { s.tgt with fifo := [0x30, 0x04] } })).map
      (fun t => (t.tgt.crcPend, t.tgt.fifo, t.tgt.reg 0x01)) = some (some [0x30, 0x04], [], 0x03) := by decide +kernel

/-- TRANSCEIVE arms and keeps the FIFO (R197). -/
theorem test_cmdTransceive :
    let s := sim 0 1 []
    (out (exec .cmdTransceive { s with tgt := { s.tgt with fifo := [0x26] } })).map
      (fun t => (t.tgt.cmd, t.tgt.fifo, t.tgt.sent)) = some (0xC, [0x26], false) := by decide +kernel

/-- AUTHENT: refused by the reference target, a plain frame over an unconstrained transport (R199). -/
theorem test_cmdAuthent : stop (exec .cmdAuthent (sim 0 1 [])) = some .authentRefused ∧
    frames (exec .cmdAuthent (oracle [])) = [(0x02, 0x0E, none)] := by decide +kernel

/-- RESETPHASE: FIFO empty, IDLE, the registers fresh draws (R198; R304: 0x00). -/
theorem test_cmdResetphase :
    let s := sim 0 1 []
    (out (exec .cmdResetphase { s with tgt := { (s.tgt.setReg 0x14 0x83) with fifo := [1] } })).map
      (fun t => (t.tgt.fifo, t.tgt.cmd, t.tgt.reg 0x14, t.tgt.crcKnown)) = some ([], 0x0, 0x00, false) := by
  decide +kernel

/-! ## One step: CRC_CALC (section 2.2) -/

/-- V-CRC-TRACE: `CRC_CALC [30, 04]` with `crc_delay = 2`. -/
theorem test_crcCalc_trace : frames (exec (.crcCalc [0x30, 0x04]) (sim 2 1 [])) =
    [(0x8A, 0x00, some 0x00), (0x0A, 0x00, none), (0x94, 0x00, some 0x00), (0x14, 0x80, none), (0x12, 0x30, none),
     (0x12, 0x04, none), (0x02, 0x03, none), (0x8A, 0x00, some 0x00), (0x8A, 0x00, some 0x00), (0x8A, 0x00, some 0x04),
     (0xC4, 0x00, some 0x26), (0xC2, 0x00, some 0xEE)] := by decide +kernel

/-- K33 to K35 with a budget of 8: right by luck, torn, stale. -/
theorem test_crcCalc_soft_timeout : told (exec (.crcCalc [0x30, 0x04]) (sim 8 1 [])) = some (.ok, .bytes [0x26, 0xEE]) ∧
    told (exec (.crcCalc [0x30, 0x04]) (sim 9 1 [])) = some (.ok, .bytes [0xFF, 0xEE]) ∧
    told (exec (.crcCalc [0x30, 0x04]) (sim 10 1 [])) = some (.ok, .bytes [0xFF, 0xFF]) := by decide +kernel

/-- K1, K2, K3, K11, K17, K22. -/
theorem test_crcA : crcA [] = 0x6363 ∧ crcA [0x00, 0x00] = 0x1EA0 ∧ crcA [0x12, 0x34] = 0xCF26 ∧
    crcA [0xFF, 0xFF, 0xFF] = 0x935F ∧ crcA [0x93, 0x70, 0x88, 0x04, 0x12, 0x34, 0xAA] = 0x90BA ∧
    crcA [0xA2, 0x04, 0x01, 0x02, 0x03, 0x04] = 0x5778 := by decide +kernel

/-! ## One step: TO_CARD and REQUEST_TAG (section 2.3) -/

/-- L6 to L8, L11, L14. -/
theorem test_response_length : rxBits 0 0 = 0 ∧ rxBits 0 1 = -7 ∧ rxBits 0 7 = -1 ∧ rxBits 18 0 = 144 ∧
    rxBits 255 7 = 2039 ∧ readCount 0 = 1 ∧ readCount 18 = 16 := by decide +kernel

/-- TO_CARD IDLE over the reference target: BusTimeout after 6 + 0 + 1 + 8 + 2 transactions; over an oracle bus that
shows the timer bit on poll 1 the result is (OK, [], 0). -/
theorem test_toCard_idle : told (exec (.toCard .idle []) (sim 0 1 [])) = some (.ok, .exchange .err [] 0) ∧
    count (exec (.toCard .idle []) (sim 0 1 [])) = 17 ∧
    told (exec (.toCard .idle []) (oracle [0, 0, 0x01, 0, 0])) = some (.ok, .exchange .ok [] 0) := by decide +kernel

/-- A full transceive over the reference tag: the 18 bytes of a read are 144 bits, 16 of them read out (M1, L11). -/
theorem test_toCard_transceive : told (exec (.toCard .transceive [0x30, 0x00, 0x02, 0xA8]) (withTag .active)) =
    some (.ok, .exchange .ok [0x04, 0x12, 0x34, 0xAA, 0xAA, 0xBB, 0xCC, 0xDD, 0x00, 0x48, 0x00, 0x00, 0xE1, 0x10, 0x3E,
      0x00] 144) := by decide +kernel

/-- V-REQ-TRACE. -/
theorem test_requestTag_trace : frames (exec .requestTag (sim 0 1 [.response [0x44, 0x00] 0 0])) =
    [(0x1A, 0x07, none), (0x04, 0xF7, none), (0x88, 0x00, some 0x00), (0x08, 0x00, none), (0x94, 0x00, some 0x00),
     (0x14, 0x80, none), (0x02, 0x00, none), (0x12, 0x26, none), (0x02, 0x0C, none), (0x9A, 0x00, some 0x07),
     (0x1A, 0x87, none), (0x88, 0x00, some 0x40), (0x88, 0x00, some 0x60), (0x9A, 0x00, some 0x87), (0x1A, 0x07, none),
     (0x8C, 0x00, some 0x00), (0x94, 0x00, some 0x02), (0x98, 0x00, some 0x00), (0x92, 0x00, some 0x44),
     (0x92, 0x00, some 0x00)] := by decide +kernel

/-- X1, X2, X3, X4, X6, X7: outcome and transactions (X1 with 8 polls). -/
theorem test_requestTag_failures :
    (fun o => let a := exec .requestTag (sim 0 1 [o]); (told a, count a)) .silent = (some (.busTimeout, .none), 21) ∧
    (fun o => let a := exec .requestTag (sim 0 0 [o]); (told a, count a)) .timeout = (some (.noTag, .none), 18) ∧
    (fun o => let a := exec .requestTag (sim 0 1 [o]); (told a, count a)) (.response [0x44, 0x00] 0 0x08) =
      (some (.protocolError, .none), 16) ∧
    (fun o => let a := exec .requestTag (sim 0 1 [o]); (told a, count a)) (.response [0x44, 0x00] 0 0x04) =
      (some (.ok, .bytes [0x44, 0x00]), 20) ∧
    (fun o => let a := exec .requestTag (sim 0 1 [o]); (told a, count a)) (.response [0x44, 0x00, 0x00] 0 0) =
      (some (.protocolError, .none), 21) ∧
    (fun o => let a := exec .requestTag (sim 0 1 [o]); (told a, count a)) (.response [0x44, 0x00] 7 0) =
      (some (.protocolError, .none), 20) := by decide +kernel

/-! ## One step: SELECT_TAG (section 2.4) -/

/-- A3 and A11: the two-level identifier, byte 0 of a non-final fragment dropped whatever it is. -/
theorem test_selectTag :
    (fun f => let a := exec .selectTag (sim 0 1 [.response f 0 0, .response [0x04, 0xDA, 0x17] 0 0,
      .response [0xAA, 0xBB, 0xCC, 0xDD, 0x00] 0 0, .response [0x00, 0xFE, 0x51] 0 0]); (told a, count a))
      [0x88, 0x04, 0x12, 0x34, 0xAA] = (some (.ok, .bytes [0x04, 0x12, 0x34, 0xAA, 0xBB, 0xCC, 0xDD]), 133) ∧
    (fun f => told (exec .selectTag (sim 0 1 [.response f 0 0, .response [0x04, 0xDA, 0x17] 0 0,
      .response [0xAA, 0xBB, 0xCC, 0xDD, 0x00] 0 0, .response [0x00, 0xFE, 0x51] 0 0])))
      [0x01, 0x02, 0x03, 0x04, 0x04] = some (.ok, .bytes [0x02, 0x03, 0x04, 0xAA, 0xBB, 0xCC, 0xDD]) := by
  decide +kernel

/-- A6, A7, A8, A9. -/
theorem test_selectTag_failures :
    (fun l => let a := exec .selectTag (sim 0 1 l); (told a, count a)) [.response [0x04, 0x12, 0x34, 0x56, 0x75] 0 0] =
      (some (.checksumError, .none), 24) ∧
    (fun l => let a := exec .selectTag (sim 0 1 l); (told a, count a)) [.response [0x04, 0x12, 0x34, 0x56] 0 0] =
      (some (.protocolError, .none), 23) ∧
    (fun l => let a := exec .selectTag (sim 0 1 l); (told a, count a))
      [.response [0x04, 0x12, 0x34, 0x56, 0x74] 0 0, .response [0x08] 0 0] = (some (.protocolError, .none), 65) ∧
    (fun l => told (exec .selectTag (sim 0 1 l))) [.timeout] = some (.noTag, .none) := by decide +kernel

/-! ## One step: tag memory (section 2.5) -/

/-- M1 at page 0, M3, M4. -/
theorem test_readBlock :
    told (exec (.readBlock 0x00) (withTag .active)) = some (.ok, .bytes [0x04, 0x12, 0x34, 0xAA, 0xAA, 0xBB, 0xCC, 0xDD,
      0x00, 0x48, 0x00, 0x00, 0xE1, 0x10, 0x3E, 0x00]) ∧
    count (exec (.readBlock 0x00) (withTag .active)) = 46 ∧
    told (exec (.readBlock 0x00) (sim 0 1 [.response (List.replicate 15 0) 0 0])) = some (.protocolError, .none) ∧
    (told (exec (.readBlock 0x87) (withTag .active)), count (exec (.readBlock 0x87) (withTag .active))) =
      (some (.protocolError, .none), 31) := by decide +kernel

/-- M5, M8, M10. -/
theorem test_writeBlock :
    (out (exec (.writeBlock 0x04 [1, 2, 3, 4]) (withTag .active))).map (fun t => (t.seq.outcome, t.env.tag.byte 16,
      t.env.tag.byte 19, t.env.tag.st, t.trace.length)) = some (.ok, 1, 4, .active, 39) ∧
    told (exec (.writeBlock 0x04 [1, 2, 3]) (withTag .active)) = some (.preconditionViolation, .none) ∧
    (out (exec (.writeBlock 0x00 [0xDE, 0xAD, 0xBE, 0xEF]) (withTag .active))).map (fun t => (t.seq.outcome,
      t.env.tag.byte 0, t.env.tag.st)) = some (.ok, 0x04, .idle) := by decide +kernel

/-- READ_IMAGE stops at the first failing block, here the second, and leaves no image (M12). -/
theorem test_readImage :
    let s := sim 0 1 [.response (List.replicate 16 0) 0 0, .response (List.replicate 15 0) 0 0]
    let a := exec .readImage { s with seq := { s.seq with img := List.replicate 540 0, imgPopulated := true } }
    told a = some (.protocolError, .none) ∧ count a = 46 + 45 ∧ (out a).map (·.seq.imgPopulated) = some false := by
  decide +kernel

/-- READ_TAG with no tag in the field is REQUEST_TAG's NoTag (P5). -/
theorem test_readTag : (let a := exec .readTag (sim 0 0 [.timeout]); (told a, count a)) = (some (.noTag, .none), 18) := by
  decide +kernel

/-- REGION slices the image (section 2.5); without one it is refused (M11). -/
theorem test_region :
    let s := sim 0 1 []
    let i := { s with seq := { s.seq with img := (List.range 540).map (BitVec.ofNat 8), imgPopulated := true } }
    told (exec (.region .cc) i) = some (.ok, .bytes [12, 13, 14, 15]) ∧
    told (exec (.region .pack) i) = some (.ok, .bytes [24, 25]) ∧
    told (exec (.region .user) s) = some (.preconditionViolation, .none) := by decide +kernel

/-! ## One step: codec and boot (sections 2.6, 2.7) -/

/-- T5, T6, T7, T9, T10, T11. -/
theorem test_extract :
    (fun b => told (exec (.extract b) (sim 0 1 []))) [] = some (.malformedPayload, .none) ∧
    (fun b => told (exec (.extract b) (sim 0 1 []))) [0x03] = some (.malformedPayload, .none) ∧
    (fun b => told (exec (.extract b) (sim 0 1 []))) [0x03, 0x00] = some (.ok, .bytes []) ∧
    (fun b => told (exec (.extract b) (sim 0 1 []))) [0x03, 0x02, 0xAA] = some (.ok, .bytes [0xAA]) ∧
    (fun b => told (exec (.extract b) (sim 0 1 []))) [0x03, 0x02, 0x48, 0x65, 0x00] = some (.ok, .bytes [0x48, 0x65]) ∧
    (fun b => told (exec (.extract b) (sim 0 1 []))) [0x00, 0x01, 0x48] = some (.malformedPayload, .none) := by
  decide +kernel

/-- T1, T2, T4; the record itself gives its payload. -/
theorem test_wrap :
    told (exec (.wrap []) (sim 0 1 [])) = some (.ok, .bytes [0x03, 0x00]) ∧
    told (exec (.wrap [0x48, 0x65, 0x6C, 0x6C, 0x6F]) (sim 0 1 [])) =
      some (.ok, .bytes [0x03, 0x05, 0x48, 0x65, 0x6C, 0x6C, 0x6F]) ∧
    told (exec (.wrap (List.replicate 256 0)) (sim 0 1 [])) = some (.preconditionViolation, .none) ∧
    told (exec (.tlvRecord [0x48, 0x65]) (sim 0 1 [])) = some (.ok, .bytes [0x48, 0x65]) := by decide +kernel

/-- H3 and the end of P1's first operation. -/
theorem test_init : frames (exec .init (sim 0 1 [])) =
    [(0x02, 0x0F, none), (0x54, 0x8D, none), (0x56, 0x3E, none), (0x5A, 0x1E, none), (0x58, 0x00, none),
     (0x2A, 0x40, none), (0x22, 0x3D, none), (0xA8, 0x00, some 0x00), (0x28, 0x03, none)] ∧
    (out (exec .init (sim 0 1 []))).map (fun t => (t.seq.outcome, t.env.resetLine)) = some (.ok, true) := by
  decide +kernel

/-! ## One step: the card side (program P2) -/

/-- The five frames of program P2 and their answers. -/
theorem test_card_rows :
    (fun i st => (out (exec i (withTag st))).map fun t => (t.env.answer, t.env.tag.st)) .reqa .idle =
      some (some (.response [0x44, 0x00] 0 0), .ready1) ∧
    (fun i st => (out (exec i (withTag st))).map fun t => (t.env.answer, t.env.tag.st)) (.anticoll .one) .ready1 =
      some (some (.response [0x88, 0x04, 0x12, 0x34, 0xAA] 0 0), .ready1) ∧
    (fun i st => (out (exec i (withTag st))).map fun t => (t.env.answer, t.env.tag.st))
      (.select .one 0x88 0x04 0x12 0x34 0xAA 0xBA 0x90) .ready1 =
      some (some (.response [0x04, 0xDA, 0x17] 0 0), .ready2) ∧
    (fun i st => (out (exec i (withTag st))).map fun t => (t.env.answer, t.env.tag.st)) (.anticoll .two) .ready2 =
      some (some (.response [0xAA, 0xBB, 0xCC, 0xDD, 0x00] 0 0), .ready2) ∧
    (fun i st => (out (exec i (withTag st))).map fun t => (t.env.answer, t.env.tag.st))
      (.select .two 0xAA 0xBB 0xCC 0xDD 0x00 0xCE 0xC6) .ready2 =
      some (some (.response [0x00, 0xFE, 0x51] 0 0), .active) := by decide +kernel

/-- The write of M5 is acknowledged; the refusal of M4; a frame with a wrong CRC is not answered. -/
theorem test_card_memory :
    (fun i => (out (exec i (withTag .active))).map fun t => (t.env.answer, t.env.tag.st))
      (.write 0x04 0x01 0x02 0x03 0x04 0x78 0x57) = some (some (.response [0x0A] 4 0), .active) ∧
    (fun i => (out (exec i (withTag .active))).map fun t => (t.env.answer, t.env.tag.st)) (.read 0x87 0xB5 0x58) =
      some (some (.response [0x00] 4 0), .idle) ∧
    (fun i => (out (exec i (withTag .active))).map fun t => (t.env.answer, t.env.tag.st)) (.read 0x04 0x26 0xEF) =
      some (some .timeout, .idle) := by decide +kernel

/-! ## Witnesses: states and operands that meet the hypotheses of each statement -/

/-- A test that shows an answer goes on gives the next state. -/
theorem next_of_out {a : Answer} (h : (out a).isSome = true) : ∃ t, a = .next t := by
  cases a with
  | next t => exact ⟨t, rfl⟩
  | fault _ => cases h
  | refused _ => cases h

/-- A test on what an answer goes on with gives the next state and the test. -/
theorem next_of_any {a : Answer} {p : State → Bool} (h : (out a).any p = true) : ∃ t, a = .next t ∧ p t = true := by
  cases a with
  | next t => exact ⟨t, rfl, h⟩
  | fault _ => cases h
  | refused _ => cases h

/-- The target of `sim` with a change. -/
def simTgt (f : Target → Target) : State := { sim 0 1 [] with tgt := f blankTarget }

theorem witness_DecodeOfEncode : Config.default.wf ∧ (Instr.tlvRecord (List.replicate 255 0xFF)).wf = true := by
  decide +kernel

theorem witness_EncodeOfDecode : decode .default .bus [0xFE, 0x55] = .ok (.busRead 0x3F) ∧
    decode .default .tlv [0x03, 0x00] = .ok (.tlvRecord []) := by decide +kernel

theorem witness_StepRunsDecoded : ∃ r, (State.reset.withFetchWord 8 0x10).seq.op = none ∧
    (State.reset.withFetchWord 8 0x10).port = r :: [] ∧ decode State.reset.cfg r.format r.bytes = .ok .init :=
  ⟨{ format := .hop, bytes := [0x10] }, by decide +kernel⟩

theorem witness_StepWithoutInstruction : State.reset.seq.op = none ∧ State.reset.port = [] ∧
    (State.reset.withFetchWord 8 0x11).port = { format := .hop, bytes := [0x11] } :: [] ∧ (0x10 : Byte) < 0x11 ∧
    ({ State.reset with port := [{ format := .hop, bytes := [0x00, 0x01] }] } : State).port =
      { format := .hop, bytes := 0x00 :: [0x01] } :: [] ∧
    (State.reset.start .init).seq.op = some .init := by decide +kernel

/-- The invariant at reset with a request, and the step it takes. -/
theorem witness_StepKeepsInvariant : ∃ s t : State, s.Inv ∧ step s = .next t ∧ t.seq.outcome = .ok := by
  refine ⟨{ withTag .idle with port := [{ format := .hop, bytes := [0x08 - 1] }] }, ?_⟩
  obtain ⟨t, h, ho⟩ := next_of_any (a := step { withTag .idle with port := [{ format := .hop, bytes := [0x08 - 1] }] })
    (p := fun t => t.seq.outcome == .ok) (by decide +kernel)
  exact ⟨t, ⟨by decide +kernel, by decide +kernel, by decide +kernel, by decide +kernel, by decide +kernel,
    by decide +kernel, by decide +kernel, by decide +kernel, by decide +kernel⟩, h, by simpa using ho⟩

/-- CALCCRC active after a CRC_CALC: another one runs (95_test_vectors.md K3), the host's flush opens nothing (R366). -/
theorem test_crcCalc_again :
    let s := simTgt fun g => { g with cmd := 0x3, crcKnown := true }
    told (exec (.crcCalc [0x12, 0x34]) s) = some (.ok, .bytes [0x26, 0xCF]) ∧
    (out (exec (.setBits 0x0A 0x80) s)).map (fun u => stop (exec (.regWrite 0x09 0x12) u)) =
      some (some .fifoPushDuringCrc) := by
  refine ⟨?_, ?_⟩ <;> decide +kernel

/-- RETRY_MAX 0 makes one attempt, 2 makes two, none goes on; OK stops (R336). -/
theorem test_retryLoop :
    let run := fun m b n => match retryLoop m (exec (.extract b)) n (.trying 0 (sim 0 1 [])) with
      | .trying k _ => some k
      | .stopped _ => none
    run (some 0) [] 1 = none ∧ run (some 2) [] 1 = some 1 ∧ run (some 2) [] 2 = none ∧ run none [] 5 = some 5 ∧
    run (some 2) [0x03, 0x00] 1 = none := by
  refine ⟨?_, ?_, ?_, ?_, ?_⟩ <;> decide +kernel

theorem witness_BusFramesOverOracle : (oracle []).env.level = .busOracle := rfl

theorem witness_HostRegisterAccess : (0x3F : Byte) ≤ 0x3F ∧ (sim 0 1 []).accepts 0x3F 0xFF ∧
    (sim 0 1 []).accepts 0x01 0x0F ∧ ¬ (sim 0 1 []).accepts 0x01 0x0E ∧ ¬ (sim 0 1 []).accepts 0x01 0x1C ∧
    (simTgt fun g => { g with cmd := 0x3, loadOpen := true }).accepts 0x09 0x00 ∧
    ¬ (simTgt fun g => { g with cmd := 0x3, loadOpen := false }).accepts 0x09 0x00 := by
  refine ⟨?_, ?_, ?_, ?_, ?_, ?_, ?_⟩ <;> decide +kernel

theorem witness_AddressOperandRefused : (0x3F : Byte) < 0x40 ∧ (0x3F : Byte) < 0xFF := by decide

/-- Both the write that goes on and the one that is refused. -/
theorem witness_MaskHelpersReadThenWrite : (0x3F : Byte) < 0x40 ∧ (0x3F : Byte) ≤ 0x3F ∧
    (out (exec (.busRead 0x01) (sim 0 1 []))).map (fun u => stop (exec (.busWrite 0x01 (0x00 ||| 0xF0)) u)) =
      some (some (.commandRefused 0xF0)) ∧
    ((out (exec (.busRead 0x14) (sim 0 1 []))).any fun u => (out (exec (.busWrite 0x14 0x03) u)).isSome) = true := by
  decide +kernel

theorem witness_MaskHelpersOnStorage : (sim 0 1 []).env.level = .referenceTarget ∧ (0x14 : Byte) ≤ 0x3F ∧
    RegName.storesRead ((sim 0 1 []).cfg.regmap.nameAt 0x14) = true ∧
    RegName.storesWrite ((sim 0 1 []).cfg.regmap.nameAt 0x14) = true := by decide +kernel

theorem witness_StorageRegisters : (sim 0 1 []).env.level = .referenceTarget ∧
    RegName.storesWrite ((sim 0 1 []).cfg.regmap.nameAt 0x3F) = true ∧
    RegName.storesWrite ((sim 0 1 []).cfg.regmap.nameAt 0x0C) = true ∧
    RegName.storesRead ((sim 0 1 []).cfg.regmap.nameAt 0x00) = true ∧
    RegName.storesRead ((sim 0 1 []).cfg.regmap.nameAt 0x01) = true := by decide +kernel

/-- Known and calm; never known; known but a computation pending, with a scripted draw. -/
theorem witness_ReadOnlyRegisters : (sim 0 1 []).env.level = .referenceTarget ∧ (sim 0 1 []).cfg.regmap.distinct ∧
    ((simTgt fun g => { g with crcKnown := true }).tgt.tick (budgets 8 8 64)).crcKnown = true ∧
    ((simTgt fun g => { g with crcKnown := true }).tgt.tick (budgets 8 8 64)).crcPend = none ∧
    ((sim 0 1 []).tgt.tick (budgets 8 8 64)).crcKnown = false ∧
    ((simTgt fun g => { g with crcKnown := true, crcPend := some [1], crcWait := some 5 }).tgt.tick
      (budgets 8 8 64)).crcPend ≠ none ∧ (oracle [0x9C]).env.byteFeed = 0x9C :: [] := by
  refine ⟨?_, ?_, ?_, ?_, ?_, ?_, ?_⟩ <;> decide +kernel

/-- 63 of 64 bytes, with CALCCRC active and the FIFO open; a byte to read; a level of 255 fits a byte. -/
theorem witness_FifoQueue :
    let s := simTgt fun g => { g with fifo := List.replicate 63 0x01, cmd := 0x3, loadOpen := true }
    s.env.level = .referenceTarget ∧ s.cfg.regmap.distinct ∧ (s.tgt.tick s.cfg).fifo.length < s.cfg.fifoDepth ∧
    (s.tgt.cmd = s.cfg.codes.calccrc → s.tgt.loadOpen = true) ∧
    (s.tgt.tick s.cfg).fifo = 0x01 :: List.replicate 62 0x01 ∧ (s.tgt.tick s.cfg).fifo.length ≤ 255 := by
  refine ⟨?_, ?_, ?_, ?_, ?_, ?_⟩ <;> decide +kernel

/-- A full FIFO; an empty one with a scripted draw; a response one byte longer than the FIFO, due. -/
theorem witness_FifoLimits :
    (let s := simTgt fun g => { g with fifo := List.replicate 64 0x01 }
     (s.tgt.tick s.cfg).fifo.length = s.cfg.fifoDepth ∧ (s.tgt.cmd = s.cfg.codes.calccrc → s.tgt.loadOpen = true)) ∧
    ((sim 0 1 []).tgt.tick (sim 0 1 []).cfg).fifo = [] ∧
    let s := simTgt fun g => { g with rxPend := some (.response (List.replicate 65 0x01) 0 0), rxWait := some 0 }
    s.tgt.rxPend = some (.response (List.replicate 65 0x01) 0 0) ∧ s.tgt.rxWait = some 0 ∧
      s.cfg.fifoDepth < (List.replicate 65 (0x01 : Byte)).length := by
  refine ⟨?_, ?_, ?_, ?_, ?_⟩ <;> decide +kernel

theorem witness_FifoFlush : (sim 0 1 []).env.level = .referenceTarget ∧ (sim 0 1 []).cfg.wf ∧
    (0x80 : Byte) &&& (sim 0 1 []).cfg.masks.flush ≠ 0 ∧ (0x7F : Byte) &&& (sim 0 1 []).cfg.masks.flush = 0 := by
  decide +kernel

/-- Also of CalccrcTakesFifo, and, with a scripted draw of the last register, of ResetphaseResetsTarget. -/
theorem witness_CommandsAccepted : (sim 0 1 []).env.level = .referenceTarget ∧ (sim 0 1 []).cfg.wf := by decide +kernel

theorem witness_CalccrcTakesFifo : State.reset.env.level = .referenceTarget ∧ State.reset.cfg.wf := by decide +kernel

theorem witness_ResetphaseResetsTarget :
    let s := { sim 0 1 [] with env := { (sim 0 1 []).env with byteFeed := List.replicate 64 0xAB } }
    s.env.level = .referenceTarget ∧ s.cfg.wf ∧ s.env.byteFeed[(0x3F : RegAddr).toNat]? = some 0xAB := by
  refine ⟨?_, ?_, ?_⟩ <;> decide +kernel

/-- A high bit; a code of no command; a closed FIFO. -/
theorem witness_TargetRefusals : (sim 0 1 []).env.level = .referenceTarget ∧ (sim 0 1 []).cfg.wf ∧
    (0x10 : Byte).extractLsb' 4 4 ≠ (0 : BitVec 4) ∧
    (∀ k : Command, (sim 0 1 []).cfg.codes.code k ≠ (0x07 : Byte).extractLsb' 0 4) ∧
    (simTgt fun g => { g with cmd := 0x3 }).tgt.cmd = (sim 0 1 []).cfg.codes.calccrc ∧
    (simTgt fun g => { g with cmd := 0x3 }).tgt.loadOpen = false := by
  refine ⟨by decide +kernel, by decide +kernel, by decide +kernel, ?_, by decide +kernel, by decide +kernel⟩
  intro k; cases k <;> decide +kernel

theorem witness_ComirqAccess : (sim 0 1 []).env.level = .referenceTarget ∧ (sim 0 1 []).cfg.regmap.distinct := by
  decide +kernel

theorem witness_DivirqAccess : (sim 0 1 []).env.level = .referenceTarget ∧ (sim 0 1 []).cfg.wf ∧
    (sim 0 1 []).cfg.divirqMode = .store ∧ (sim 0 1 []).cfg.masks.crcIrq.getLsbD 2 = true ∧
    (let s := { simTgt (fun g => { g with divFlags := 0x04 }) with cfg := { budgets 8 8 64 with divirqMode := .setClear } }
     s.cfg.divirqMode = .setClear ∧ s.tgt.divFlags.getLsbD 2 = true) := by
  refine ⟨?_, ?_, ?_, ?_, ?_⟩ <;> decide +kernel

/-- Armed; not started; not active; sent already. -/
theorem witness_Transmission :
    (let s := simTgt fun g => { g with cmd := 0xC }
     s.env.level = .referenceTarget ∧ s.cfg.regmap.distinct ∧ (0x87 : Byte) &&& s.cfg.masks.startSend ≠ 0 ∧
       s.tgt.cmd = s.cfg.codes.transceive ∧ s.tgt.sent = false) ∧
    (0x07 : Byte) &&& (sim 0 1 []).cfg.masks.startSend = 0 ∧
    (sim 0 1 []).tgt.cmd ≠ (sim 0 1 []).cfg.codes.transceive ∧
    (simTgt fun g => { g with cmd := 0xC, sent := true }).tgt.sent = true := by
  refine ⟨⟨?_, ?_, ?_, ?_, ?_⟩, ?_, ?_, ?_⟩ <;> decide +kernel

theorem witness_CrcCompletionEvent :
    let s := fun w => simTgt fun g => { g with cmd := 0x3, crcPend := some [0x30, 0x04], crcWait := w }
    (s (some 0)).env.level = .referenceTarget ∧ (s (some 0)).tgt.crcPend = some [0x30, 0x04] ∧
    (s (some 0)).tgt.rxPend = none ∧ RegName.storesRead ((s (some 0)).cfg.regmap.nameAt 0x3F) = true ∧
    (s (some 0)).tgt.crcWait = some 0 ∧ (s (some 1)).tgt.crcWait ≠ some 0 ∧ (s none).tgt.crcWait ≠ some 0 := by
  decide +kernel

theorem witness_AnswerEvents :
    let s := fun o => simTgt fun g => { g with cmd := 0xC, sent := true, rxPend := some o, rxWait := some 0 }
    (s .silent).env.level = .referenceTarget ∧ (s .silent).tgt.crcPend = none ∧
    RegName.storesRead ((s .silent).cfg.regmap.nameAt 0x3F) = true ∧
    (s (.response [0x0A] 4 0x08)).tgt.rxPend = some (.response [0x0A] 4 0x08) ∧
    (s .timeout).tgt.rxPend = some .timeout ∧ (s .timeout).tgt.rxWait = some 0 ∧
    (s .silent).tgt.rxPend = some .silent := by decide +kernel

/-- The flag is never seen within the budget: the two bytes are read all the same. -/
theorem witness_CrcCalcAlwaysOk : State.reset.cfg.wf ∧ (oracle []).cfg.wf ∧
    (frames (exec (.crcCalc []) (oracle (List.replicate 10 0x00 ++ [0x34, 0x12])))).drop 13 =
      [(0xC4, 0x00, some 0x34), (0xC2, 0x00, some 0x12)] ∧
    told (exec (.crcCalc []) (oracle (List.replicate 10 0x00 ++ [0x34, 0x12]))) = some (.ok, .bytes [0x34, 0x12]) := by
  decide +kernel

/-- `sim` is ready for exchanges and sums, at delays one below the budgets; an operand of 64 bytes fits. -/
theorem witness_CrcCalcValue : (sim 7 7 []).sumsReady 7 7 ∧ (List.replicate 64 (0x00 : Byte)).length ≤ (sim 7 7 []).cfg.fifoDepth := by
  refine ⟨⟨⟨⟨?_, ?_⟩, ?_, ?_⟩, ?_⟩, ?_⟩ <;> decide +kernel

theorem witness_ToCardAlwaysReturns : (sim 0 1 []).cfg.wf ∧ (Command.transceive ≠ .authent ∨ (sim 0 1 []).env.level = .busOracle) ∧
    (Command.authent ≠ .authent ∨ (oracle []).env.level = .busOracle) := by decide +kernel

/-- A transceive whose flag comes on the eighth and last poll: a count of 2; of 0, one byte read; of 255, sixteen. And
IDLE, whose wait bits are none. -/
theorem witness_ToCardCompletes :
    let p := List.replicate 7 (0x40 : Byte)
    let m := Masks.default
    (oracle []).env.level = .busOracle ∧ (oracle []).cfg.masks = m ∧
    (∀ x ∈ p, x &&& m.timerIrq = 0 ∧ x &&& irqWait .transceive = 0) ∧
    ((0x60 : Byte) &&& m.timerIrq ≠ 0 ∨ (0x60 : Byte) &&& irqWait .transceive ≠ 0) ∧
    p.length < (oracle []).cfg.pollCmd ∧ (0x04 : Byte) &&& 0x1B = 0 ∧
    [(0x44 : Byte), 0x00].length = min (max (0x02 : Byte).toNat 1) 16 ∧
    [(0x00 : Byte)].length = min (max (0x00 : Byte).toNat 1) 16 ∧
    (List.replicate 16 (0x00 : Byte)).length = min (max (0xFF : Byte).toNat 1) 16 ∧
    (oracle ([0x00, 0x00] ++ [0x07] ++ p ++ [0x60, 0x87, 0x04] ++ [0x02, 0x00] ++ [0x44, 0x00])).env.byteFeed =
      [0x00, 0x00] ++ [0x07] ++ p ++ [0x60, 0x87, 0x04] ++ (if Command.transceive = .transceive then
        [0x02, 0x00] ++ [0x44, 0x00] else []) ++ [] ∧
    ((0x01 : Byte) &&& m.timerIrq ≠ 0 ∨ (0x01 : Byte) &&& irqWait .idle ≠ 0) := by
  decide +kernel

/-- An error bit after the flag; eight polls that show nothing. -/
theorem witness_ToCardFails :
    let p := List.replicate 8 (0x40 : Byte)
    (oracle []).env.level = .busOracle ∧ (∀ x ∈ p, x &&& Masks.default.timerIrq = 0 ∧ x &&& irqWait .transceive = 0) ∧
    p.length = (oracle []).cfg.pollCmd ∧ (0x62 : Byte) &&& irqWait .transceive ≠ 0 ∧ (0x08 : Byte) &&& 0x1B ≠ 0 ∧
    (oracle ([0, 0] ++ [0x07] ++ [0x40] ++ [0x62, 0x87, 0x08])).env.byteFeed =
      [0, 0] ++ [0x07] ++ [0x40] ++ [0x62, 0x87, 0x08] ++ [] ∧
    (oracle ([0, 0] ++ [0x07] ++ p ++ [0x87])).env.byteFeed = [0, 0] ++ [0x07] ++ p ++ [0x87] ++ [] := by
  decide +kernel

/-- `sim` is ready, at the longest delay its budget allows. -/
theorem sim_ready (feed : List CardOutcome) : (sim 7 7 feed).ready 7 7 := by
  have hc : (sim 7 7 feed).cfg.wf := by change (budgets 8 8 64).wf; decide +kernel
  have hd : 7 < 8 := by decide
  exact ⟨⟨hc, rfl⟩, ⟨rfl, rfl, rfl, hd, hd⟩, rfl, rfl⟩

/-- One card answer for each clause: 64 bytes with a bit of ERROR outside ERR_MASK; none; an error bit; 65 bytes; a
timeout, and one where an error bit is left; silence. -/
theorem witness_ToCardReports :
    let first := fun o => ((sim 7 7 [o]).env.exchange [0x26] (sim 7 7 [o]).txlast).1
    (sim 7 7 []).ready 7 7 ∧ [(0x26 : Byte)].length ≤ (sim 7 7 []).cfg.fifoDepth ∧
    first (.response (List.replicate 64 0x00) 7 0x04) = .response (List.replicate 64 0x00) 7 0x04 ∧
    (List.replicate 64 (0x00 : Byte)).length ≤ (sim 7 7 []).cfg.fifoDepth ∧ (0x04 : Byte) &&& 0x1B = 0 ∧
    first (.response [] 1 0) = .response [] 1 0 ∧
    told (exec (.toCard .transceive [0x26]) (sim 7 7 [.response [] 1 0])) = some (.ok, .exchange .ok [0x00] (-7)) ∧
    first (.response [] 0 0x08) = .response [] 0 0x08 ∧ (0x08 : Byte) &&& 0x1B ≠ 0 ∧
    first (.response (List.replicate 65 0x00) 0 0) = .response (List.replicate 65 0x00) 0 0 ∧
    (sim 7 7 []).cfg.fifoDepth < (List.replicate 65 (0x00 : Byte)).length ∧
    told (exec (.toCard .transceive [0x26]) (sim 7 7 [.response (List.replicate 65 0x00) 0 0])) =
      some (.ok, .exchange .err [] 0) ∧
    first .timeout = .timeout ∧ (sim 7 7 [.timeout]).clean ∧ ¬ (simTgt fun g => { g with err := 0x08 }).clean ∧
    first .silent = .silent := by
  refine ⟨sim_ready [], ?_, ?_, ?_, ?_, ?_, ?_, ?_, ?_, ?_, ?_, ?_, ?_, ?_, ?_, ?_⟩ <;> decide +kernel

theorem witness_RequestTagSucceeds : (sim 7 7 [.response [0x44, 0x00] 0 0x04]).ready 7 7 ∧
    2 ≤ (sim 7 7 []).cfg.fifoDepth ∧ ((sim 7 7 [.response [0x44, 0x00] 0 0x04]).env.exchange [0x26] 7).1 =
      .response [0x44, 0x00] 0 0x04 ∧ (0x04 : Byte) &&& 0x1B = 0 ∧
    (out (exec .requestTag (sim 7 7 [.response [0x44, 0x00] 0 0x04]))).map (·.tgt.reg 0x0D) = some 0x07 := by
  refine ⟨sim_ready _, ?_, ?_, ?_, ?_⟩ <;> decide +kernel

/-- A run that ends OK, one that times out and one that meets silence. -/
theorem witness_RequestTagStrict : (sim 0 1 []).cfg.wf ∧
    (∃ t, exec .requestTag (withTag .idle) = .next t ∧ (t.seq.outcome == .ok) = true) ∧
    (∃ t, exec .requestTag (sim 0 0 [.timeout]) = .next t ∧ (t.seq.outcome == .noTag && t.seq.status == .notag) = true) ∧
    ∃ t, exec .requestTag (sim 0 0 [.silent]) = .next t ∧
      (t.seq.outcome == .busTimeout && t.seq.errkind == .busTimeout) = true :=
  ⟨by decide +kernel, next_of_any (by decide +kernel), next_of_any (by decide +kernel), next_of_any (by decide +kernel)⟩

/-- The fragments of program P2 and of vector A1. -/
theorem witness_SelectTagSucceeds :
    let f : Fragment := ⟨0x88, 0x04, 0x12, 0x34, 0xAA⟩
    let g : Fragment := ⟨0xAA, 0xBB, 0xCC, 0xDD, 0x00⟩
    let h : Fragment := ⟨0x04, 0x12, 0x34, 0x56, 0x74⟩
    (∀ feed, (sim 7 7 feed).sumsReady 7 7) ∧ 9 ≤ (sim 7 7 []).cfg.fifoDepth ∧
    f.u0 ^^^ f.u1 ^^^ f.u2 ^^^ f.u3 = f.bcc ∧ g.u0 ^^^ g.u1 ^^^ g.u2 ^^^ g.u3 = g.bcc ∧
    h.u0 ^^^ h.u1 ^^^ h.u2 ^^^ h.u3 = h.bcc ∧ (0x24 : Byte) &&& 0x04 ≠ 0 ∧ (0x20 : Byte) &&& 0x04 = 0 ∧
    (sim 7 7 [.response [0x04, 0x12, 0x34, 0x56, 0x74] 0 0, .response [0x20, 0xFC, 0x70] 0 0]).env.cardFeed =
      [.response [h.u0, h.u1, h.u2, h.u3, h.bcc] 0 0, .response [0x20, 0xFC, 0x70] 0 0] ++ [] := by
  refine ⟨fun feed => ⟨sim_ready feed, rfl⟩, ?_, ?_, ?_, ?_, ?_, ?_, ?_⟩ <;> decide +kernel

/-- The answers that let SELECT_TAG go on (A10); then, at each exchange, one for each clause and what it ends in: no byte,
four bytes and 65 bytes, a wrong checksum byte, two bytes of select answer, a third level, an error bit, silence, a timeout. -/
theorem witness_SelectTagFails :
    let f : Fragment := ⟨0x88, 0x01, 0x02, 0x03, 0x88⟩
    let g : Fragment := ⟨0x88, 0x04, 0x05, 0x06, 0x8F⟩
    let h : Fragment := ⟨0x04, 0x12, 0x34, 0x56, 0x75⟩
    let A := CardOutcome.response [f.u0, f.u1, f.u2, f.u3, f.bcc] 0 0
    let S := CardOutcome.response [0x04, 0xDA, 0x17] 0 0
    let B := CardOutcome.response [g.u0, g.u1, g.u2, g.u3, g.bcc] 0 0
    let ends := fun (p : List CardOutcome) o => (out (exec .selectTag (sim 7 7 (p ++ [o])))).map (·.seq.outcome)
    (∀ feed, (sim 7 7 feed).sumsReady 7 7 ∧ (sim 7 7 feed).clean ∧ (sim 7 7 feed).env.cardFeed = feed) ∧
    9 ≤ (sim 7 7 []).cfg.fifoDepth ∧ h.u0 ^^^ h.u1 ^^^ h.u2 ^^^ h.u3 ≠ h.bcc ∧
    f.u0 ^^^ f.u1 ^^^ f.u2 ^^^ f.u3 = f.bcc ∧ g.u0 ^^^ g.u1 ^^^ g.u2 ^^^ g.u3 = g.bcc ∧ (0x04 : Byte) &&& 0x04 ≠ 0 ∧
    (∀ p ∈ [[], [A, S]], ends p (.response [] 0 0) = some .protocolError ∧
      ends p (.response [4, 18, 52, 86] 0 0) = some .protocolError ∧
      ends p (.response (List.replicate 65 0) 0 0) = some .protocolError ∧
      ends p (.response [h.u0, h.u1, h.u2, h.u3, h.bcc] 0 0x04) = some .checksumError) ∧
    (∀ p ∈ [[A], [A, S, B]], ends p (.response [0x04, 0xDA] 0 0) = some .protocolError) ∧
    ends [A, S, B] (.response [0x04, 0xDA, 0x17] 0 0) = some .unsupportedCascade ∧
    ∀ p ∈ [[], [A], [A, S], [A, S, B]], ends p (.response [0x04, 0xDA, 0x17] 0 0x08) = some .protocolError ∧
      ends p .silent = some .busTimeout ∧ ends p .timeout = some .noTag := by
  refine ⟨fun feed => ⟨⟨sim_ready feed, rfl⟩, by
    change errorFails (errAfterFlush (sim 7 7 []).tgt.err) = false; decide +kernel, rfl⟩, ?_, ?_, ?_, ?_, ?_, ?_,
    ?_, ?_, ?_⟩ <;> decide +kernel

/-- An identifier of one level, one of two, and none. -/
theorem witness_SelectTagIdentifier : (sim 0 1 []).cfg.wf ∧
    (∃ t, exec .selectTag (sim 0 1 [.response [0x04, 0x12, 0x34, 0x56, 0x74] 0 0, .response [0x08, 0xB6, 0xDD] 0 0]) =
      .next t ∧ (t.seq.outcome == .ok && t.seq.nfrag == 1) = true) ∧
    (∃ t, exec .selectTag (withTag .ready1) = .next t ∧ (t.seq.outcome == .ok && t.seq.nfrag == 2) = true) ∧
    ∃ t, exec .selectTag (withTag .idle) = .next t ∧ (t.seq.outcome != .ok) = true :=
  ⟨by decide +kernel, next_of_any (by decide +kernel), next_of_any (by decide +kernel), next_of_any (by decide +kernel)⟩

theorem witness_CombineLength : (∀ x ∈ ([] : List (List Byte)), x.length = 4) ∧
    (∀ x ∈ [[(0x88 : Byte), 0x04, 0x12, 0x34]], x.length = 4) ∧ [(0xAA : Byte), 0xBB, 0xCC, 0xDD].length = 4 := by
  decide

/-- An answer of 64 bytes, of exactly 16, of 15, of one, of none, of 65; an error bit, and one outside ERR_MASK. -/
theorem witness_ReadBlockReturns :
    let first := fun r => ((sim 7 7 [.response r 0 0x04]).env.afterDelay.exchange ([0x30, 0x04] ++ [0x26, 0xEE]) 0).1
    (sim 7 7 []).sumsReady 7 7 ∧ 4 ≤ (sim 7 7 []).cfg.fifoDepth ∧
    crcBytes (crcFn .crcA [0x30, 0x04]) = [0x26, 0xEE] ∧
    (∀ n ∈ [64, 16, 15, 1, 0, 65], first (List.replicate n 0x00) = .response (List.replicate n 0x00) 0 0x04) ∧
    16 ≤ (List.replicate 16 (0x00 : Byte)).length ∧
    (List.replicate 64 (0x00 : Byte)).length ≤ (sim 7 7 []).cfg.fifoDepth ∧ (0x04 : Byte) &&& 0x1B = 0 ∧
    (List.replicate 15 (0x00 : Byte)).length < 16 ∧ (0x01 : Byte) &&& 0x1B ≠ 0 ∧
    (sim 7 7 []).cfg.fifoDepth < (List.replicate 65 (0x00 : Byte)).length ∧
    ∃ t, exec (.readBlock 0x04) (sim 7 7 []) = .next t := by
  refine ⟨⟨sim_ready [], rfl⟩, ?_, ?_, ?_, ?_, ?_, ?_, ?_, ?_, ?_, next_of_out ?_⟩ <;> decide +kernel

/-- An acknowledge of four bits, an empty answer, one longer than the FIFO; data of three and of five bytes. -/
theorem witness_WriteBlockSends :
    let ends := fun o => (out (exec (.writeBlock 0x04 [1, 2, 3, 4]) (sim 7 7 [o]))).map fun t => (t.seq.outcome, t.seq.status)
    (sim 7 7 [.response [0x0A] 4 0]).sumsReady 7 7 ∧ 8 ≤ (sim 7 7 []).cfg.fifoDepth ∧
    ((sim 7 7 [.response [0x0A] 4 0]).env.afterDelay.exchange ([0xA2, 0x04, 1, 2, 3, 4] ++ [0x78, 0x57]) 0).1 =
      .response [0x0A] 4 0 ∧ [(1 : Byte), 2, 3].length ≠ 4 ∧ [(1 : Byte), 2, 3, 4, 5].length ≠ 4 ∧
    ends (.response [] 0 0) = some (.ok, .ok) ∧ ends (.response (List.replicate 65 0) 0 0) = some (.protocolError, .err) ∧
    ends .timeout = some (.noTag, .notag) := by
  refine ⟨⟨sim_ready _, rfl⟩, ?_, ?_, ?_, ?_, ?_, ?_, ?_⟩ <;> decide +kernel

/-- `withTag` is ready for the reference tag, in every state of the tag. -/
theorem withTag_ready (st : TagState) : (withTag st).tagReady 0 1 := by
  have hc : (withTag st).cfg.wf := by change (budgets 8 8 64).wf; decide +kernel
  have h0 : 0 < 8 := by decide
  have h1 : 1 < 8 := by decide
  have hf : 18 ≤ 64 := by decide
  exact ⟨⟨⟨⟨hc, rfl⟩, ⟨rfl, rfl, rfl, h0, h1⟩, rfl, rfl⟩, rfl⟩, rfl, rfl, hf, rfl, rfl⟩

theorem witness_WriteBlockStores : (withTag .active).tagReady 0 1 ∧ (withTag .active).txlast = 0 ∧
    (withTag .active).env.tag.st = .active ∧ (withTag .active).env.tag.mem.wf ∧
    2 ≤ (0x02 : Byte).toNat ∧ (0x86 : Byte).toNat ≤ 134 ∧ (0x01 : Byte).toNat < 2 ∧ 134 < (0x87 : Byte).toNat := by
  refine ⟨withTag_ready _, ?_, ?_, ?_, ?_, ?_, ?_, ?_⟩ <;> decide +kernel

/-- 34 answers of 16 and of 64 bytes, and one more that is left. -/
theorem witness_ReadImageAssembles :
    let blocks := List.replicate 17 (List.replicate 16 (0x01 : Byte)) ++ List.replicate 17 (List.replicate 64 0x02)
    let s := sim 7 7 (blocks.map (fun b => CardOutcome.response b 0 0) ++ [.silent])
    s.sumsReady 7 7 ∧ blocks.length = 34 ∧ (∀ b ∈ blocks, 16 ≤ b.length ∧ b.length ≤ s.cfg.fifoDepth) ∧
    s.env.cardFeed = blocks.map (fun b => CardOutcome.response b 0 0) ++ [.silent] := by
  refine ⟨⟨sim_ready _, rfl⟩, ?_, ?_, rfl⟩ <;> decide +kernel

/-- A read that ends OK and one that does not. -/
theorem witness_ReadImageAllOrNothing : (withTag .active).cfg.wf ∧
    (∃ t, exec .readImage (withTag .active) = .next t ∧ t.seq.outcome = .ok) ∧
    ∃ t, exec .readImage (sim 0 1 [.silent]) = .next t ∧ (t.seq.outcome != .ok) = true :=
  ⟨(withTag_ready .active).1.1.1.1, readImage_completes (withTag_ready .active) rfl (by decide +kernel),
    next_of_any (by decide +kernel)⟩

theorem witness_RegionSlices : (sim 0 1 []).seq.imgPopulated = false ∧
    ∃ t, exec .readImage (withTag .active) = .next t ∧ t.seq.outcome = .ok :=
  ⟨rfl, witness_ReadImageAllOrNothing.2.1⟩

theorem witness_ReadTagReturnsTag : (∀ st, (withTag st).tagReady 0 1) ∧ (withTag .idle).env.tag.bccOk :=
  ⟨withTag_ready, by decide +kernel⟩

theorem witness_RegionsPartition : RegionTable.doc.ok ∧ RegionTable.ntag215.ok ∧ RegionTable.doc ≠ .ntag215 ∧
    (List.replicate 540 (0x00 : Byte)).length = 540 := by decide +kernel

theorem witness_ExtractRule : ([] : List Byte).head? ≠ some 0x03 ∧ [(0x03 : Byte)].length < 2 ∧
    [(0x03 : Byte), 0x02, 0xAA] = 0x03 :: 0x02 :: [0xAA] := by decide

theorem witness_WrapExtractRoundTrip : (List.replicate 255 (0x00 : Byte)).length ≤ 255 ∧
    255 < (List.replicate 256 (0x00 : Byte)).length ∧ (0xFF : Byte).toNat ≤ (List.replicate 255 (0x00 : Byte)).length ∧
    (List.replicate 254 (0x00 : Byte)).length < (0xFF : Byte).toNat := by decide +kernel

theorem initWrites_storage :
    (Config.default.initWrites.all fun w => RegName.storesWrite (Config.default.regmap.nameAt w.1)) = true := by
  decide +kernel

theorem witness_InitSequence : (sim 0 1 []).cfg.wf ∧ (sim 0 1 []).env.level = .referenceTarget ∧
    (∀ w ∈ (sim 0 1 []).cfg.initWrites, RegName.storesWrite ((sim 0 1 []).cfg.regmap.nameAt w.1) = true) ∧
    State.reset.cfg = .default ∧ State.reset.env.level = .referenceTarget := by
  exact ⟨by decide +kernel, rfl, fun w hw => List.all_eq_true.1 initWrites_storage w hw, rfl, rfl⟩

theorem witness_TagAnswers : (0xA6 : Byte) &&& 0x7F = 0x26 ∧ (withTag .ready1).env.tag.st = .ready1 ∧
    (withTag .ready2).env.tag.st = .ready2 ∧ (withTag .active).env.tag.st = .active ∧ (0x86 : Byte).toNat ≤ 134 ∧
    ¬ (0x87 : Byte).toNat ≤ 134 ∧ [(0x88 : Byte), 0x04, 0x12, 0x34, 0xAB].length = 5 ∧
    [(0x88 : Byte), 0x04, 0x12, 0x34, 0xAB] ≠ (withTag .ready1).env.tag.frag1 := by
  refine ⟨?_, ?_, ?_, ?_, ?_, ?_, ?_, ?_⟩ <;> decide +kernel

theorem witness_TagMemoryFrame :
    ((withTag .active).env.tag.exchange [0xA2, 0x04, 0x01, 0x02, 0x03, 0x04, 0x78, 0x57] 0).2.byte 16 ≠
      (withTag .active).env.tag.byte 16 := by decide +kernel

/-- An operation that ends OK, one that ends in a fault, and a row of another format. -/
theorem witness_OperationsEndIdle : (withTag .idle).seq.idle ∧ Instr.requestTag.format = .hop ∧
    (∃ t, exec .requestTag (withTag .idle) = .next t) ∧
    (∃ t, exec .selectTag (withTag .idle) = .next t ∧ (t.seq.outcome != .ok) = true) ∧
    Instr.reqa.format ≠ .hop ∧ ∃ t, exec .reqa (withTag .idle) = .next t :=
  ⟨by decide +kernel, rfl, next_of_out (by decide +kernel), next_of_any (by decide +kernel), nofun,
    next_of_out (by decide +kernel)⟩

/-- Each outcome but OK is reached, PreconditionViolation by each of its causes at the value beside its boundary. -/
theorem witness_OutcomeCauses :
    let ends := fun i s => (out (exec i s)).map (·.seq.outcome)
    let s := sim 0 1 []
    s.cfg.wf ∧ ends .requestTag (sim 0 0 [.timeout]) = some .noTag ∧
    ends .requestTag (sim 0 1 [.silent]) = some .busTimeout ∧
    ends .requestTag (sim 0 1 [.response [] 0 0]) = some .protocolError ∧
    ends .selectTag (sim 0 1 [.response [1, 2, 3, 4, 5] 0 0]) = some .checksumError ∧
    ends .selectTag (sim 0 1 [.response [0x88, 1, 2, 3, 0x88] 0 0, .response [0x04, 0xDA, 0x17] 0 0,
      .response [0x88, 4, 5, 6, 0x8F] 0 0, .response [0x04, 0xDA, 0x17] 0 0]) = some .unsupportedCascade ∧
    ends (.extract [0x00]) s = some .malformedPayload ∧ ends (.region .cc) s = some .preconditionViolation ∧
    (∀ i ∈ [Instr.regWrite 0x40 0, .regRead 0x40, .setBits 0x40 0, .clearBits 0x40 0, .writeBlock 0 [1, 2, 3],
      .wrap (List.replicate 256 0)], ends i s = some .preconditionViolation) ∧
    (∀ i ∈ [Instr.regWrite 0x3F 0, .regRead 0x3F, .setBits 0x3F 0, .clearBits 0x3F 0, .writeBlock 0 [1, 2, 3, 4],
      .wrap (List.replicate 255 0)], ends i s ≠ some .preconditionViolation) ∧
    ends .readTag (sim 0 1 [.silent]) = some .busTimeout := by
  refine ⟨?_, ?_, ?_, ?_, ?_, ?_, ?_, ?_, ?_, ?_, ?_⟩ <;> decide +kernel

/-- Also of TransactionBounds: an instruction of each premise. -/
theorem witness_SequencerWriters : (∃ t, exec (.crcCalc [0x30]) (sim 0 1 []) = .next t) ∧
    (∃ t, exec (.toCard .idle []) (sim 0 1 []) = .next t) ∧ ∃ t, exec (.busWrite 0x3F 0x55) (sim 0 1 []) = .next t :=
  ⟨next_of_out (by decide +kernel), next_of_out (by decide +kernel), next_of_out (by decide +kernel)⟩

theorem witness_TargetFootprint : (sim 0 1 []).cfg.wf ∧ (0x3F : RegAddr) ≠ (sim 0 1 []).cfg.regmap.command ∧
    (0x3F : RegAddr) ≠ (sim 0 1 []).cfg.regmap.comien ∧ (0x3F : RegAddr) ≠ (sim 0 1 []).cfg.regmap.bitframing ∧
    (∃ t, exec (.crcCalc [0x30]) (sim 0 1 []) = .next t) ∧ (∃ t, exec .selectTag (withTag .ready1) = .next t) ∧
    ∃ t, exec (.toCard .transceive [0x26]) (sim 0 1 []) = .next t :=
  ⟨by decide +kernel, by decide +kernel, by decide +kernel, by decide +kernel, next_of_out (by decide +kernel),
    next_of_out (by decide +kernel), next_of_out (by decide +kernel)⟩

theorem witness_ReadersKeepTagMemory : (withTag .active).cfg.wf ∧ ReadsOnly (withTag .active).cfg.card ∧
    (∀ r lb e, (withTag .ready1).tgt.rxPend ≠ some (.response r lb e)) ∧
    (∃ t, exec (.readBlock 0x04) (withTag .active) = .next t) ∧ ∃ t, exec .selectTag (withTag .ready1) = .next t :=
  ⟨(withTag_ready .active).1.1.1.1, by decide +kernel, nofun, next_of_out (by decide +kernel),
    next_of_out (by decide +kernel)⟩

theorem witness_TransactionBounds : (sim 0 1 []).cfg.wf ∧ ∃ t, exec .init (sim 0 1 []) = .next t :=
  ⟨by decide +kernel, next_of_out (by decide +kernel)⟩

end Sys2Proof.Tests
end

/-! The words of the spec's encoding tables (30_encoding.md), decoded. -/

namespace Sys2Proof.Laws.RoundTrip

/-- How a written-out word is decoded: it is the encoding of its instruction, so the instruction's round-trip law
applies. -/
theorem Statement.decode_of_encode_eq {i : Instr} (law : Statement i) {c : Config} {bytes : List Byte} (hc : c.wf)
    (hi : i.wf = true) (he : encode c i = bytes) : decode c i.format bytes = .ok i :=
  he ▸ law c hc hi

/-- Settles O3: each of the eight words is the encoding, under the default configuration, of the instruction it stands
for, and the decoder reads back what the encoder writes. -/
theorem specWordsDecode : Obligations.SpecWordsDecode := by
  unfold Obligations.SpecWordsDecode
  have hc : Config.default.wf := by decide
  refine ⟨?busWrite, ?busRead, ?requestTag, ?writeBlock, ?cmdTransceive, ?anticoll, ?read, ?tlvRecord⟩
  case busWrite => exact (busWrite 0x0D 0x07).decode_of_encode_eq hc rfl rfl
  case busRead => exact (busRead 0x3F).decode_of_encode_eq hc rfl rfl
  case requestTag => exact requestTag.decode_of_encode_eq hc rfl rfl
  case writeBlock => exact (writeBlock 0x04 [0xD0, 0xD1, 0xD2, 0xD3]).decode_of_encode_eq hc rfl rfl
  case cmdTransceive => exact cmdTransceive.decode_of_encode_eq hc rfl rfl
  case anticoll => exact (anticoll .two).decode_of_encode_eq hc rfl rfl
  case read => exact (read 0x04 0x26 0xEE).decode_of_encode_eq hc rfl rfl
  case tlvRecord => exact (tlvRecord [0xAA, 0xBB]).decode_of_encode_eq hc rfl rfl

end Sys2Proof.Laws.RoundTrip

section
/-! SUPPORT. The invariant (10_state.md, R22 to R29, R45, R47, R298): it holds at reset and every step keeps it. The rows
without a CRC computation or an exchange are run in one way, which is said once (`exec_plain`). -/

namespace Sys2Proof.Machine

/-! ## Reset -/

/-- Settles O6: R50 gives each of these registers, and `State.reset` stores it. -/
theorem resetValues : Obligations.ResetValues := by
  unfold Obligations.ResetValues
  and_intros <;> rfl

/-- The default configuration is well-formed (R8). -/
theorem default_wf : Config.default.wf := by decide

/-- A tag with nothing written meets both BCC equations (R298). -/
theorem blankTag_configured : State.reset.env.tag.configured :=
  ⟨Memory.wf_nil, ⟨by decide, by decide⟩, rfl⟩

/-- Settles O7: the sequencer and the target are empty, so each range holds at its lower end. -/
theorem resetMeetsInvariant : Obligations.ResetMeetsInvariant := by
  unfold Obligations.ResetMeetsInvariant
  refine ⟨?_, blankTag_configured⟩
  exact {
    config := default_wf
    idle := ⟨rfl, rfl⟩
    exchange := by decide
    select := ⟨Nat.zero_le _, nofun, nofun, .inl rfl⟩
    image := ⟨nofun, Nat.zero_le _⟩
    poll := Nat.zero_le _
    target := ⟨Nat.zero_le _, command?_code' default_wf.2.1 .idle, nofun, nofun, nofun⟩
    loading := rfl
    tag := ⟨blankTag_configured.1, blankTag_configured.2.1.1⟩ }

/-! ## Rows without a CRC computation or an exchange -/

/-- The rows that make no CRC computation and no exchange. -/
def Instr.plain : Instr → Bool
  | .crcCalc _ | .toCard _ _ | .requestTag | .selectTag | .readBlock _ | .readImage | .readTag
  | .writeBlock _ _ => false
  | .regWrite _ _ | .regRead _ | .setBits _ _ | .clearBits _ _ | .region _ | .extract _ | .wrap _ | .init
  | .busWrite _ _ | .busRead _ | .cmdIdle | .cmdCalccrc | .cmdTransceive | .cmdAuthent | .cmdResetphase
  | .reqa | .anticoll _ | .select _ _ _ _ _ _ _ _ | .read _ _ _ | .write _ _ _ _ _ _ _ | .tlvRecord _ => true

/-- A body that returns what it has computed. -/
theorem Op.Within.returning {R : State → State → Prop} (C : Chains R) {α : Type} {x : Op α} {f : α → Result}
    (h : Op.Within R x) : Op.Within R (x >>= fun a => pure (f a)) :=
  .bind C h fun _ => .ofPure C _

/-- A relation that bus transactions, the reset line and a frame at the card port keep. -/
structure PlainKept (R : State → State → Prop) : Prop extends BusKept R where
  line : Op.Within R (Op.setEnv fun e => { e with resetLine := true })
  frame : ∀ f n, Op.Within R (sendFrame f n)

/-- A plain row is a host operation or a raw access, and its body keeps what its transactions keep. -/
theorem exec_plain {i : Instr} (hi : Instr.plain i = true) (s : State) :
    ∃ body : Op Result, (∀ R, PlainKept R → Op.Within R body) ∧
      ((∃ n, exec i s = hostOp n body s) ∨ exec i s = rawOp body s) := by
  cases i with
  | crcCalc _ | toCard _ _ | requestTag | selectTag | readBlock _ | readImage | readTag | writeBlock _ _ => cases hi
  | regWrite a v => exact ⟨_, fun _ K => .bind K.chains (regAddr_within K.chains a) fun _ =>
      .returning K.chains (K.write _ v), .inl ⟨_, rfl⟩⟩
  | regRead a => exact ⟨_, fun _ K => .bind K.chains (regAddr_within K.chains a) fun _ =>
      .returning K.chains (K.read _), .inl ⟨_, rfl⟩⟩
  | setBits a m => exact ⟨_, fun _ K => .bind K.chains (regAddr_within K.chains a) fun _ =>
      .returning K.chains (setBits_within K.toBusKept _ m), .inl ⟨_, rfl⟩⟩
  | clearBits a m => exact ⟨_, fun _ K => .bind K.chains (regAddr_within K.chains a) fun _ =>
      .returning K.chains (clearBits_within K.toBusKept _ m), .inl ⟨_, rfl⟩⟩
  | region n => exact ⟨_, fun _ K => .returning K.chains (regionBytes_within K.chains n), .inl ⟨_, rfl⟩⟩
  | extract b => exact ⟨_, fun _ K => .returning K.chains (extractRecord_within K.chains b), .inl ⟨_, rfl⟩⟩
  | tlvRecord p => exact ⟨_, fun _ K => .returning K.chains (extractRecord_within K.chains (wrapPayload p)),
      .inl ⟨.extract, rfl⟩⟩
  | wrap p => exact ⟨_, fun _ K => .returning K.chains (wrapRecord_within K.chains p), .inl ⟨_, rfl⟩⟩
  | init => exact ⟨_, fun _ K => .returning K.chains (initSequence_within K.toBusKept K.line), .inl ⟨_, rfl⟩⟩
  | busWrite a v => exact ⟨_, fun _ K => .returning K.chains (K.write a v), .inr rfl⟩
  | busRead a => exact ⟨_, fun _ K => .returning K.chains (K.read a), .inr rfl⟩
  | cmdIdle | cmdCalccrc | cmdTransceive | cmdAuthent | cmdResetphase =>
    exact ⟨_, fun _ K => issueCommand_within K.toBusKept _, .inr rfl⟩
  | reqa | anticoll _ | select _ _ _ _ _ _ _ _ | read _ _ _ | write _ _ _ _ _ _ _ =>
    exact ⟨_, fun _ K => K.frame _ _, .inr rfl⟩

/-! ## A step -/

/-- Transactions keep soundness; so does the card port, which leaves the tag as the invariant has it (R296). -/
theorem soundKept_plain : PlainKept SoundKept where
  toBusKept := soundKept_exchange.toBusKept
  line _ := ⟨rfl, fun h => ⟨h.config, h.exchange, h.select, h.image, h.poll, h.health, h.shut⟩⟩
  frame f n _ := ⟨rfl, fun h => ⟨h.config, h.exchange, h.select, h.image, h.poll,
    ⟨h.health.1, exchange_tag_ok h.health.2 f n⟩, h.shut⟩⟩

/-- Transactions, the reset line and the card port keep any view of the sequencer that does not show S.PHASE. -/
theorem seqKept_plain {α : Type} (e : Sequencer → α) (hp : ∀ q n, e { q with phase := n } = e q) :
    PlainKept (SeqKept e) where
  toBusKept := seqKept_bus e hp
  line _ := rfl
  frame _ _ _ := rfl

/-- Every instruction keeps the invariant. -/
theorem exec_inv {i : Instr} {s t : State} (h : s.Inv) (e : exec i s = .next t) : t.Inv := by
  have K := soundKept_exchange
  have C := K.chains
  cases hi : Instr.plain i with
  | true =>
    obtain ⟨body, hb, ⟨n, he⟩ | he⟩ := exec_plain hi s
    · exact hostOp_inv (hb _ soundKept_plain) h (he ▸ e)
    · exact rawOp_inv (hb _ soundKept_plain) (hb _ (seqKept_plain _ fun _ _ => rfl)) h (he ▸ e)
  | false =>
    cases i with
    | crcCalc data => exact hostOp_inv (.returning C (K.crc data)) h e
    | toCard cmd tx => exact hostOp_inv (.returning C (K.card cmd tx)) h e
    | requestTag => exact hostOp_inv (.returning C requestTag_sound) h e
    | selectTag => exact hostOp_inv (.returning C selectTag_sound) h e
    | readBlock page => exact hostOp_inv (.returning C (readBlock_within K page)) h e
    | readImage => exact hostOp_inv (.returning C readImage_sound) h e
    | writeBlock page data => exact hostOp_inv (.returning C (writeBlock_within K page data)) h e
    | readTag =>
      exact hostOp_inv (.bind C requestTag_sound fun _ => .bind C selectTag_sound fun _ =>
        .returning C readImage_sound) h e
    | _ => cases hi

/-- Taking a request off the port keeps the invariant. -/
theorem State.Inv.takeRequest {s : State} (h : s.Inv) : s.takeRequest.Inv :=
  ⟨h.config, h.idle, h.exchange, h.select, h.image, h.poll, h.target, h.loading, h.tag⟩

/-- What becomes of a message that encodes no instruction keeps the invariant (R118). -/
theorem rejectRequest_inv {r : Reject} {bytes : List Byte} {s t : State} (h : s.Inv)
    (e : rejectRequest r bytes s = .next t) : t.Inv := by
  cases r with
  | reservedOp =>
    cases e
    exact ⟨h.config, h.idle, h.exchange, h.select, h.image, h.poll, h.target, h.loading, h.tag⟩
  | badRecord => exact exec_inv (i := .extract bytes) h e
  | badOperands | badBusFrame | badCommand | badCardFrame => cases e

/-- Settles O8: an idle machine waits, runs the instruction its request encodes, or rejects the request, and each keeps
the invariant; one that is not idle does not step. -/
theorem stepKeepsInvariant : Obligations.StepKeepsInvariant := by
  unfold Obligations.StepKeepsInvariant
  intro s t h e
  unfold step at e
  split at e
  · cases e
  · cases e; exact h
  · split at e
    · exact exec_inv h.takeRequest e
    · exact rejectRequest_inv h.takeRequest e

end Sys2Proof.Machine
end

section
/-! SUPPORT. Who writes the sequencer's registers (10_state.md R20 to R29): what each shared operation leaves of them, by
the units' groups of registers. -/

namespace Sys2Proof.Machine

/-! ## The groups -/

/-- The registers of an exchange, but for S.POLLCNT (R22, R23). -/
abbrev Sequencer.cardRegs (q : Sequencer) : Status × ErrKind × List Byte × Int × Byte × Byte × Byte :=
  (q.status, q.errkind, q.rxbuf, q.rxbits, q.irqen, q.waitirq, q.irqval)

/-- S.CRCOUT (R24). -/
abbrev Sequencer.sum (q : Sequencer) : Byte × Byte := (q.crcLo, q.crcHi)

/-- The selection registers (R25, R26). -/
abbrev Sequencer.selecting (q : Sequencer) : CascadeLevel × Fragment × Fragment × Nat × List Byte :=
  (q.level, q.frag1, q.frag2, q.nfrag, q.uid)

/-- S.ATQA (R27). -/
abbrev Sequencer.atqa (q : Sequencer) : Byte × Byte := (q.atqa0, q.atqa1)

/-! ## CRC_CALC and TO_CARD -/

/-- CRC_CALC writes S.POLLCNT and S.CRCOUT. -/
theorem crcCalc_seqKept {α : Type} {e : Sequencer → α} (hp : ∀ q n, e { q with phase := n } = e q)
    (hn : ∀ q n, e { q with pollcnt := n } = e q) (hs : ∀ q lo hi, e { q with crcLo := lo, crcHi := hi } = e q)
    (data : List Byte) : Op.Within (SeqKept e) (crcCalc data) := by
  have B := seqKept_bus e hp
  have C := B.chains
  have poll : ∀ n, Op.Within (SeqKept e) (pollDivirq n) := by
    intro n
    induction n with
    | zero => exact .ofPure C ()
    | succ n ih =>
      refine .bind C (.ofCfg C) fun _ => .bind C (B.read _) fun _ =>
        .bind C (seqKept_setSeq fun q => hn q _) fun _ => ?_
      split
      · exact .ofPure C ()
      · exact ih
  exact .bind C (.ofCfg C) fun _ => .bind C (clearBits_within B _ _) fun _ => .bind C (setBits_within B _ _) fun _ =>
    .bind C (B.load _ _) fun _ => .bind C (B.write _ _) fun _ => .bind C (seqKept_setSeq fun q => hn q 0) fun _ =>
    .bind C (poll _) fun _ => .bind C (B.read _) fun lo => .bind C (B.read _) fun hi =>
    .bind C (seqKept_setSeq fun q => hs q lo hi) fun _ => .ofPure C _

/-- What TO_CARD leaves of the sequencer: S.CRCOUT, the selection, S.ATQA and the image. -/
abbrev Sequencer.besideCard (q : Sequencer) := (q.sum, q.selecting, q.atqa, q.imaging)

/-- TO_CARD writes the exchange registers and S.POLLCNT. -/
theorem toCard_besideCard (cmd : Command) (tx : List Byte) :
    Op.Within (SeqKept Sequencer.besideCard) (toCard cmd tx) := by
  have B := seqKept_bus Sequencer.besideCard fun _ _ => rfl
  have C := B.chains
  have poll : ∀ n, Op.Within (SeqKept Sequencer.besideCard) (pollComirq n) := by
    intro n
    induction n with
    | zero => exact .ofPure C false
    | succ n ih =>
      refine .bind C (.ofState C) fun _ => .bind C (B.read _) fun _ => .bind C (seqKept_setSeq fun _ => rfl) fun _ => ?_
      split
      · exact .ofPure C true
      · exact ih
  have fail : ∀ k, Op.Within (SeqKept Sequencer.besideCard) (failExchange k) := fun k =>
    .bind C (seqKept_setSeq fun _ => rfl) fun _ => .ofPure C _
  have response : Op.Within (SeqKept Sequencer.besideCard) readResponse :=
    .bind C (.ofCfg C) fun _ => .bind C (B.read _) fun _ => .bind C (B.read _) fun _ =>
      .bind C (seqKept_setSeq fun _ => rfl) fun _ => .bind C (unloadFifo_within B _ _) fun _ =>
      seqKept_setSeq fun _ => rfl
  have complete : Op.Within (SeqKept Sequencer.besideCard) (completeExchange cmd) := by
    refine .bind C (.ofCfg C) fun _ => .bind C (seqKept_setSeq fun _ => rfl) fun _ => ?_
    have rest : Op.Within (SeqKept Sequencer.besideCard) (do
        let s ← Op.state
        pure (s.seq.status, s.seq.rxbuf, s.seq.rxbits) : Op (Status × List Byte × Int)) :=
      .bind C (.ofState C) fun _ => .ofPure C _
    split
    · exact .bind C response fun _ => rest
    · exact rest
  refine .bind C (.ofCfg C) fun _ => .bind C (seqKept_setSeq fun _ => rfl) fun _ =>
    .bind C (loadExchange_within B cmd tx) fun _ => .bind C (startSend_within B cmd) fun _ =>
    .bind C (seqKept_setSeq fun _ => rfl) fun _ => .bind C (poll _) fun _ =>
    .bind C (clearBits_within B _ _) fun _ => ?_
  split
  · exact fail _
  · refine .bind C (B.read _) fun _ => ?_
    split
    · exact fail _
    · exact complete

/-! ## The units above -/

/-- What CRC_CALC and TO_CARD both leave: the registers of units U3 and U4. -/
theorem upper_exchange {α : Type} {e : Sequencer → α} (hp : ∀ q n, e { q with phase := n } = e q)
    (he : ∀ f, ExchangeUpdate f → ∀ q, e (f q) = e q) : ExchangeKept (SeqKept e) where
  toBusKept := seqKept_bus e hp
  crc := crcCalc_within (seqKept_bus e hp) fun f hf => seqKept_setSeq (he f hf)
  card := toCard_within (seqKept_bus e hp) fun f hf => seqKept_setSeq (he f hf)

/-- What REQUEST_TAG leaves of the sequencer. -/
abbrev Sequencer.besideRequest (q : Sequencer) := (q.sum, q.selecting, q.imaging)

/-- REQUEST_TAG writes S.ATQA beside what its exchange writes. -/
theorem requestTag_frame : Op.Within (SeqKept Sequencer.besideRequest) requestTag := by
  have B := seqKept_bus Sequencer.besideRequest fun _ _ => rfl
  have C := B.chains
  have card : ∀ tx, Op.Within (SeqKept Sequencer.besideRequest) (toCard .transceive tx) := fun tx =>
    (toCard_besideCard .transceive tx).mono fun s t h => by
      simp only [SeqKept, Sequencer.besideCard, Prod.mk.injEq] at h
      obtain ⟨hsum, hselecting, -, himaging⟩ := h
      simp only [SeqKept, Sequencer.besideRequest, Prod.mk.injEq]
      exact ⟨hsum, hselecting, himaging⟩
  refine .bind C (.ofCfg C) fun _ => .bind C (B.write _ _) fun _ =>
    .bind C (.bind C (card _) fun _ => .bind C (checkExchange_within C _) fun _ => .ofPure C _) fun x => ?_
  obtain ⟨rx, bits⟩ := x
  simp only
  split
  · exact .ofRaise C _
  · exact .bind C (seqKept_setSeq fun _ => rfl) fun _ => .ofPure C _

/-- The register updates of SELECT_TAG (R225). -/
inductive SelectUpdate : (Sequencer → Sequencer) → Prop
  | begin : SelectUpdate fun q => { q with uid := [], nfrag := 0 }
  | level (l : CascadeLevel) : SelectUpdate fun q => { q with level := l }
  | keep (l : CascadeLevel) (f : Fragment) : SelectUpdate fun q => q.keepFragment l f
  | uid : SelectUpdate fun q => { q with uid := combine q.fragments }

/-- SELECT_TAG keeps what its exchanges and its own updates keep. -/
theorem selectTag_keeps {R : State → State → Prop} (K : ExchangeKept R)
    (hu : ∀ f, SelectUpdate f → Op.Within R (Op.setSeq f)) : Op.Within R selectTag := by
  have C := K.chains
  have anticoll : ∀ lvl, Op.Within R (anticollision lvl) := by
    intro lvl
    refine .bind C (.ofCfg C) fun c => .bind C (hu _ (.level lvl)) fun _ => ?_
    have rest : Op.Within R (do
        let (rx, _) ← transceive (anticollFrame c lvl)
        match fragmentOf rx with
        | none => Op.raise .protocolError
        | some f =>
          if f.valid then do
            Op.setSeq fun q => q.keepFragment lvl f
            pure f
          else Op.raise .checksumError : Op Fragment) := by
      refine .bind C (transceive_within K _) fun x => ?_
      obtain ⟨rx, bits⟩ := x
      simp only
      split
      · exact .ofRaise C _
      · split
        · exact .bind C (hu _ (.keep lvl _)) fun _ => .ofPure C _
        · exact .ofRaise C _
    split
    · exact .bind C (K.write _ _) fun _ => rest
    · exact rest
  have level : ∀ lvl, Op.Within R (selectLevel lvl) := fun lvl =>
    .bind C (anticoll lvl) fun f => .bind C (selectFragment_within K lvl f) fun _ => .ofPure C _
  have complete : Op.Within R completeSelect :=
    .bind C (hu _ .uid) fun _ => .bind C (.ofState C) fun _ => .ofPure C _
  refine .bind C (hu _ .begin) fun _ => .bind C (level .one) fun _ => ?_
  split
  · exact complete
  · refine .bind C (level .two) fun _ => ?_
    split
    · exact complete
    · exact .ofRaise C _

/-- SELECT_TAG writes the selection beside what its exchanges write. -/
theorem selectTag_frame : Op.Within (SeqKept fun q => (q.atqa, q.imaging)) selectTag :=
  selectTag_keeps (upper_exchange (fun _ _ => rfl) fun _ hf _ => by cases hf <;> rfl) fun _ hf =>
    seqKept_setSeq fun q => by
      cases hf with
      | keep l f => cases l <;> rfl
      | _ => rfl

/-- What READ_IMAGE leaves of the sequencer. -/
abbrev Sequencer.besideImage (q : Sequencer) := (q.selecting, q.atqa)

/-- READ_IMAGE writes the image registers beside what its exchanges write. -/
theorem readImage_frame : Op.Within (SeqKept Sequencer.besideImage) readImage := by
  have K : ExchangeKept (SeqKept Sequencer.besideImage) :=
    upper_exchange (fun _ _ => rfl) fun _ hf _ => by cases hf <;> rfl
  have C := K.chains
  have block : ∀ b k, Op.Within (SeqKept Sequencer.besideImage) (assembleBlock b k) := fun b k =>
    .bind C (seqKept_setSeq fun _ => rfl) fun _ => .bind C (readBlock_within K _) fun _ =>
      seqKept_setSeq fun _ => rfl
  have blocks : ∀ n b, Op.Within (SeqKept Sequencer.besideImage) (assembleBlocks n b) := by
    intro n
    induction n with
    | zero => exact fun _ => .ofPure C ()
    | succ n ih => exact fun b => .bind C (block b _) fun _ => ih (b + 1)
  refine .bind C (seqKept_setSeq fun _ => rfl) fun _ => .bind C (blocks _ _) fun _ => ?_
  rw [if_pos (by decide)]
  exact .bind C (block _ _) fun _ => seqKept_setSeq fun _ => rfl

/-! ## Instructions -/

section
variable {α : Type} {e : Sequencer → α} {body : Op Result} {s t : State}

/-- A host operation keeps what its body keeps, but for S.OP, S.PHASE and S.OUTCOME (R21, R30). -/
theorem hostOp_seqKept {n : OpName} (hb : Op.Within (SeqKept e) body)
    (hd : ∀ q o p k, e { q with op := o, phase := p, outcome := k } = e q) (h : hostOp n body s = .next t) :
    e t.seq = e s.seq := by
  have hs : e (s.start n).seq = e s.seq := hd s.seq _ _ s.seq.outcome
  rcases hostOp_next h with ⟨r, u, he, rfl⟩ | ⟨k, u, he, rfl⟩
  · exact (hd u.seq _ _ _).trans ((hb.ok he).trans hs)
  · exact (hd u.seq _ _ _).trans ((hb.raised he).trans hs)

theorem rawOp_seqKept (hb : Op.Within (SeqKept e) body)
    (hd : ∀ q o p k, e { q with op := o, phase := p, outcome := k } = e q) (h : rawOp body s = .next t) :
    e t.seq = e s.seq := by
  rcases rawOp_next h with ⟨r, u, he, rfl⟩ | ⟨k, u, he, rfl⟩
  · have k := hb.ok he
    exact (hd u.seq u.seq.op _ u.seq.outcome).trans k
  · have k := hb.raised he
    exact (hd u.seq _ _ _).trans k

end

/-- A plain row writes S.OP, S.PHASE and S.OUTCOME only. -/
theorem plain_frame {i : Instr} (hi : Instr.plain i = true) {s t : State} (h : exec i s = .next t) :
    t.seq.done .ok = s.seq.done .ok := by
  obtain ⟨body, hb, ⟨n, he⟩ | he⟩ := exec_plain hi s
  · exact hostOp_seqKept (hb _ (seqKept_plain (Sequencer.done · .ok) fun _ _ => rfl)) (fun _ _ _ _ => rfl) (he ▸ h)
  · exact rawOp_seqKept (hb _ (seqKept_plain (Sequencer.done · .ok) fun _ _ => rfl)) (fun _ _ _ _ => rfl) (he ▸ h)

/-- Settles O57: a plain row writes none of these registers, and each other instruction writes those of its own unit and
of the operations it calls. -/
theorem sequencerWriters : Obligations.SequencerWriters := by
  unfold Obligations.SequencerWriters
  intro i s t e
  have K : ExchangeKept (SeqKept fun q => (q.selecting, q.atqa, q.imaging)) :=
    upper_exchange (fun _ _ => rfl) fun _ hf _ => by cases hf <;> rfl
  have C := K.chains
  cases hi : Instr.plain i with
  | true =>
    have h := plain_frame hi e
    simp only [Sequencer.done, Sequencer.mk.injEq] at h
    simp only [h, implies_true, and_self]
  | false =>
    cases i with
    | crcCalc data =>
      have h := hostOp_seqKept (.returning (seqKept_chains _) (crcCalc_seqKept
        (e := fun q => (q.cardRegs, q.selecting, q.atqa, q.imaging)) (fun _ _ => rfl) (fun _ _ => rfl)
        (fun _ _ _ => rfl) data)) (fun _ _ _ _ => rfl) e
      simp_all
    | toCard cmd tx =>
      have h := hostOp_seqKept (.returning (seqKept_chains _) (toCard_besideCard cmd tx)) (fun _ _ _ _ => rfl) e
      simp_all
    | requestTag =>
      have h := hostOp_seqKept (.returning (seqKept_chains _) requestTag_frame) (fun _ _ _ _ => rfl) e
      simp_all
    | selectTag =>
      have h := hostOp_seqKept (.returning (seqKept_chains _) selectTag_frame) (fun _ _ _ _ => rfl) e
      simp_all
    | readBlock page =>
      have h := hostOp_seqKept (.returning C (readBlock_within K page)) (fun _ _ _ _ => rfl) e
      simp_all
    | readImage =>
      have h := hostOp_seqKept (.returning (seqKept_chains _) readImage_frame) (fun _ _ _ _ => rfl) e
      simp_all
    | writeBlock page data =>
      have h := hostOp_seqKept (.returning C (writeBlock_within K page data)) (fun _ _ _ _ => rfl) e
      simp_all
    | readTag => simp
    | _ => cases hi

end Sys2Proof.Machine
end

section
/-! SUPPORT. What SELECT_TAG and READ_IMAGE leave, whatever the card does: an identifier of validated fragments or none
(R26, R222, R223), a whole image or none (R29, R255). -/

namespace Sys2Proof.Machine

/-- A host operation whose body raises one of these kinds: it returned, or raised an outcome that is not OK. -/
theorem hostOp_verdict {n : OpName} {body : Op Result} {P : State → Prop} {Q : Result → State → Prop}
    {E : State → Prop} {ks : List OpOutcome} (hb : Op.Triple P body Q E)
    (hr : Op.Ends (fun _ => True) body (fun _ => Passed) (Raised ks)) (hk : .ok ∉ ks) {s t : State}
    (hs : P (s.start n)) (e : hostOp n body s = .next t) :
    (∃ r u, Q r u ∧ t = u.finish r) ∨ ∃ k u, E u ∧ k ≠ .ok ∧ t = u.raise k := by
  have g := hb _ hs
  have r := hr (s.start n) trivial
  rcases hostOp_next e with ⟨v, u, he, rfl⟩ | ⟨k, u, he, rfl⟩
  · rw [he] at g
    exact .inl ⟨v, u, g, rfl⟩
  · rw [he] at g r
    exact .inr ⟨k, u, g, fun h => hk (h ▸ r.2), rfl⟩

/-! ## SELECT_TAG -/

/-- The identifier is built from one or two fragments that passed their checksum (R222, R223). -/
abbrev Sequencer.identified (q : Sequencer) : Prop :=
  q.frag1.valid = true ∧ (q.nfrag = 1 ∧ q.uid = q.frag1.uidBytes ∨
    q.nfrag = 2 ∧ q.frag2.valid = true ∧ q.uid = q.frag1.uidBytes.drop 1 ++ q.frag2.uidBytes)

/-- No identifier. -/
abbrev Sequencer.unidentified (q : Sequencer) : Prop := q.uid = []

/-- A level adds a valid fragment, or raises with no identifier (R226 to R228). -/
theorem selectLevel_collecting (c : Config) (lvl : CascadeLevel) :
    Op.Triple (At c (Sequencer.collecting (levelsBefore lvl))) (selectLevel lvl)
      (fun _ => At c (Sequencer.collecting (levelsBefore lvl + 1))) (At c Sequencer.unidentified) := by
  refine .bind ((anticollision_collecting c lvl).imp (fun _ h => h) (fun _ _ h => h) fun _ h => ⟨h.1, h.2.1⟩)
    fun f => .bind (M := fun _ => At c (Sequencer.collecting (levelsBefore lvl + 1))) ?_ fun _ _ h => h
  exact (At.part (selectFragment_within outside_upper.toExchangeKept lvl f)
    (selectFragment_within selection_exchange lvl f) (collecting_part _)).imp (fun _ h => h) (fun _ _ h => h)
    fun _ h => ⟨h.1, h.2.1⟩

/-- With one or two valid fragments collected, the identifier returned is their combination (R228). -/
theorem completeSelect_identified (c : Config) {n : Nat} (hn : n = 1 ∨ n = 2) {E : State → Prop} :
    Op.Triple (At c (Sequencer.collecting n)) completeSelect
      (fun uid t => uid = t.seq.uid ∧ t.seq.identified) E := by
  rintro s ⟨-, -, hk, h1, h2⟩
  rcases hn with rfl | rfl
  · exact ⟨rfl, h1 (by decide), .inl ⟨hk, by simp [Sequencer.fragments, hk, combine]⟩⟩
  · exact ⟨rfl, h1 (by decide), .inr ⟨hk, h2 (by decide), by simp [Sequencer.fragments, hk, combine]⟩⟩

/-- SELECT_TAG returns the identifier it keeps, built from valid fragments, or raises with none (R225, R229). -/
theorem selectTag_identified (c : Config) : Op.Triple (At c fun _ => True) selectTag
    (fun uid t => uid = t.seq.uid ∧ t.seq.identified) (At c Sequencer.unidentified) := by
  refine .bind (M := fun _ => At c (Sequencer.collecting 0)) (.setSeq fun q _ => ⟨rfl, rfl, nofun, nofun⟩) fun _ =>
    .bind (selectLevel_collecting c .one) fun more => ?_
  split
  · exact completeSelect_identified c (.inl rfl)
  · refine .bind (selectLevel_collecting c .two) fun more => ?_
    split
    · exact completeSelect_identified c (.inr rfl)
    · exact fun _ h => ⟨h.1, h.2.1⟩

/-- Settles O39: the identifier is cleared first and set only by the completion of a level, from the valid fragments. -/
theorem selectTagIdentifier : Obligations.SelectTagIdentifier := by
  unfold Obligations.SelectTagIdentifier
  intro s t _ e
  have body : Op.Triple (At s.cfg fun _ => True) (selectTag >>= fun uid => pure (Result.bytes uid))
      (fun r t => r = .bytes t.seq.uid ∧ t.seq.identified) (At s.cfg Sequencer.unidentified) :=
    .bind (selectTag_identified s.cfg) fun uid => .ofPure fun t h => ⟨congrArg _ h.1, h.2⟩
  have raises : Op.Ends (fun _ => True) (selectTag >>= fun uid => pure (Result.bytes uid)) (fun _ => Passed)
      (Raised selectKinds) := .bind selectTag_ends fun _ _ h => h
  rcases hostOp_verdict body raises (by decide) ⟨rfl, trivial⟩ e with ⟨r, u, g, rfl⟩ | ⟨k, u, g, hk, rfl⟩
  · exact ⟨fun _ => g, fun h => absurd rfl h⟩
  · exact ⟨fun h => absurd h hk, fun _ => g.2⟩

/-! ## READ_IMAGE -/

/-- An image read in progress: nothing populated, `n` bytes assembled. -/
abbrev Sequencer.gathering (n : Nat) (q : Sequencer) : Prop := q.imgPopulated = false ∧ q.acc.length = n

/-- No image. -/
abbrev Sequencer.imageless (q : Sequencer) : Prop := q.imgPopulated = false

/-- A block adds the bytes kept of it, or raises with no image (R253, R254). -/
theorem assembleBlock_gathering (c : Config) (n b : Nat) {keep : Nat} (hk : keep ≤ blockSize) :
    Op.Triple (At c (Sequencer.gathering n)) (assembleBlock b keep) (fun _ => At c (Sequencer.gathering (n + keep)))
      (At c Sequencer.imageless) := by
  have read : Op.Triple (At c (Sequencer.gathering n)) (readBlock (blockPage b)) (fun _ => At c (Sequencer.gathering n))
      (At c (Sequencer.gathering n)) :=
    At.part (readBlock_within outside_upper.toExchangeKept _) (readBlock_within imaging_exchange _) fun q q' h hs => by
      simp only [Sequencer.imaging, Prod.mk.injEq] at h
      exact ⟨h.2.2.2.trans hs.1, h.2.1 ▸ hs.2⟩
  refine .bind (M := fun _ => At c (Sequencer.gathering n)) (.setSeq fun _ h => h) fun _ =>
    .bind ((readBlock_length _ _ read).imp (fun _ h => h) (fun _ _ h => h) fun _ h => ⟨h.1, h.2.1⟩) fun rx => ?_
  rintro s ⟨hl, hs, h1, h2⟩
  exact ⟨hs, h1, by simp only [List.length_append, List.length_take, hl, h2, Nat.min_eq_left hk]⟩

theorem assembleBlocks_gathering (c : Config) (k b n : Nat) :
    Op.Triple (At c (Sequencer.gathering n)) (assembleBlocks k b)
      (fun _ => At c (Sequencer.gathering (n + blockSize * k))) (At c Sequencer.imageless) := by
  induction k generalizing b n with
  | zero => exact fun _ h => h
  | succ k ih =>
    have e : n + blockSize * (k + 1) = n + blockSize + blockSize * k := by rw [Nat.mul_succ]; omega
    rw [e]
    exact .bind (assembleBlock_gathering c n b (Nat.le_refl _)) fun _ => ih (b + 1) (n + blockSize)

/-- READ_IMAGE ends with the whole image or raises with none (R29, R255). -/
theorem readImage_whole (c : Config) : Op.Triple (At c fun _ => True) readImage
    (fun _ => At c fun q => q.imgPopulated = true ∧ q.img.length = imageSize) (At c Sequencer.imageless) := by
  refine .bind (M := fun _ => At c (Sequencer.gathering 0)) (.setSeq fun q _ => ⟨rfl, rfl⟩) fun _ =>
    .bind (assembleBlocks_gathering c fullBlocks 0 0) fun _ => ?_
  rw [if_pos (by decide)]
  exact .bind (assembleBlock_gathering c _ fullBlocks (by decide)) fun _ => .setSeq fun q h => ⟨rfl, h.2⟩

/-- Settles O45: the image is cleared first and stored only after its last block; the identifier is not READ_IMAGE's to
write; a raise of its exchanges agrees with the verdict they left. -/
theorem readImageAllOrNothing : Obligations.ReadImageAllOrNothing := by
  unfold Obligations.ReadImageAllOrNothing
  intro s t _ e
  have body : Op.Triple (At s.cfg fun _ => True) (readImage >>= fun _ => pure Result.none)
      (fun _ => At s.cfg fun q => q.imgPopulated = true ∧ q.img.length = imageSize) (At s.cfg Sequencer.imageless) :=
    .bind (readImage_whole s.cfg) fun _ => .ofPure fun _ h => h
  have raises : Op.Ends (fun _ => True) (readImage >>= fun _ => pure Result.none) (fun _ => Passed)
      (Raised exchangeKinds) := .bind readImage_ends fun _ _ h => h
  have frame := hostOp_seqKept (.returning (seqKept_chains _) readImage_frame) (fun _ _ _ _ => rfl) e
  have uid : t.seq.uid = s.seq.uid := congrArg (·.1.2.2.2.2) frame
  have agrees := raises.agrees e
  rcases hostOp_verdict body raises (by decide) ⟨rfl, trivial⟩ e with ⟨r, u, g, rfl⟩ | ⟨k, u, g, hk, rfl⟩
  · exact ⟨fun _ => g.2, fun h => absurd rfl h, uid, agrees⟩
  · exact ⟨fun h => absurd h hk, fun _ => g.2, uid, agrees⟩

end Sys2Proof.Machine
end

section
/-! SUPPORT. The register address operand of the host operations of the transport (40_transport.md R72, R140 to R143): it
is checked before any transaction. -/

namespace Sys2Proof.Machine

/-- A host operation that checks a register address first is refused above 0x3F, whatever it does with the address
(R72). -/
theorem hostOp_address_refused {addr : Byte} (h : 0x3F < addr) (n : OpName) (access : RegAddr → Op Result) (s : State) :
    hostOp n (regAddr addr >>= access) s =
      .next { s with seq := s.seq.done .preconditionViolation, result := .none, trace := [] } :=
  hostOp_refused (Op.bind_error (regAddr_of_gt h _))

/-- Settles O11: each of the four operations checks its address before its first transaction. -/
theorem addressOperandRefused : Obligations.AddressOperandRefused := by
  unfold Obligations.AddressOperandRefused
  intro s addr v h i hi
  simp only [List.mem_cons, List.not_mem_nil, or_false] at hi
  rcases hi with rfl | rfl | rfl | rfl
  case inl => exact hostOp_address_refused h .regWrite _ s
  case inr.inl => exact hostOp_address_refused h .regRead _ s
  case inr.inr.inl => exact hostOp_address_refused h .setBits _ s
  case inr.inr.inr => exact hostOp_address_refused h .clearBits _ s

end Sys2Proof.Machine
end

section
/-! SUPPORT. The encoding as a whole (30_encoding.md): every instruction is read back from its message, and a message
decodes only to the instruction it encodes. -/

namespace Sys2Proof.Laws.RoundTrip

/-! ## From an instruction to its message and back -/

/-- The round trip of every instruction, by its row. -/
theorem roundTrip : ∀ i : Instr, Statement i
  | .regWrite addr value => regWrite addr value
  | .regRead addr => regRead addr
  | .setBits addr mask => setBits addr mask
  | .clearBits addr mask => clearBits addr mask
  | .crcCalc data => crcCalc data
  | .toCard cmd tx => toCard cmd tx
  | .requestTag => requestTag
  | .selectTag => selectTag
  | .readBlock page => readBlock page
  | .readImage => readImage
  | .readTag => readTag
  | .writeBlock page data => writeBlock page data
  | .region name => region name
  | .extract buffer => extract buffer
  | .wrap payload => wrap payload
  | .init => init
  | .busWrite a v => busWrite a v
  | .busRead a => busRead a
  | .cmdIdle => cmdIdle
  | .cmdCalccrc => cmdCalccrc
  | .cmdTransceive => cmdTransceive
  | .cmdAuthent => cmdAuthent
  | .cmdResetphase => cmdResetphase
  | .reqa => reqa
  | .anticoll lvl => anticoll lvl
  | .select lvl u0 u1 u2 u3 bcc lo hi => select lvl u0 u1 u2 u3 bcc lo hi
  | .read page lo hi => read page lo hi
  | .write page d0 d1 d2 d3 lo hi => write page d0 d1 d2 d3 lo hi
  | .tlvRecord payload => tlvRecord payload

/-- Settles O1: the decoder reads back the message of each row. -/
theorem decodeOfEncode : Obligations.DecodeOfEncode := by
  unfold Obligations.DecodeOfEncode
  exact fun c i hc hi => roundTrip i c hc hi

/-! ## From a message to its instruction and back: the fields -/

/-- A byte that stands for a command is the byte of that command (R104). -/
theorem byte_of_ofByte {k : CmdCodes} {v : Byte} {cmd : Command} (h : k.ofByte v = some cmd) : k.byte cmd = v := by
  have hi : v.extractLsb' 4 4 = 0#4 := by
    by_contra hn
    simp [CmdCodes.ofByte, hn] at h
  have low : ∀ b : Byte, b.extractLsb' 4 4 = 0#4 → (b.extractLsb' 0 4).setWidth 8 = b := by decide
  rw [CmdCodes.byte, CmdCodes.code_of_ofByte h, low v hi]

/-- A byte that tells a level is the SELECT command byte of that level (R108). -/
theorem sel_of_level? {k : CardCodes} {b : Byte} {lvl : CascadeLevel} (h : k.level? b = some lvl) : k.sel lvl = b := by
  unfold CardCodes.level? at h
  split_ifs at h with h1 h2
  · cases h; exact h1.symm
  · cases h; exact h2.symm

/-- A byte that names a region is the number of that region (R262). -/
theorem index_of_ofIndex {n : Byte} {r : Region} (h : Region.ofIndex n = some r) : r.index = n := by
  have all : ∀ b : Byte, ∀ q ∈ Region.ofIndex b, q.index = b := by decide
  exact all n r h

/-- The first byte of a write frame is made of the address it carries (R101, R103). -/
theorem busWriteByte0_extract : ∀ b : Byte, b.getLsbD 0 = false → b.getLsbD 7 = false →
    busWriteByte0 (b.extractLsb' 1 6) = b := by decide

/-- The first byte of a read frame is made of the address it carries (R102, R103). -/
theorem busReadByte0_extract : ∀ b : Byte, b.getLsbD 0 = false → b.getLsbD 7 = true →
    busReadByte0 (b.extractLsb' 1 6) = b := by decide

/-! ## The operands of HOP -/

/-- The message of a format is what a well-formed instruction encodes to. -/
def Encodes (c : Config) (f : Format) (i : Instr) (bytes : List Byte) : Prop :=
  i.format = f ∧ i.wf = true ∧ encode c i = bytes

section
variable {c : Config} {op : Byte} {args : List Byte} {i j : Instr}

theorem noOperands_encodes (he : Encodes c .hop i [op]) (h : noOperands i args = .ok j) :
    Encodes c .hop j (op :: args) := by
  cases args with
  | nil => cases h; exact he
  | cons _ _ => cases h

theorem oneOperand_encodes {f : Byte → Instr} (he : ∀ a, Encodes c .hop (f a) [op, a])
    (h : oneOperand f args = .ok j) : Encodes c .hop j (op :: args) := by
  unfold oneOperand at h
  split at h
  · cases h; exact he _
  · cases h

theorem twoOperands_encodes {f : Byte → Byte → Instr} (he : ∀ a v, Encodes c .hop (f a v) [op, a, v])
    (h : twoOperands f args = .ok j) : Encodes c .hop j (op :: args) := by
  unfold twoOperands at h
  split at h
  · cases h; exact he _ _
  · cases h

theorem toCardOperands_encodes (h : toCardOperands c args = .ok j) : Encodes c .hop j (0x06 :: args) := by
  unfold toCardOperands at h
  split at h
  · split at h
    · next hk => cases h; exact ⟨rfl, rfl, by rw [encode, byte_of_ofByte hk]⟩
    · cases h
  · cases h

theorem writeBlockOperands_encodes (h : writeBlockOperands args = .ok j) : Encodes c .hop j (0x0C :: args) := by
  cases args with
  | nil => cases h
  | cons page data => cases h; exact ⟨rfl, rfl, rfl⟩

theorem regionOperands_encodes (h : regionOperands args = .ok j) : Encodes c .hop j (0x0D :: args) := by
  unfold regionOperands at h
  split at h
  · split at h
    · next hn => cases h; exact ⟨rfl, rfl, by rw [encode, index_of_ofIndex hn]⟩
    · cases h
  · cases h

end

/-! ## The formats -/

/-- An operation byte is reserved or one of the sixteen of the operation map (R117, R118). -/
theorem operation_cases : ∀ op : Byte, (op = 0x00 ∨ 0x10 < op) ∨ op = 0x01 ∨ op = 0x02 ∨ op = 0x03 ∨ op = 0x04 ∨
    op = 0x05 ∨ op = 0x06 ∨ op = 0x07 ∨ op = 0x08 ∨ op = 0x09 ∨ op = 0x0A ∨ op = 0x0B ∨ op = 0x0C ∨ op = 0x0D ∨
    op = 0x0E ∨ op = 0x0F ∨ op = 0x10 := by decide

/-- The operation bytes outside 0x01 to 0x10 are reserved (R118). -/
theorem decodeHop_reserved (c : Config) {op : Byte} (args : List Byte) (h : op = 0x00 ∨ 0x10 < op) :
    decodeHop c (op :: args) = .error .reservedOp := by
  have ne : ∀ k : Byte, 0x01 ≤ k → k ≤ 0x10 → op ≠ k := by
    rintro k low high rfl
    bv_omega
  simp [decodeHop, ne]

section
variable {c : Config} {bytes : List Byte} {i : Instr}

/-- HOP: the operation byte names the row, its operands follow (R117; log entry 6). -/
theorem decodeHop_encodes (h : decodeHop c bytes = .ok i) : Encodes c .hop i bytes := by
  cases bytes with
  | nil => cases h
  | cons op args =>
    rcases operation_cases op with reserved | rfl | rfl | rfl | rfl | rfl | rfl | rfl | rfl | rfl | rfl | rfl | rfl |
      rfl | rfl | rfl | rfl
    · rw [decodeHop_reserved c args reserved] at h; cases h
    · exact twoOperands_encodes (fun _ _ => ⟨rfl, rfl, rfl⟩) h
    · exact oneOperand_encodes (fun _ => ⟨rfl, rfl, rfl⟩) h
    · exact twoOperands_encodes (fun _ _ => ⟨rfl, rfl, rfl⟩) h
    · exact twoOperands_encodes (fun _ _ => ⟨rfl, rfl, rfl⟩) h
    · cases h; exact ⟨rfl, rfl, rfl⟩
    · exact toCardOperands_encodes h
    · exact noOperands_encodes ⟨rfl, rfl, rfl⟩ h
    · exact noOperands_encodes ⟨rfl, rfl, rfl⟩ h
    · exact oneOperand_encodes (fun _ => ⟨rfl, rfl, rfl⟩) h
    · exact noOperands_encodes ⟨rfl, rfl, rfl⟩ h
    · exact noOperands_encodes ⟨rfl, rfl, rfl⟩ h
    · exact writeBlockOperands_encodes h
    · exact regionOperands_encodes h
    · cases h; exact ⟨rfl, rfl, rfl⟩
    · cases h; exact ⟨rfl, rfl, rfl⟩
    · exact noOperands_encodes ⟨rfl, rfl, rfl⟩ h

/-- BUS: the second byte of a read frame is the only one that is not told by the instruction (R103, R118). -/
theorem decodeBus_encodes (h : decodeBus bytes = .ok i) :
    Encodes c .bus i bytes ∨ ∃ a v, i = .busRead a ∧ bytes = [busReadByte0 a, v] := by
  unfold decodeBus at h
  split at h
  · next b0 b1 =>
    split_ifs at h with h0 h7
    · cases h
      exact .inr ⟨_, b1, rfl, by rw [busReadByte0_extract b0 (by simpa using h0) h7]⟩
    · cases h
      exact .inl ⟨rfl, rfl, by rw [encode, busWriteByte0_extract b0 (by simpa using h0) (by simpa using h7)]⟩
  · cases h

/-- The row of a command is the command's byte (R104). -/
theorem instr_encodes (c : Config) (cmd : Command) : Encodes c .cmd cmd.instr [c.codes.byte cmd] := by
  cases cmd <;> exact ⟨rfl, rfl, rfl⟩

/-- CMD: one byte, the code of a command (R104). -/
theorem decodeCmd_encodes (h : decodeCmd c bytes = .ok i) : Encodes c .cmd i bytes := by
  unfold decodeCmd at h
  split at h
  · split at h
    · next hk => cases h; exact byte_of_ofByte hk ▸ instr_encodes c _
    · cases h
  · cases h

/-- CARD: the length of the frame names the row, its command bytes confirm it (R106 to R111, R119). -/
theorem decodeCard_encodes (h : decodeCard c bytes = .ok i) : Encodes c .card i bytes := by
  unfold decodeCard at h
  split at h
  · split_ifs at h with hb
    cases h
    exact ⟨rfl, rfl, by rw [encode, reqaFrame, hb]⟩
  · split at h
    · next hl =>
      split_ifs at h with hn
      cases h
      exact ⟨rfl, rfl, by rw [encode, anticollFrame, sel_of_level? hl, hn]⟩
    · cases h
  · split_ifs at h with hb
    cases h
    exact ⟨rfl, rfl, by rw [encode, readBody, hb]; rfl⟩
  · split_ifs at h with hb
    cases h
    exact ⟨rfl, rfl, by rw [encode, writeBody, hb]; rfl⟩
  · split at h
    · next hl =>
      split_ifs at h with hn
      cases h
      exact ⟨rfl, rfl, by rw [encode, selectBody, sel_of_level? hl, hn]; rfl⟩
    · cases h
  · cases h

/-- TLV: the type byte, the length and as many bytes, at most 255 (R113). -/
theorem decodeTlv_encodes (h : decodeTlv bytes = .ok i) : Encodes c .tlv i bytes := by
  unfold decodeTlv at h
  split at h
  · next t n payload =>
    split_ifs at h with hr
    obtain ⟨rfl, hn⟩ := hr
    cases h
    have short : payload.length ≤ 255 := by have := n.isLt; omega
    have len : BitVec.ofNat 8 payload.length = n := by rw [← hn, BitVec.ofNat_toNat, BitVec.setWidth_eq]
    exact ⟨rfl, decide_eq_true short, by rw [encode, len]⟩
  · cases h

/-- A message that is its instruction's encoding needs no exception. -/
theorem Encodes.oneWay {f : Format} (h : Encodes c f i bytes) : i.format = f ∧ i.wf = true ∧
    (encode c i = bytes ∨ ∃ (a : RegAddr) (v : Byte), i = .busRead a ∧ bytes = [busReadByte0 a, v]) :=
  ⟨h.1, h.2.1, .inl h.2.2⟩

end

/-- Settles O2: each format's decoder takes only what its rows encode to; the read frame of the bus is the exception. -/
theorem encodeOfDecode : Obligations.EncodeOfDecode := by
  unfold Obligations.EncodeOfDecode
  intro c f bytes i h
  cases f with
  | hop => exact (decodeHop_encodes h).oneWay
  | bus =>
    rcases decodeBus_encodes (c := c) h with he | ⟨a, v, rfl, hb⟩
    · exact he.oneWay
    · exact ⟨rfl, rfl, .inr ⟨a, v, rfl, hb⟩⟩
  | cmd => exact (decodeCmd_encodes h).oneWay
  | card => exact (decodeCard_encodes h).oneWay
  | tlv => exact (decodeTlv_encodes h).oneWay

end Sys2Proof.Laws.RoundTrip
end

section
/-! SUPPORT. The step at the port (30_encoding.md R116, R118) and the rows of the BUS, CMD and CARD formats on their own
(R101 to R111). -/

namespace Sys2Proof.Machine

/-! ## The step -/

/-- Taking the first request leaves the others. -/
theorem takeRequest_eq {s : State} {r : Request} {rest : List Request} (port : s.port = r :: rest) :
    s.takeRequest = { s with port := rest } := by
  rw [State.takeRequest, port, List.tail_cons]

section
variable {s : State} {r : Request} {rest : List Request} (idle : s.seq.op = none) (port : s.port = r :: rest)
include idle port

/-- An idle machine runs the instruction its first request encodes (R116). -/
theorem step_of_decode_ok {i : Instr} (h : decode s.cfg r.format r.bytes = .ok i) :
    step s = exec i { s with port := rest } := by
  rw [← takeRequest_eq port]
  simp only [step, idle, port, h]

/-- An idle machine rejects a request that encodes no instruction (R118). -/
theorem step_of_decode_error {e : Reject} (h : decode s.cfg r.format r.bytes = .error e) :
    step s = rejectRequest e r.bytes { s with port := rest } := by
  rw [← takeRequest_eq port]
  simp only [step, idle, port, h]

end

/-- Settles O4: with the machine idle and a request at the port, the step is what its decoding says. -/
theorem stepRunsDecoded : Obligations.StepRunsDecoded := by
  unfold Obligations.StepRunsDecoded
  exact fun s r rest i idle port h => step_of_decode_ok idle port h

/-- Settles O5: the three cases are the branches of the step; a reserved operation is one the HOP decoder rejects as
such. -/
theorem stepWithoutInstruction : Obligations.StepWithoutInstruction := by
  unfold Obligations.StepWithoutInstruction
  refine ⟨?waits, ?refuses, ?busy⟩
  case waits =>
    intro s idle port
    simp only [step, idle, port]
  case refuses =>
    intro s op args rest idle port h
    exact step_of_decode_error idle port (Laws.RoundTrip.decodeHop_reserved s.cfg args h)
  case busy =>
    intro s n running
    simp only [step, running]

/-! ## BUS and CMD rows over an unconstrained transport -/

theorem writeAccess_oracle {s : State} (h : s.env.level = .busOracle) (a : RegAddr) (v : Byte) :
    writeAccess a v s = .ok () s := by rw [writeAccess, h]

theorem readAccess_oracle {s : State} (h : s.env.level = .busOracle) (a : RegAddr) :
    readAccess a s = .ok (s.env.byteValue 0x00) { s with env := s.env.afterBytes 1 } := by rw [readAccess, h]

/-- A CMD row is the write of its command's byte to COMMAND (R104). -/
theorem exec_command (cmd : Command) (s : State) :
    exec cmd.instr s = exec (.busWrite s.cfg.regmap.command (s.cfg.codes.byte cmd)) s := by
  cases cmd <;> rfl

/-- Settles O9: the transport gives the read its byte and leaves the target alone, so a row leaves its frame and its
result; AUTHENT is a write like another. -/
theorem busFramesOverOracle : Obligations.BusFramesOverOracle := by
  unfold Obligations.BusFramesOverOracle
  intro s a v h
  have write : ∀ a v, exec (.busWrite a v) s = .next { s with
      seq := { s.seq with phase := 0 }, result := .none, trace := [BusFrame.write a v] } :=
    fun a v => exec_busWrite (writeAccess_oracle h a v)
  refine ⟨write a v, exec_busRead (readAccess_oracle h a), ?authent⟩
  case authent => exact (exec_command .authent s).trans (write _ _)

/-! ## CARD rows -/

/-- A frame handed to the card port changes what the exchange changes, and is no bus transaction (R290; log
entry 13). -/
theorem rawOp_sendFrame (frame : List Byte) (n : BitVec 3) (s : State) :
    rawOp (sendFrame frame n) s = .next { s with
      seq := { s.seq with phase := 0 }, env := (s.env.exchange frame n).2, result := .none, trace := [] } :=
  rawOp_ok (body := sendFrame frame n) (s := s) rfl

/-- Settles O52: each of the five rows sends its own frame. -/
theorem cardRowsExchange : Obligations.CardRowsExchange := by
  unfold Obligations.CardRowsExchange
  intro s lvl u0 u1 u2 u3 b p d0 d1 d2 d3 lo hi x hx
  simp only [List.mem_cons, List.not_mem_nil, or_false] at hx
  rcases hx with rfl | rfl | rfl | rfl | rfl <;> exact rawOp_sendFrame _ _ s

end Sys2Proof.Machine
end

section
/-! SUPPORT. The host operations of the transport beside the bus rows (40_transport.md R140 to R143): REG_WRITE and
REG_READ are one row, SET_BITS and CLEAR_BITS two, read first. -/

namespace Sys2Proof.Machine

/-! ## A write row after another access -/

/-- A write row from an access's state is the write access of that state (R101). -/
theorem exec_busWrite_outer {a : RegAddr} {v : Byte} {s t : State} {x : Unit} (e : writeAccess a v s = .ok x t)
    (q : Sequencer) (r : Result) (tr : List BusFrame) :
    exec (.busWrite a v) (s.outer q r tr) = .next (t.outer { q with phase := 0 } .none [writeFrame a v]) :=
  exec_busWrite (t := t.outer q r tr) (u := x) (by rw [writeAccess_outer, e]; rfl)

theorem exec_busWrite_outer_refused {a : RegAddr} {v : Byte} {s t : State} {k : Refusal}
    (e : writeAccess a v s = .error (.refuse k) t) (q : Sequencer) (r : Result) (tr : List BusFrame) :
    exec (.busWrite a v) (s.outer q r tr) = .refused k :=
  exec_busWrite_refused (t := t.outer q r tr) (by rw [writeAccess_outer, e]; rfl)

section
variable {a : RegAddr} {v : Byte} {s : State} {q : Sequencer} {r : Result} {tr : List BusFrame}

/-- A write row that goes on did a write access that goes on. -/
theorem writeAccess_of_busWrite_next {t : State} (h : exec (.busWrite a v) (s.outer q r tr) = .next t) :
    ∃ u, writeAccess a v s = .ok () u ∧ t = u.outer { q with phase := 0 } .none [writeFrame a v] := by
  rcases writeAccess_cases a v s with ⟨u, e⟩ | ⟨k, u, e⟩
  · rw [exec_busWrite_outer e] at h
    exact ⟨u, e, (Host.Outcome.next.inj h).symm⟩
  · rw [exec_busWrite_outer_refused e] at h
    cases h

/-- A write row that is refused did a write access refused by the same name. -/
theorem writeAccess_of_busWrite_refused {k : Refusal} (h : exec (.busWrite a v) (s.outer q r tr) = .refused k) :
    ∃ u, writeAccess a v s = .error (.refuse k) u := by
  rcases writeAccess_cases a v s with ⟨u, e⟩ | ⟨k', u, e⟩
  · rw [exec_busWrite_outer e] at h
    cases h
  · rw [exec_busWrite_outer_refused e] at h
    cases h
    exact ⟨u, e⟩

end

/-! ## The mask helpers where their write is refused -/

section
variable {addr m v : Byte} {s t u : State} {k : Refusal} (ha : addr ≤ 0x3F)
  (er : readAccess (addr.setWidth 6) s = .ok v t)
include ha er

/-- A host operation that reads a register and writes it back is refused where that write is (R142, R143). -/
theorem hostOp_readThenWrite_refused {f : Byte → Byte}
    (ew : writeAccess (addr.setWidth 6) (f v) t = .error (.refuse k) u) (n : OpName) :
    hostOp n (do
      let a ← regAddr addr
      (do
        let b ← busRead a
        busWrite a (f b))
      pure .none) s = .refused k := by
  have read := busRead_outer er { s.seq with op := some n, phase := 0 } .none []
  have write := busWrite_outer_stop ew { s.seq with op := some n, phase := 1 } .none
    [readFrame (addr.setWidth 6) v]
  exact hostOp_refuses ((Op.bind_ok (regAddr_of_le ha _)).trans
    (Op.bind_error ((Op.bind_ok read).trans write)))

theorem exec_setBits_refused (ew : writeAccess (addr.setWidth 6) (v ||| m) t = .error (.refuse k) u) :
    exec (.setBits addr m) s = .refused k :=
  hostOp_readThenWrite_refused (f := (· ||| m)) ha er ew .setBits

theorem exec_clearBits_refused (ew : writeAccess (addr.setWidth 6) (v &&& m.compl) t = .error (.refuse k) u) :
    exec (.clearBits addr m) s = .refused k :=
  hostOp_readThenWrite_refused (f := (· &&& m.compl)) ha er ew .clearBits

end

/-! ## One row or two -/

/-- Settles O10: the row and the host operation make the same access, which goes on exactly where the target accepts the
value. -/
theorem hostRegisterAccess : Obligations.HostRegisterAccess := by
  unfold Obligations.HostRegisterAccess
  intro s addr v ha
  refine ⟨?accepted, ?refused, ?read⟩
  case accepted =>
    intro h
    obtain ⟨t, e⟩ := (writeAccess_ok_iff _ v s).2 h
    exact ⟨_, exec_busWrite e, rfl, rfl, rfl, (exec_regWrite ha e).trans rfl⟩
  case refused =>
    intro h
    rcases writeAccess_cases (addr.setWidth 6) v s with go | ⟨r, t, e⟩
    · exact absurd ((writeAccess_ok_iff _ v s).1 go) h
    · exact ⟨r, exec_busWrite_refused e, exec_regWrite_refused ha e⟩
  case read =>
    obtain ⟨w, t, e⟩ := readAccess_ok (addr.setWidth 6) s
    exact ⟨_, w, exec_busRead e, rfl, rfl, (exec_regRead ha e).trans rfl⟩

/-- Settles O12: the read access of the helper is the read row's; from the state it leaves, the helper's write and the
write row are one access. -/
theorem maskHelpersReadThenWrite : Obligations.MaskHelpersReadThenWrite := by
  unfold Obligations.MaskHelpersReadThenWrite
  intro s addr mask
  refine ⟨fun h i hi => addressOperandRefused s addr mask h i ?listed, fun ha => ?transactions⟩
  case listed => exact List.mem_cons_of_mem _ (List.mem_cons_of_mem _ hi)
  case transactions =>
    obtain ⟨v, w, er⟩ := readAccess_ok (addr.setWidth 6) s
    refine ⟨_, v, exec_busRead er, rfl, ?set, ?setRefused, ?clear, ?clearRefused⟩
    case set =>
      intro t h
      obtain ⟨u, ew, rfl⟩ := writeAccess_of_busWrite_next h
      exact (exec_setBits ha er ew).trans rfl
    case setRefused =>
      intro r h
      obtain ⟨u, ew⟩ := writeAccess_of_busWrite_refused h
      exact exec_setBits_refused ha er ew
    case clear =>
      intro t h
      obtain ⟨u, ew, rfl⟩ := writeAccess_of_busWrite_next h
      exact (exec_clearBits ha er ew).trans rfl
    case clearRefused =>
      intro r h
      obtain ⟨u, ew⟩ := writeAccess_of_busWrite_refused h
      exact exec_clearBits_refused ha er ew

end Sys2Proof.Machine
end

section
/-! SUPPORT. The registers of the reference target that are storage and those that are read-only views (R146, R169, R40):
what one access does to each. -/

namespace Sys2Proof.Machine

/-! ## Storage -/

section
variable {a : RegAddr} {s : State} (hl : s.env.level = .referenceTarget)
include hl

/-- A write of a storage register is the target's events, then the store (R146). -/
theorem writeAccess_storage (h : RegName.storesWrite (s.cfg.regmap.nameAt a) = true) (v : Byte) :
    writeAccess a v s = .ok () { s.ticked with tgt := (s.tgt.tick s.cfg).setReg a v } :=
  writeAccess_target hl (targetWrite_storage (s := s.ticked) h v)

/-- A read of a storage register returns the byte stored: the target's events write no storage (R146). -/
theorem readAccess_storage (h : RegName.storesRead (s.cfg.regmap.nameAt a) = true) :
    readAccess a s = .ok (s.tgt.reg a) s.ticked :=
  readAccess_target hl (by rw [targetRead_storage (s := s.ticked) h, ticked_tgt, tick_reg])

end

/-- Settles O14: the store changes the register at its own address, the read nothing. -/
theorem storageRegisters : Obligations.StorageRegisters := by
  unfold Obligations.StorageRegisters
  intro s a v hl
  refine ⟨fun h => ?write, fun h => exec_busRead (readAccess_storage hl h)⟩
  case write =>
    refine ⟨_, exec_busWrite (writeAccess_storage hl h v), fun b => ?_, rfl⟩
    calc ((s.tgt.tick s.cfg).setReg a v).reg b
      _ = if a = b then v else s.tgt.reg b := by rw [reg_setReg, tick_reg]
      _ = if b = a then v else s.tgt.reg b := by simp only [eq_comm]

/-- Settles O13: at a storage register both accesses go on; each is preceded by the target's events. -/
theorem maskHelpersOnStorage : Obligations.MaskHelpersOnStorage := by
  unfold Obligations.MaskHelpersOnStorage
  intro s addr mask hl ha hr hw
  have read := readAccess_storage hl hr
  have write := writeAccess_storage (s := s.ticked) hl hw
  refine ⟨?set, ?clear⟩
  case set => exact ⟨_, exec_setBits ha read (write _), rfl, rfl, rfl, rfl⟩
  case clear => exact ⟨_, exec_clearBits ha read (write _), rfl, rfl, rfl, rfl⟩

/-! ## Read-only views -/

/-- CONTROL shows the valid-bit count in bits[2:0] (R40). -/
theorem controlByte_low (t : Target) (a : RegAddr) : (t.controlByte a).extractLsb' 0 3 = t.rxLast := by
  rw [Target.controlByte]
  generalize t.reg a = b, t.rxLast = n
  revert b n
  decide +kernel

/-- CONTROL shows its storage in bits[7:3] (R40). -/
theorem controlByte_high (t : Target) (a : RegAddr) :
    (t.controlByte a).extractLsb' 3 5 = (t.reg a).extractLsb' 3 5 := by
  rw [Target.controlByte]
  generalize t.reg a = b, t.rxLast = n
  revert b n
  decide +kernel

/-- A scripted draw is the next byte of the script (log entry 5). -/
theorem byteValue_scripted {e : Environment} {x : Byte} {rest : List Byte} (h : e.byteFeed = x :: rest) (sim : Byte) :
    e.byteValue sim = x := by rw [Environment.byteValue, h]

section
variable {a : RegAddr} {v : Byte} {s : State} (hl : s.env.level = .referenceTarget)
include hl

/-- A write that the register ignores leaves the target's own events only (R146). -/
theorem exec_busWrite_ignored (h : targetWrite a v s.ticked = .ok () s.ticked) :
    exec (.busWrite a v) s = .next { s with
      seq := { s.seq with phase := 0 }, tgt := s.tgt.tick s.cfg, result := .none, trace := [BusFrame.write a v] } :=
  exec_busWrite (writeAccess_target hl h)

/-- A read of a view returns what the register shows and leaves the target's own events only (R146). -/
theorem exec_busRead_view (h : targetRead a s.ticked = .ok v s.ticked) : ∃ t, exec (.busRead a) s = .next t ∧
    t.result = .byte v ∧ t.tgt = s.tgt.tick s.cfg ∧ t.env = s.env :=
  ⟨_, exec_busRead (readAccess_target hl h), rfl, rfl, rfl⟩

/-- A read that draws uses up one draw, the next byte of the script where there is one (R169). -/
theorem exec_busRead_draw {sim : Byte}
    (h : targetRead a s.ticked = .ok (s.env.byteValue sim) { s.ticked with env := s.env.afterBytes 1 }) :
    ∃ t b, exec (.busRead a) s = .next t ∧ t.result = .byte b ∧ t.tgt = s.tgt.tick s.cfg ∧
      t.env = s.env.afterBytes 1 ∧ ∀ x rest, s.env.byteFeed = x :: rest → b = x :=
  ⟨_, _, exec_busRead (readAccess_target hl h), rfl, rfl, rfl, fun _ _ hf => byteValue_scripted hf sim⟩

end

/-- Settles O15: each register at its own address, once the events due have happened. -/
theorem readOnlyRegisters : Obligations.ReadOnlyRegisters := by
  unfold Obligations.ReadOnlyRegisters
  intro s v hl hd
  have name : ∀ n, s.ticked.cfg.regmap.nameAt (s.cfg.regmap.addr n) = some n := RegMap.nameAt_addr hd
  refine ⟨?ignored, ?error, ?control, ?known, ?drawn⟩
  case ignored =>
    intro n hn
    simp only [List.mem_cons, List.not_mem_nil, or_false] at hn
    have named : some n = some RegName.error ∨ some n = some .crcresultH ∨ some n = some .crcresultL := by
      simpa only [Option.some.injEq] using hn
    exact exec_busWrite_ignored hl (targetWrite_readOnly ((name n).symm ▸ named) v)
  case error => exact exec_busRead_view hl (targetRead_error (name .error))
  case control =>
    obtain ⟨t, e, hr, ht, he⟩ := exec_busRead_view hl (targetRead_control (name .control))
    refine ⟨t, _, e, hr, controlByte_low _ _, ?_, ht, he⟩
    rw [controlByte_high, ticked_tgt, tick_reg]
    rfl
  case known =>
    intro known calm
    exact ⟨exec_busRead_view hl (targetRead_crcresult (.inr rfl) (name .crcresultL) ⟨known, calm⟩),
      exec_busRead_view hl (targetRead_crcresult (.inl rfl) (name .crcresultH) ⟨known, calm⟩)⟩
  case drawn =>
    intro unknown n hn
    simp only [List.mem_cons, List.not_mem_nil, or_false] at hn
    refine exec_busRead_draw hl (targetRead_crcresult_draw hn (name n) ?_)
    rintro ⟨known, calm⟩
    rcases unknown with h | h
    · exact absurd known (by rw [ticked_tgt, h]; decide)
    · exact h calm

end Sys2Proof.Machine
end

section
/-! SUPPORT. The CRC coprocessor (41_crc_engine.md): the residue of CRC_A, what CALCCRC takes, the completion event and
its flag in DIVIRQ. -/

namespace Sys2Proof.Machine

/-! ## The residue of CRC_A (R166, R167) -/

/-- Where the bit shifted out is 0, one bit of CRC_A is the shift alone (R166). -/
theorem crcBit_shiftLeft (b : Byte) {n : Nat} (hn : n < 8) :
    crcBit (b.setWidth 16 <<< (n + 1)) = b.setWidth 16 <<< n := by
  have low : (b.setWidth 16 <<< (n + 1)).getLsbD 0 = false := by simp
  rw [crcBit, low, if_neg Bool.false_ne_true]
  ext i hi
  simp only [BitVec.getElem_ushiftRight, BitVec.getElem_shiftLeft, BitVec.getLsbD_shiftLeft, BitVec.getLsbD_setWidth]
  grind

/-- The low byte of a CRC cancels against itself: what is left after eight bits is the high byte. -/
theorem crcByte_crcLow (c : Word16) : crcByte c (crcLow c) = (crcHigh c).setWidth 16 := by
  have cancel : c ^^^ (crcLow c).setWidth 16 = (crcHigh c).setWidth 16 <<< 8 := by
    ext i hi
    simp only [crcLow, crcHigh, BitVec.getElem_xor, BitVec.getElem_shiftLeft, BitVec.getElem_setWidth,
      BitVec.getLsbD_extractLsb']
    grind
  rw [crcByte, cancel]
  iterate 8 rw [crcBit_shiftLeft _ (by decide)]
  exact BitVec.shiftLeft_zero _

/-- A CRC of one byte cancels against that byte, and a CRC of zero stays zero. -/
theorem crcByte_self (b : Byte) : crcByte (b.setWidth 16) b = 0 := by
  rw [crcByte, BitVec.xor_self]
  rfl

/-- Settles O30: the two bytes appended are the CRC's own, so each cancels against it in turn. -/
theorem crcResidue : Obligations.CrcResidue := by
  unfold Obligations.CrcResidue
  intro s
  calc crcA (s ++ crcBytes (crcA s))
    _ = crcByte (crcByte (crcA s) (crcLow (crcA s))) (crcHigh (crcA s)) := by
      simp only [crcA, crcBytes, List.foldl_append, List.foldl_cons, List.foldl_nil]
    _ = crcByte ((crcHigh (crcA s)).setWidth 16) (crcHigh (crcA s)) := by rw [crcByte_crcLow]
    _ = 0 := crcByte_self _

/-! ## CALCCRC (R163, R194, R196) -/

/-- An accepted command is stored in COMMAND, and no other register changes (R194). -/
theorem accept_reg (t : Target) (c : Config) (k : Command) (a : RegAddr) :
    (t.accept c k).reg a = if c.regmap.command = a then c.codes.byte k else t.reg a :=
  reg_setReg t c.regmap.command a (c.codes.byte k)

/-- The write of a command's byte, once the events due have happened (R194). -/
theorem writeAccess_command {s : State} (hl : s.env.level = .referenceTarget) (hc : s.cfg.wf) {k : Command}
    (hk : k ≠ .authent) : writeAccess s.cfg.regmap.command (s.cfg.codes.byte k) s =
      .ok () ({ s.ticked with tgt := s.ticked.tgt.accept s.cfg k }.commanded k) := by
  obtain ⟨addresses, codes, -⟩ := hc
  exact writeAccess_target hl (targetWrite_command (s := s.ticked) (RegMap.nameAt_addr addresses .command)
    (CmdCodes.ofByte_byte codes k) hk)

/-- Settles O20: the command is accepted, which cancels what was pending, and the engine started on the FIFO. -/
theorem calccrcTakesFifo : Obligations.CalccrcTakesFifo := by
  unfold Obligations.CalccrcTakesFifo
  intro s hl hc
  refine ⟨_, (exec_command .calccrc s).trans (exec_busWrite (writeAccess_command hl hc nofun)),
    rfl, rfl, rfl, rfl, rfl, fun a => ?reg, rfl, rfl, rfl, rfl, rfl, rfl, rfl, rfl⟩
  case reg =>
    calc ((s.tgt.tick s.cfg).accept s.cfg .calccrc).reg a
      _ = if s.cfg.regmap.command = a then s.cfg.codes.byte .calccrc else s.tgt.reg a := by rw [accept_reg, tick_reg]
      _ = if a = s.cfg.regmap.command then s.cfg.codes.byte .calccrc else s.tgt.reg a := by simp only [eq_comm]

/-! ## The completion event (R164) -/

/-- A computation that is due completes. -/
theorem tickCrc_due {t : Target} {input : List Byte} (pending : t.crcPend = some input) (due : t.crcWait = some 0)
    (c : Config) : t.tickCrc c = t.completeCrc c input := by
  rw [Target.tickCrc, pending, due]

/-- Before a computation is due the CRC engine counts its delay down at most. -/
theorem tickCrc_notDue {t : Target} (wait : t.crcWait ≠ some 0) (c : Config) :
    ∃ w, t.tickCrc c = { t with crcWait := w } := by
  rw [Target.tickCrc]
  split
  · exact absurd ‹_› wait
  · exact ⟨_, rfl⟩
  · exact ⟨t.crcWait, rfl⟩

/-- With no answer pending the target's events are the CRC engine's. -/
theorem tick_of_rxPend_none {t : Target} (h : t.rxPend = none) (c : Config) : t.tick c = t.tickCrc c := by
  rw [Target.tick, tickRx_calm ((tickCrc_rxPend t c).trans h)]

/-- A mask's flags are raised, the others stay. -/
theorem raiseFlags_getLsbD (f : BitVec 7) (m : Byte) {i : Nat} (hi : i < 7) :
    (raiseFlags f m).getLsbD i = (f.getLsbD i || m.getLsbD i) := by
  simp [raiseFlags, hi]

/-- Settles O26: the storage read leaves what the events before it left, and these are the CRC engine's. -/
theorem crcCompletionEvent : Obligations.CrcCompletionEvent := by
  unfold Obligations.CrcCompletionEvent
  intro s a input hl pending calm hr
  obtain ⟨t, e, -, events, -⟩ := exec_busRead_view hl (targetRead_storage (s := s.ticked) hr)
  rw [tick_of_rxPend_none calm] at events
  refine ⟨fun due => ⟨t, e, ?due⟩, fun wait => ⟨t, e, ?wait⟩⟩
  case due =>
    rw [events, tickCrc_due pending due]
    exact ⟨rfl, rfl, rfl, rfl, rfl, fun i hi => raiseFlags_getLsbD _ _ hi⟩
  case wait =>
    obtain ⟨w, counted⟩ := tickCrc_notDue wait s.cfg
    rw [events, counted]
    exact ⟨pending, rfl, rfl⟩

/-! ## DIVIRQ (R165) -/

/-- A reception or a timeout raises no flag of DIVIRQ (R203, R204). -/
@[simp] theorem tickRx_divFlags (t : Target) (c : Config) : (t.tickRx c).divFlags = t.divFlags := by
  unfold Target.tickRx; split <;> rfl

/-- The target's events clear no flag of DIVIRQ. -/
theorem tick_divFlags_raised {t : Target} (c : Config) {i : Nat} (hi : i < 7) (h : t.divFlags.getLsbD i = true) :
    (t.tick c).divFlags.getLsbD i = true := by
  rw [Target.tick, tickRx_divFlags, Target.tickCrc]
  split
  · rw [Target.completeCrc, raiseFlags_getLsbD _ _ hi, h, Bool.true_or]
  all_goals exact h

/-- A flag register reads its flags in bits[6:0]. -/
theorem flagByte_getLsbD (f : BitVec 7) {i : Nat} (hi : i < 7) : (flagByte f).getLsbD i = f.getLsbD i := by
  simp [flagByte, Nat.lt_succ_of_lt hi]

/-- A flag register reads bit 0x80 as zero. -/
theorem flagByte_getLsbD_top (f : BitVec 7) : (flagByte f).getLsbD 7 = false := by
  simp [flagByte]

/-- Bit 0x80 of a byte written is its bit 7. -/
theorem hasAny_0x80 (v : Byte) : v.hasAny 0x80 = v.getLsbD 7 := by
  revert v; decide +kernel

/-- Bit 7 of the byte written chooses between setting and clearing the flags written as 1 (R165, R201). -/
theorem setClearFlags_getLsbD (f : BitVec 7) (v : Byte) {i : Nat} (hi : i < 7) :
    (setClearFlags f v).getLsbD i =
      if v.getLsbD 7 then f.getLsbD i || v.getLsbD i else f.getLsbD i && !v.getLsbD i := by
  rw [setClearFlags, hasAny_0x80]
  split <;> simp [hi]

/-- What a write of DIVIRQ leaves of a flag, by the write mode (R165). -/
theorem writeDivFlags_getLsbD (mode : DivirqMode) (f : BitVec 7) (v : Byte) {i : Nat} (hi : i < 7) :
    (writeDivFlags mode f v).getLsbD i = match mode with
      | .store => v.getLsbD i
      | .setClear => if v.getLsbD 7 then f.getLsbD i || v.getLsbD i else f.getLsbD i && !v.getLsbD i := by
  cases mode with
  | store => simp [writeDivFlags, hi]
  | setClear => exact setClearFlags_getLsbD f v hi

/-- `~m` has the bits that `m` has not (R10). -/
theorem compl_getLsbD (m : Byte) {i : Nat} (hi : i < 8) : m.compl.getLsbD i = !m.getLsbD i := by
  rw [Byte.compl, show (0xFF : Byte) = BitVec.allOnes 8 from rfl, BitVec.getLsbD_xor, BitVec.getLsbD_allOnes,
    decide_eq_true hi, Bool.true_xor]

/-- A bus address is the operand of a host operation (R72, R103). -/
theorem operand_of_regAddr (a : RegAddr) : (a.setWidth 8).setWidth 6 = a ∧ a.setWidth 8 ≤ (0x3F : Byte) := by
  revert a; decide +kernel

section
variable {s : State} (hl : s.env.level = .referenceTarget) (hd : s.cfg.regmap.distinct)
include hl hd

/-- A read of DIVIRQ shows its flags, the events due among them (R165). -/
theorem readAccess_divirq : readAccess s.cfg.regmap.divirq s = .ok (flagByte s.ticked.tgt.divFlags) s.ticked :=
  readAccess_target hl (targetRead_divirq (s := s.ticked) (RegMap.nameAt_addr hd .divirq))

/-- A write of DIVIRQ changes its flags as the write mode says, after the events due (R165). -/
theorem writeAccess_divirq (v : Byte) : writeAccess s.cfg.regmap.divirq v s = .ok () { s.ticked with
    tgt := { s.ticked.tgt with divFlags := writeDivFlags s.cfg.divirqMode s.ticked.tgt.divFlags v } } :=
  writeAccess_target hl (targetWrite_divirq (s := s.ticked) (RegMap.nameAt_addr hd .divirq) v)

/-- CLEAR_BITS of DIVIRQ reads the flags and writes them back without the mask; an event may come between the two
(R143, R164). -/
theorem exec_clearBits_divirq (m : Byte) : ∃ t, exec (.clearBits (s.cfg.regmap.divirq.setWidth 8) m) s = .next t ∧
    t.tgt.divFlags = writeDivFlags s.cfg.divirqMode s.ticked.ticked.tgt.divFlags
      (flagByte s.ticked.tgt.divFlags &&& m.compl) := by
  obtain ⟨addr, le⟩ := operand_of_regAddr s.cfg.regmap.divirq
  have read := readAccess_divirq hl hd
  have write := writeAccess_divirq (s := s.ticked) hl hd (flagByte s.ticked.tgt.divFlags &&& m.compl)
  exact ⟨_, exec_clearBits le (addr.symm ▸ read) (addr.symm ▸ write), rfl⟩

end

/-- Settles O24: a flag in the mask is written as 0, which stores 0 under `store` and clears nothing under
`set_clear`. -/
theorem divirqAccess : Obligations.DivirqAccess := by
  unfold Obligations.DivirqAccess
  intro s v hl hc
  have hd : s.cfg.regmap.distinct := hc.1
  refine ⟨⟨_, _, exec_busRead (readAccess_divirq hl hd), rfl, flagByte_getLsbD_top _, fun i hi => flagByte_getLsbD _ hi,
    rfl⟩, ⟨_, exec_busWrite (writeAccess_divirq hl hd v), fun i hi => writeDivFlags_getLsbD _ _ v hi, rfl, rfl⟩, ?clear⟩
  case clear =>
    obtain ⟨t, e, flags⟩ := exec_clearBits_divirq hl hd s.cfg.masks.crcIrq
    refine ⟨t, e, fun i hi masked => ?_⟩
    have cleared : (flagByte s.ticked.tgt.divFlags &&& s.cfg.masks.crcIrq.compl).getLsbD i = false := by
      rw [BitVec.getLsbD_and, compl_getLsbD _ (by omega), masked, Bool.not_true, Bool.and_false]
    have top : (flagByte s.ticked.tgt.divFlags &&& s.cfg.masks.crcIrq.compl).getLsbD 7 = false := by
      rw [BitVec.getLsbD_and, flagByte_getLsbD_top, Bool.false_and]
    refine ⟨fun mode => ?store, fun mode set => ?setClear⟩
    case store => rw [flags, writeDivFlags_getLsbD _ _ _ hi, mode]; exact cleared
    case setClear =>
      have still : s.ticked.ticked.tgt.divFlags.getLsbD i = true :=
        tick_divFlags_raised _ hi (tick_divFlags_raised _ hi set)
      rw [flags, writeDivFlags_getLsbD _ _ _ hi, mode]
      simp only [top, cleared, still]
      decide

end Sys2Proof.Machine
end

section
/-! SUPPORT. CRC_CALC (41_crc_engine.md R160 to R166): it always returns the two bytes it read last, and over a prompt
reference target these are CRC_FN of its operand. -/

namespace Sys2Proof.Machine

/-- CRC_CALC returns the bytes its body ends with, low byte first (R160). -/
theorem exec_crcCalc {data : List Byte} {s t : State} {lo hi : Byte}
    (e : crcCalc data (s.start .crcCalc) = .ok (lo, hi) t) :
    exec (.crcCalc data) s = .next (t.finish (.bytes [lo, hi])) :=
  hostOp_ok (Op.bind_ok e)

/-- Settles O28: the body ends with a value in every case, and keeps the two bytes it returns. -/
theorem crcCalcAlwaysOk : Obligations.CrcCalcAlwaysOk := by
  unfold Obligations.CrcCalcAlwaysOk
  intro s data hc
  obtain ⟨⟨lo, hi⟩, t, e, -, rfl, rfl, before, shown⟩ := crcCalc_ends hc data (s.start .crcCalc) rfl
  exact ⟨_, before, exec_crcCalc e, rfl, rfl, shown⟩

/-- Settles O29: under `store` step 1 clears the flag, so the poll ends on the completion event and not before. -/
theorem crcCalcValue : Obligations.CrcCalcValue := by
  unfold Obligations.CrcCalcValue
  rintro s data cd rd ⟨⟨⟨hc, -⟩, ⟨level, source, script, budget, -⟩, calm⟩, store⟩ fits
  have prompt : Prompt cd rd s.env := ⟨level, source, script⟩
  have clear : (flagByte (clearedDiv s.cfg s.tgt.divFlags)).hasAny s.cfg.masks.crcIrq = false := by
    rw [clearedDiv, store]; exact clearCrc_store _
  have any : Stable fun _ => True := ⟨fun _ _ h => h, fun _ _ _ h => h⟩
  obtain ⟨r, t, e, value, -, target, -⟩ := crcCalc_run hc calm level any fits clear prompt.crc budget (s.start .crcCalc)
    ⟨rfl, rfl, rfl, trivial⟩
  obtain ⟨r', t', e', -, low, high, -⟩ := crcCalc_ends hc data (s.start .crcCalc) rfl
  obtain ⟨rfl, rfl⟩ : r = r' ∧ t = t' := by simpa using e.symm.trans e'
  subst value
  refine ⟨_, exec_crcCalc e, rfl, rfl, low, high, ?_⟩
  simp only [finish_tgt, State.quiescent, target]
  exact ⟨rfl, rfl, rfl, rfl⟩

end Sys2Proof.Machine
end

section
/-! SUPPORT. The registers the operations above the transport write (41_crc_engine.md R160, 42_command_fifo_framing.md
R180): COMMAND for a CRC computation; COMIEN, COMMAND and BITFRAMING for an exchange. -/

namespace Sys2Proof.Machine

variable {c : Config} {A : RegAddr → Prop}

/-- A register that is no storage, COMMAND and BITFRAMING apart, stores nothing when it is written (R146). -/
theorem regsKept_write_unstored (hc : c.wf) {n : RegName} (h : RegName.storesWrite (some n) = false)
    (h1 : n ≠ .command) (h2 : n ≠ .bitframing) : Writable c (RegsKept A) n :=
  regsKept_write hc.1 h1 fun e => e.elim (fun e => absurd (h.symm.trans e) nofun) fun e => absurd e h2

/-- A CRC computation stores in COMMAND alone (R160). -/
theorem crcCalc_regsKept (hc : c.wf) (command : A c.regmap.command) (data : List Byte) :
    Op.Keeps c (RegsKept A) (crcCalc data) :=
  have unstored {n : RegName} := regsKept_write_unstored (A := A) (n := n) hc
  crcCalc_keeps (regsKept_read A) (unstored rfl nofun nofun) (unstored rfl nofun nofun) (unstored rfl nofun nofun)
    (regsKept_command hc command nofun) data

/-- A CRC computation does not reach the card (R160). -/
theorem crcCalc_cardKept (hc : c.wf) (data : List Byte) : Op.Keeps c CardKept (crcCalc data) :=
  crcCalc_keeps cardKept_read (cardKept_write hc.1 nofun) (cardKept_write hc.1 nofun) (cardKept_write hc.1 nofun)
    (cardKept_write (n := .command) hc.1 nofun _) data

/-- The registers an exchange stores in (R180). -/
def ExchangeReg (c : Config) (a : RegAddr) : Prop :=
  a = c.regmap.comien ∨ a = c.regmap.command ∨ a = c.regmap.bitframing

/-- An exchange stores in its three registers alone (R180), unless it resets the target (R198). -/
theorem toCard_regsKept (hc : c.wf) {cmd : Command} (hn : cmd ≠ .resetphase) (tx : List Byte) :
    Op.Keeps c (RegsKept (ExchangeReg c)) (toCard cmd tx) :=
  have own {n : RegName} (h : ExchangeReg c (c.regmap.addr n)) (h1 : n ≠ .command) :
      Writable c (RegsKept (ExchangeReg c)) n := regsKept_write hc.1 h1 fun _ => h
  have unstored {n : RegName} := regsKept_write_unstored (A := ExchangeReg c) (n := n) hc
  have issue {k : Command} (hk : k ≠ .resetphase) : Issuable c (RegsKept (ExchangeReg c)) k :=
    regsKept_command hc (.inr (.inl rfl)) hk
  toCard_keeps (regsKept_read _) (own (.inl rfl) nofun) (unstored rfl nofun nofun) (unstored rfl nofun nofun)
    (issue nofun) (unstored rfl nofun nofun) (own (.inr (.inr rfl)) nofun) (issue hn) tx

/-- The units above store in the registers of their exchanges alone. -/
theorem units_regsKept (hc : c.wf) : UnitKept c (RegsKept (ExchangeReg c)) where
  chains := regsKept_chains _
  seq := (regsKept_read _).seq
  framing := regsKept_write hc.1 nofun fun _ => .inr (.inr rfl)
  crc := crcCalc_regsKept hc (.inr (.inl rfl))
  card := toCard_regsKept hc nofun

/-- A host operation keeps the registers its body keeps. -/
theorem hostOp_regsKept {n : OpName} {body : Op Result} {s t : State} (h : Op.Keeps s.cfg (RegsKept A) body)
    (e : hostOp n body s = .next t) : RegsKept A s t :=
  h.hostOp rfl (fun u v kept x y hx _ _ hy _ a ha => by rw [hx, hy]; exact kept a ha) e

/-- A host operation that does not reach the card in its body does not reach it. -/
theorem hostOp_cardKept {n : OpName} {body : Op Result} {s t : State} (h : Op.Keeps s.cfg CardKept body)
    (e : hostOp n body s = .next t) : CardKept s t :=
  h.hostOp rfl (fun u v kept x y _ hx _ _ hy => by rw [CardKept, hx, hy]; exact kept) e

/-- A body that ends by returning keeps what its run keeps. -/
theorem Op.Keeps.returning {R : State → State → Prop} (C : Chains R) {α : Type} {x : Op α} {f : α → Result}
    (h : Op.Keeps c R x) : Op.Keeps c R (x >>= fun a => pure (f a)) :=
  .bind C h fun _ => .ofPure C _

/-- An exchange, and each operation built on exchanges, stores in the three registers of an exchange alone. -/
theorem exchange_regsKept {i : Instr} {s t : State} (hc : s.cfg.wf)
    (hi : i ∈ [.requestTag, .selectTag, .readImage, .readTag] ∨ (∃ p, i = .readBlock p) ∨ (∃ p d, i = .writeBlock p d) ∨
      ∃ cmd tx, i = .toCard cmd tx ∧ cmd ≠ .resetphase) (e : exec i s = .next t) :
    RegsKept (ExchangeReg s.cfg) s t := by
  have K := units_regsKept hc
  have C := K.chains
  simp only [List.mem_cons, List.not_mem_nil, or_false] at hi
  rcases hi with (rfl | rfl | rfl | rfl) | ⟨p, rfl⟩ | ⟨p, d, rfl⟩ | ⟨cmd, tx, rfl, hn⟩
  · exact hostOp_regsKept (.returning C K.requestTag) e
  · exact hostOp_regsKept (.returning C K.selectTag) e
  · exact hostOp_regsKept (.returning C K.readImage) e
  · exact hostOp_regsKept (.bind C K.requestTag fun _ => .bind C K.selectTag fun _ => .returning C K.readImage) e
  · exact hostOp_regsKept (.returning C (K.readBlock p)) e
  · exact hostOp_regsKept (.returning C (K.writeBlock p d)) e
  · exact hostOp_regsKept (.returning C (toCard_regsKept hc hn tx)) e

/-- Settles O58: of the registers CRC_CALC and an exchange write, only COMMAND, COMIEN and BITFRAMING store anything, and
only BITFRAMING reaches the card, which CRC_CALC does not write. -/
theorem targetFootprint : Obligations.TargetFootprint := by
  unfold Obligations.TargetFootprint
  intro i s t a hc e command
  refine ⟨?crc, fun comien bitframing hi => ?exchange⟩
  case crc =>
    rintro ⟨data, rfl⟩
    have regs : RegsKept (· = s.cfg.regmap.command) s t :=
      hostOp_regsKept (.returning (regsKept_chains _) (crcCalc_regsKept (A := (· = s.cfg.regmap.command)) hc rfl data)) e
    have card : CardKept s t := hostOp_cardKept (.returning cardKept_chains (crcCalc_cardKept hc data)) e
    exact ⟨regs a command, card⟩
  case exchange =>
    refine exchange_regsKept hc hi e a ?_
    rintro (h | h | h)
    · exact comien h
    · exact command h
    · exact bitframing h

end Sys2Proof.Machine
end

section
/-! SUPPORT. The FIFO of the reference target (42_command_fifo_framing.md R191 to R193, R203): a queue, its limits, its
flush; and the mask helpers at the address of a bus register. -/

namespace Sys2Proof.Machine

/-! ## The mask helpers at a bus address (R142, R143) -/

section
variable {a : RegAddr} {m v : Byte} {s t u : State} {x : Unit} (er : readAccess a s = .ok v t)
include er

/-- SET_BITS at a bus address is the read and the write of that address (R142). -/
theorem exec_setBits_at (ew : writeAccess a (v ||| m) t = .ok x u) : exec (.setBits (a.setWidth 8) m) s =
    .next (u.outer (s.seq.done .ok) .none [writeFrame a (v ||| m), readFrame a v]) := by
  obtain ⟨addr, le⟩ := operand_of_regAddr a
  simpa only [addr] using exec_setBits le (addr.symm ▸ er) (addr.symm ▸ ew)

/-- CLEAR_BITS at a bus address is the read and the write of that address (R143). -/
theorem exec_clearBits_at (ew : writeAccess a (v &&& m.compl) t = .ok x u) : exec (.clearBits (a.setWidth 8) m) s =
    .next (u.outer (s.seq.done .ok) .none [writeFrame a (v &&& m.compl), readFrame a v]) := by
  obtain ⟨addr, le⟩ := operand_of_regAddr a
  simpa only [addr] using exec_clearBits le (addr.symm ▸ er) (addr.symm ▸ ew)

end

/-! ## The queue and its limits (R191, R192) -/

theorem push_of_room {t : Target} {depth : Nat} (h : t.fifo.length < depth) (v : Byte) :
    t.push depth v = { t with fifo := t.fifo ++ [v] } := if_pos h

theorem push_of_full {t : Target} {depth : Nat} (h : t.fifo.length = depth) (v : Byte) :
    t.push depth v = { t with err := t.err ||| errOverflow } := if_neg (by omega)

section
variable {s : State} (hl : s.env.level = .referenceTarget) (hd : s.cfg.regmap.distinct)
include hl hd

/-- A byte written to FIFODATA is pushed, after the events due, where the target takes it (R191, R163). -/
theorem writeAccess_fifodata (takes : s.tgt.cmd = s.cfg.codes.calccrc → s.tgt.loadOpen = true) (v : Byte) :
    writeAccess s.cfg.regmap.fifodata v s = .ok () { s.ticked with tgt := s.ticked.tgt.push s.cfg.fifoDepth v } :=
  writeAccess_target hl (targetWrite_fifodata (s := s.ticked) (RegMap.nameAt_addr hd .fifodata)
    (by simpa using takes) v)

/-- FIFOLEVEL reads the number of bytes, after the events due (R191). -/
theorem readAccess_fifolevel : readAccess s.cfg.regmap.fifolevel s = .ok s.ticked.tgt.level s.ticked :=
  readAccess_target hl (targetRead_fifolevel (s := s.ticked) (RegMap.nameAt_addr hd .fifolevel))

/-- A write of FIFOLEVEL with a FLUSH bit flushes, after the events due, and stores nothing (R193). -/
theorem writeAccess_flush {v : Byte} (h : v.hasAny s.cfg.masks.flush = true) :
    writeAccess s.cfg.regmap.fifolevel v s = .ok () { s.ticked with tgt := s.ticked.tgt.flush } := by
  have write := targetWrite_fifolevel (s := s.ticked) (RegMap.nameAt_addr hd .fifolevel) v
  rw [if_pos (c := v.hasAny s.ticked.cfg.masks.flush = true) h] at write
  exact writeAccess_target hl write

/-- A write of FIFOLEVEL without a FLUSH bit does nothing (R193). -/
theorem writeAccess_noFlush {v : Byte} (h : v.hasAny s.cfg.masks.flush = false) :
    writeAccess s.cfg.regmap.fifolevel v s = .ok () s.ticked := by
  have write := targetWrite_fifolevel (s := s.ticked) (RegMap.nameAt_addr hd .fifolevel) v
  rw [if_neg (c := v.hasAny s.ticked.cfg.masks.flush = true) (Bool.not_eq_true _ ▸ h)] at write
  exact writeAccess_target hl write

end

/-- Settles O16: each access is the target's events, then the push, the pop or the count. -/
theorem fifoQueue : Obligations.FifoQueue := by
  unfold Obligations.FifoQueue
  intro s v hl hd
  refine ⟨fun room takes => ?push, fun h rest hf => ?pop, ?level⟩
  case push =>
    have write := writeAccess_fifodata hl hd takes v
    rw [push_of_room (t := s.ticked.tgt) room] at write
    exact exec_busWrite write
  case pop =>
    exact exec_busRead (readAccess_target hl
      (targetRead_fifodata (s := s.ticked) (RegMap.nameAt_addr hd .fifodata) hf))
  case level =>
    refine ⟨_, _, exec_busRead (readAccess_fifolevel hl hd), rfl, fun fits => ?_, rfl, rfl⟩
    rw [Target.level, BitVec.toNat_ofNat]
    exact Nat.mod_eq_of_lt (by simpa using Nat.lt_succ_of_le fits)

/-! ## The answer's events (R203 to R205) -/

/-- A completion event does not move the answer's (R164). -/
@[simp] theorem tickCrc_rxWait (t : Target) (c : Config) : (t.tickCrc c).rxWait = t.rxWait := by
  unfold Target.tickCrc; split <;> rfl

/-- An answer that is due is delivered, or expires (R203, R204). -/
theorem tickRx_due {t : Target} {o : CardOutcome} (pending : t.rxPend = some o) (due : t.rxWait = some 0)
    (c : Config) : t.tickRx c = t.answered c o := by
  rw [Target.tickRx, pending, due]
  cases o <;> rfl

/-- Silence never ends (R205). -/
theorem tickRx_silent {t : Target} (pending : t.rxPend = some .silent) (c : Config) : t.tickRx c = t := by
  rw [Target.tickRx, pending]

/-- An answer that is due is delivered after the CRC engine's own event. -/
theorem tick_answer_due {t : Target} {o : CardOutcome} (pending : t.rxPend = some o) (due : t.rxWait = some 0)
    (c : Config) : t.tick c = (t.tickCrc c).answered c o :=
  tickRx_due ((tickCrc_rxPend t c).trans pending) ((tickCrc_rxWait t c).trans due) c

/-- A response longer than the FIFO sets the overflow bit (R203). -/
theorem errAfterReception_overflow (err e : Byte) : (errAfterReception err e true).getLsbD 4 = true := by
  simp [errAfterReception, errOverflow]

/-- Settles O17: the push and the read at the FIFO's two ends; a response that is due is cut as it is delivered. -/
theorem fifoLimits : Obligations.FifoLimits := by
  unfold Obligations.FifoLimits
  intro s v hl hd
  have name : ∀ n, s.ticked.cfg.regmap.nameAt (s.cfg.regmap.addr n) = some n := RegMap.nameAt_addr hd
  refine ⟨fun full takes => ?overflow, fun empty => ?underflow, fun r lb e pending due long => ?cut⟩
  case overflow =>
    have write := writeAccess_fifodata hl hd takes v
    rw [push_of_full (t := s.ticked.tgt) full] at write
    exact exec_busWrite write
  case underflow => exact exec_busRead_draw hl (targetRead_fifodata_empty (name .fifodata) empty)
  case cut =>
    obtain ⟨t, run, result, events, -⟩ := exec_busRead_view hl (targetRead_error (name .error))
    refine ⟨t, run, ?_, ?_, events ▸ result⟩ <;> rw [events, tick_answer_due pending due]
    · rfl
    · rw [Target.answered, Target.receive, decide_eq_true long]
      exact errAfterReception_overflow _ _

/-! ## Flush (R193) -/

/-- Some bit of the mask is set in the value (R148). -/
theorem hasAny_iff {v m : Byte} : v.hasAny m = true ↔ v &&& m ≠ 0 := by simp [Byte.hasAny]

/-- No bit of the mask is set in the value (R148). -/
theorem hasAny_eq_false_iff {v m : Byte} : v.hasAny m = false ↔ v &&& m = 0 := by simp [Byte.hasAny]

/-- A flush clears the overflow bit (R193). -/
theorem flush_err_overflow (t : Target) : t.flush.err.getLsbD 4 = false := by
  simp [Target.flush, errAfterFlush, Byte.compl, errOverflow]

/-- SET_BITS of FLUSH reads the level, writes it with FLUSH set, and so flushes (R121, R193). -/
theorem exec_setBits_flush {s : State} (hl : s.env.level = .referenceTarget) (hc : s.cfg.wf) :
    exec (.setBits (s.cfg.regmap.fifolevel.setWidth 8) s.cfg.masks.flush) s = .next
      ({ s.ticked.ticked with tgt := s.ticked.ticked.tgt.flush }.outer (s.seq.done .ok) .none
        [writeFrame s.cfg.regmap.fifolevel (s.ticked.tgt.level ||| s.cfg.masks.flush),
          readFrame s.cfg.regmap.fifolevel s.ticked.tgt.level]) := by
  obtain ⟨hd, -, -, ⟨flush, -⟩, -⟩ := hc
  exact exec_setBits_at (readAccess_fifolevel hl hd) (writeAccess_flush (s := s.ticked) hl hd (hasAny_or flush))

/-- Settles O18: the write of FIFOLEVEL in both cases, and the helper's two transactions. -/
theorem fifoFlush : Obligations.FifoFlush := by
  unfold Obligations.FifoFlush
  intro s v hl hc
  refine ⟨fun flushes => ?flush, fun unset => ?noFlush,
    ⟨_, _, exec_setBits_flush hl hc, rfl, rfl, rfl, flush_err_overflow _, ?regs, rfl⟩⟩
  case flush => exact ⟨_, exec_busWrite (writeAccess_flush hl hc.1 (hasAny_iff.2 flushes)), rfl, rfl⟩
  case noFlush => exact ⟨_, exec_busWrite (writeAccess_noFlush hl hc.1 (hasAny_eq_false_iff.2 unset)), rfl, rfl⟩
  case regs => exact (tick_regs _ _).trans (tick_regs _ _)

end Sys2Proof.Machine
end

section
/-! SUPPORT. COMMAND, COMIRQ, BITFRAMING and the answer's events at the reference target (42_command_fifo_framing.md
R194 to R205). -/

namespace Sys2Proof.Machine

/-! ## Commands (R194 to R198) -/

/-- Settles O19: the command is accepted, and IDLE and TRANSCEIVE do nothing further. -/
theorem commandsAccepted : Obligations.CommandsAccepted := by
  unfold Obligations.CommandsAccepted
  intro s hl hc
  have row : ∀ k : Command, k ≠ .authent → exec k.instr s = .next (State.outer
      ({ s.ticked with tgt := s.ticked.tgt.accept s.cfg k }.commanded k) { s.seq with phase := 0 } .none
      [writeFrame s.cfg.regmap.command (s.cfg.codes.byte k)]) := fun k hk =>
    (exec_command k s).trans (exec_busWrite (writeAccess_command hl hc hk))
  exact ⟨row .idle nofun, row .transceive nofun⟩

/-- A scripted byte of a block draw is the script's byte at its place (log entry 5). -/
theorem blockByte_scripted {e : Environment} {i : Nat} {b : Byte} (h : e.byteFeed[i]? = some b) :
    e.blockByte i = b := by
  obtain ⟨hi, rfl⟩ := List.getElem?_eq_some_iff.1 h
  exact byteValue_scripted (rest := e.byteFeed.drop (i + 1)) (List.drop_eq_getElem_cons hi) 0x00

/-- After RESETPHASE a register holds its own draw (R198). -/
theorem freshTarget_reg (e : Environment) (c : Config) (a : RegAddr) :
    (e.freshTarget c).reg a = e.blockByte a.toNat := by
  simp [Target.reg, Environment.freshTarget]

/-- Settles O21: the target is the fresh one, whatever it held, and the sequencer is not the target's. -/
theorem resetphaseResetsTarget : Obligations.ResetphaseResetsTarget := by
  unfold Obligations.ResetphaseResetsTarget
  intro s hl hc
  refine ⟨_, (exec_command .resetphase s).trans (exec_busWrite (writeAccess_command hl hc nofun)),
    rfl, rfl, rfl, rfl, rfl, rfl, fun a b script => ?drawn, rfl, rfl⟩
  case drawn => exact (freshTarget_reg _ _ a).trans (blockByte_scripted script)

/-! ## COMIRQ (R201) -/

section
variable {s : State} (hl : s.env.level = .referenceTarget) (hd : s.cfg.regmap.distinct)
include hl hd

/-- A read of COMIRQ shows its flags, the events due among them (R201). -/
theorem readAccess_comirq : readAccess s.cfg.regmap.comirq s = .ok (flagByte s.ticked.tgt.comFlags) s.ticked :=
  readAccess_target hl (targetRead_comirq (s := s.ticked) (RegMap.nameAt_addr hd .comirq))

/-- A write of COMIRQ sets or clears the flags written as 1, after the events due (R201). -/
theorem writeAccess_comirq (v : Byte) : writeAccess s.cfg.regmap.comirq v s = .ok () { s.ticked with
    tgt := { s.ticked.tgt with comFlags := setClearFlags s.ticked.tgt.comFlags v } } :=
  writeAccess_target hl (targetWrite_comirq (s := s.ticked) (RegMap.nameAt_addr hd .comirq) v)

end

/-- Writing back the flags read, bit 0x80 clear, clears exactly them (R201). -/
theorem setClearFlags_writeBack (f read : BitVec 7) {i : Nat} (hi : i < 7) :
    (setClearFlags f (flagByte read &&& Byte.compl 0x80)).getLsbD i = (f.getLsbD i && !read.getLsbD i) := by
  have top : (flagByte read &&& Byte.compl 0x80).getLsbD 7 = false := by
    rw [BitVec.getLsbD_and, flagByte_getLsbD_top, Bool.false_and]
  have low : ∀ j < 7, (0x80 : Byte).getLsbD j = false := by decide
  rw [setClearFlags_getLsbD _ _ hi, top, if_neg Bool.false_ne_true, BitVec.getLsbD_and, flagByte_getLsbD _ hi,
    compl_getLsbD _ (by omega), low i hi, Bool.not_false, Bool.and_true]

/-- Settles O23: CLEAR_BITS writes back the flags it read; one that has risen since is written as 0 and stays. -/
theorem comirqAccess : Obligations.ComirqAccess := by
  unfold Obligations.ComirqAccess
  intro s v hl hd
  have read := readAccess_comirq hl hd
  refine ⟨⟨_, _, exec_busRead read, rfl, flagByte_getLsbD_top _, fun i hi => flagByte_getLsbD _ hi, rfl⟩,
    ⟨_, exec_busWrite (writeAccess_comirq hl hd v), fun i hi => setClearFlags_getLsbD _ v hi, rfl, rfl⟩,
    ⟨_, exec_clearBits_at read (writeAccess_comirq (s := s.ticked) hl hd _), fun i hi => ?clear, rfl, rfl⟩⟩
  case clear => exact setClearFlags_writeBack _ _ hi

/-! ## Transmission (R202) -/

/-- A transmission raises flag 0x40 of COMIRQ alone (R202). -/
theorem transmitted_comFlags (s : State) (n : BitVec 3) {i : Nat} (hi : i < 7) :
    (s.transmitted n).tgt.comFlags.getLsbD i = (s.tgt.comFlags.getLsbD i || decide (i = 6)) := by
  have bit : ∀ j < 7, comTransmitted.getLsbD j = decide (j = 6) := by decide
  rw [State.transmitted, raiseFlags_getLsbD _ _ hi, bit i hi]

section
variable {s : State} {v : Byte} (hl : s.env.level = .referenceTarget) (hd : s.cfg.regmap.distinct)
include hl hd

/-- START_SEND in a transceive that has not sent: the value is stored and the frame sent, after the events due
(R202). -/
theorem writeAccess_bitframing_send (send : v &&& s.cfg.masks.startSend ≠ 0)
    (active : s.tgt.cmd = s.cfg.codes.transceive) (unsent : s.tgt.sent = false) :
    writeAccess s.cfg.regmap.bitframing v s = .ok () (State.transmitted
      { s.ticked with tgt := s.ticked.tgt.setReg s.cfg.regmap.bitframing v } (v.extractLsb' 0 3)) :=
  writeAccess_target hl (targetWrite_bitframing_send (s := s.ticked) (RegMap.nameAt_addr hd .bitframing)
    ⟨hasAny_iff.2 send, (tick_cmd _ _).trans active, (tick_sent _ _).trans unsent⟩)

/-- In every other case the value is stored (R202). -/
theorem writeAccess_bitframing_idle
    (idle : v &&& s.cfg.masks.startSend = 0 ∨ s.tgt.cmd ≠ s.cfg.codes.transceive ∨ s.tgt.sent = true) :
    writeAccess s.cfg.regmap.bitframing v s =
      .ok () { s.ticked with tgt := s.ticked.tgt.setReg s.cfg.regmap.bitframing v } := by
  refine writeAccess_target hl (targetWrite_bitframing_idle (s := s.ticked) (RegMap.nameAt_addr hd .bitframing) ?_)
  rintro ⟨send, active, unsent⟩
  rcases idle with h | h | h
  · exact hasAny_iff.1 send h
  · exact h ((tick_cmd _ _).symm.trans active)
  · exact absurd (h.symm.trans ((tick_sent _ _).symm.trans unsent)) nofun

end

/-- Settles O25: the frame sent is the FIFO's once the events due have happened. -/
theorem transmission : Obligations.Transmission := by
  unfold Obligations.Transmission
  intro s v hl hd
  refine ⟨fun send active unsent => ?sends, fun idle => ?stores⟩
  case sends =>
    refine ⟨_, exec_busWrite (writeAccess_bitframing_send hl hd send active unsent), fun a => ?reg, rfl, rfl,
      tick_cmd _ _, rfl, rfl, fun i hi => transmitted_comFlags _ _ hi⟩
    calc ((s.tgt.tick s.cfg).setReg s.cfg.regmap.bitframing v).reg a
      _ = if s.cfg.regmap.bitframing = a then v else s.tgt.reg a := by rw [reg_setReg, tick_reg]
      _ = if a = s.cfg.regmap.bitframing then v else s.tgt.reg a := by simp only [eq_comm]
  case stores => exact ⟨_, exec_busWrite (writeAccess_bitframing_idle hl hd idle), rfl, rfl⟩

/-! ## Reception, timeout, silence (R203 to R205) -/

/-- With no CRC computation in flight the target's events are the receiver's. -/
theorem tick_of_crcPend_none {t : Target} (h : t.crcPend = none) (c : Config) : t.tick c = t.tickRx c := by
  rw [Target.tick, tickCrc_calm h]

/-- A reception raises flag 0x20 of COMIRQ, and 0x02 with an error byte (R203). -/
theorem receive_comFlags (t : Target) (c : Config) (r : List Byte) (lb : BitVec 3) (e : Byte) {i : Nat} (hi : i < 7) :
    (t.receive c r lb e).comFlags.getLsbD i =
      (t.comFlags.getLsbD i || decide (i = 5) || (decide (i = 1) && decide (e ≠ 0))) := by
  have received : ∀ j < 7, comReceived.getLsbD j = decide (j = 5) := by decide
  have comErrorBit : ∀ j < 7, comError.getLsbD j = decide (j = 1) := by decide
  have error : (if e ≠ 0 then comError else (0 : Byte)).getLsbD i = (decide (i = 1) && decide (e ≠ 0)) := by
    by_cases he : e ≠ 0
    · rw [if_pos he, decide_eq_true he, Bool.and_true, comErrorBit i hi]
    · rw [if_neg he, decide_eq_false he, Bool.and_false]; exact BitVec.getLsbD_zero
  rw [Target.receive, raiseFlags_getLsbD _ _ hi, BitVec.getLsbD_or, received i hi, error, Bool.or_assoc]

/-- Settles O27: the storage read leaves what the events before it left, and these are the receiver's. -/
theorem answerEvents : Obligations.AnswerEvents := by
  unfold Obligations.AnswerEvents
  intro s a hl calm hr
  obtain ⟨t, run, -, events, -⟩ := exec_busRead_view hl (targetRead_storage (s := s.ticked) hr)
  rw [tick_of_crcPend_none calm] at events
  refine ⟨fun r lb e pending due => ⟨t, run, ?response⟩, fun pending due => ⟨t, run, ?timeout⟩,
    fun pending => ⟨t, run, ?silent⟩⟩
  case response =>
    rw [events, tickRx_due pending due]
    refine ⟨rfl, rfl, ?_, rfl, fun i hi => receive_comFlags _ _ _ _ _ hi⟩
    simp [Target.answered, Target.receive, errAfterReception, errOverflow]
  case timeout =>
    rw [events, tickRx_due pending due]
    exact ⟨rfl, rfl, rfl, fun i hi => raiseFlags_getLsbD _ _ hi⟩
  case silent => rw [events, tickRx_silent pending]

end Sys2Proof.Machine
end

section
/-! SUPPORT. TO_CARD as a host operation (42_command_fifo_framing.md R180 to R190): it always returns, and over an
unconstrained transport the script fixes its frames and its triple. -/

namespace Sys2Proof.Machine

/-- TO_CARD returns the triple its body ends with (R180). -/
theorem exec_toCard {cmd : Command} {tx rx : List Byte} {st : Status} {bits : Int} {s t : State}
    (e : toCard cmd tx (s.start .toCard) = .ok (st, rx, bits) t) :
    exec (.toCard cmd tx) s = .next (t.finish (.exchange st rx bits)) :=
  hostOp_ok (Op.bind_ok e)

/-! ## What holds beside a run -/

/-- A body that ends with a value keeps what its relation carries. -/
theorem Op.Ensures.keeping {α : Type} {P K : State → Prop} {Q : α → State → Prop} {R : State → State → Prop}
    {m : Op α} (h : Op.Ensures P m Q) (w : Op.Within R m) (carries : ∀ {s t}, R s t → K s → K t) :
    Op.Ensures (fun s => P s ∧ K s) m fun a t => Q a t ∧ K t := by
  rintro s ⟨hp, hk⟩
  obtain ⟨a, t, e, q⟩ := h s hp
  exact ⟨a, t, e, q, carries (w.ok e) hk⟩

/-- A body of transactions alone keeps what is known of the sequencer but for its position. -/
theorem Op.Ensures.atPlace {α : Type} {P : State → Prop} {Q : α → State → Prop} {K : Sequencer → Prop} {m : Op α}
    (h : Op.Ensures P m Q) (w : Op.Within PhaseOnly m) (hK : Placeless K) :
    Op.Ensures (fun s => P s ∧ K s.seq) m fun a t => Q a t ∧ K t.seq :=
  h.keeping w fun {s t} r k => by
    obtain ⟨-, n, place⟩ := r
    exact place ▸ hK s.seq n k

/-- A body keeps what is known of the modelling level. -/
theorem Op.Ensures.atLevel {α : Type} {P : State → Prop} {Q : α → State → Prop} {m : Op α} (h : Op.Ensures P m Q)
    (w : Op.Within Outside m) (K : Level → Prop) :
    Op.Ensures (fun s => P s ∧ K s.env.level) m fun a t => Q a t ∧ K t.env.level :=
  h.keeping w fun {s t} r k => by
    obtain ⟨-, -, -, level, -⟩ := r
    exact level ▸ k

/-! ## TO_CARD always returns (R180, R190) -/

/-- The level lets the command be issued: AUTHENT has no meaning at the reference target (R199). -/
abbrev Issues (cmd : Command) (l : Level) : Prop := cmd ≠ .authent ∨ l = .busOracle

section
variable {c : Config} (hc : c.wf) (cmd : Command) (tx : List Byte)
include hc

/-- Steps 1 to 5 go on, and what is left of step 6 is the write of the command: after IDLE no byte is refused (R163,
R182). -/
theorem loadExchange_reaches {s : State} (hs : s.cfg = c) : ∃ t, t.cfg = c ∧ t.env.level = s.env.level ∧
    loadExchange cmd tx s = busWrite c.regmap.command (c.codes.byte cmd) t := by
  subst hs
  have level {P : State → Prop} {Q : Unit → State → Prop} {m : Op Unit} (h : Op.Ensures P m Q)
      (w : Op.Within Outside m) := h.atLevel w (· = s.env.level)
  have load := (loadFifo_loading hc.1 tx).pre fun u (h : u.cfg = s.cfg ∧ (Command.idle ≠ .calccrc → u.Pushable)) =>
    ⟨h.1, h.2 nofun⟩
  obtain ⟨⟨⟩, s1, e1, h1⟩ := level (busWrite_cfg hc.1 .comien nofun nofun _) (outside_bus.write _ _) s ⟨rfl, rfl⟩
  obtain ⟨⟨⟩, s2, e2, h2⟩ := level (.bind (busRead_cfg s.cfg _) fun v => busWrite_cfg hc.1 .comirq nofun nofun _)
    (clearBits_within outside_bus _ _) s1 h1
  obtain ⟨⟨⟩, s3, e3, h3⟩ := level (.bind (busRead_cfg s.cfg _) fun v => busWrite_cfg hc.1 .fifolevel nofun nofun _)
    (setBits_within outside_bus _ _) s2 h2
  obtain ⟨⟨⟩, s4, e4, h4⟩ := level (command_taken hc.1 hc.2.1 .idle nofun) (outside_bus.write _ _) s3 h3
  obtain ⟨⟨⟩, s5, e5, ⟨h5, -⟩, l5⟩ := level load (loadFifo_within outside_chains outside_bus.write _ _) s4 h4
  exact ⟨s5, h5, l5, (Op.bind_ok e1).trans ((Op.bind_ok e2).trans ((Op.bind_ok e3).trans ((Op.bind_ok e4).trans
    (Op.bind_ok e5))))⟩

/-- Steps 1 to 6 go on where the level lets the command be issued. -/
theorem loadExchange_issued : Op.Ensures (fun s => s.cfg = c ∧ Issues cmd s.env.level) (loadExchange cmd tx)
    fun _ s => s.cfg = c := by
  rintro s ⟨hs, issues⟩
  obtain ⟨t, ht, level, reached⟩ := loadExchange_reaches hc cmd tx hs
  rw [reached]
  rcases issues with taken | oracle
  · exact ((command_taken hc.1 hc.2.1 cmd taken).imp fun _ _ h => h.1) t ht
  · exact ⟨(), _, busWrite_oracle (level.trans oracle) _ _, ht⟩

end

section
variable {c : Config} {P : Sequencer → Prop} (hP : Placeless P)
include hP

/-- A read goes on and keeps what is known of the sequencer. -/
theorem busRead_at (a : RegAddr) : Op.Ensures (At c P) (busRead a) fun _ => At c P :=
  (busRead_cfg c a).atPlace (phaseOnly_bus.read a) hP

/-- A write of another register than COMMAND and FIFODATA goes on and keeps what is known of the sequencer. -/
theorem busWrite_at (hc : c.wf) (n : RegName) (h1 : n ≠ .command) (h2 : n ≠ .fifodata) (v : Byte) :
    Op.Ensures (At c P) (busWrite (c.regmap.addr n) v) fun _ => At c P :=
  (busWrite_cfg hc.1 n h1 h2 v).atPlace (phaseOnly_bus.write _ v) hP

/-- The read-out of the FIFO goes on and keeps what is known of the sequencer. -/
theorem unloadFifo_at (a : RegAddr) (n : Nat) : Op.Ensures (At c P) (unloadFifo a n) fun _ => At c P := by
  induction n with
  | zero => exact .ofPure fun _ h => h
  | succ n ih => exact .bind (busRead_at hP a) fun _ => .bind ih fun _ => .ofPure fun _ h => h

end

/-- A register update takes what is known of the sequencer along. -/
theorem setSeq_at {c : Config} {P Q : Sequencer → Prop} (f : Sequencer → Sequencer) (h : ∀ q, P q → Q (f q)) :
    Op.Ensures (At c P) (Op.setSeq f) fun _ => At c Q :=
  fun s hs => ⟨(), _, rfl, hs.1, h s.seq hs.2⟩

/-- The enable and wait bits are those of the command, and nothing has failed (R181). -/
abbrev Sequencer.enabled (cmd : Command) (q : Sequencer) : Prop :=
  q.irqen = irqEnable cmd ∧ q.waitirq = irqWait cmd ∧ q.errkind = .none

/-- The exchange has not failed (R187). -/
abbrev Sequencer.completes (cmd : Command) (q : Sequencer) : Prop := q.enabled cmd ∧ q.status ≠ .err

/-- The triple an exchange returns, and what it leaves in the sequencer (R180, R190). -/
abbrev Sequencer.returns (cmd : Command) (x : Status × List Byte × Int) (q : Sequencer) : Prop :=
  q.status = x.1 ∧ (x.1 = .err → x.2.1 = [] ∧ x.2.2 = 0) ∧
    (x.1 ≠ .err → q.rxbuf = x.2.1 ∧ q.rxbits = x.2.2 ∧ q.errkind = .none) ∧
    q.irqen = irqEnable cmd ∧ q.waitirq = irqWait cmd

section
variable {c : Config} (cmd : Command)

/-- The poll ends, on a flag or not (R184). -/
theorem pollComirq_enabled (n : Nat) : Op.Ensures (At c (Sequencer.enabled cmd)) (pollComirq n)
    fun _ => At c (Sequencer.enabled cmd) := by
  induction n with
  | zero => exact .ofPure fun _ h => h
  | succ n ih =>
    intro s hs
    rw [pollComirq, Op.bind_ok (Op.state_apply s)]
    refine Op.Ensures.bind (M := fun _ => At c (Sequencer.enabled cmd)) ?read (fun v => ?count) s hs
    case read => exact busRead_at (fun _ _ h => h) _
    refine .bind (setSeq_at (Q := Sequencer.enabled cmd) _ fun _ h => h) fun _ => ?_
    split
    · exact .ofPure fun _ h => h
    · exact ih

/-- A failed exchange returns ERR with no bytes and length 0 (R185, R186, R190). -/
theorem failExchange_returns (k : ErrKind) : Op.Ensures (At c (Sequencer.enabled cmd)) (failExchange k)
    fun x s => s.seq.returns cmd x := by
  rintro s ⟨-, en, wait, -⟩
  exact ⟨(.err, [], 0), _, rfl, rfl, fun _ => ⟨rfl, rfl⟩, fun h => absurd rfl h, en, wait⟩

/-- Step 13 goes on, and the exchange has still not failed (R188, R189). -/
theorem readResponse_completes : Op.Ensures (At c (Sequencer.completes cmd)) readResponse
    fun _ => At c (Sequencer.completes cmd) :=
  have read (a : RegAddr) := busRead_at (c := c) (P := Sequencer.completes cmd) (fun _ _ h => h) a
  .withCfg (fun _ h => h.1) (.bind (read _) fun _ => .bind (read _) fun _ =>
    .bind (setSeq_at (Q := Sequencer.completes cmd) _ fun _ h => h) fun _ =>
    .bind (unloadFifo_at (fun _ _ h => h) _ _) fun _ => setSeq_at _ fun _ h => h)

/-- An exchange that has not failed returns S.RXBUF and S.RXBITS (R190). -/
theorem completeExchange_returns : Op.Ensures (At c (Sequencer.enabled cmd)) (completeExchange cmd)
    fun x s => s.seq.returns cmd x := by
  have rest : Op.Ensures (At c (Sequencer.completes cmd)) (do
      let s ← Op.state
      pure (s.seq.status, s.seq.rxbuf, s.seq.rxbits) : Op (Status × List Byte × Int))
      fun x s => s.seq.returns cmd x := by
    rintro s ⟨-, ⟨en, wait, kind⟩, passed⟩
    exact ⟨_, _, rfl, rfl, fun h => absurd h passed, fun _ => ⟨rfl, rfl, kind⟩, en, wait⟩
  refine .withCfg (fun _ h => h.1) (.bind (M := fun _ => At c (Sequencer.completes cmd))
    (setSeq_at _ fun q h => ⟨h, ?passed⟩) fun _ => ?_)
  case passed => simp only; split <;> nofun
  split
  · exact .bind (readResponse_completes cmd) fun _ => rest
  · exact rest

/-- Step 7 goes on (R183). -/
theorem startSend_enabled (hc : c.wf) : Op.Ensures (At c (Sequencer.enabled cmd)) (startSend cmd)
    fun _ => At c (Sequencer.enabled cmd) := by
  refine .withCfg (fun _ h => h.1) ?_
  split
  · exact .bind (busRead_at (fun _ _ h => h) _) fun _ => busWrite_at (fun _ _ h => h) hc .bitframing nofun nofun _
  · exact .ofPure fun _ h => h

/-- TO_CARD returns a triple for every command the level lets be issued, AUTHENT among them where nothing is known of
the target (R180, R190, R199). -/
theorem toCard_returns (hc : c.wf) (tx : List Byte) : Op.Ensures (fun s => s.cfg = c ∧ Issues cmd s.env.level)
    (toCard cmd tx) fun x s => s.seq.returns cmd x := by
  have load := (loadExchange_issued hc cmd tx).atPlace (K := Sequencer.enabled cmd)
    (loadExchange_within phaseOnly_bus cmd tx) fun _ _ h => h
  refine .withCfg (fun _ h => h.1) (.bind
    (M := fun _ s => (s.cfg = c ∧ Issues cmd s.env.level) ∧ s.seq.enabled cmd)
    (fun s h => ⟨(), _, rfl, h, rfl, rfl, rfl⟩) fun _ =>
    .bind load fun _ => .bind (startSend_enabled cmd hc) fun _ => .bind (setSeq_at _ fun _ h => h) fun _ =>
    .bind (pollComirq_enabled cmd _) fun seen =>
    .bind (.bind (busRead_at (fun _ _ h => h) _) fun _ =>
      busWrite_at (fun _ _ h => h) hc .bitframing nofun nofun _) fun _ => ?_)
  split
  · exact failExchange_returns cmd _
  · refine .bind (busRead_at (fun _ _ h => h) _) fun e => ?_
    split
    · exact failExchange_returns cmd _
    · exact completeExchange_returns cmd

end

/-- Settles O31: the body's own run, with the level the statement names. -/
theorem toCardAlwaysReturns : Obligations.ToCardAlwaysReturns := by
  unfold Obligations.ToCardAlwaysReturns
  intro s cmd tx hc issues
  obtain ⟨⟨st, rx, bits⟩, t, e, status, failed, passed, en, wait⟩ :=
    toCard_returns cmd hc tx (s.start .toCard) ⟨rfl, issues⟩
  refine ⟨_, st, rx, bits, exec_toCard e, rfl, rfl, status, failed, passed, ?bits⟩
  calc (t.seq.irqen, t.seq.waitirq)
    _ = (irqEnable cmd, irqWait cmd) := by rw [en, wait]
    _ = _ := by cases cmd <;> rfl

end Sys2Proof.Machine
end

section
/-! SUPPORT. TO_CARD over an unconstrained transport (42_command_fifo_framing.md R180 to R190): the script of bytes read
fixes the frames and the triple. -/

namespace Sys2Proof.Machine

/-- What is known of the sequencer may be weakened. -/
theorem Bus.weaken {c : Config} {g : Target} {feed : List Byte} {tr : List BusFrame} {P P' : Sequencer → Prop}
    {s : State} (h : ∀ q, P q → P' q) : Bus c g feed tr P s → Bus c g feed tr P' s :=
  fun ⟨hcfg, htgt, level, script, frames, hP⟩ => ⟨hcfg, htgt, level, script, frames, h _ hP⟩

/-- What is known of the sequencer. -/
theorem Bus.seq {c : Config} {g : Target} {feed : List Byte} {tr : List BusFrame} {P : Sequencer → Prop} {s : State} :
    Bus c g feed tr P s → P s.seq := fun ⟨_, _, _, _, _, hP⟩ => hP

section
variable {c : Config} {g : Target} {cmd : Command} {tx b polls feed : List Byte} {n l v b' : Byte} {tr : List BusFrame}
  {P : Sequencer → Prop} {Q : Status × List Byte × Int → State → Prop}

/-- Steps 0 to 9: what comes before the poll, the poll `hpoll`, then START_SEND cleared on both of its ends (R185). -/
theorem Bus.toCard_polled {seen : Bool} (hb : b.length = if cmd = .transceive then 1 else 0) (hP : Placeless P)
    (hpoll : ∀ {feed : List Byte} {tr : List BusFrame}, Op.Ensures (Bus c g (polls ++ feed) tr (Waiting cmd))
      (pollComirq c.pollCmd) fun r s => r = seen ∧
        Bus c g feed ((polls.map (BusFrame.read c.regmap.comirq)).reverse ++ tr) P s)
    (next : Op.Ensures
      (Bus c g feed ((armFrames c cmd tx n l ++ startFrames c b ++ pollFrames c polls b').reverse ++ tr) P)
      (if seen = false then failExchange .busTimeout
      else do
        let e ← busRead c.regmap.error
        if errorFails e then failExchange .protocolError else completeExchange cmd) Q) :
    Op.Ensures (Bus c g ([n, l] ++ b ++ polls ++ [b'] ++ feed) tr fun _ => True) (toCard cmd tx) Q := by
  have script : [n, l] ++ b ++ polls ++ [b'] ++ feed = n :: l :: (b ++ (polls ++ b' :: feed)) := by simp
  rw [script]
  refine Bus.cfg (.bind (Bus.setSeq (Q := Waiting cmd) fun q _ => ⟨rfl, rfl, rfl, rfl, rfl⟩) fun _ =>
    .bind (Bus.loadExchange cmd tx n l) fun _ => .bind (Bus.startSend cmd hb) fun _ =>
    .bind (Bus.setSeq fun _ h => h) fun _ => .bind hpoll fun r => ?_)
  rintro s ⟨rfl, h⟩
  refine Op.Ensures.bind (Bus.clearBits hP _ b' _) (fun _ => next.pre fun s h => ?_) s h
  simpa [pollFrames] using h

/-- Steps 0 to 9 when the poll sees a flag: what is left is the error check and the read-out (R184, R186). -/
theorem Bus.toCard_seen (hb : b.length = if cmd = .transceive then 1 else 0)
    (unseen : ∀ p ∈ polls, p &&& c.masks.timerIrq = 0 ∧ p &&& irqWait cmd = 0)
    (seen : v &&& c.masks.timerIrq ≠ 0 ∨ v &&& irqWait cmd ≠ 0) (budget : polls.length < c.pollCmd) {e : Byte}
    (next : Op.Ensures (Bus c g feed (BusFrame.read c.regmap.error e ::
        ((armFrames c cmd tx n l ++ startFrames c b ++ pollFrames c (polls ++ [v]) b').reverse ++ tr))
        fun q => Waiting cmd q ∧ q.irqval = v)
      (if errorFails e then failExchange .protocolError else completeExchange cmd) Q) :
    Op.Ensures (Bus c g ([n, l] ++ b ++ polls ++ [v, b', e] ++ feed) tr fun _ => True) (toCard cmd tx) Q := by
  have script : [n, l] ++ b ++ polls ++ [v, b', e] ++ feed =
      [n, l] ++ b ++ (polls ++ [v]) ++ [b'] ++ e :: feed := by simp
  have place : Placeless fun q => Waiting cmd q ∧ q.irqval = v := fun _ _ h => h
  rw [script]
  refine Bus.toCard_polled (seen := true) hb place (fun {feed tr} => by
    simpa using Bus.poll (g := g) (feed := feed) (tr := tr) cmd unseen seen budget) ?_
  rw [if_neg nofun]
  refine .bind (Bus.read place _ e) fun x s h => ?_
  obtain ⟨rfl, h⟩ := h
  exact next s h

/-- A failed exchange returns ERR with its kind and makes no transaction (R185, R186, R190). -/
theorem Bus.failExchange (k : ErrKind) : Op.Ensures (Bus c g feed tr P) (failExchange k) fun x s =>
    x = (.err, [], 0) ∧ Bus c g feed tr (fun q => q.status = .err ∧ q.errkind = k) s :=
  .bind (Bus.setSeq fun _ _ => ⟨rfl, rfl⟩) fun _ => .ofPure fun _ h => ⟨rfl, h⟩

/-- The return of an exchange that has not failed: S.STATUS, S.RXBUF and S.RXBITS (R190). -/
theorem Bus.returnTriple {x : Status × List Byte × Int} :
    Op.Ensures (Bus c g feed tr fun q => (q.status, q.rxbuf, q.rxbits) = x) (do
      let s ← Op.state
      pure (s.seq.status, s.seq.rxbuf, s.seq.rxbits) : Op (Status × List Byte × Int))
      fun y s => y = x ∧ Bus c g feed tr (fun _ => True) s := by
  intro s h
  exact ⟨_, s, rfl, Bus.seq h, Bus.weaken (fun _ _ => trivial) h⟩

/-- Steps 12 to 14: the no-tag test, the read-out of a transceive, the triple (R187 to R190). -/
theorem Bus.completeExchange {cnt ctl : Byte} {rx : List Byte} (hr : rx.length = readCount cnt) :
    Op.Ensures (Bus c g ((if cmd = .transceive then [cnt, ctl] ++ rx else []) ++ feed) tr
      fun q => Waiting cmd q ∧ q.irqval = v) (completeExchange cmd) fun x s =>
      x = (if noTagSeen c.masks v (irqEnable cmd) then .notag else .ok, if cmd = .transceive then rx else [],
        if cmd = .transceive then rxBits cnt (ctl &&& c.masks.rxlastMask) else 0) ∧
      Bus c g feed ((if cmd = .transceive then readFrames c cnt ctl rx else []).reverse ++ tr) (fun _ => True) s := by
  refine Bus.cfg (.bind (Bus.setSeq (Q := fun q => q.status =
    (if noTagSeen c.masks v (irqEnable cmd) then .notag else .ok) ∧ q.rxbuf = [] ∧ q.rxbits = 0) ?status) fun _ => ?_)
  case status =>
    rintro q ⟨⟨en, -, -, rxbuf, rxbits⟩, irqval⟩
    exact ⟨by rw [irqval, en], rxbuf, rxbits⟩
  generalize (if noTagSeen c.masks v (irqEnable cmd) then Status.notag else .ok) = st
  by_cases h : cmd = .transceive
  · simp only [if_pos h]
    have read := Bus.readResponse (c := c) (g := g) (feed := feed) (tr := tr) cnt ctl hr (P := fun q => q.status = st)
      (fun _ _ h => h) (fun _ _ h => h) (fun _ _ h => h)
    exact .bind (read.pre fun _ => Bus.weaken fun _ h => h.1) fun _ =>
      Bus.returnTriple.pre fun _ => Bus.weaken fun q ⟨status, rxbits, rxbuf⟩ => by rw [status, rxbuf, rxbits]
  · simp only [if_neg h]
    exact Bus.returnTriple.pre fun _ => Bus.weaken fun q ⟨status, rxbuf, rxbits⟩ => by rw [status, rxbuf, rxbits]

end

/-- A host operation over an unconstrained transport starts its body with the whole script and no frames. -/
theorem Bus.ofStart {s : State} (h : s.env.level = .busOracle) (n : OpName) {feed : List Byte}
    (script : s.env.byteFeed = feed) : Bus s.cfg s.tgt feed [] (fun _ => True) (s.start n) :=
  ⟨rfl, rfl, h, script, rfl, trivial⟩

/-- Settles O32: the poll sees a flag, ERROR fails nothing, and the read-out and the triple follow. -/
theorem toCardCompletes : Obligations.ToCardCompletes := by
  unfold Obligations.ToCardCompletes
  intro s cmd tx b polls rx rest n l v b' e cnt ctl oracle hb unseen seen budget clean hr script
  have fails : errorFails e = false := hasAny_eq_false_iff.2 clean
  rw [List.append_assoc _ (if cmd = .transceive then _ else _) rest] at script
  obtain ⟨x, t, run, rfl, -, target, -, left, frames, -⟩ := Bus.toCard_seen (g := s.tgt) (tx := tx) (n := n) (l := l)
    (b' := b') hb unseen seen budget (by rw [fails, if_neg Bool.false_ne_true]; exact Bus.completeExchange hr)
    (s.start .toCard) (Bus.ofStart oracle .toCard script)
  refine ⟨_, exec_toCard run, rfl, left, target, ?frames, ?triple⟩
  case frames => rw [finish_trace, frames]; simp
  case triple => simp only [finish_result, noTagSeen, hasAny_iff, rxBits]

/-- Settles O33: a failure reads nothing after what it failed on. -/
theorem toCardFails : Obligations.ToCardFails := by
  unfold Obligations.ToCardFails
  intro s cmd tx b polls rest n l v b' e oracle hb unseen
  refine ⟨fun seen budget error script => ?protocolError, fun exhausted script => ?busTimeout⟩
  case protocolError =>
    have fails : errorFails e = true := hasAny_iff.2 error
    obtain ⟨x, t, run, rfl, -, -, -, left, frames, status, kind⟩ := Bus.toCard_seen (g := s.tgt) (tx := tx) (n := n)
      (l := l) (b' := b') hb unseen seen budget (by rw [fails, if_pos rfl]; exact Bus.failExchange .protocolError)
      (s.start .toCard) (Bus.ofStart oracle .toCard script)
    exact ⟨_, exec_toCard run, rfl, left, rfl, status, kind, by rw [finish_trace, frames]; simp⟩
  case busTimeout =>
    obtain ⟨x, t, run, rfl, -, -, -, left, frames, status, kind⟩ := Bus.toCard_polled (g := s.tgt) (tx := tx) (n := n)
      (l := l) (b' := b') (seen := false) hb (waiting_place cmd) (by rw [← exhausted]; exact Bus.pollOut cmd unseen)
      (by rw [if_pos rfl]; exact Bus.failExchange .busTimeout) (s.start .toCard) (Bus.ofStart oracle .toCard script)
    exact ⟨_, exec_toCard run, rfl, left, rfl, status, kind, by rw [finish_trace, frames]; simp⟩

end Sys2Proof.Machine
end

section
/-! SUPPORT. The writes the reference target gives no meaning (42_command_fifo_framing.md R194, R199, R200;
41_crc_engine.md R163): the refusal reaches the host by its name, from a bus row and from every operation that makes the
write. -/

namespace Sys2Proof.Machine

/-! ## Runs that are refused -/

/-- From every state that meets `P` the body is refused by this name. -/
def Op.Refuses {α : Type} (P : State → Prop) (m : Op α) (r : Refusal) : Prop :=
  ∀ s, P s → ∃ t, m s = .error (.refuse r) t

namespace Op.Refuses

variable {α β : Type} {P : State → Prop} {r : Refusal}

theorem bind {x : Op α} {f : α → Op β} (h : Op.Refuses P x r) : Op.Refuses P (x >>= f) r := fun s hs =>
  let ⟨t, e⟩ := h s hs
  ⟨t, Op.bind_error e⟩

theorem after {M : α → State → Prop} {x : Op α} {f : α → Op β} (hx : Op.Ensures P x M)
    (hf : ∀ a, Op.Refuses (M a) (f a) r) : Op.Refuses P (x >>= f) r := by
  intro s hs
  obtain ⟨a, t, e, ha⟩ := hx s hs
  rw [Op.bind_ok e]
  exact hf a t ha

theorem withCfg {c : Config} {f : Config → Op β} (hp : ∀ s, P s → s.cfg = c) (h : Op.Refuses P (f c) r) :
    Op.Refuses P (Op.cfg >>= f) r := by
  intro s hs
  rw [Op.bind_ok (Op.cfg_apply s), hp s hs]
  exact h s hs

theorem hostOp {n : OpName} {body : Op Result} {s : State} (h : Op.Refuses P body r) (hs : P (s.start n)) :
    Machine.hostOp n body s = .refused r :=
  let ⟨_, e⟩ := h _ hs
  hostOp_refuses e

end Op.Refuses

/-! ## COMMAND (R194, R199, R200) -/

/-- A byte with bits[7:4] set, or of no command's code, is no command (R104). -/
theorem ofByte_eq_none {k : CmdCodes} {v : Byte}
    (h : v.extractLsb' 4 4 ≠ (0 : BitVec 4) ∨ ∀ cmd, k.code cmd ≠ v.extractLsb' 0 4) : k.ofByte v = none := by
  rw [CmdCodes.ofByte]
  split
  · next high =>
    rcases h with h | h
    · exact absurd high h
    · exact List.find?_eq_none.2 fun cmd _ => by simpa using h cmd
  · rfl

section
variable {s : State} (hl : s.env.level = .referenceTarget)
include hl

/-- AUTHENT's code written to COMMAND is refused (R199). -/
theorem writeAccess_authent (hc : s.cfg.wf) : writeAccess s.cfg.regmap.command (s.cfg.codes.byte .authent) s =
    .error (.refuse .authentRefused) s.ticked :=
  writeAccess_stop hl (targetWrite_command_authent (s := s.ticked) (RegMap.nameAt_addr hc.1 .command)
    (CmdCodes.ofByte_byte hc.2.1 .authent))

/-- A byte that is no command is refused (R194, R200). -/
theorem writeAccess_noCommand (hd : s.cfg.regmap.distinct) {v : Byte} (h : s.cfg.codes.ofByte v = none) :
    writeAccess s.cfg.regmap.command v s = .error (.refuse (.commandRefused v)) s.ticked :=
  writeAccess_stop hl (targetWrite_command_unknown (s := s.ticked) (RegMap.nameAt_addr hd .command) h)

end

/-- TO_CARD of AUTHENT gets as far as the write of the command (R180, R199). -/
theorem toCard_authent_refused {c : Config} (hc : c.wf) (tx : List Byte) : Op.Refuses
    (fun s => s.cfg = c ∧ s.env.level = .referenceTarget) (toCard .authent tx) .authentRefused := by
  have load : Op.Refuses (fun s => s.cfg = c ∧ s.env.level = .referenceTarget) (loadExchange .authent tx)
      .authentRefused := by
    rintro s ⟨rfl, hl⟩
    obtain ⟨t, ht, level, reached⟩ := loadExchange_reaches hc .authent tx (s := s) rfl
    have refused := writeAccess_authent (level.trans hl) (ht ▸ hc)
    rw [ht] at refused
    exact ⟨_, by rw [reached, busWrite_access, refused]⟩
  exact .withCfg (fun _ h => h.1) (.after (fun _ h => ⟨(), _, rfl, h⟩) fun _ => .bind load)

/-! ## FIFODATA while CALCCRC is active (R163, R366) -/

/-- CALCCRC is active and CRC_CALC is not loading its operand: no byte may be pushed. -/
abbrev Target.closed (t : Target) (c : Config) : Prop := t.cmd = c.codes.calccrc ∧ t.loadOpen = false

/-- The events due change neither the command nor the load (R164, R203, R204). -/
theorem tick_closed {t : Target} {c : Config} (h : t.closed c) : (t.tick c).closed c :=
  ⟨(tick_cmd t c).trans h.1, (tick_loadOpen t c).trans h.2⟩

/-- A push is refused, whatever the events due have brought. -/
theorem writeAccess_closed {s : State} (hl : s.env.level = .referenceTarget) (hd : s.cfg.regmap.distinct)
    (h : s.tgt.closed s.cfg) (v : Byte) :
    writeAccess s.cfg.regmap.fifodata v s = .error (.refuse .fifoPushDuringCrc) s.ticked := by
  obtain ⟨active, shut⟩ := tick_closed h
  exact writeAccess_stop hl
    (targetWrite_fifodata_refused (s := s.ticked) (RegMap.nameAt_addr hd .fifodata) active shut v)

/-- A read leaves the FIFO closed: it changes the FIFO or the draws at most. -/
theorem readAccess_closed {s t : State} {a : RegAddr} {v : Byte} (hl : s.env.level = .referenceTarget)
    (h : s.tgt.closed s.cfg) (e : readAccess a s = .ok v t) :
    t.cfg = s.cfg ∧ t.env.level = .referenceTarget ∧ t.tgt.closed t.cfg := by
  obtain ⟨v', t', e', w⟩ := targetRead_cases s.ticked a
  obtain ⟨rfl, rfl⟩ : v' = v ∧ t' = t := by simpa using (readAccess_target hl e').symm.trans e
  rcases w with rfl | ⟨rest, -, -, rfl⟩ | rfl <;> exact ⟨rfl, hl, tick_closed h⟩

/-- Settles O22: each operation is refused by the name its write is refused by. -/
theorem targetRefusals : Obligations.TargetRefusals := by
  unfold Obligations.TargetRefusals
  intro s v tx hl hc
  refine ⟨?authent, ?toCard, fun h => ?noCommand, fun active shut => ?closed⟩
  case authent => exact (exec_command .authent s).trans (exec_busWrite_refused (writeAccess_authent hl hc))
  case toCard => exact (toCard_authent_refused hc tx).bind.hostOp ⟨rfl, hl⟩
  case noCommand => exact exec_busWrite_refused (writeAccess_noCommand hl hc.1 (ofByte_eq_none h))
  case closed =>
    have closed : s.tgt.closed s.cfg := ⟨active, shut⟩
    obtain ⟨addr, le⟩ := operand_of_regAddr s.cfg.regmap.fifodata
    have push := writeAccess_closed hl hc.1 closed v
    obtain ⟨b, t, read⟩ := readAccess_ok s.cfg.regmap.fifodata s
    obtain ⟨cfg, level, still⟩ := readAccess_closed hl closed read
    have pushAgain (w : Byte) := writeAccess_closed level (cfg ▸ hc.1) still w
    simp only [cfg] at pushAgain
    have pushFlushed := writeAccess_closed (s := { s.ticked.ticked with tgt := s.ticked.ticked.tgt.flush }) hl hc.1
      (tick_closed (tick_closed closed)) v
    exact ⟨exec_busWrite_refused push, exec_regWrite_refused le (addr.symm ▸ push),
      exec_setBits_refused le (addr.symm ▸ read) (addr.symm ▸ pushAgain _),
      exec_clearBits_refused le (addr.symm ▸ read) (addr.symm ▸ pushAgain _),
      _, exec_setBits_flush hl hc, rfl, exec_busWrite_outer_refused pushFlushed _ _ _⟩

end Sys2Proof.Machine
end

section
/-! SUPPORT. REQUEST_TAG and SELECT_TAG as host operations (43_anticollision_select.md R220 to R231): the ATQA is a whole
response of 16 bits, the identifier is combined from the fragments of the levels, and each answer that ends a selection
ends it with its own outcome. -/

namespace Sys2Proof.Machine

/-! ## The combination of fragments (R223, R224) -/

/-- A fragment that is not the last loses its cascade byte (R223). -/
theorem combine_cons (x : List Byte) {gs : List (List Byte)} (h : gs ≠ []) :
    combine (x :: gs) = x.drop 1 ++ combine gs := by
  cases gs with
  | nil => exact absurd rfl h
  | cons g gs => rfl

/-- The combination is what is left of the fragments before the last, then the last (R223). -/
theorem combine_append_last (gs : List (List Byte)) (g : List Byte) :
    combine (gs ++ [g]) = (gs.map (·.drop 1)).flatten ++ g := by
  induction gs with
  | nil => rfl
  | cons x gs ih => rw [List.cons_append, combine_cons x (by simp), ih]; simp

/-- Fragments of 4 bytes leave 3 each (R223). -/
theorem length_flatten_drop_one {gs : List (List Byte)} (h : ∀ x ∈ gs, x.length = 4) :
    (gs.map (·.drop 1)).flatten.length = 3 * gs.length := by
  induction gs with
  | nil => rfl
  | cons x gs ih =>
    have first : x.length = 4 := h x (by simp)
    have others := ih fun y hy => h y (by simp [hy])
    rw [List.map_cons, List.flatten_cons, List.length_append, others, List.length_drop, first, List.length_cons]
    omega

/-- Settles O40: the fragments before the last leave three bytes each, the last keeps its four. -/
theorem combineLength : Obligations.CombineLength := by
  unfold Obligations.CombineLength
  intro gs g fragments last
  rw [combine_append_last]
  refine ⟨?length, List.suffix_append _ _⟩
  rw [List.length_append, length_flatten_drop_one fragments, last, List.length_append, List.length_singleton]
  omega

/-! ## REQUEST_TAG (R220) -/

/-- Settles O35: an answer of two whole bytes has 16 bits. -/
theorem requestTagSucceeds : Obligations.RequestTagSucceeds := by
  unfold Obligations.RequestTagSucceeds
  intro s cd rd a0 a1 e ready depth answer clean
  obtain ⟨x, t, run, rfl, framing, -, -, -, tag, atqa⟩ := requestTag_in (quick_of_ready ready) (b := s.txlast)
    (E := (· = s.env)) (E' := fun u => u.tag = (s.env.exchange [s.cfg.card.reqCode] 7).2.tag)
    (P := fun _ => True) (P' := fun q => q.atqa0 = a0 ∧ q.atqa1 = a1) (fun _ h => h ▸ prompt_of_ready ready)
    (by rintro _ rfl; exact ⟨answer, rfl⟩) ⟨fun _ _ h => h, fun _ _ _ h => h⟩ (fun _ _ => ⟨rfl, rfl⟩) depth
    (hasAny_eq_false_iff.2 clean) (s.start .requestTag) ⟨rfl, ready.2.2, rfl, rfl, trivial⟩
  exact ⟨_, hostOp_ok (n := .requestTag) (Op.bind_ok run), rfl, rfl, atqa.1, atqa.2, framing, tag⟩

/-- Two things known of the runs of a body, together. -/
theorem Op.Triple.and {α : Type} {P P' : State → Prop} {Q Q' : α → State → Prop} {E E' : State → Prop} {m : Op α}
    (h : Op.Triple P m Q E) (h' : Op.Triple P' m Q' E') : Op.Triple (fun s => P s ∧ P' s) m
      (fun a t => Q a t ∧ Q' a t) fun t => E t ∧ E' t := by
  rintro s ⟨hp, hp'⟩
  have g := h s hp
  have g' := h' s hp'
  cases run : m s with
  | ok a t => rw [run] at g g'; exact ⟨g, g'⟩
  | error x t =>
    rw [run] at g g'
    cases x with
    | raise k => exact ⟨g, g'⟩
    | refuse r => trivial

/-- A count of 16 bits is that of two whole bytes: with valid bits in the last byte it is no multiple of 8 (R188). -/
theorem readCount_of_sixteen {cnt vb : Byte} (low : vb &&& 0x07 = vb) (h : rxBits cnt vb = 16) : readCount cnt = 2 := by
  have small : vb.toNat ≤ 7 := by
    have : (vb &&& 0x07).toNat ≤ 7 := by rw [BitVec.toNat_and]; exact Nat.and_le_right
    rwa [low] at this
  unfold rxBits at h
  split at h
  · next nonzero =>
    have : vb.toNat ≠ 0 := fun e => nonzero (BitVec.eq_of_toNat_eq e)
    omega
  · have count : cnt.toNat = 2 := by omega
    simp [readCount, maxRx, count]

/-- No result of an exchange is there yet (R181). -/
abbrev Sequencer.cleared (q : Sequencer) : Prop := q.rxbuf = [] ∧ q.rxbits = 0 ∧ q.errkind = .none

/-- A bit length of 16 is that of a response of two bytes. -/
abbrev Sequencer.measured (q : Sequencer) : Prop := q.rxbits = 16 → q.rxbuf.length = 2

theorem measured_of_zero {q : Sequencer} (h : q.rxbits = 0) : q.measured := fun e => by rw [h] at e; cases e

section
variable {c : Config} (hc : c.wf)
include hc

/-- Step 13: as many bytes are read as the bit length counts, up to MAX_RX (R188, R189). -/
theorem readResponse_measured {E : State → Prop} :
    Op.Triple (At c fun _ => True) readResponse (fun _ => At c Sequencer.measured) E := by
  have low : c.masks.rxlastMask &&& 0x07 = c.masks.rxlastMask := by
    obtain ⟨-, -, -, masks, -⟩ := hc
    exact masks.2.2.2.2.2.2.2
  refine .withCfg (.bind (At.read (fun _ _ h => h) _) fun cnt => .bind (At.read (fun _ _ h => h) _) fun ctl =>
    .bind (M := fun _ => At c fun q => q.rxbits = rxBits cnt (ctl &&& c.masks.rxlastMask)) (.setSeq fun _ _ => rfl)
    fun _ => .bind (At.unloadFifo (fun _ _ h => h) _ _) fun rx => ?_)
  rintro s ⟨length, hs, bits⟩
  exact ⟨hs, fun sixteen => length.trans (readCount_of_sixteen (and_mask_low ctl _ low) (bits.symm.trans sixteen))⟩

/-- TO_CARD leaves a bit length of 16 with a response of two bytes only, whatever the card does (R180). -/
theorem toCard_measured {E : State → Prop} (cmd : Command) (tx : List Byte) :
    Op.Triple (At c fun _ => True) (toCard cmd tx) (fun _ => At c Sequencer.measured) E := by
  have fail (k : ErrKind) : Op.Triple (At c Sequencer.cleared) (failExchange k) (fun _ => At c Sequencer.measured) E :=
    fun s h => ⟨h.1, measured_of_zero h.2.2.1⟩
  have rest : Op.Triple (At c Sequencer.measured) (do
      let s ← Op.state
      pure (s.seq.status, s.seq.rxbuf, s.seq.rxbits) : Op (Status × List Byte × Int))
      (fun _ => At c Sequencer.measured) E := fun _ h => h
  have write (a : RegAddr) (v : Byte) := At.write (c := c) (P := Sequencer.cleared) (E := E) (fun _ _ h => h) a v
  have clear (a : RegAddr) (v : Byte) := At.clearBits (c := c) (P := Sequencer.cleared) (E := E) (fun _ _ h => h) a v
  have set (a : RegAddr) (v : Byte) := At.setBits (c := c) (P := Sequencer.cleared) (E := E) (fun _ _ h => h) a v
  refine .withCfg (.bind (M := fun _ => At c Sequencer.cleared) (.setSeq fun _ _ => ⟨rfl, rfl, rfl⟩) fun _ =>
    .bind (.withCfg (.bind (write _ _) fun _ => .bind (clear _ _) fun _ => .bind (set _ _) fun _ =>
      .bind (write _ _) fun _ => .bind (At.loadFifo (fun _ _ h => h) _ _) fun _ => write _ _)) fun _ =>
    .bind (M := fun _ => At c Sequencer.cleared) (.withCfg ?start) fun _ =>
    .bind (M := fun _ => At c fun q => q.cleared ∧ q.pollcnt ≤ 0) (.setSeq fun _ h => ⟨h, Nat.le_refl 0⟩) fun _ =>
    .bind ((pollComirq_ranges c.pollCmd 0).imp (fun _ h => h) (fun _ _ h => ⟨h.1, h.2.1⟩) fun _ h => h) fun seen =>
    .bind (clear _ _) fun _ => ?_)
  case start =>
    split
    · exact set _ _
    · exact fun _ h => h
  split
  · exact fail _
  refine .bind (At.read (fun _ _ h => h) _) fun e => ?_
  split
  · exact fail _
  refine .withCfg (.bind (M := fun _ => At c Sequencer.cleared) (.setSeq fun _ h => h) fun _ => ?_)
  split
  · exact .bind ((readResponse_measured hc).weaken fun _ _ => trivial) fun _ => rest
  · exact rest.weaken fun _ h => measured_of_zero h.2.1

/-- A checked exchange returns S.RXBUF and S.RXBITS, which go together (R190, R221). -/
theorem transceive_measured (frame : List Byte) : Op.Triple (At c fun _ => True) (transceive frame)
    (fun x t => t.cfg = c ∧ t.seq.rxbuf = x.1 ∧ t.seq.rxbits = x.2 ∧ t.seq.measured) fun _ => True := by
  have returned : Op.Triple (At c fun _ => True) (toCard .transceive frame)
      (fun x t => t.seq.returns .transceive x) fun _ => False :=
    ((toCard_returns .transceive hc frame).pre fun _ h => ⟨h.1, .inl nofun⟩).triple
  intro s hs
  refine Op.Triple.bind ((returned.and (toCard_measured hc (E := fun _ => False) _ _)).imp (fun _ h => h)
    (fun _ _ h => h) fun _ h => h.1.elim) (fun x => ?_) s ⟨hs, hs⟩
  obtain ⟨st, rx, bits⟩ := x
  rintro t ⟨⟨-, -, passed, -⟩, cfg, measured⟩
  cases st with
  | ok =>
    obtain ⟨rxbuf, rxbits, -⟩ := passed nofun
    exact ⟨cfg, rxbuf, rxbits, measured⟩
  | notag => trivial
  | err => trivial

/-- "succeeds only when the response is exactly 16 bits": the ATQA is then the whole response (R220). -/
theorem requestTag_sixteen : Op.Triple (At c fun _ => True) requestTag
    (fun x t => t.seq.rxbits = 16 ∧ t.seq.rxbuf = [x.1, x.2] ∧ t.seq.atqa = x) fun _ => True := by
  refine .withCfg (.bind (At.write (fun _ _ h => h) _ _) fun _ => .bind (transceive_measured hc _) fun x => ?_)
  obtain ⟨rx, bits⟩ := x
  simp only
  split
  · exact fun _ _ => trivial
  · next sixteen =>
    rintro t ⟨-, rxbuf, rxbits, measured⟩
    have bits16 : t.seq.rxbits = 16 := rxbits.trans (Decidable.not_not.1 sixteen)
    obtain ⟨a0, a1, rfl⟩ := List.length_eq_two.1 (rxbuf ▸ measured bits16)
    exact ⟨bits16, rxbuf, rfl⟩

end

/-- REQUEST_TAG keeps the ATQA it had unless it returns one (R220). -/
theorem requestTag_raise_atqa (c : Config) (a : Byte × Byte) :
    Op.Triple (At c fun q => q.atqa = a) requestTag (fun _ _ => True) fun t => t.seq.atqa = a := by
  have exchange (frame : List Byte) := At.part (c := c) (e := Sequencer.atqa) (P := fun q => q.atqa = a)
    (transceive_within outside_upper.toExchangeKept frame)
    (transceive_within (upper_exchange (fun _ _ => rfl) fun _ hf _ => by cases hf <;> rfl) frame)
    fun _ _ e h => e.trans h
  refine .withCfg (.bind (At.write (fun _ _ h => h) _ _) fun _ =>
    .bind ((exchange _).imp (fun _ h => h) (fun _ _ h => h) fun _ h => h.2) fun x => ?_)
  obtain ⟨rx, bits⟩ := x
  simp only
  split
  · exact fun _ h => h.2
  · exact fun _ _ => trivial

/-- A host operation ends OK or with an outcome its body raises. -/
theorem Op.Ends.outcome_mem {n : OpName} {body : Op Result} {Q : State → Prop} {ks : List OpOutcome}
    (h : Op.Ends (fun _ => True) body (fun _ => Q) fun k _ => k ∈ ks) {s t : State}
    (e : Machine.hostOp n body s = .next t) : t.seq.outcome ∈ .ok :: ks := by
  rcases h.hostOp e with ⟨r, u, -, rfl⟩ | ⟨k, u, mem, rfl⟩
  · exact List.mem_cons_self
  · exact List.mem_cons_of_mem _ mem

/-- Raises that agree with the last exchange, without the agreement. -/
theorem Op.Ends.kinds {α : Type} {P Q : State → Prop} {m : Op α} {ks : List OpOutcome}
    (h : Op.Ends P m (fun _ => Q) (Raised ks)) : Op.Ends P m (fun _ => Q) fun k _ => k ∈ ks :=
  h.imp (fun _ _ h => h) fun _ _ h => h.2

/-- Settles O36: on OK the read-out of 16 bits is two bytes, which are kept; on a raise nothing is kept, and the outcome is
the verdict of the exchange. -/
theorem requestTagStrict : Obligations.RequestTagStrict := by
  unfold Obligations.RequestTagStrict
  intro s t hc e
  have ends : Op.Ends (fun _ => True) (requestTag >>= fun x => pure (Result.bytes [x.1, x.2])) (fun _ => Passed)
      (Raised exchangeKinds) := .bind requestTag_ends fun _ _ h => h
  have body : Op.Triple (fun u => At s.cfg (fun _ => True) u ∧ At s.cfg (fun q => q.atqa = s.seq.atqa) u)
      (requestTag >>= fun x => pure (Result.bytes [x.1, x.2]))
      (fun r u => u.seq.rxbits = 16 ∧ u.seq.rxbuf = [u.seq.atqa0, u.seq.atqa1] ∧
        r = .bytes [u.seq.atqa0, u.seq.atqa1]) fun u => u.seq.atqa = s.seq.atqa :=
    .bind (((requestTag_sixteen hc).and (requestTag_raise_atqa s.cfg s.seq.atqa)).imp (fun _ h => h) (fun _ _ h => h.1)
      fun _ h => h.2) fun x => .ofPure fun u ⟨bits, rxbuf, atqa⟩ => by subst atqa; exact ⟨bits, rxbuf, rfl⟩
  have agrees := ends.agrees e
  have mem := List.mem_cons.1 (ends.kinds.outcome_mem e)
  rcases hostOp_verdict body ends (by decide) ⟨⟨rfl, trivial⟩, rfl, rfl⟩ e with ⟨r, u, g, rfl⟩ | ⟨k, u, g, hk, rfl⟩
  · exact ⟨fun _ => g, fun h => absurd rfl h, agrees⟩
  · obtain ⟨a0, a1⟩ := Prod.mk.inj g
    exact ⟨fun h => absurd h hk, fun h => ⟨a0, a1, mem.resolve_left h⟩, agrees⟩

end Sys2Proof.Machine
end

section
/-! SUPPORT. SELECT_TAG over a scripted card (43_anticollision_select.md R225 to R231): the answers that complete it, and
those that end it, at each of its four exchanges. -/

namespace Sys2Proof.Machine

/-! ## A scripted card and its tag -/

/-- Prompt events, this script of card answers, this tag. -/
abbrev ScriptedTag (cd rd : Nat) (g : Tag) (feed : List CardOutcome) (e : Environment) : Prop :=
  Scripted cd rd feed e ∧ e.tag = g

/-- A scripted answer leaves the tag as it is (R290). -/
theorem ScriptedTag.exchange {cd rd : Nat} {g : Tag} {o : CardOutcome} {feed : List CardOutcome} (frame : List Byte)
    (n : BitVec 3) (e : Environment) (h : ScriptedTag cd rd g (o :: feed) e) :
    (e.exchange frame n).1 = o ∧ ScriptedTag cd rd g feed (e.exchange frame n).2.afterDelay := by
  obtain ⟨scripted, tag⟩ := h
  obtain ⟨answer, next⟩ := scripted.exchange frame n
  refine ⟨answer, next, ?_⟩
  rw [afterDelay_tag, Environment.exchange, scripted.2]
  exact tag

section
variable {c : Config} {cd rd : Nat} {g : Tag} {lvl : CascadeLevel} {f : Fragment} {lb lb' : BitVec 3} {er er' : Byte}
  {o : CardOutcome} {rest : List CardOutcome} {k : OpOutcome} {quiet : Prop}

/-- Two scripted answers take a level to its SAK (R226, R227). -/
theorem answers_scripted (hv : f.valid = true) (her : errorFails er = false) (her' : errorFails er' = false)
    {sak x y : Byte} : Answers c cd rd lvl f sak
      (ScriptedTag cd rd g (.response f.bytes lb er :: .response [sak, x, y] lb' er' :: rest))
      (ScriptedTag cd rd g rest) where
  valid := hv
  run := ⟨ScriptedTag cd rd g (.response [sak, x, y] lb' er' :: rest),
    ScriptedTag cd rd g (.response [sak, x, y] lb' er' :: rest), lb, lb', er, er', x, y, her, her',
    fun _ h => h.1.prompt, fun _ h => h.1.prompt, fun _ h => h.1.prompt, fun _ h => ⟨h.1.afterDelay, h.2⟩,
    fun _ h => h.exchange _ _, fun _ h => h.exchange _ _⟩

/-- A scripted anti-collision answer that is rejected ends its level (R226). -/
theorem rejectsLevel_fragment (hk : RejectsFragment c quiet o k) :
    RejectsLevel c cd rd lvl quiet (ScriptedTag cd rd g (o :: rest)) k :=
  .fragment hk (fun _ h => h.1.prompt) fun _ h => (h.exchange _ _).1

/-- So does a scripted select answer that is rejected, after a fragment that was accepted (R227). -/
theorem rejectsLevel_sak (hk : RejectsSak c quiet o k) (hv : f.valid = true) (her : errorFails er = false) :
    RejectsLevel c cd rd lvl quiet (ScriptedTag cd rd g (.response f.bytes lb er :: o :: rest)) k :=
  .sak (E1 := ScriptedTag cd rd g (o :: rest)) (E2 := ScriptedTag cd rd g (o :: rest)) hk hv her (fun _ h => h.1.prompt)
    (fun _ h => h.1.prompt) (fun _ h => h.1.prompt) (fun _ h => ⟨h.1.afterDelay, h.2⟩) (fun _ h => h.exchange _ _)
    fun _ h => (h.exchange _ _).1

end

/-! ## Answers that are rejected -/

/-- ERROR fails an exchange for a received bit of ERR_MASK or a response longer than the FIFO (R186, R203). -/
theorem errorFails_receivedError (e : Byte) (long : Bool) :
    errorFails (receivedError e long) = (errorFails e || long) := by
  cases long with
  | false => simp [receivedError]
  | true =>
    rw [Bool.or_true, receivedError, if_pos rfl]
    refine hasAny_iff.2 fun h => ?_
    rw [BitVec.and_or_distrib_right] at h
    exact absurd (BitVec.or_eq_zero_iff.1 h).2 (by decide)

section
variable {c : Config} {quiet : Prop} {r : List Byte} {lb : BitVec 3} {er : Byte}

/-- A received bit of ERR_MASK fails the exchange (R186). -/
theorem Fails.ofMasked (h : er &&& 0x1B ≠ 0) : Fails c quiet (.response r lb er) .protocolError :=
  .errors (by rw [errorFails_receivedError, Bool.or_eq_true]; exact .inl (hasAny_iff.2 h))

/-- A response fails its exchange as a ProtocolError, or fits the FIFO and carries no bit of ERR_MASK (R186, R203). -/
theorem response_fails_or (c : Config) (quiet : Prop) (r : List Byte) (lb : BitVec 3) (er : Byte) :
    Fails c quiet (.response r lb er) .protocolError ∨ r.length ≤ c.fifoDepth ∧ errorFails er = false := by
  cases h : errorFails (receivedError er (c.fifoDepth < r.length)) with
  | true => exact .inl (.errors h)
  | false =>
    rw [errorFails_receivedError, Bool.or_eq_false_iff, decide_eq_false_iff_not, Nat.not_lt] at h
    exact .inr h.symm

/-- An anti-collision answer of another length than 5 is a ProtocolError, whatever error bits it carries (R226, R332). -/
theorem RejectsFragment.ofLength (h : r.length ≠ 5) : RejectsFragment c quiet (.response r lb er) .protocolError := by
  rcases response_fails_or c quiet r lb er with fails | ⟨fits, clean⟩
  · exact .exchange fails
  · exact .length fits clean h

/-- A select answer of another length than 3 is a ProtocolError, whatever error bits it carries (R227, R332). -/
theorem RejectsSak.ofLength (h : r.length ≠ 3) : RejectsSak c quiet (.response r lb er) .protocolError := by
  rcases response_fails_or c quiet r lb er with fails | ⟨fits, clean⟩
  · exact .exchange fails
  · exact .length fits clean h

end

/-! ## SELECT_TAG from a ready state -/

/-- SELECT_TAG ends with this outcome, no result and no identifier (R26, R320). -/
abbrev State.selectionFails (s : State) (k : OpOutcome) : Prop :=
  ∃ t, exec .selectTag s = .next t ∧ t.seq.outcome = k ∧ t.result = .none ∧ t.seq.uid = []

theorem valid_iff {f : Fragment} : f.valid = true ↔ f.u0 ^^^ f.u1 ^^^ f.u2 ^^^ f.u3 = f.bcc := by
  simp [Fragment.valid, bcc]

section
variable {s : State} {cd rd : Nat} {feed : List CardOutcome} (ready : s.sumsReady cd rd) (script : s.env.cardFeed = feed)
include ready script

/-- SELECT_TAG begins ready, with the whole script, and leaves no error bit that was not there. -/
theorem selectTag_start : Settled s.cfg s.txlast (ScriptedTag cd rd s.env.tag feed) (fun _ => True) s.clean
    (s.start .selectTag) :=
  ⟨⟨rfl, ready.1.2.2, rfl, ⟨⟨prompt_of_ready ready.1, script⟩, rfl⟩, trivial⟩, id⟩

/-- SELECT_TAG returns the identifier its body ends with. -/
theorem exec_selectTag_returns {uid : List Byte} {feed' : List CardOutcome} {P : Sequencer → Prop}
    (hP : ∀ q, P q → q.uid = uid)
    (h : Op.Ensures (InEnv s.cfg s.txlast (ScriptedTag cd rd s.env.tag feed) fun _ => True) selectTag fun x t =>
      x = uid ∧ InEnv s.cfg 0 (ScriptedTag cd rd s.env.tag feed') P t) :
    ∃ t, exec .selectTag s = .next t ∧ t.seq.outcome = .ok ∧ t.result = .bytes uid ∧ t.seq.uid = uid ∧ t.txlast = 0 ∧
      t.env.cardFeed = feed' ∧ t.env.tag = s.env.tag := by
  obtain ⟨x, t, run, rfl, cfg, -, txlast, ⟨⟨-, left⟩, tag⟩, kept⟩ := h _ (selectTag_start ready script).1
  exact ⟨_, hostOp_ok (n := .selectTag) (Op.bind_ok run), rfl, rfl, hP t.seq kept,
    by rw [State.txlast, finish_cfg, finish_tgt, cfg, txlast], left, tag⟩

/-- SELECT_TAG ends with the outcome its body raises. -/
theorem exec_selectTag_raises {k : OpOutcome}
    (h : Op.Raises (Settled s.cfg s.txlast (ScriptedTag cd rd s.env.tag feed) (fun _ => True) s.clean) selectTag k
      fun t => t.cfg = s.cfg ∧ t.seq.uid = []) : s.selectionFails k := by
  obtain ⟨t, run, -, uid⟩ := h _ (selectTag_start ready script)
  exact ⟨_, hostOp_raise (n := .selectTag) (Op.bind_error run), rfl, rfl, uid⟩

end

/-- Settles O37: each level is answered with a valid fragment; the first SAK ends the cascade or the second does. -/
theorem selectTagSucceeds : Obligations.SelectTagSucceeds := by
  unfold Obligations.SelectTagSucceeds
  intro s cd rd f g sak sak' x y z w rest ready depth bccF bccG
  have hs := standard_of_sumsReady ready
  refine ⟨fun script ends => ?four, fun script goesOn ends => ?seven⟩
  case four =>
    exact exec_selectTag_returns ready script (fun _ h => h.1)
      (selectTag_one hs (answers_scripted (valid_iff.2 bccF) rfl rfl) (hasAny_eq_false_iff.2 ends) depth)
  case seven =>
    exact exec_selectTag_returns ready script (fun _ h => h.1)
      (selectTag_two hs (answers_scripted (valid_iff.2 bccF) rfl rfl) (hasAny_iff.2 goesOn)
        (answers_scripted (valid_iff.2 bccG) rfl rfl) (hasAny_eq_false_iff.2 ends) depth)

/-! ## How SELECT_TAG fails -/

section
variable {s : State} {cd rd : Nat} {f g : Fragment} {sak x y : Byte} {rest : List CardOutcome} {o : CardOutcome}
  {k : OpOutcome} (ready : s.sumsReady cd rd) (depth : 9 ≤ s.cfg.fifoDepth) (hf : f.valid = true)
  (goesOn : cascadeContinues sak = true)
include ready depth hf goesOn

/-- An anti-collision answer that is rejected, at either level (R226). -/
theorem selectTag_fragment_rejected {p : List CardOutcome}
    (hp : p ∈ [[], [.response f.bytes 0 0, .response [sak, x, y] 0 0]]) (script : s.env.cardFeed = p ++ o :: rest)
    (hk : RejectsFragment s.cfg s.clean o k) : s.selectionFails k := by
  have hs := standard_of_sumsReady ready
  simp only [List.mem_cons, List.not_mem_nil, or_false] at hp
  rcases hp with rfl | rfl
  · exact exec_selectTag_raises ready script (selectTag_rejects_one hs (rejectsLevel_fragment hk) depth)
  · exact exec_selectTag_raises ready script (selectTag_rejects_two hs (answers_scripted hf rfl rfl) goesOn
      (rejectsLevel_fragment hk) depth)

/-- A select answer that is rejected, at either level (R227). -/
theorem selectTag_sak_rejected (hg : g.valid = true) {p : List CardOutcome}
    (hp : p ∈ [[.response f.bytes 0 0],
      [.response f.bytes 0 0, .response [sak, x, y] 0 0, .response g.bytes 0 0]])
    (script : s.env.cardFeed = p ++ o :: rest) (hk : RejectsSak s.cfg s.clean o k) : s.selectionFails k := by
  have hs := standard_of_sumsReady ready
  simp only [List.mem_cons, List.not_mem_nil, or_false] at hp
  rcases hp with rfl | rfl
  · exact exec_selectTag_raises ready script (selectTag_rejects_one hs (rejectsLevel_sak hk hf rfl) depth)
  · exact exec_selectTag_raises ready script (selectTag_rejects_two hs (answers_scripted hf rfl rfl) goesOn
      (rejectsLevel_sak hk hg rfl) depth)

/-- A failed exchange, any of the four (R221). -/
theorem selectTag_exchange_failed (hg : g.valid = true) {p : List CardOutcome}
    (hp : p ∈ [[], [.response f.bytes 0 0], [.response f.bytes 0 0, .response [sak, x, y] 0 0],
      [.response f.bytes 0 0, .response [sak, x, y] 0 0, .response g.bytes 0 0]])
    (script : s.env.cardFeed = p ++ o :: rest) (hk : Fails s.cfg s.clean o k) : s.selectionFails k := by
  simp only [List.mem_cons, List.not_mem_nil, or_false] at hp
  have fragment {p} := selectTag_fragment_rejected (p := p) (o := o) (k := k) (x := x) (y := y) (rest := rest) ready depth
    hf goesOn
  have select {p} := selectTag_sak_rejected (p := p) (o := o) (k := k) (x := x) (y := y) (rest := rest) ready depth hf
    goesOn hg
  rcases hp with rfl | rfl | rfl | rfl
  · exact fragment (by simp) script (.exchange hk)
  · exact select (by simp) script (.exchange hk)
  · exact fragment (by simp) script (.exchange hk)
  · exact select (by simp) script (.exchange hk)

end

/-- Settles O38: a raise of an exchange agrees with the verdict it left; over the script each answer is rejected at its own
exchange, or the second SAK asks for a third level. -/
theorem selectTagFails : Obligations.SelectTagFails := by
  unfold Obligations.SelectTagFails
  refine ⟨fun s t e => (Op.Ends.bind selectTag_ends fun _ _ h => h).agrees e, ?_⟩
  intro s cd rd f g sak x y rest ready depth bccF bccG more A S B fails
  have hs := standard_of_sumsReady ready
  have hf := valid_iff.2 bccF
  have hg := valid_iff.2 bccG
  have goesOn : cascadeContinues sak = true := hasAny_iff.2 more
  have fragment {p o k} := selectTag_fragment_rejected (p := p) (o := o) (k := k) (x := x) (y := y) (rest := rest)
    ready depth hf goesOn
  have select {p o k} := selectTag_sak_rejected (p := p) (o := o) (k := k) (x := x) (y := y) (rest := rest) ready depth
    hf goesOn hg
  have exchange {p o k} := selectTag_exchange_failed (p := p) (o := o) (k := k) (x := x) (y := y) (rest := rest) ready
    depth hf goesOn hg
  refine ⟨fun p hp => ⟨?fragmentLength, ?checksum⟩, ?sakLength, ?cascade, fun p hp => ⟨?masked, ?silent, ?timeout⟩⟩
  case fragmentLength => exact fun r lb e script length => fragment hp script (.ofLength length)
  case checksum =>
    exact fun h lb e script clean bad => fragment hp script
      (.checksum (f := h) (hasAny_eq_false_iff.2 clean) (Bool.eq_false_iff.2 fun v => bad (valid_iff.1 v)))
  case sakLength => exact fun p hp r lb e script length => select hp script (.ofLength length)
  case cascade =>
    exact fun sak' z w lb e script clean third => exec_selectTag_raises ready script fun u h =>
      selectTag_three hs (answers_scripted hf rfl rfl) goesOn
        (answers_scripted hg rfl (hasAny_eq_false_iff.2 clean)) (hasAny_iff.2 third) depth u h.1
  case masked => exact fun r lb e script masked => exchange hp script (.ofMasked masked)
  case silent => exact fun script => exchange hp script .silent
  case timeout => exact fun script clean => exchange hp script (.timeout clean)

end Sys2Proof.Machine
end

section
/-! SUPPORT. "Every cause of every outcome" (60_exceptions.md R322 to R328): the outcomes each host operation can raise, and
when it is refused before its first transaction. -/

namespace Sys2Proof.Machine

/-! ## Bodies that raise nothing -/

/-- No run of the body raises an outcome. -/
abbrev Op.RaisesNothing {α : Type} (m : Op α) : Prop := Op.Triple (fun _ => True) m (fun _ _ => True) fun _ => False

theorem busWrite_raisesNothing (a : RegAddr) (v : Byte) : Op.RaisesNothing (busWrite a v) := fun s _ =>
  At.write (c := s.cfg) (P := fun _ => True) (E := fun _ => False) (fun _ _ h => h) a v |>.imp (fun _ h => h)
    (fun _ _ _ => trivial) (fun _ h => h) s ⟨rfl, trivial⟩

theorem busRead_raisesNothing (a : RegAddr) : Op.RaisesNothing (busRead a) := fun s _ =>
  At.read (c := s.cfg) (P := fun _ => True) (E := fun _ => False) (fun _ _ h => h) a |>.imp (fun _ h => h)
    (fun _ _ _ => trivial) (fun _ h => h) s ⟨rfl, trivial⟩

theorem busSetBits_raisesNothing (a : RegAddr) (m : Byte) : Op.RaisesNothing (busSetBits a m) :=
  .bind (busRead_raisesNothing a) fun _ => busWrite_raisesNothing a _

theorem busClearBits_raisesNothing (a : RegAddr) (m : Byte) : Op.RaisesNothing (busClearBits a m) :=
  .bind (busRead_raisesNothing a) fun _ => busWrite_raisesNothing a _

theorem writeAll_raisesNothing (l : List (RegAddr × Byte)) : Op.RaisesNothing (writeAll l) := by
  induction l with
  | nil => exact fun _ h => h
  | cons x l ih => exact .bind (busWrite_raisesNothing x.1 x.2) fun _ => ih

theorem initSequence_raisesNothing : Op.RaisesNothing initSequence :=
  .bind (M := fun _ _ => True) (fun _ h => h) fun _ => .bind (M := fun _ _ => True) (fun _ h => h) fun _ =>
    .bind (busWrite_raisesNothing _ _) fun _ => .bind (writeAll_raisesNothing _) fun _ => busSetBits_raisesNothing _ _

/-- An address in range raises nothing (R72). -/
theorem regAddr_raisesNothing {addr : Byte} (h : addr ≤ 0x3F) : Op.RaisesNothing (regAddr addr) := fun s _ => by
  rw [regAddr_of_le h]; trivial

/-- REGION of an image that has been read raises nothing (R260). -/
theorem regionBytes_raisesNothing (n : Region) :
    Op.Triple (fun s => s.seq.imgPopulated = true) (regionBytes n) (fun _ _ => True) fun _ => False := by
  intro s populated
  rw [regionBytes, Op.bind_ok (Op.state_apply s), if_pos populated]
  trivial

/-- Returning what was computed raises nothing more. -/
theorem Op.Triple.returning {α : Type} {P : State → Prop} {E : State → Prop} {m : Op α} {f : α → Result}
    (h : Op.Triple P m (fun _ _ => True) E) : Op.Triple P (m >>= fun a => pure (f a)) (fun _ _ => True) E :=
  .bind h fun _ _ h => h

/-- A host operation whose body raises nothing from where it starts ends OK. -/
theorem hostOp_raisesNothing {n : OpName} {body : Op Result} {P : State → Prop} {s t : State}
    (h : Op.Triple P body (fun _ _ => True) fun _ => False) (hs : P (s.start n)) (e : hostOp n body s = .next t) :
    t.seq.outcome = .ok := by
  have g := h (s.start n) hs
  rcases hostOp_next e with ⟨r, u, -, rfl⟩ | ⟨k, u, run, rfl⟩
  · rfl
  · rw [run] at g; exact g.elim

/-! ## What each host operation can raise -/

/-- A host operation that breaks its precondition: an address above 0x3F, another length than a page, a payload that the
length byte cannot tell, no image (R72, R258, R260, R284, R328). -/
def Violates (i : Instr) (s : State) : Prop :=
  match i with
  | .regWrite addr _ | .regRead addr | .setBits addr _ | .clearBits addr _ => 0x3F < addr
  | .writeBlock _ data => data.length ≠ 4
  | .wrap payload => 255 < payload.length
  | .region _ => s.seq.imgPopulated = false
  | _ => False

theorem violates_iff (i : Instr) (s : State) : Violates i s ↔
    (∃ addr v : Byte, 0x3F < addr ∧ i ∈ [.regWrite addr v, .regRead addr, .setBits addr v, .clearBits addr v]) ∨
      (∃ p d, i = .writeBlock p d ∧ d.length ≠ 4) ∨ (∃ d, i = .wrap d ∧ 255 < d.length) ∨
      ∃ r, i = .region r ∧ s.seq.imgPopulated = false := by
  cases i <;> simp [Violates]

/-- What a host operation that meets its precondition can raise: a failed exchange, a failed selection, a record that is
none (R322 to R327). -/
def causes : Instr → List OpOutcome
  | .requestTag | .readBlock _ | .readImage | .writeBlock _ _ => exchangeKinds
  | .selectTag | .readTag => selectKinds
  | .extract _ => [.malformedPayload]
  | _ => []

/-- A failed exchange is a cause of the operations with an exchange alone (R322 to R324). -/
theorem causes_exchange {i : Instr} {k : OpOutcome} (hk : k ∈ exchangeKinds) (h : k ∈ causes i) :
    i ∈ [.requestTag, .selectTag, .readImage, .readTag] ∨ (∃ p, i = .readBlock p) ∨ ∃ p d, i = .writeBlock p d := by
  cases i with
  | requestTag | selectTag | readImage | readTag => exact .inl (by simp)
  | readBlock p => exact .inr (.inl ⟨p, rfl⟩)
  | writeBlock p d => exact .inr (.inr ⟨p, d, rfl⟩)
  | extract b =>
    obtain rfl := List.mem_singleton.1 h
    exact absurd hk (by decide)
  | _ => cases h

/-- A failed selection is a cause of the operations that select alone (R325, R326). -/
theorem causes_selection {i : Instr} {k : OpOutcome} (hk : k ∈ [OpOutcome.checksumError, .unsupportedCascade])
    (h : k ∈ causes i) : i ∈ [.selectTag, .readTag] := by
  have other : k ∉ exchangeKinds ++ [.malformedPayload] := by
    simp only [List.mem_cons, List.not_mem_nil, or_false] at hk
    rcases hk with rfl | rfl <;> decide
  rw [List.mem_append, not_or] at other
  cases i with
  | selectTag | readTag => simp
  | requestTag | readBlock _ | readImage | writeBlock _ _ => exact absurd h other.1
  | extract b => exact absurd h other.2
  | _ => cases h

/-- A malformed record is a cause of EXTRACT alone (R327). -/
theorem causes_malformed {i : Instr} (h : .malformedPayload ∈ causes i) : ∃ b, i = .extract b := by
  cases i with
  | extract b => exact ⟨b, rfl⟩
  | requestTag | readBlock _ | readImage | writeBlock _ _ | selectTag | readTag => simp [causes] at h
  | _ => cases h

/-- A broken precondition is no cause: it is told apart (R328). -/
theorem causes_precondition (i : Instr) : .preconditionViolation ∉ causes i := by
  intro h
  cases i with
  | requestTag | readBlock _ | readImage | writeBlock _ _ | selectTag | readTag | extract _ => simp [causes] at h
  | _ => cases h

/-- "refused before any transaction": nothing but the outcome is left of a broken precondition (R328). -/
theorem exec_violates {i : Instr} {s : State} (h : Violates i s) :
    exec i s = .next { s with seq := s.seq.done .preconditionViolation, result := .none, trace := [] } := by
  cases i with
  | regWrite addr v => exact hostOp_address_refused h .regWrite _ s
  | regRead addr => exact hostOp_address_refused h .regRead _ s
  | setBits addr v => exact hostOp_address_refused h .setBits _ s
  | clearBits addr v => exact hostOp_address_refused h .clearBits _ s
  | writeBlock p d =>
    refine hostOp_refused (n := .writeBlock) (Op.bind_error ?_)
    rw [writeBlock, Op.bind_ok (Op.cfg_apply _), if_pos (show d.length ≠ pageSize from h)]
    rfl
  | wrap d =>
    refine hostOp_refused (n := .wrap) (Op.bind_error ?_)
    rw [wrapRecord, if_neg (Nat.not_le.2 h)]
    rfl
  | region r =>
    have empty : (s.start .region).seq.imgPopulated = false := h
    refine hostOp_refused (n := .region) (Op.bind_error ?_)
    rw [regionBytes, Op.bind_ok (Op.state_apply _), if_neg (ne_true_of_eq_false empty)]
    rfl
  | _ => exact h.elim

/-- EXTRACT raises MalformedPayload or nothing (R281, R327). -/
theorem extractRecord_ends (b : List Byte) : Op.Ends (fun _ => True) (extractRecord b) (fun _ _ => True)
    fun k _ => k ∈ [OpOutcome.malformedPayload] := by
  intro s _
  unfold extractRecord
  cases extractPayload b with
  | some p => trivial
  | none => exact List.mem_singleton_self _

/-- READ_TAG raises what its three operations raise (R256). -/
theorem readTag_ends : Op.Ends (fun _ => True) (do
    let _ ← requestTag
    let uid ← selectTag
    readImage
    pure (Result.bytes uid)) (fun _ => Passed) (Raised selectKinds) :=
  .bind (requestTag_ends.imp (fun _ _ h => h) fun _ _ => widen) fun _ =>
    .bind (M := fun _ => Passed) (fun s _ => selectTag_ends s trivial) fun _ =>
    .bind (M := fun _ => Passed) (fun s _ => readImage_ends.imp (fun _ _ h => h) (fun _ _ => widen) s trivial)
    fun _ _ h => h

/-- A host operation that returns what its body computed ends OK or as its body raises. -/
theorem hostOp_outcome_mem {α : Type} {n : OpName} {m : Op α} {f : α → Result} {Q : State → Prop} {ks : List OpOutcome}
    (h : Op.Ends (fun _ => True) m (fun _ => Q) fun k _ => k ∈ ks) {s t : State}
    (e : hostOp n (m >>= fun a => pure (f a)) s = .next t) : t.seq.outcome ∈ .ok :: ks :=
  (Op.Ends.bind h fun _ _ h => h).outcome_mem e

/-- A host operation that meets its precondition ends OK or with one of its causes (R322 to R327). -/
theorem exec_outcome_mem {i : Instr} {s t : State} (hop : i.format = .hop) (h : ¬ Violates i s)
    (e : exec i s = .next t) : t.seq.outcome ∈ .ok :: causes i := by
  have ok {ks : List OpOutcome} (h : t.seq.outcome = .ok) : t.seq.outcome ∈ .ok :: ks := h ▸ List.mem_cons_self
  cases i with
  | regWrite addr v => exact ok (hostOp_raisesNothing (.bind (regAddr_raisesNothing (BitVec.not_lt.1 h)) fun _ =>
      (busWrite_raisesNothing _ v).returning) trivial e)
  | regRead addr => exact ok (hostOp_raisesNothing (.bind (regAddr_raisesNothing (BitVec.not_lt.1 h)) fun _ =>
      (busRead_raisesNothing _).returning) trivial e)
  | setBits addr v => exact ok (hostOp_raisesNothing (.bind (regAddr_raisesNothing (BitVec.not_lt.1 h)) fun _ =>
      (busSetBits_raisesNothing _ v).returning) trivial e)
  | clearBits addr v => exact ok (hostOp_raisesNothing (.bind (regAddr_raisesNothing (BitVec.not_lt.1 h)) fun _ =>
      (busClearBits_raisesNothing _ v).returning) trivial e)
  | crcCalc data => exact ok (hostOp_raisesNothing (crcCalc_raisesNothing data).returning trivial e)
  | toCard cmd tx => exact ok (hostOp_raisesNothing ((toCard_verdict cmd tx).imp (fun _ h => h) (fun _ _ _ => trivial)
      fun _ h => h).returning trivial e)
  | requestTag => exact hostOp_outcome_mem requestTag_ends.kinds e
  | selectTag => exact hostOp_outcome_mem selectTag_ends.kinds e
  | readBlock p => exact hostOp_outcome_mem (readBlock_ends p).kinds e
  | readImage => exact hostOp_outcome_mem readImage_ends.kinds e
  | readTag => exact readTag_ends.kinds.outcome_mem e
  | writeBlock p d =>
    exact hostOp_outcome_mem ((writeBlock_ends p (Decidable.not_not.1 h)).imp (fun _ _ h => h) fun _ _ h => h.1).kinds e
  | region r => exact ok (hostOp_raisesNothing (regionBytes_raisesNothing r).returning (Bool.not_eq_false _ ▸ h) e)
  | extract b => exact hostOp_outcome_mem (extractRecord_ends b) e
  | wrap d =>
    have wraps : wrapRecord d = pure (wrapPayload d) := if_pos (Nat.not_lt.1 h)
    have raises : Op.RaisesNothing (wrapRecord d) := by rw [wraps]; exact fun _ h => h
    exact ok (hostOp_raisesNothing raises.returning trivial e)
  | init => exact ok (hostOp_raisesNothing initSequence_raisesNothing.returning trivial e)
  | _ => cases hop

/-- Settles O56: a host operation breaks its precondition and leaves the outcome alone, or ends OK or with one of its
causes; READ_TAG raises what the exchange it ends with left. -/
theorem outcomeCauses : Obligations.OutcomeCauses := by
  unfold Obligations.OutcomeCauses
  intro i s t _ hop e
  rw [← violates_iff]
  have agrees : i = .readTag → t.seq.agrees t.seq.outcome := by
    rintro rfl
    exact readTag_ends.agrees e
  by_cases h : Violates i s
  · rw [exec_violates h] at e
    cases e
    exact ⟨by simp [Sequencer.done], by simp [Sequencer.done], nofun, ⟨fun _ => h, fun _ => rfl⟩,
      fun _ => ⟨rfl, rfl, rfl⟩, agrees⟩
  · have mem := List.mem_cons.1 (exec_outcome_mem hop h e)
    have cause {k : OpOutcome} (hk : t.seq.outcome = k) (fault : k ≠ .ok) : k ∈ causes i :=
      hk ▸ mem.resolve_left (hk ▸ fault)
    have notPrecondition : t.seq.outcome ≠ .preconditionViolation := fun hk =>
      causes_precondition i (cause hk nofun)
    refine ⟨?exchange, ?selection, fun hk => causes_malformed (cause hk nofun),
      ⟨fun hk => absurd hk notPrecondition, fun v => absurd v h⟩, fun hk => absurd hk notPrecondition, agrees⟩
    case exchange =>
      rintro (hk | hk | hk) <;> exact causes_exchange (by decide) (cause hk nofun)
    case selection =>
      rintro (hk | hk) <;> exact causes_selection (by decide) (cause hk nofun)

end Sys2Proof.Machine
end

section
/-! SUPPORT. READ_BLOCK, WRITE_BLOCK and READ_IMAGE as host operations (44_tag_memory.md R250 to R258): what a read returns
for each response, that a write discards it, and the image the 34 answers of a card give. -/

namespace Sys2Proof.Machine

/-! ## From a ready state -/

/-- Drawing a delay leaves the events prompt (R304). -/
theorem Prompt.afterDelay {cd rd : Nat} {e : Environment} (h : Prompt cd rd e) : Prompt cd rd e.afterDelay :=
  (Scripted.afterDelay e ⟨h, rfl⟩).prompt

/-- No demand on the sequencer's registers is kept by every exchange. -/
theorem stable_true : Stable fun _ => True := ⟨fun _ _ h => h, fun _ _ _ h => h⟩

@[simp] theorem afterDrain_tag (e : Environment) (r : List Byte) : (e.afterDrain r).tag = e.tag := by
  unfold Environment.afterDrain
  split <;> rfl

section
variable {s : State} {cd rd : Nat} (ready : s.sumsReady cd rd)
include ready

/-- A host operation begins ready, in the environment it was called in, and leaves no error bit that was not there. -/
theorem start_settled (n : OpName) : Settled s.cfg s.txlast (· = s.env) (fun _ => True) s.clean (s.start n) :=
  ⟨⟨rfl, ready.1.2.2, rfl, rfl, trivial⟩, id⟩

theorem prompt_of_eq_env : ∀ e, e = s.env → Prompt cd rd e := fun _ h => h ▸ prompt_of_ready ready.1

theorem prompt_of_eq_afterDelay : ∀ e, e = s.env.afterDelay → Prompt cd rd e := fun _ h =>
  h ▸ (prompt_of_ready ready.1).afterDelay

end

/-! ## READ_BLOCK (R250) -/

/-- A read answer that falls short, does not fit the FIFO or carries a bit of ERR_MASK is a ProtocolError (R203, R221,
R250). -/
theorem RejectsRead.ofBad {c : Config} {quiet : Prop} {r : List Byte} {lb : BitVec 3} {er : Byte}
    (h : r.length < blockSize ∨ c.fifoDepth < r.length ∨ er &&& 0x1B ≠ 0) :
    RejectsRead c quiet (.response r lb er) .protocolError := by
  rcases response_fails_or c quiet r lb er with fails | ⟨fits, clean⟩
  · exact .exchange fails
  · rcases h with short | long | masked
    · exact .length fits clean short
    · exact absurd fits (Nat.not_le.2 long)
    · exact absurd (hasAny_eq_false_iff.1 clean) masked

/-- Settles O41: the answer meets READ_BLOCK after the delay its CRC draws; a raise of its exchange agrees with the verdict
it left. -/
theorem readBlockReturns : Obligations.ReadBlockReturns := by
  unfold Obligations.ReadBlockReturns
  intro s page
  refine ⟨fun t e => (Op.Ends.bind (readBlock_ends page) fun _ _ h => h).agrees e, ?_⟩
  intro cd rd r lb e ready depth answer
  have hs := standard_of_sumsReady ready
  have start := start_settled ready .readBlock
  refine ⟨fun long fits clean => ?returns, fun bad => ?rejects⟩
  case returns =>
    obtain ⟨x, t, run, rfl, cfg, -, txlast, -⟩ := readBlock_in hs (prompt_of_eq_env ready)
      (prompt_of_eq_afterDelay ready) (fun _ h => congrArg _ h) (E'' := fun _ => True)
      (by rintro _ rfl; exact ⟨answer, trivial⟩) stable_true depth fits long (hasAny_eq_false_iff.2 clean) _ start.1
    exact ⟨_, hostOp_ok (n := .readBlock) (Op.bind_ok run), rfl, rfl,
      by rw [State.txlast, finish_cfg, finish_tgt, cfg, txlast]⟩
  case rejects =>
    obtain ⟨t, run, -⟩ := readBlock_rejects hs (prompt_of_eq_env ready) (prompt_of_eq_afterDelay ready)
      (fun _ h => congrArg _ h) (.ofBad bad) (by rintro _ rfl; exact answer) stable_true depth _ start
    exact ⟨_, hostOp_raise (n := .readBlock) (Op.bind_error run), rfl, rfl⟩

/-! ## WRITE_BLOCK (R257, R258) -/

/-- WRITE_BLOCK of a page's data is OK exactly where its exchange passed, and agrees with its exchange (R221, R257). -/
theorem exec_writeBlock_verdict {page : Byte} {data : List Byte} (length : data.length = pageSize) {s t : State}
    (e : exec (.writeBlock page data) s = .next t) :
    (t.seq.outcome = .ok ↔ t.seq.status = .ok) ∧ t.seq.agrees t.seq.outcome := by
  have ends : Op.Ends (fun _ => True) (writeBlock page data >>= fun _ => pure Result.none) (fun _ => Passed)
      fun k t => Raised exchangeKinds k t ∧ ¬ Passed t := .bind (writeBlock_ends page length) fun _ _ h => h
  refine ⟨?_, (ends.imp (fun _ _ h => h) fun _ _ h => h.1).agrees e⟩
  rcases ends.hostOp e with ⟨r, u, passed, rfl⟩ | ⟨k, u, ⟨⟨-, kind⟩, failed⟩, rfl⟩
  · exact iff_of_true rfl passed
  · have notOk : k ≠ .ok := fun h => absurd (h ▸ kind) (by decide)
    exact iff_of_false notOk failed

/-- The exchange of a WRITE_BLOCK: its frame meets the card after the delay its CRC draws (R257). -/
abbrev State.writeExchange (s : State) (page : Byte) (data : List Byte) : CardOutcome × Environment :=
  s.env.afterDelay.exchange (writeBody s.cfg page data ++ crcBytes (crcFn s.cfg.crc (writeBody s.cfg page data))) s.txlast

/-- WRITE_BLOCK discards a response, unless the exchange fails; either way the card took the frame (R257). -/
theorem exec_writeBlock_response {s : State} {cd rd : Nat} (ready : s.sumsReady cd rd) (depth : 8 ≤ s.cfg.fifoDepth)
    {page : Byte} {data : List Byte} (length : data.length = pageSize) {r : List Byte} {lb : BitVec 3} {e : Byte}
    (answer : (s.writeExchange page data).1 = .response r lb e) :
    ∃ t, exec (.writeBlock page data) s = .next t ∧ t.result = .none ∧
      t.seq.outcome = (if r.length ≤ s.cfg.fifoDepth ∧ e &&& 0x1B = 0 then .ok else .protocolError) ∧
      t.env.tag = (s.writeExchange page data).2.tag := by
  have hs := standard_of_sumsReady ready
  have start := start_settled ready .writeBlock
  have taken : ∀ u, u = s.env.afterDelay → (u.exchange (writeBody s.cfg page data ++
      crcBytes (crcFn s.cfg.crc (writeBody s.cfg page data))) s.txlast) = s.writeExchange page data := fun _ h => h ▸ rfl
  by_cases passes : r.length ≤ s.cfg.fifoDepth ∧ e &&& 0x1B = 0
  · obtain ⟨_, t, run, -, -, -, tag, -⟩ := writeBlock_in hs (prompt_of_eq_env ready) (prompt_of_eq_afterDelay ready)
      (fun _ h => congrArg _ h) (E'' := fun u => u.tag = (s.writeExchange page data).2.tag)
      (fun u h => by rw [taken u h]; exact ⟨answer, by simp⟩) stable_true length depth passes.1
      (hasAny_eq_false_iff.2 passes.2) _ start.1
    exact ⟨_, hostOp_ok (n := .writeBlock) (Op.bind_ok run), rfl, (if_pos passes).symm, tag⟩
  · have fails : Fails s.cfg s.clean (.response r lb e) .protocolError :=
      (response_fails_or s.cfg s.clean r lb e).resolve_right fun h => passes ⟨h.1, hasAny_eq_false_iff.1 h.2⟩
    obtain ⟨t, run, -, -, tag⟩ := writeBlock_fails hs (prompt_of_eq_env ready) (prompt_of_eq_afterDelay ready)
      (fun _ h => congrArg _ h) fails (E'' := fun u => u.tag = (s.writeExchange page data).2.tag)
      (fun u h => by rw [taken u h]; exact ⟨answer, rfl⟩) stable_true length depth _ start
    exact ⟨_, hostOp_raise (n := .writeBlock) (Op.bind_error run), rfl, (if_neg passes).symm, tag nofun⟩

/-- Settles O42: the verdict of the exchange is the operation's; a response is discarded or fails it; data of another
length is a broken precondition. -/
theorem writeBlockSends : Obligations.WriteBlockSends := by
  unfold Obligations.WriteBlockSends
  intro s page d0 d1 d2 d3 data cd rd r lb e
  exact ⟨fun t run => exec_writeBlock_verdict rfl run,
    fun ready depth answer => exec_writeBlock_response ready depth rfl answer,
    fun length => exec_violates (i := .writeBlock page data) length⟩

/-! ## READ_IMAGE (R253, R254) -/

/-- The answers of a card to READ_IMAGE: these bytes, whole and without an error bit. -/
abbrev answersOf (blocks : List (List Byte)) : List CardOutcome := blocks.map fun b => .response b 0 0

/-- The card answers the read of block `i` with the script's block `i`, which leaves the rest of the script. -/
theorem reads_scripted {c : Config} {cd rd : Nat} {b : BitVec 3} {p : Byte} {blocks : List (List Byte)}
    {rest : List CardOutcome} {i : Nat} (hi : i < blocks.length)
    (sizes : ∀ b ∈ blocks, blockSize ≤ b.length ∧ b.length ≤ c.fifoDepth) :
    Reads c cd rd b p (blocks.getD i []) (Scripted cd rd (answersOf (blocks.drop i) ++ rest))
      (Scripted cd rd (answersOf (blocks.drop (i + 1)) ++ rest)) := by
  have get : blocks.getD i [] = blocks[i] := List.getD_eq_getElem _ _ hi
  obtain ⟨long, fits⟩ := sizes _ (List.getElem_mem hi)
  refine get ▸ ⟨long, fits, Scripted cd rd (answersOf (blocks.drop i) ++ rest), 0, 0, rfl, Scripted.prompt,
    Scripted.prompt, Scripted.afterDelay, ?_⟩
  rw [List.drop_eq_getElem_cons hi]
  exact Scripted.exchange _ _

/-- Blocks of at least sixteen bytes leave sixteen each (R254). -/
theorem length_flatMap_take {blocks : List (List Byte)} (long : ∀ b ∈ blocks, blockSize ≤ b.length) :
    (blocks.flatMap fun b => b.take blockSize).length = blockSize * blocks.length := by
  have each : ∀ x ∈ blocks.map fun b => (b.take blockSize).length, x = blockSize := by
    simp only [List.mem_map, List.length_take]
    rintro _ ⟨b, hb, rfl⟩
    exact Nat.min_eq_left (long b hb)
  rw [List.length_flatMap, List.sum_eq_card_nsmul _ _ each, List.length_map, smul_eq_mul, Nat.mul_comm]

/-- Sixteen bytes of each of `n` blocks and the first of one more are what is kept of all of them, cut there (R254). -/
theorem blocks_cut {n keep : Nat} (fits : keep ≤ blockSize) {blocks : List (List Byte)} (count : blocks.length = n + 1)
    (long : ∀ b ∈ blocks, blockSize ≤ b.length) :
    (blocks.flatMap fun b => b.take blockSize).take (blockSize * n + keep) =
      ((List.range' 0 n).flatMap fun i => (blocks.getD i []).take blockSize) ++ (blocks.getD n []).take keep := by
  have first : (List.range' 0 n).map (fun i => blocks.getD i []) = blocks.take n := by
    refine List.ext_getElem (by simp [count]) fun i h _ => ?_
    have : i < blocks.length := by
      rw [List.length_map, List.length_range'] at h
      omega
    simp [this]
  have whole : blocks = blocks.take n ++ [blocks.getD n []] := by
    have last : n < blocks.length := by omega
    rw [List.getD_eq_getElem _ _ last, List.take_append_getElem last, ← count, List.take_length]
  have length := length_flatMap_take (blocks := blocks.take n) fun b hb => long b (List.mem_of_mem_take hb)
  rw [List.length_take, count, Nat.min_eq_left (Nat.le_succ n)] at length
  calc (blocks.flatMap fun b => b.take blockSize).take (blockSize * n + keep)
      = (((blocks.take n).flatMap fun b => b.take blockSize) ++ (blocks.getD n []).take blockSize).take
          (blockSize * n + keep) := by conv_lhs => rw [whole, List.flatMap_append, List.flatMap_singleton]
    _ = ((blocks.take n).flatMap fun b => b.take blockSize) ++ (blocks.getD n []).take keep := by
      rw [← length, List.take_length_add_append, List.take_take, Nat.min_eq_left fits]
    _ = _ := by rw [← first, List.flatMap_map]

/-- Settles O44: block after block the script answers the read; READ_IMAGE keeps sixteen bytes of each of 33 blocks and
twelve of the last. -/
theorem readImageAssembles : Obligations.ReadImageAssembles := by
  unfold Obligations.ReadImageAssembles
  intro s cd rd blocks rest ready count sizes script
  have depth : 4 ≤ s.cfg.fifoDepth := by
    obtain ⟨b, hb⟩ := List.exists_mem_of_length_pos (l := blocks) (by omega)
    have := sizes b hb
    omega
  obtain ⟨_, t, run, cfg, -, txlast, ⟨-, left⟩, -, populated, img⟩ := readImage_in (standard_of_sumsReady ready) depth
    stable_true (fun _ _ h => h) (fun _ _ h => h) (fun _ _ _ _ h => h)
    (E := fun i => Scripted cd rd (answersOf (blocks.drop i) ++ rest)) (r := fun i => blocks.getD i [])
    (fun i hi => reads_scripted (by rw [count]; exact Nat.lt_succ_of_le hi) sizes) (s.start .readImage)
    ⟨rfl, ready.1.2.2, rfl, ⟨prompt_of_ready ready.1, script⟩, trivial⟩
  refine ⟨_, hostOp_ok (n := .readImage) (r := .none) (Op.bind_ok run), rfl, populated, img.trans ?_, ?_,
    by rw [State.txlast, finish_cfg, finish_tgt, cfg, txlast, start_tgt, State.txlast]⟩
  · exact (blocks_cut (n := fullBlocks) (by decide) count fun b hb => (sizes b hb).1).symm
  · have read : blocks.drop (fullBlocks + 1) = [] := List.drop_eq_nil_of_le (Nat.le_of_eq count)
    rw [read] at left
    exact left

end Sys2Proof.Machine
end

section
/-! SUPPORT. The named regions of the image (44_tag_memory.md R260 to R264): the accessor slices it, and the slices of a
table that meets its constraints are the image. -/

namespace Sys2Proof.Machine

/-- Settles O47: REGION of an image reads the state alone; without one it is a broken precondition. -/
theorem regionSlices : Obligations.RegionSlices := by
  unfold Obligations.RegionSlices
  refine fun s r => ⟨fun populated => ?slices, fun empty => exec_violates (i := .region r) empty⟩
  case slices =>
    have body : regionBytes r (s.start .region) =
        .ok (sliceOf s.seq.img (s.cfg.regions.slice r)) (s.start .region) := by
      rw [regionBytes, Op.bind_ok (Op.state_apply _), start_seq, if_pos populated]
      rfl
    exact hostOp_ok (n := .region) (Op.bind_ok (f := fun b => pure (.bytes b)) body)

/-! ## The partition (R261) -/

/-- These regions lie end to end from `k` to `n`. -/
def Tiles (t : RegionTable) : List Region → Nat → Nat → Prop
  | [], k, n => k = n
  | r :: rs, k, n => (t.slice r).off = k ∧ Tiles t rs (k + (t.slice r).len) n

/-- One step of the check of a table: the end so far, and whether every region began there. -/
def tile (t : RegionTable) (acc : Nat × Bool) (r : Region) : Nat × Bool :=
  (acc.1 + (t.slice r).len, acc.2 && (t.slice r).off == acc.1)

/-- The check passes where the regions lie end to end (R261). -/
theorem foldl_tile_iff {t : RegionTable} {rs : List Region} {k n : Nat} {b : Bool} :
    rs.foldl (tile t) (k, b) = (n, true) ↔ b = true ∧ Tiles t rs k n := by
  induction rs generalizing k b with
  | nil => simp [Tiles, and_comm]
  | cons r rs ih => simp [Tiles, tile, ih, and_assoc]

theorem tiles_of_contiguous {t : RegionTable} (h : t.contiguous = true) : Tiles t Region.all 0 imageSize :=
  (foldl_tile_iff.1 (beq_iff_eq.1 h)).2

/-- The slices of regions that lie end to end give back the image between them (R261). -/
theorem flatMap_slices_append {t : RegionTable} (img : List Byte) {rs : List Region} {k n : Nat} (h : Tiles t rs k n) :
    (rs.flatMap fun r => sliceOf img (t.slice r)) ++ img.drop n = img.drop k := by
  induction rs generalizing k with
  | nil => rw [show k = n from h]; rfl
  | cons r rs ih =>
    obtain ⟨begins, rest⟩ := h
    rw [List.flatMap_cons, List.append_assoc, ih rest, sliceOf, begins, ← List.drop_drop, List.take_append_drop]

theorem Tiles.le {t : RegionTable} {rs : List Region} {k n : Nat} (h : Tiles t rs k n) : k ≤ n := by
  induction rs generalizing k with
  | nil => exact Nat.le_of_eq h
  | cons r rs ih => exact Nat.le_trans (Nat.le_add_right _ _) (ih h.2)

/-- None of them reaches past the end (R261). -/
theorem Tiles.end_le {t : RegionTable} {rs : List Region} {k n : Nat} (h : Tiles t rs k n) {r : Region} (hr : r ∈ rs) :
    (t.slice r).off + (t.slice r).len ≤ n := by
  induction rs generalizing k with
  | nil => cases hr
  | cons r' rs ih =>
    obtain ⟨begins, rest⟩ := h
    rcases List.mem_cons.1 hr with rfl | later
    · exact begins ▸ rest.le
    · exact ih rest later

theorem mem_region_all (r : Region) : r ∈ Region.all := by cases r <;> decide

/-- Settles O48: a contiguous table tiles the image from 0 to 540; the lengths are those the document states, or those of
the NTAG215 table. -/
theorem regionsPartition : Obligations.RegionsPartition := by
  unfold Obligations.RegionsPartition
  rintro t img ⟨contiguous, lengths⟩ size
  have tiles := tiles_of_contiguous contiguous
  refine ⟨?partition, fun r => ?length, ?_⟩
  case partition =>
    have whole := flatMap_slices_append img tiles
    rwa [List.drop_eq_nil_of_le (show img.length ≤ imageSize from Nat.le_of_eq size), List.append_nil, List.drop_zero] at whole
  case length =>
    have inside : (t.slice r).off + (t.slice r).len ≤ img.length := size ▸ tiles.end_le (mem_region_all r)
    rw [sliceOf, List.length_take, List.length_drop]
    omega
  · rcases lengths with ⟨user, cfg0, cfg1, internal⟩ | rfl
    · exact ⟨cfg0, cfg1, internal, fun _ => user⟩
    · exact ⟨rfl, rfl, rfl, fun other => absurd rfl other⟩

end Sys2Proof.Machine
end

section
/-! SUPPORT. The payload codec (45_payload_codec.md R280 to R286): EXTRACT and WRAP are said once as functions of the bytes,
and their round-trip law with its failing converse follows. -/

namespace Sys2Proof.Machine

/-! ## Records -/

theorem extractPayload_record (n : Byte) (tail : List Byte) :
    extractPayload (0x03 :: n :: tail) = some (tail.take n.toNat) := rfl

/-- No payload without the type byte or without a length byte (R281). -/
theorem extractPayload_malformed {buffer : List Byte} (h : buffer.head? ≠ some 0x03 ∨ buffer.length < 2) :
    extractPayload buffer = none := by
  match buffer, h with
  | [], _ | [_], _ => rfl
  | type :: n :: tail, h =>
    have other : type ≠ tlvType := by
      rcases h with type_ne | short
      · exact fun same => type_ne (congrArg some same)
      · exact absurd short (Nat.not_lt.2 (Nat.le_add_left 2 tail.length))
    exact if_neg other

/-- The slice of R281, with its cut at the end of the buffer, is what `take` keeps of the bytes after the length byte. -/
theorem record_slice (type len : Byte) (tail : List Byte) (n : Nat) :
    ((type :: len :: tail).take (min (2 + n) (type :: len :: tail).length)).drop 2 = tail.take n := by
  rw [← List.take_eq_take_min, Nat.add_comm]; rfl

/-- The length byte of a record tells its payload from whatever follows it (R285). -/
theorem extractPayload_wrapPayload_append {p : List Byte} (h : p.length ≤ 255) (tail : List Byte) :
    extractPayload (wrapPayload p ++ tail) = some p := by
  calc extractPayload (wrapPayload p ++ tail)
      = some ((p ++ tail).take (BitVec.ofNat 8 p.length).toNat) := extractPayload_record _ _
    _ = some p := by rw [Laws.RoundTrip.length_byte h, List.take_left]

/-- What a length byte lets through can be wrapped again. -/
theorem length_take_byte_le (n : Byte) (tail : List Byte) : (tail.take n.toNat).length ≤ 255 :=
  Nat.le_trans (List.length_take_le _ _) (Nat.le_of_lt_succ n.isLt)

/-- A whole record comes back as the buffer cut after it (R285). -/
theorem wrapPayload_take {n : Byte} {tail : List Byte} (whole : n.toNat ≤ tail.length) :
    wrapPayload (tail.take n.toNat) = (0x03 :: n :: tail).take (2 + n.toNat) := by
  have len : BitVec.ofNat 8 (tail.take n.toNat).length = n := by
    rw [List.length_take, Nat.min_eq_left whole, BitVec.ofNat_toNat, BitVec.setWidth_eq]
  rw [wrapPayload, len, Nat.add_comm]; rfl

/-- A record that declares more than the buffer holds comes back with another length byte (R285). -/
theorem wrapPayload_take_ne {n : Byte} {tail : List Byte} (cut : tail.length < n.toNat) :
    wrapPayload (tail.take n.toNat) ≠ 0x03 :: n :: tail := by
  rw [List.take_of_length_le (Nat.le_of_lt cut), wrapPayload]
  intro same
  have len : BitVec.ofNat 8 tail.length = n := (List.cons.inj (List.cons.inj same).2).1
  have fits : tail.length ≤ 255 := Nat.le_of_lt (Nat.lt_of_lt_of_le cut (Nat.le_of_lt_succ n.isLt))
  exact Nat.ne_of_lt cut (by rw [← len, Laws.RoundTrip.length_byte fits])

/-! ## The operations -/

/-- A host operation that computes bytes leaves nothing but its outcome and its result. -/
theorem hostOp_bytes {name : OpName} {m : Op (List Byte)} {s : State} {b : List Byte}
    (h : m (s.start name) = .ok b (s.start name)) :
    hostOp name (do let x ← m; pure (.bytes x)) s =
      .next { s with seq := s.seq.done .ok, result := .bytes b, trace := [] } :=
  hostOp_ok (r := .bytes b) (Op.bind_ok (f := fun x => (pure (.bytes x) : Op Result)) h)

theorem execExtract_payload {buffer p : List Byte} (h : extractPayload buffer = some p) (s : State) :
    execExtract buffer s = .next { s with seq := s.seq.done .ok, result := .bytes p, trace := [] } :=
  hostOp_bytes (by rw [extractRecord, h]; rfl)

theorem execExtract_malformed {buffer : List Byte} (h : extractPayload buffer = none) (s : State) :
    execExtract buffer s = .next { s with seq := s.seq.done .malformedPayload, result := .none, trace := [] } :=
  have raises : extractRecord buffer (s.start .extract) = .error (.raise .malformedPayload) (s.start .extract) := by
    rw [extractRecord, h]; rfl
  hostOp_refused (n := .extract) (Op.bind_error raises)

theorem execWrap_record {p : List Byte} (h : p.length ≤ 255) (s : State) :
    execWrap p s = .next { s with seq := s.seq.done .ok, result := .bytes (wrapPayload p), trace := [] } :=
  hostOp_bytes (by rw [wrapRecord, if_pos h]; rfl)

/-- A payload record run on its own is EXTRACT of its bytes (R113, log entry 13). -/
theorem execTlvRecord_payload {p : List Byte} (h : p.length ≤ 255) (s : State) :
    execTlvRecord p s = .next { s with seq := s.seq.done .ok, result := .bytes p, trace := [] } :=
  execExtract_payload (List.append_nil (wrapPayload p) ▸ extractPayload_wrapPayload_append h []) s

/-! ## The obligations -/

/-- Settles O49: EXTRACT runs `extractPayload`, which is none of a malformed buffer and the slice of R281 of a record. -/
theorem extractRule : Obligations.ExtractRule := by
  unfold Obligations.ExtractRule
  refine fun s buffer => ⟨fun bad => execExtract_malformed (extractPayload_malformed bad) s, ?record⟩
  case record =>
    rintro n tail rfl
    rw [record_slice]
    exact execExtract_payload (extractPayload_record n tail) s

/-- Settles O50: the length byte WRAP writes is what EXTRACT cuts at; an EXTRACT that was cut at the end of the buffer
wraps to a record with another length byte. -/
theorem wrapExtractRoundTrip : Obligations.WrapExtractRoundTrip := by
  unfold Obligations.WrapExtractRoundTrip
  refine fun s p tail => ⟨fun fits => ?roundTrip, fun long => exec_violates (i := .wrap p) long, fun n => ?converse⟩
  case roundTrip =>
    exact ⟨_, wrapPayload p, execWrap_record fits s, rfl, rfl, rfl, rfl,
      ⟨_, execExtract_payload (extractPayload_wrapPayload_append fits tail) _, rfl, rfl⟩, execTlvRecord_payload fits s⟩
  case converse =>
    exact ⟨_, _, tail.take n.toNat, _, execExtract_payload (extractPayload_record n tail) s, rfl,
      execWrap_record (length_take_byte_le n tail) _, rfl, wrapPayload_take, wrapPayload_take_ne⟩

end Sys2Proof.Machine
end

section
/-! SUPPORT. The reference tag (46_reference_environment.md R296 to R302): its answers in each state, and the one frame
that changes its memory. -/

namespace Sys2Proof.Machine

/-! ## What the tag answers -/

/-- A tag in a state is itself moved to that state. -/
theorem to_eq_self {g : Tag} {st : TagState} (h : g.st = st) : g.to st = g := by
  subst h
  rfl

@[simp] theorem to_mem (g : Tag) (st : TagState) : (g.to st).mem = g.mem := rfl
@[simp] theorem to_st (g : Tag) (st : TagState) : (g.to st).st = st := rfl

/-- The short frame is answered in every state, whatever the bit of the byte that is not sent (R297, R299). -/
theorem tagExchange_request (g : Tag) {b : Byte} (h : b &&& 0x7F = 0x26) :
    g.exchange [b] 7 = (.response [0x44, 0x00] 0 0, g.to .ready1) :=
  if_pos (c := (7 : BitVec 3) = 7 ∧ b &&& 0x7F = 0x26) ⟨rfl, h⟩

/-- A select at level 1 of another identifier is not answered (R300). -/
theorem onBody_select1_other {g : Tag} (h : g.st = .ready1) {f : List Byte} (length : f.length = 5) (ne : f ≠ g.frag1) :
    g.onBody ([0x93, 0x70] ++ f) = g.ignore := by
  match f, length with
  | [u0, u1, u2, u3, b], _ =>
    rw [← to_eq_self h]
    exact if_neg (c := [u0, u1, u2, u3, b] = g.frag1) ne

/-- A select at level 2 of another identifier is not answered (R300). -/
theorem onBody_select2_other {g : Tag} (h : g.st = .ready2) {f : List Byte} (length : f.length = 5) (ne : f ≠ g.frag2) :
    g.onBody ([0x95, 0x70] ++ f) = g.ignore := by
  match f, length with
  | [u0, u1, u2, u3, b], _ =>
    rw [← to_eq_self h]
    exact if_neg (c := [u0, u1, u2, u3, b] = g.frag2) ne

/-- The active tag takes a well-formed READ (R301). -/
theorem tagExchange_read {g : Tag} (h : g.st = .active) (p : Byte) :
    g.exchange ([0x30, p] ++ crcBytes (crcA [0x30, p])) 0 = g.readPage p := by
  rw [tagExchange_crc g (by simp), ← to_eq_self h]
  exact rfl

/-- The active tag takes a well-formed WRITE (R302). -/
theorem tagExchange_write {g : Tag} (h : g.st = .active) (p d0 d1 d2 d3 : Byte) :
    g.exchange ([0xA2, p, d0, d1, d2, d3] ++ crcBytes (crcA [0xA2, p, d0, d1, d2, d3])) 0 =
      g.writePage p [d0, d1, d2, d3] := by
  rw [tagExchange_crc g (by simp), ← to_eq_self h]
  exact rfl

/-- Settles O53: state by state, the frame reaches the rule of the tag that answers it. -/
theorem tagAnswers : Obligations.TagAnswers := by
  unfold Obligations.TagAnswers
  intro g p d0 d1 d2 d3 f
  have pages : p.toNat < pageCount ↔ p.toNat ≤ 134 := Nat.lt_succ_iff
  refine ⟨fun b hb => tagExchange_request g hb, fun ready1 => ⟨?anticoll1, ?select1, ?other1⟩,
    fun ready2 => ⟨?anticoll2, ?select2, ?other2⟩, fun active => ?read, fun active => ?write⟩
  case anticoll1 => exact to_eq_self ready1 ▸ tag_anticoll1 g
  case select1 =>
    rw [tagExchange_crc g (by simp), ← to_eq_self ready1]
    exact tag_select1 g
  case other1 =>
    intro length ne
    rw [tagExchange_crc g (by simp)]
    exact onBody_select1_other ready1 length ne
  case anticoll2 => exact to_eq_self ready2 ▸ tag_anticoll2 g
  case select2 =>
    rw [tagExchange_crc g (by simp), ← to_eq_self ready2]
    exact tag_select2 g
  case other2 =>
    intro length ne
    rw [tagExchange_crc g (by simp)]
    exact onBody_select2_other ready2 length ne
  case read =>
    rw [tagExchange_read active, Tag.readPage]
    exact if_congr pages rfl rfl
  case write =>
    rw [tagExchange_write active, Tag.writePage]
    exact if_congr (and_congr_right' pages) rfl rfl

/-! ## Which frames change its memory -/

/-- A well-formed frame is its body and the CRC of its body, of whole bytes (R296). -/
theorem wellFormedBody_eq_some {frame body : List Byte} {n : BitVec 3} (h : wellFormedBody frame n = some body) :
    n = 0 ∧ frame = body ++ crcBytes (crcA body) := by
  unfold wellFormedBody at h
  split at h
  · rename_i wellFormed
    obtain ⟨whole, -, crc⟩ := wellFormed
    obtain rfl := Option.some.inj h
    exact ⟨whole, by rw [← crc, List.take_append_drop]⟩
  · cases h

/-- A frame leaves the memory, or is well formed and does what its body does (R296). -/
theorem tagExchange_mem_or_body (g : Tag) (frame : List Byte) (n : BitVec 3) :
    (g.exchange frame n).2.mem = g.mem ∨
      ∃ body, wellFormedBody frame n = some body ∧ g.exchange frame n = g.onBody body := by
  unfold Tag.exchange
  split
  · left; split <;> rfl
  · left
    split
    · rfl
    · split <;> rfl
  · split
    · exact .inr ⟨_, ‹_›, rfl⟩
    · exact .inl rfl

/-- A body leaves the memory, or is a WRITE of a page that the active tag stores (R300 to R302). -/
theorem onBody_mem_or_write (g : Tag) (body : List Byte) :
    (g.onBody body).2.mem = g.mem ∨ g.st = .active ∧ ∃ p d0 d1 d2 d3, body = [0xA2, p, d0, d1, d2, d3] ∧
      2 ≤ p.toNat ∧ p.toNat < pageCount ∧
      (g.onBody body).2.mem = Memory.writeBytes g.mem (pageSize * p.toNat) [d0, d1, d2, d3] := by
  unfold Tag.onBody
  split
  · left; split <;> rfl
  · left; split <;> rfl
  · left; unfold Tag.readPage; split <;> rfl
  · rename_i p d0 d1 d2 d3 active
    unfold Tag.writePage
    split
    · rename_i page
      exact .inr ⟨active, p, d0, d1, d2, d3, rfl, page.1, page.2, rfl⟩
    · exact .inl rfl
  · exact .inl rfl

/-- Settles O54: only the body of a WRITE reaches the memory, and its four bytes lie in its page. -/
theorem tagMemoryFrame : Obligations.TagMemoryFrame := by
  unfold Obligations.TagMemoryFrame
  intro g frame n a differs
  have changed : Memory.read (g.exchange frame n).2.mem a ≠ Memory.read g.mem a := differs
  rcases tagExchange_mem_or_body g frame n with kept | ⟨body, wellFormed, run⟩
  · exact absurd (by rw [kept]) changed
  obtain ⟨whole, rfl⟩ := wellFormedBody_eq_some wellFormed
  rw [run] at changed
  rcases onBody_mem_or_write g body with kept | ⟨active, p, d0, d1, d2, d3, rfl, low, high, stored⟩
  · exact absurd (by rw [kept]) changed
  rw [stored] at changed
  have inside : ¬ (a < pageSize * p.toNat ∨ pageSize * p.toNat + [d0, d1, d2, d3].length ≤ a) := fun outside =>
    changed (Memory.read_writeBytes_other _ _ _ _ outside)
  simp only [pageSize, pageCount, List.length_cons, List.length_nil] at inside high
  exact ⟨active, whole, p, d0, d1, d2, d3, low, by omega, rfl, by omega, by omega⟩

end Sys2Proof.Machine
end

section
/-! SUPPORT. WRITE_BLOCK and READ_TAG with the reference tag at the card port (46_reference_environment.md R302, R303). -/

namespace Sys2Proof.Machine

section
variable {s : State} {cd rd : Nat} (ready : s.tagReady cd rd)
include ready

/-- A state that is ready for the reference tag has prompt events, no scripted answer, and its tag at the card port. -/
theorem tagged_of_tagReady : Tagged cd rd s.env.tag s.env := by
  obtain ⟨sums, -, -, -, feed, source⟩ := ready
  exact ⟨prompt_of_ready sums.1, feed, source, rfl⟩

/-! ## WRITE_BLOCK (R302) -/

/-- The frame of a WRITE_BLOCK reaches the active tag as a WRITE (R111, R302). -/
theorem writeExchange_tag (active : s.env.tag.st = .active) (whole : s.txlast = 0) (p d0 d1 d2 d3 : Byte) :
    (s.writeExchange p [d0, d1, d2, d3]).1 = (s.env.tag.writePage p [d0, d1, d2, d3]).1 ∧
      (s.writeExchange p [d0, d1, d2, d3]).2.tag = (s.env.tag.writePage p [d0, d1, d2, d3]).2 := by
  have frame : writeBody s.cfg p [d0, d1, d2, d3] ++ crcBytes (crcFn s.cfg.crc (writeBody s.cfg p [d0, d1, d2, d3])) =
      [0xA2, p, d0, d1, d2, d3] ++ crcBytes (crcA [0xA2, p, d0, d1, d2, d3]) := by
    rw [ready.2.2.1, writeBody, ready.2.1]
    rfl
  obtain ⟨answer, -, -, -, tag⟩ := (tagged_of_tagReady ready).afterDelay.exchange
    ([0xA2, p, d0, d1, d2, d3] ++ crcBytes (crcA [0xA2, p, d0, d1, d2, d3])) 0
  rw [tagExchange_write active] at answer tag
  rw [State.writeExchange, frame, whole]
  exact ⟨answer, tag⟩

omit ready in
/-- The tag answers a WRITE of any page with four bits and no error (R302). -/
theorem writePage_answer (g : Tag) (p : Byte) (data : List Byte) :
    ∃ b, (g.writePage p data).1 = .response [b] 4 0 := by
  unfold Tag.writePage
  split
  · exact ⟨_, rfl⟩
  · exact ⟨_, rfl⟩

/-- WRITE_BLOCK with the active tag ends OK, and the tag has taken the WRITE, whichever answer it gave (R257, R302). -/
theorem exec_writeBlock_tag (active : s.env.tag.st = .active) (whole : s.txlast = 0) (p d0 d1 d2 d3 : Byte) :
    ∃ t, exec (.writeBlock p [d0, d1, d2, d3]) s = .next t ∧ t.seq.outcome = .ok ∧
      t.env.tag = (s.env.tag.writePage p [d0, d1, d2, d3]).2 := by
  obtain ⟨answer, tag⟩ := writeExchange_tag ready active whole p d0 d1 d2 d3
  obtain ⟨b, response⟩ := writePage_answer s.env.tag p [d0, d1, d2, d3]
  have depth : 18 ≤ s.cfg.fifoDepth := ready.2.2.2.1
  obtain ⟨t, run, -, outcome, taken⟩ := exec_writeBlock_response ready.1 (by omega) rfl (answer.trans response)
  have fits : [b].length ≤ s.cfg.fifoDepth ∧ (0 : Byte) &&& 0x1B = 0 := ⟨by rw [List.length_singleton]; omega, rfl⟩
  exact ⟨t, run, outcome.trans (if_pos fits), taken.trans tag⟩

end

/-- A page the tag stores to reads as written, and every other byte as before (R302). -/
theorem writePage_byte {g : Tag} (wf : g.mem.wf) {p : Byte} (low : 2 ≤ p.toNat) (high : p.toNat < pageCount)
    (data : List Byte) (a : Nat) :
    (g.writePage p data).2.byte a =
      if pageSize * p.toNat ≤ a then (data[a - pageSize * p.toNat]?).getD (g.byte a) else g.byte a := by
  rw [Tag.writePage, if_pos ⟨low, high⟩]
  exact Memory.read_writeBytes wf.1 _ _ _

/-- The pages the tag does not store to are refused (R302). -/
theorem writePage_refused (g : Tag) {p : Byte} (h : p.toNat < 2 ∨ pageCount ≤ p.toNat) (data : List Byte) :
    g.writePage p data = g.refuse := if_neg (by omega)

/-- Settles O43: the tag takes the WRITE, and its rule for the page says which bytes are stored. -/
theorem writeBlockStores : Obligations.WriteBlockStores := by
  unfold Obligations.WriteBlockStores
  intro s p d0 d1 d2 d3 cd rd ready whole active wf
  obtain ⟨t, run, ok, tag⟩ := exec_writeBlock_tag ready active whole p d0 d1 d2 d3
  refine ⟨t, run, ok, fun low high => ?stores, fun other => ?refuses⟩
  case stores =>
    have page : p.toNat < pageCount := Nat.lt_succ_of_le high
    have byte : ∀ a, t.env.tag.byte a = _ := fun a => tag ▸ writePage_byte wf low page [d0, d1, d2, d3] a
    have inside : ∀ k < 4, t.env.tag.byte (pageSize * p.toNat + k) = [d0, d1, d2, d3].getD k 0 := fun k hk => by
      rw [byte, if_pos (Nat.le_add_right _ _), Nat.add_sub_cancel_left, List.getElem?_eq_getElem hk,
        List.getD_eq_getElem _ _ hk, Option.getD_some]
    refine ⟨inside 0 (by decide), inside 1 (by decide), inside 2 (by decide), inside 3 (by decide), ?_,
      fun a outside => ?_⟩
    · rw [tag, Tag.writePage, if_pos ⟨low, page⟩]
      exact active
    · rw [byte]
      rcases outside with below | above
      · exact if_neg (Nat.not_le.2 below)
      · rw [if_pos (by simp only [pageSize]; omega), List.getElem?_eq_none (by simp [pageSize]; omega), Option.getD_none]
  case refuses =>
    rw [tag, writePage_refused _ (other.imp_right Nat.succ_le_of_lt)]
    exact ⟨rfl, rfl⟩

/-! ## READ_TAG (R303) -/

/-- Settles O46: the three operations of READ_TAG over the tag, from whatever state it is in, end with its serial number,
its image and the tag active. -/
theorem readTagReturnsTag : Obligations.ReadTagReturnsTag := by
  unfold Obligations.ReadTagReturnsTag
  intro s cd rd ready bcc
  obtain ⟨_, t, run, rfl, -, -, -, ⟨-, -, -, tag⟩, uid, populated, img⟩ := readTag_tag ready.2.1 ready.2.2.1 ready.2.2.2.1
    (standard_of_sumsReady ready.1) bcc (b := s.txlast) (s.start .readTag)
    ⟨rfl, ready.1.1.2.2, rfl, tagged_of_tagReady ready, trivial⟩
  exact ⟨_, hostOp_ok (n := .readTag) run, rfl, rfl, uid, populated, img,
    by rw [finish_env, tag, to_mem], by rw [finish_env, tag, to_st]⟩

end Sys2Proof.Machine
end

section
/-! SUPPORT. What a transceive of the host reports over the reference target, for each answer of the card (R291): the
triple of TO_CARD, and the tag as the exchange left it. -/

namespace Sys2Proof.Machine

/-! ## The two facts of a response's triple (R188, R189) -/

/-- The bit length of a response that fits the FIFO (R188). -/
theorem rxBits_foundCount {c : Config} (wf : c.wf) {r : List Byte} (fits : r.length ≤ c.fifoDepth) (lb : BitVec 3) :
    rxBits (foundCount c r) (lb.setWidth 8) =
      if lb = 0 then (r.length : Int) * 8 else ((r.length : Int) - 1) * 8 + lb.toNat := by
  have depth : c.fifoDepth ≤ 255 := wf.2.2.2.2.2.2.2.1
  have count : (foundCount c r).toNat = r.length := by
    rw [foundCount, List.take_of_length_le fits, BitVec.toNat_ofNat, Nat.mod_eq_of_lt (by omega)]
  have zero : lb.setWidth 8 = 0 ↔ lb = 0 := by
    rw [← BitVec.toNat_inj, ← BitVec.toNat_inj (x := lb), BitVec.toNat_setWidth_of_le (by decide)]
    rfl
  have value : (lb.setWidth 8).toNat = lb.toNat := BitVec.toNat_setWidth_of_le (by decide)
  rw [rxBits, count, value, ite_not]
  exact if_congr zero rfl rfl

/-- An exchange takes no scripted byte (R290). -/
theorem exchange_byteFeed (e : Environment) (frame : List Byte) (n : BitVec 3) :
    (e.exchange frame n).2.byteFeed = e.byteFeed := by
  unfold Environment.exchange
  split <;> rfl

/-- Under the simulator an exchange does not change the byte drawn next (R304). -/
theorem byteValue_exchange {cd rd : Nat} {e : Environment} (h : e.drawSource = .simulator cd rd) (frame : List Byte)
    (n : BitVec 3) (sim : Byte) : (e.exchange frame n).2.afterDelay.byteValue sim = e.byteValue sim := by
  have source : (e.exchange frame n).2.afterDelay.drawSource = .simulator cd rd := (exchange_sources e frame n).2.2.trans h
  have feed : (e.exchange frame n).2.afterDelay.byteFeed = e.byteFeed := exchange_byteFeed e frame n
  rw [Environment.byteValue, Environment.byteValue, source, feed, h]
  cases e.byteFeed <;> rfl

/-! ## The triple for each answer (R291) -/

/-- The exchange of a transceive: its frame meets the card with the bits BITFRAMING names (R202). -/
abbrev State.frameExchange (s : State) (tx : List Byte) : CardOutcome × Environment := s.env.exchange tx s.txlast

section
variable {s : State} {cd rd : Nat} (ready : s.ready cd rd) {tx : List Byte} (fits : tx.length ≤ s.cfg.fifoDepth)

include ready

/-- A host operation begins in a state that is ready for its exchange. -/
theorem start_ready (n : OpName) : Ready s.cfg s.txlast s.env (fun _ => True) (s.start n) :=
  ⟨rfl, ready.2.2, rfl, rfl, trivial⟩

/-- The answer's event comes after the simulator's delay (R304). -/
theorem rxDelay_of_ready (tx : List Byte) :
    ((s.frameExchange tx).2.delayValue fun _ rxDelay => rxDelay) = some rd :=
  ((prompt_of_ready ready).exchange tx s.txlast).rx

include fits

/-- A response that fits the FIFO, without a bit of ERR_MASK, is reported with its first bytes (R188, R189, R291). -/
theorem exec_toCard_response {r : List Byte} {lb : BitVec 3} {e : Byte}
    (answer : (s.frameExchange tx).1 = .response r lb e) (short : r.length ≤ s.cfg.fifoDepth) (clean : e &&& 0x1B = 0) :
    ∃ t, exec (.toCard .transceive tx) s = .next t ∧
      t.result = .exchange .ok (if r = [] then [s.env.byteValue 0x00] else r.take 16)
        (if lb = 0 then (r.length : Int) * 8 else ((r.length : Int) - 1) * 8 + lb.toNat) ∧
      t.txlast = s.txlast ∧ t.env.tag = (s.frameExchange tx).2.tag := by
  obtain ⟨wf, masks, budget⟩ := quick_of_ready ready
  have passes : errorFails (receivedError e (s.cfg.fifoDepth < r.length)) = false := by
    rw [errorFails_receivedError, decide_eq_false (Nat.not_lt.2 short), Bool.or_false]
    exact hasAny_eq_false_iff.2 clean
  obtain ⟨x, t, run, rfl, -, -, cfg, -, txlast, env, -⟩ := toCard_response wf masks ready.2.1.1 stable_true fits
    (Prod.ext answer rfl) (rxDelay_of_ready ready tx) budget passes _ (start_ready ready .toCard)
  refine ⟨_, exec_toCard run, ?triple, by rw [State.txlast, finish_cfg, finish_tgt, cfg, txlast], ?tag⟩
  case triple =>
    rw [finish_result, rxBits_foundCount wf short, List.take_of_length_le short, Environment.drained,
      byteValue_exchange ready.2.1.2.1]
    rfl
  case tag => rw [finish_env, env, afterDrain_tag, afterDelay_tag]

/-- A timeout with no error bit left is reported as NOTAG, with one byte read out (R187, R291). -/
theorem exec_toCard_timeout (answer : (s.frameExchange tx).1 = .timeout) (clean : s.clean) :
    ∃ t rx bits, exec (.toCard .transceive tx) s = .next t ∧ t.result = .exchange .notag rx bits ∧ rx.length = 1 ∧
      t.txlast = s.txlast ∧ t.env.tag = (s.frameExchange tx).2.tag := by
  obtain ⟨wf, masks, budget⟩ := quick_of_ready ready
  obtain ⟨x, t, run, ⟨vb, rfl⟩, cfg, -, txlast, env, -⟩ := toCard_timeout wf masks ready.2.1.1 stable_true fits
    (Prod.ext answer rfl) (rxDelay_of_ready ready tx) budget _ ⟨start_ready ready .toCard, clean⟩
  exact ⟨_, _, _, exec_toCard run, rfl, rfl, by rw [State.txlast, finish_cfg, finish_tgt, cfg, txlast],
    by rw [finish_env, env, afterBytes_tag, afterDelay_tag]⟩

end

/-- An exchange of a transceive that fails is reported as ERR with its kind, after the card took the frame (R190). -/
theorem exec_toCard_failed {s : State} {tx : List Byte} {k : ErrKind} {c : Config} {P : State → Prop}
    (h : Op.Ensures P (toCard .transceive tx) fun x t => x = (.err, [], 0) ∧ t.cfg = c ∧
      t.env = (s.frameExchange tx).2.afterDelay ∧ True ∧ t.seq.errkind = k ∧ t.seq.status = .err)
    (start : P (s.start .toCard)) :
    ∃ t, exec (.toCard .transceive tx) s = .next t ∧ t.result = .exchange .err [] 0 ∧ t.seq.errkind = k ∧
      t.env.tag = (s.frameExchange tx).2.tag := by
  obtain ⟨x, t, run, rfl, -, env, -, kind, -⟩ := h _ start
  exact ⟨_, exec_toCard run, rfl, kind, by rw [finish_env, env, afterDelay_tag]⟩

/-- Settles O34: the answer passes or fails the exchange, and TO_CARD reports it. -/
theorem toCardReports : Obligations.ToCardReports := by
  unfold Obligations.ToCardReports
  intro s tx cd rd ready fits
  obtain ⟨wf, masks, budget⟩ := quick_of_ready ready
  have start := start_ready ready .toCard
  have delay := rxDelay_of_ready ready tx
  refine ⟨fun r lb e answer short clean => exec_toCard_response ready fits answer short clean,
    fun r lb e answer bad => ?rejected, fun answer clean => exec_toCard_timeout ready fits answer clean,
    fun answer errors => ?leftError, fun answer => ?silent⟩
  case rejected =>
    have fails : errorFails (receivedError e (s.cfg.fifoDepth < r.length)) = true := by
      rw [errorFails_receivedError, Bool.or_eq_true, decide_eq_true_iff]
      exact bad.imp_left hasAny_iff.2
    exact exec_toCard_failed (toCard_errors wf masks ready.2.1.1 stable_true fits (Prod.ext answer rfl) delay budget fails)
      start
  case leftError =>
    have left : errorFails (errAfterFlush s.tgt.err) = true := Bool.eq_true_of_not_eq_false errors
    exact exec_toCard_failed (toCard_timeout_errors wf masks ready.2.1.1 stable_true fits (Prod.ext answer rfl) delay
      budget) ⟨start, left⟩
  case silent =>
    exact exec_toCard_failed (toCard_unanswered wf masks ready.2.1.1 stable_true fits (Prod.ext answer rfl) (.inl rfl))
      start

end Sys2Proof.Machine
end

section
/-! SUPPORT. The operations that read a tag leave its memory (R301, R303), at every level and whoever answers at the card
port. -/

namespace Sys2Proof.Machine

/-- A host operation leaves the tag's memory if its body does, however that ends. -/
theorem hostOp_keeps_mem {n : OpName} {body : Op Result} {s t : State} {J : Target → Prop}
    (h : Op.Triple (On s.cfg s.env.tag.mem J) body (fun _ => Held s.env.tag.mem) (Held s.env.tag.mem))
    (start : J s.tgt) (e : hostOp n body s = .next t) : t.env.tag.mem = s.env.tag.mem := by
  have held := h (s.start n) ⟨rfl, rfl, fun _ => start⟩
  rcases hostOp_next e with ⟨r, u, run, rfl⟩ | ⟨k, u, run, rfl⟩
  all_goals
    rw [run] at held
    exact held

section
variable {c : Config} {m : Memory} (wf : c.wf) (reads : ReadsOnly c.card)
include wf reads

/-- REQUEST_TAG leaves no response to come, so SELECT_TAG may follow; READ_IMAGE may follow anything (R256). -/
theorem readTag_held : Op.Triple (On c m fun _ => True) (do
    let _ ← requestTag
    let uid ← selectTag
    readImage
    pure (.bytes uid) : Op Result) (fun _ => Held m) (Held m) :=
  .bind (requestTag_held wf reads) fun _ => .bind (selectTag_held wf reads) fun _ =>
    .bind ((readImage_held wf reads).imp (fun _ => On.top) (fun _ _ h => h) fun _ h => h) fun _ =>
    .ofPure fun _ h => h.2.1

end

/-- Settles O59: each operation keeps the memory wherever it ends; only SELECT_TAG asks that no response is to come. -/
theorem readersKeepTagMemory : Obligations.ReadersKeepTagMemory := by
  unfold Obligations.ReadersKeepTagMemory
  intro i s t wf reads reader quiet run
  simp only [List.mem_cons, List.not_mem_nil, or_false] at reader
  rcases reader with (rfl | rfl | rfl | rfl) | ⟨p, rfl⟩
  · exact hostOp_keeps_mem (n := .requestTag) (.bind (requestTag_held wf reads) fun _ => .ofPure fun _ h => h.2.1)
      trivial run
  · exact hostOp_keeps_mem (n := .selectTag) (.bind (selectTag_held wf reads) fun _ => .ofPure fun _ h => h.2.1)
      (quiet rfl) run
  · exact hostOp_keeps_mem (n := .readImage) (.bind (readImage_held wf reads) fun _ => .ofPure fun _ h => h.2.1)
      trivial run
  · exact hostOp_keeps_mem (n := .readTag) (readTag_held wf reads) trivial run
  · exact hostOp_keeps_mem (n := .readBlock) (.bind (readBlock_held wf reads p) fun _ => .ofPure fun _ h => h.2.1)
      trivial run

end Sys2Proof.Machine
end

section
/-! SUPPORT. How many transactions an instruction makes at most (70_reset_and_hazards.md R371): the bound of its body, which
`Laws/Bounds.lean` has. -/

namespace Sys2Proof.Machine

variable {c : Config}

/-- A body that returns what it has computed makes no transaction more. -/
theorem Op.Cost.returning {α : Type} {n : Nat} {m : Op α} {f : α → Result} (h : Op.Cost c n m) :
    Op.Cost c n (m >>= fun a => pure (f a)) := h.bind (k := 0) fun _ => .ofPure _

/-- An operation on a register operand makes the transactions of its access, or none (R72). -/
theorem Op.Cost.atAddress {n : Nat} {f : RegAddr → Op Result} (addr : Byte) (h : ∀ a, Op.Cost c n (f a)) :
    Op.Cost c n (regAddr addr >>= f) := .bindFree (regAddr_cost addr) h

theorem regionBytes_cost (n : Region) : Op.Cost c 0 (regionBytes n) := by
  refine .withState fun s _ => ?_
  split
  · exact .ofPure _
  · exact .ofRaise _

theorem extractRecord_cost (b : List Byte) : Op.Cost c 0 (extractRecord b) := by
  unfold extractRecord
  split
  · exact .ofPure _
  · exact .ofRaise _

theorem wrapRecord_cost (p : List Byte) : Op.Cost c 0 (wrapRecord p) := by
  unfold wrapRecord
  split
  · exact .ofPure _
  · exact .ofRaise _

/-- A frame at the card port is no transaction of the bus (log entry 13). -/
theorem sendFrame_cost (f : List Byte) (n : BitVec 3) : Op.Cost c 0 (sendFrame f n) := fun _ h => ⟨h, Nat.le_refl _⟩

/-- READ_TAG is its three operations, one after the other (R256). -/
theorem readTag_cost : Op.Cost c ((1 + (31 + c.pollCmd)) +
    (1 + 2 * ((32 + c.pollCmd) + (14 + c.pollCrc) + (39 + c.pollCmd))) +
    34 * ((9 + c.pollCrc) + (34 + c.pollCmd))) (do
      let _ ← requestTag
      let uid ← selectTag
      readImage
      pure (Result.bytes uid)) :=
  (requestTag_cost.bind fun _ => selectTag_cost.bind fun _ => readImage_cost.returning).le (by omega)

/-- Settles O60: each row's bound is that of its body; a BUS or CMD row is one access, a CARD row none. -/
theorem transactionBounds : Obligations.TransactionBounds := by
  unfold Obligations.TransactionBounds
  intro i s t _ e
  cases i with
  | regWrite a v => exact (Op.Cost.atAddress a fun _ => (busWrite_cost _ v).returning).hostOp rfl e
  | regRead a => exact (Op.Cost.atAddress a fun _ => (busRead_cost _).returning).hostOp rfl e
  | setBits a m => exact (Op.Cost.atAddress a fun _ => (busSetBits_cost _ m).returning).hostOp rfl e
  | clearBits a m => exact (Op.Cost.atAddress a fun _ => (busClearBits_cost _ m).returning).hostOp rfl e
  | crcCalc d => exact ((crcCalc_cost d).returning.le (by simp only; omega)).hostOp rfl e
  | toCard cmd tx => exact ((toCard_cost cmd tx).returning.le (by simp only; omega)).hostOp rfl e
  | requestTag => exact requestTag_cost.returning.hostOp rfl e
  | selectTag => exact selectTag_cost.returning.hostOp rfl e
  | readBlock p => exact (readBlock_cost p).returning.hostOp rfl e
  | readImage => exact readImage_cost.returning.hostOp rfl e
  | readTag => exact readTag_cost.hostOp rfl e
  | writeBlock p d => exact (writeBlock_cost p d).returning.hostOp rfl e
  | init => exact initSequence_cost.returning.hostOp rfl e
  | region n => exact (regionBytes_cost n).returning.hostOp rfl e
  | extract b => exact (extractRecord_cost b).returning.hostOp rfl e
  | tlvRecord p => exact (extractRecord_cost (wrapPayload p)).returning.hostOp (name := .extract) rfl e
  | wrap p => exact (wrapRecord_cost p).returning.hostOp rfl e
  | busWrite a v => exact (busWrite_cost a v).returning.rawOp rfl e
  | busRead a => exact (busRead_cost a).returning.rawOp rfl e
  | cmdIdle | cmdCalccrc | cmdTransceive | cmdAuthent | cmdResetphase => exact (issueCommand_cost _).rawOp rfl e
  | reqa | anticoll _ | select _ _ _ _ _ _ _ _ | read _ _ _ | write _ _ _ _ _ _ _ =>
    exact (sendFrame_cost _ _).rawOp rfl e

end Sys2Proof.Machine
end

section
/-! SUPPORT. How every instruction ends (60_exceptions.md R320, R335; 70_reset_and_hazards.md R372): a HOP row and the TLV
row are host operations, every other row is a raw access that raises nothing. -/

namespace Sys2Proof.Machine

/-! ## What no instruction writes -/

/-- What no body writes, but for the result: an instruction stores that when it ends. -/
abbrev State.KeepsOutside (s t : State) : Prop :=
  t.cfg = s.cfg ∧ t.port = s.port ∧ t.env.level = s.env.level ∧ t.env.cardSource = s.env.cardSource

theorem Outside.keepsOutside {s t : State} (h : Outside s t) : s.KeepsOutside t := by
  obtain ⟨cfg, port, -, level, source, -⟩ := h
  exact ⟨cfg, port, level, source⟩

theorem hostOp_outside {n : OpName} {body : Op Result} {s t : State} (hb : Op.Within Outside body)
    (e : hostOp n body s = .next t) : s.KeepsOutside t := by
  rcases hostOp_next e with ⟨r, u, run, rfl⟩ | ⟨k, u, run, rfl⟩
  · exact (hb.ok run).keepsOutside
  · exact (hb.raised run).keepsOutside

theorem rawOp_outside {body : Op Result} {s t : State} (hb : Op.Within Outside body) (e : rawOp body s = .next t) :
    s.KeepsOutside t := by
  rcases rawOp_next e with ⟨r, u, run, rfl⟩ | ⟨k, u, run, rfl⟩
  · exact (hb.ok run).keepsOutside
  · exact (hb.raised run).keepsOutside

/-- Driving the reset line and a frame at the card port write none of it either. -/
theorem outside_plain : PlainKept Outside where
  toBusKept := outside_bus
  line _ := ⟨rfl, rfl, rfl, rfl, rfl, rfl⟩
  frame f n s := ⟨rfl, rfl, rfl, exchange_sources s.env f n⟩

/-- No instruction writes the configuration, the port or the modelling level (R7, R8). -/
theorem exec_outside {i : Instr} {s t : State} (e : exec i s = .next t) : s.KeepsOutside t := by
  have U := outside_upper
  have K := U.toExchangeKept
  have C := K.chains
  have request := requestTag_within K fun _ _ => outside_setSeq _
  cases hi : Instr.plain i with
  | true =>
    obtain ⟨body, hb, ⟨n, he⟩ | he⟩ := exec_plain hi s
    · exact hostOp_outside (hb _ outside_plain) (he ▸ e)
    · exact rawOp_outside (hb _ outside_plain) (he ▸ e)
  | false =>
    cases i with
    | crcCalc data => exact hostOp_outside (.returning C (K.crc data)) e
    | toCard cmd tx => exact hostOp_outside (.returning C (K.card cmd tx)) e
    | requestTag => exact hostOp_outside (.returning C request) e
    | selectTag => exact hostOp_outside (.returning C (selectTag_within U)) e
    | readBlock page => exact hostOp_outside (.returning C (readBlock_within K page)) e
    | readImage => exact hostOp_outside (.returning C (readImage_within U)) e
    | writeBlock page data => exact hostOp_outside (.returning C (writeBlock_within K page data)) e
    | readTag =>
      exact hostOp_outside (.bind C request fun _ => .bind C (selectTag_within U) fun _ =>
        .returning C (readImage_within U)) e
    | _ => cases hi

/-! ## Host operations -/

/-- A HOP row and the TLV row are host operations (R117; log entry 13). -/
theorem exec_hostOp {i : Instr} (h : i.format = .hop ∨ i.format = .tlv) (s : State) :
    ∃ n body, exec i s = hostOp n body s := by
  cases i with
  | busWrite _ _ | busRead _ | cmdIdle | cmdCalccrc | cmdTransceive | cmdAuthent | cmdResetphase | reqa | anticoll _
  | select _ _ _ _ _ _ _ _ | read _ _ _ | write _ _ _ _ _ _ _ => rcases h with h | h <;> cases h
  | tlvRecord p =>
    exact ⟨.extract, (do
      let q ← extractRecord (wrapPayload p)
      pure (.bytes q)), rfl⟩
  | _ => exact ⟨_, _, rfl⟩

/-- A host operation ends idle, and gives a result only with outcome OK (R320, R372). -/
theorem hostOp_ends_idle {n : OpName} {body : Op Result} {s t : State} (e : hostOp n body s = .next t) :
    t.seq.idle ∧ (t.seq.outcome ≠ .ok → t.result = .none) := by
  rcases hostOp_next e with ⟨r, u, -, rfl⟩ | ⟨k, u, -, rfl⟩
  · exact ⟨⟨rfl, rfl⟩, fun fault => absurd rfl fault⟩
  · exact ⟨⟨rfl, rfl⟩, fun _ => rfl⟩

/-! ## Raw accesses -/

theorem issueCommand_raisesNothing (cmd : Command) : Op.RaisesNothing (issueCommand cmd) :=
  .bind (M := fun _ _ => True) (fun _ h => h) fun _ => (busWrite_raisesNothing _ _).returning

theorem sendFrame_raisesNothing (f : List Byte) (n : BitVec 3) : Op.RaisesNothing (sendFrame f n) := fun _ h => h

/-- The other rows are raw accesses: a transaction or a frame at the card port, which raise nothing (log entries 12, 13). -/
theorem exec_rawOp {i : Instr} (hop : i.format ≠ .hop) (tlv : i.format ≠ .tlv) (s : State) :
    ∃ body : Op Result, exec i s = rawOp body s ∧ Op.RaisesNothing body ∧ ∀ R, PlainKept R → Op.Within R body := by
  cases i with
  | busWrite a v => exact ⟨_, rfl, (busWrite_raisesNothing a v).returning, fun _ K => .returning K.chains (K.write a v)⟩
  | busRead a => exact ⟨_, rfl, (busRead_raisesNothing a).returning, fun _ K => .returning K.chains (K.read a)⟩
  | cmdIdle | cmdCalccrc | cmdTransceive | cmdAuthent | cmdResetphase =>
    exact ⟨_, rfl, issueCommand_raisesNothing _, fun _ K => issueCommand_within K.toBusKept _⟩
  | reqa | anticoll _ | select _ _ _ _ _ _ _ _ | read _ _ _ | write _ _ _ _ _ _ _ =>
    exact ⟨_, rfl, sendFrame_raisesNothing _ _, fun _ K => K.frame _ _⟩
  | tlvRecord _ => exact absurd rfl tlv
  | _ => exact absurd rfl hop

/-- A raw access that raises nothing takes no host operation and writes no outcome (log entry 12). -/
theorem rawOp_ends {body : Op Result} {s t : State} (quiet : Op.RaisesNothing body)
    (kept : Op.Within (SeqKept fun q => (q.op, q.outcome)) body) (e : rawOp body s = .next t) :
    t.seq.op = s.seq.op ∧ t.seq.phase = 0 ∧ t.seq.outcome = s.seq.outcome := by
  rcases rawOp_next e with ⟨r, u, run, rfl⟩ | ⟨k, u, run, rfl⟩
  · obtain ⟨op, outcome⟩ := Prod.mk.inj (kept.ok run)
    exact ⟨op, rfl, outcome⟩
  · have raised := quiet s.startRaw trivial
    rw [run] at raised
    exact raised.elim

/-- Settles O55: a host operation ends idle whatever it ends in; a raw access leaves S.OP and S.OUTCOME as they were. -/
theorem operationsEndIdle : Obligations.OperationsEndIdle := by
  unfold Obligations.OperationsEndIdle
  intro i s t idle e
  have outside := exec_outside e
  by_cases host : i.format = .hop ∨ i.format = .tlv
  · obtain ⟨n, body, he⟩ := exec_hostOp host s
    obtain ⟨ends, result⟩ := hostOp_ends_idle (he ▸ e)
    exact ⟨ends, fun _ => result, fun hop tlv => (host.elim hop tlv).elim, outside⟩
  · obtain ⟨hop, tlv⟩ := not_or.1 host
    obtain ⟨body, he, quiet, kept⟩ := exec_rawOp hop tlv s
    obtain ⟨op, phase, outcome⟩ := rawOp_ends quiet (kept _ (seqKept_plain _ fun _ _ => rfl)) (he ▸ e)
    exact ⟨⟨op.trans idle.1, phase⟩, fun h => absurd h hop, fun _ _ => outcome, outside⟩

end Sys2Proof.Machine
end

section
/-! SUPPORT. INIT over the reference target (70_reset_and_hazards.md R353 to R355): RESETPHASE leaves nothing pending, and
the transactions after it are storage. -/

namespace Sys2Proof.Machine

/-- After RESETPHASE: the FIFO empty, nothing pending, IDLE active (R198), with these frames shown so far. -/
structure Booting (c : Config) (e : Environment) (frames : List BusFrame) (s : State) : Prop where
  cfg : s.cfg = c
  env : s.env = e
  frames : s.trace = frames
  fifo : s.tgt.fifo = []
  calm : s.tgt.calm
  idle : s.tgt.cmd = c.codes.idle

section
variable {c : Config} {e : Environment} {frames : List BusFrame} (hl : e.level = .referenceTarget)
include hl

/-- A write of a storage register while nothing is pending is the store and its frame (R146). -/
theorem Booting.store {a : RegAddr} (h : RegName.storesWrite (c.regmap.nameAt a) = true) (v : Byte) :
    Op.Ensures (Booting c e frames) (busWrite a v) fun _ t =>
      Booting c e (writeFrame a v :: frames) t ∧ t.tgt.reg a = v := by
  rintro s ⟨rfl, rfl, rfl, fifo, calm, idle⟩
  have write : busWrite a v s = .ok () ({ s with tgt := s.tgt.setReg a v }.recorded (writeFrame a v)) :=
    busWrite_target hl (by rw [targetWrite_storage (s := s.ticked) h, State.ticked, tick_calm calm])
  exact ⟨(), _, write, ⟨rfl, rfl, rfl, fifo, calm, idle⟩, reg_setReg_self _ _ _⟩

/-- A read of a storage register while nothing is pending is its frame (R146). -/
theorem Booting.load {a : RegAddr} (h : RegName.storesRead (c.regmap.nameAt a) = true) :
    Op.Ensures (Booting c e frames) (busRead a) fun v t => Booting c e (readFrame a v :: frames) t := by
  rintro s ⟨rfl, rfl, rfl, fifo, calm, idle⟩
  have read : busRead a s = .ok (s.tgt.reg a) (s.recorded (readFrame a (s.tgt.reg a))) :=
    busRead_target hl (by rw [targetRead_storage (s := s.ticked) h, State.ticked, tick_calm calm])
  exact ⟨_, _, read, rfl, rfl, rfl, fifo, calm, idle⟩

/-- Writes to storage registers, one frame each (R354 step 3). -/
theorem Booting.storeAll {l : List (RegAddr × Byte)}
    (h : ∀ w ∈ l, RegName.storesWrite (c.regmap.nameAt w.1) = true) :
    Op.Ensures (Booting c e frames) (writeAll l) fun _ =>
      Booting c e ((l.map fun w => writeFrame w.1 w.2).reverse ++ frames) := by
  induction l generalizing frames with
  | nil => exact .ofPure fun _ h => h
  | cons w l ih =>
    have rest := ih (frames := writeFrame w.1 w.2 :: frames) fun x hx => h x (List.mem_cons_of_mem w hx)
    refine ((Booting.store hl (h w List.mem_cons_self) w.2).bind fun _ => rest.pre fun _ h => h.1).imp fun _ _ h => ?_
    simpa using h

end

/-- A fresh target holds nothing, waits for nothing and idles (R198). -/
theorem freshTarget_atRest (e : Environment) (c : Config) :
    (e.freshTarget c).fifo = [] ∧ (e.freshTarget c).calm ∧ (e.freshTarget c).cmd = c.codes.idle :=
  ⟨rfl, ⟨rfl, rfl⟩, rfl⟩

/-- RESETPHASE, from whatever the target holds, uses up its draws and leaves it at rest (R198, R353). -/
theorem busWrite_resetphase {c : Config} (hc : c.wf) {e : Environment} (hl : e.level = .referenceTarget) :
    Op.Ensures (fun s => s.cfg = c ∧ s.env = e ∧ s.trace = []) (busWrite c.regmap.command (c.codes.byte .resetphase))
      fun _ => Booting c (e.afterBytes 70) [writeFrame c.regmap.command (c.codes.byte .resetphase)] := by
  rintro s ⟨rfl, rfl, trace⟩
  have run := busWrite_access s.cfg.regmap.command (s.cfg.codes.byte .resetphase) s
  rw [writeAccess_command hl hc (k := .resetphase) nofun] at run
  obtain ⟨fifo, calm, idle⟩ := freshTarget_atRest s.env s.cfg
  exact ⟨(), _, run, by rw [recorded_cfg, commanded_cfg, ticked_cfg], rfl,
    by rw [recorded_trace, commanded_trace, ticked_trace, trace], fifo, calm, idle⟩

/-- The frames of INIT, newest first, `v` being the byte of TXCONTROL read (R354). -/
def bootFrames (c : Config) (v : Byte) : List BusFrame :=
  writeFrame c.regmap.txcontrol (v ||| antennaOn) :: readFrame c.regmap.txcontrol v ::
    ((c.initWrites.map fun w => writeFrame w.1 w.2).reverse ++ [writeFrame c.regmap.command (c.codes.byte .resetphase)])

/-- INIT drives the reset line high, resets the target, and sends its boot writes and the antenna's (R353, R354). -/
theorem initSequence_run {c : Config} (hc : c.wf) {e : Environment} (hl : e.level = .referenceTarget)
    (storage : ∀ w ∈ c.initWrites, RegName.storesWrite (c.regmap.nameAt w.1) = true) :
    Op.Ensures (fun s => s.cfg = c ∧ s.env = e ∧ s.trace = []) initSequence fun _ t => ∃ v,
      Booting c (Environment.afterBytes { e with resetLine := true } 70) (bootFrames c v) t ∧
        t.tgt.reg c.regmap.txcontrol = v ||| antennaOn := by
  have name := RegMap.nameAt_addr hc.1 .txcontrol
  have level : (Environment.afterBytes { e with resetLine := true } 70).level = .referenceTarget := hl
  refine .withCfg (fun _ h => h.1) (.bind
    (M := fun _ s => s.cfg = c ∧ s.env = { e with resetLine := true } ∧ s.trace = []) ?line fun _ =>
    .bind (busWrite_resetphase hc hl) fun _ => .bind (Booting.storeAll level storage) fun _ =>
    .bind (Booting.load level (congrArg RegName.storesRead name)) fun v =>
    (Booting.store level (congrArg RegName.storesWrite name) _).imp fun _ _ h => ⟨v, h⟩)
  case line =>
    rintro s ⟨rfl, rfl, trace⟩
    exact ⟨(), _, rfl, rfl, rfl, trace⟩

/-- The nine boot frames under the defaults, oldest first (R354). -/
theorem bootFrames_default (v : Byte) : (bootFrames .default v).reverse =
    [⟨0x02, 0x0F, none⟩, ⟨0x54, 0x8D, none⟩, ⟨0x56, 0x3E, none⟩, ⟨0x5A, 0x1E, none⟩, ⟨0x58, 0x00, none⟩,
     ⟨0x2A, 0x40, none⟩, ⟨0x22, 0x3D, none⟩, ⟨0xA8, 0x00, some v⟩, ⟨0x28, v ||| 0x03, none⟩] := rfl

end Sys2Proof.Machine

namespace Sys2Proof.Laws.Boot

open Sys2Proof.Machine

/-- Settles O51: the body's own run gives the target, the environment and the frames; INIT is a plain row, so the
sequencer's registers stay. -/
theorem initSequence : Obligations.InitSequence := by
  unfold Obligations.InitSequence
  intro s hc hl storage
  obtain ⟨⟨⟩, t, run, v, boot, stored⟩ := initSequence_run hc hl storage (s.start .init) ⟨rfl, rfl, rfl⟩
  have ends : exec .init s = .next (t.finish .none) := hostOp_ok (n := .init) (Op.bind_ok run)
  refine ⟨_, ends, plain_frame (t := t.finish .none) rfl ends, ?line, boot.fifo, boot.calm, boot.idle, ?count, ?tag,
    ?frames⟩
  case line => rw [finish_env, boot.env]; rfl
  case tag => rw [finish_env, boot.env]; rfl
  case count =>
    simp only [finish_trace, boot.frames, bootFrames, List.length_cons, List.length_append, List.length_reverse,
      List.length_map, List.length_nil]
    omega
  case frames =>
    intro default
    refine ⟨v, ?_, stored⟩
    rw [finish_trace, boot.frames, default, bootFrames_default]

end Sys2Proof.Laws.Boot
end
